-- ==== Sys2Proof/Word.lean ====
section
/-! DEFINITION. The word types of the machine (spec/00_scope.md R6, R7, R14): bit strings with bit 0 least significant. -/

namespace Sys2Proof

/-- A byte, 8 bits (R14). -/
abbrev Byte := BitVec 8

/-- A word, 32 bits: general registers, the program counter, virtual addresses, instruction words (R6, R14). -/
abbrev Word := BitVec 32

/-- A doubleword, 64 bits: floating-point registers and the Stable Counter (R36, R43). -/
abbrev DWord := BitVec 64

/-- A 5-bit field that names one of 32 general or floating-point registers (R234). -/
abbrev RegNum := BitVec 5

end Sys2Proof
end

