-- ==== Sys2Proof/Syntax.lean ====
section
/-! DEFINITION. The instructions of LoongArch LA32 Reduced: one constructor for each of the 140 rows of the opcode table
(spec/30_encoding.md R241), in the table's order, its operands in assembly order (R260). An operand is the field of the word,
not yet extended or scaled (R235 is done where the operand is used); a split offset is one operand (R232). -/

namespace Sys2Proof

/-- One instruction. `rd rj rk` name general registers, `fd fj fk fa` floating-point registers (R234). -/
inductive Instr where
  /-- `RDCNTID` (rule R404) -/
  | rdcntid (rj : RegNum)
  /-- `RDCNTVL.W` (rule R402) -/
  | rdcntvlW (rd : RegNum)
  /-- `RDCNTVH.W` (rule R403) -/
  | rdcntvhW (rd : RegNum)
  /-- `ADD.W` (rule R301) -/
  | addW (rd rj rk : RegNum)
  /-- `SUB.W` (rule R302) -/
  | subW (rd rj rk : RegNum)
  /-- `SLT` (rule R305) -/
  | slt (rd rj rk : RegNum)
  /-- `SLTU` (rule R306) -/
  | sltu (rd rj rk : RegNum)
  /-- `NOR` (rule R312) -/
  | nor (rd rj rk : RegNum)
  /-- `AND` (rule R310) -/
  | and (rd rj rk : RegNum)
  /-- `OR` (rule R311) -/
  | or (rd rj rk : RegNum)
  /-- `XOR` (rule R313) -/
  | xor (rd rj rk : RegNum)
  /-- `SLL.W` (rule R341) -/
  | sllW (rd rj rk : RegNum)
  /-- `SRL.W` (rule R342) -/
  | srlW (rd rj rk : RegNum)
  /-- `SRA.W` (rule R343) -/
  | sraW (rd rj rk : RegNum)
  /-- `MUL.W` (rule R318) -/
  | mulW (rd rj rk : RegNum)
  /-- `MULH.W` (rule R319) -/
  | mulhW (rd rj rk : RegNum)
  /-- `MULH.WU` (rule R320) -/
  | mulhWU (rd rj rk : RegNum)
  /-- `DIV.W` (rule R321) -/
  | divW (rd rj rk : RegNum)
  /-- `MOD.W` (rule R322) -/
  | modW (rd rj rk : RegNum)
  /-- `DIV.WU` (rule R323) -/
  | divWU (rd rj rk : RegNum)
  /-- `MOD.WU` (rule R324) -/
  | modWU (rd rj rk : RegNum)
  /-- `BREAK` (rule R401) -/
  | brk (code : BitVec 15)
  /-- `SYSCALL` (rule R400) -/
  | syscall (code : BitVec 15)
  /-- `SLLI.W` (rule R344) -/
  | slliW (rd rj : RegNum) (ui5 : BitVec 5)
  /-- `SRLI.W` (rule R345) -/
  | srliW (rd rj : RegNum) (ui5 : BitVec 5)
  /-- `SRAI.W` (rule R346) -/
  | sraiW (rd rj : RegNum) (ui5 : BitVec 5)
  /-- `FADD.S` (rule R420) -/
  | faddS (fd fj fk : RegNum)
  /-- `FADD.D` (rule R421) -/
  | faddD (fd fj fk : RegNum)
  /-- `FSUB.S` (rule R422) -/
  | fsubS (fd fj fk : RegNum)
  /-- `FSUB.D` (rule R423) -/
  | fsubD (fd fj fk : RegNum)
  /-- `FMUL.S` (rule R424) -/
  | fmulS (fd fj fk : RegNum)
  /-- `FMUL.D` (rule R425) -/
  | fmulD (fd fj fk : RegNum)
  /-- `FDIV.S` (rule R426) -/
  | fdivS (fd fj fk : RegNum)
  /-- `FDIV.D` (rule R427) -/
  | fdivD (fd fj fk : RegNum)
  /-- `FMAX.S` (rule R436) -/
  | fmaxS (fd fj fk : RegNum)
  /-- `FMAX.D` (rule R437) -/
  | fmaxD (fd fj fk : RegNum)
  /-- `FMIN.S` (rule R438) -/
  | fminS (fd fj fk : RegNum)
  /-- `FMIN.D` (rule R439) -/
  | fminD (fd fj fk : RegNum)
  /-- `FMAXA.S` (rule R440) -/
  | fmaxaS (fd fj fk : RegNum)
  /-- `FMAXA.D` (rule R441) -/
  | fmaxaD (fd fj fk : RegNum)
  /-- `FMINA.S` (rule R442) -/
  | fminaS (fd fj fk : RegNum)
  /-- `FMINA.D` (rule R443) -/
  | fminaD (fd fj fk : RegNum)
  /-- `FCOPYSIGN.S` (rule R454) -/
  | fcopysignS (fd fj fk : RegNum)
  /-- `FCOPYSIGN.D` (rule R455) -/
  | fcopysignD (fd fj fk : RegNum)
  /-- `FABS.S` (rule R444) -/
  | fabsS (fd fj : RegNum)
  /-- `FABS.D` (rule R445) -/
  | fabsD (fd fj : RegNum)
  /-- `FNEG.S` (rule R446) -/
  | fnegS (fd fj : RegNum)
  /-- `FNEG.D` (rule R447) -/
  | fnegD (fd fj : RegNum)
  /-- `FCLASS.S` (rule R456) -/
  | fclassS (fd fj : RegNum)
  /-- `FCLASS.D` (rule R457) -/
  | fclassD (fd fj : RegNum)
  /-- `FSQRT.S` (rule R448) -/
  | fsqrtS (fd fj : RegNum)
  /-- `FSQRT.D` (rule R449) -/
  | fsqrtD (fd fj : RegNum)
  /-- `FRECIP.S` (rule R450) -/
  | frecipS (fd fj : RegNum)
  /-- `FRECIP.D` (rule R451) -/
  | frecipD (fd fj : RegNum)
  /-- `FRSQRT.S` (rule R452) -/
  | frsqrtS (fd fj : RegNum)
  /-- `FRSQRT.D` (rule R453) -/
  | frsqrtD (fd fj : RegNum)
  /-- `FMOV.S` (rule R500) -/
  | fmovS (fd fj : RegNum)
  /-- `FMOV.D` (rule R501) -/
  | fmovD (fd fj : RegNum)
  /-- `MOVGR2FR.W` (rule R503) -/
  | movgr2frW (fd rj : RegNum)
  /-- `MOVGR2FRH.W` (rule R504) -/
  | movgr2frhW (fd rj : RegNum)
  /-- `MOVFR2GR.S` (rule R505) -/
  | movfr2grS (rd fj : RegNum)
  /-- `MOVFRH2GR.S` (rule R506) -/
  | movfrh2grS (rd fj : RegNum)
  /-- `MOVGR2FCSR` (rule R508) -/
  | movgr2fcsr (fcsr : BitVec 5) (rj : RegNum)
  /-- `MOVFCSR2GR` (rule R509) -/
  | movfcsr2gr (rd : RegNum) (fcsr : BitVec 5)
  /-- `MOVFR2CF` (rule R510) -/
  | movfr2cf (cd : BitVec 3) (fj : RegNum)
  /-- `MOVCF2FR` (rule R511) -/
  | movcf2fr (fd : RegNum) (cj : BitVec 3)
  /-- `MOVGR2CF` (rule R512) -/
  | movgr2cf (cd : BitVec 3) (rj : RegNum)
  /-- `MOVCF2GR` (rule R513) -/
  | movcf2gr (rd : RegNum) (cj : BitVec 3)
  /-- `FCVT.S.D` (rule R480) -/
  | fcvtSD (fd fj : RegNum)
  /-- `FCVT.D.S` (rule R481) -/
  | fcvtDS (fd fj : RegNum)
  /-- `FTINTRM.W.S` (rule R486) -/
  | ftintrmWS (fd fj : RegNum)
  /-- `FTINTRM.W.D` (rule R487) -/
  | ftintrmWD (fd fj : RegNum)
  /-- `FTINTRP.W.S` (rule R488) -/
  | ftintrpWS (fd fj : RegNum)
  /-- `FTINTRP.W.D` (rule R489) -/
  | ftintrpWD (fd fj : RegNum)
  /-- `FTINTRZ.W.S` (rule R490) -/
  | ftintrzWS (fd fj : RegNum)
  /-- `FTINTRZ.W.D` (rule R491) -/
  | ftintrzWD (fd fj : RegNum)
  /-- `FTINTRNE.W.S` (rule R492) -/
  | ftintrneWS (fd fj : RegNum)
  /-- `FTINTRNE.W.D` (rule R493) -/
  | ftintrneWD (fd fj : RegNum)
  /-- `FTINT.W.S` (rule R484) -/
  | ftintWS (fd fj : RegNum)
  /-- `FTINT.W.D` (rule R485) -/
  | ftintWD (fd fj : RegNum)
  /-- `FFINT.S.W` (rule R482) -/
  | ffintSW (fd fj : RegNum)
  /-- `FFINT.D.W` (rule R483) -/
  | ffintDW (fd fj : RegNum)
  /-- `SLTI` (rule R307) -/
  | slti (rd rj : RegNum) (si12 : BitVec 12)
  /-- `SLTUI` (rule R308) -/
  | sltui (rd rj : RegNum) (si12 : BitVec 12)
  /-- `ADDI.W` (rule R303) -/
  | addiW (rd rj : RegNum) (si12 : BitVec 12)
  /-- `ANDI` (rule R314) -/
  | andi (rd rj : RegNum) (ui12 : BitVec 12)
  /-- `ORI` (rule R315) -/
  | ori (rd rj : RegNum) (ui12 : BitVec 12)
  /-- `XORI` (rule R316) -/
  | xori (rd rj : RegNum) (ui12 : BitVec 12)
  /-- `CSRRD` (rule R530) -/
  | csrrd (rd : RegNum) (csr : BitVec 14)
  /-- `CSRWR` (rule R531) -/
  | csrwr (rd : RegNum) (csr : BitVec 14)
  /-- `CSRXCHG` (rule R532) -/
  | csrxchg (rd rj : RegNum) (csr : BitVec 14)
  /-- `CACOP` (rule R535) -/
  | cacop (code : BitVec 5) (rj : RegNum) (si12 : BitVec 12)
  /-- `TLBSRCH` (rule R540) -/
  | tlbsrch
  /-- `TLBRD` (rule R541) -/
  | tlbrd
  /-- `TLBWR` (rule R542) -/
  | tlbwr
  /-- `TLBFILL` (rule R543) -/
  | tlbfill
  /-- `ERTN` (rule R550) -/
  | ertn
  /-- `IDLE` (rule R552) -/
  | idle (level : BitVec 15)
  /-- `INVTLB` (rule R544) -/
  | invtlb (op : BitVec 5) (rj rk : RegNum)
  /-- `FMADD.S` (rule R428) -/
  | fmaddS (fd fj fk fa : RegNum)
  /-- `FMADD.D` (rule R429) -/
  | fmaddD (fd fj fk fa : RegNum)
  /-- `FMSUB.S` (rule R430) -/
  | fmsubS (fd fj fk fa : RegNum)
  /-- `FMSUB.D` (rule R431) -/
  | fmsubD (fd fj fk fa : RegNum)
  /-- `FNMADD.S` (rule R432) -/
  | fnmaddS (fd fj fk fa : RegNum)
  /-- `FNMADD.D` (rule R433) -/
  | fnmaddD (fd fj fk fa : RegNum)
  /-- `FNMSUB.S` (rule R434) -/
  | fnmsubS (fd fj fk fa : RegNum)
  /-- `FNMSUB.D` (rule R435) -/
  | fnmsubD (fd fj fk fa : RegNum)
  /-- `FCMP.cond.S` (rule R472) -/
  | fcmpS (cond : BitVec 5) (cd : BitVec 3) (fj fk : RegNum)
  /-- `FCMP.cond.D` (rule R473) -/
  | fcmpD (cond : BitVec 5) (cd : BitVec 3) (fj fk : RegNum)
  /-- `FSEL` (rule R502) -/
  | fsel (fd fj fk : RegNum) (ca : BitVec 3)
  /-- `LU12I.W` (rule R304) -/
  | lu12iW (rd : RegNum) (si20 : BitVec 20)
  /-- `PCADDU12I` (rule R309) -/
  | pcaddu12i (rd : RegNum) (si20 : BitVec 20)
  /-- `LL.W` (rule R380) -/
  | llW (rd rj : RegNum) (si14 : BitVec 14)
  /-- `SC.W` (rule R381) -/
  | scW (rd rj : RegNum) (si14 : BitVec 14)
  /-- `LD.B` (rule R371) -/
  | ldB (rd rj : RegNum) (si12 : BitVec 12)
  /-- `LD.H` (rule R372) -/
  | ldH (rd rj : RegNum) (si12 : BitVec 12)
  /-- `LD.W` (rule R373) -/
  | ldW (rd rj : RegNum) (si12 : BitVec 12)
  /-- `ST.B` (rule R376) -/
  | stB (rd rj : RegNum) (si12 : BitVec 12)
  /-- `ST.H` (rule R377) -/
  | stH (rd rj : RegNum) (si12 : BitVec 12)
  /-- `ST.W` (rule R379) -/
  | stW (rd rj : RegNum) (si12 : BitVec 12)
  /-- `LD.BU` (rule R374) -/
  | ldBU (rd rj : RegNum) (si12 : BitVec 12)
  /-- `LD.HU` (rule R375) -/
  | ldHU (rd rj : RegNum) (si12 : BitVec 12)
  /-- `PRELD` (rule R378) -/
  | preld (hint : BitVec 5) (rj : RegNum) (si12 : BitVec 12)
  /-- `FLD.S` (rule R520) -/
  | fldS (fd rj : RegNum) (si12 : BitVec 12)
  /-- `FST.S` (rule R522) -/
  | fstS (fd rj : RegNum) (si12 : BitVec 12)
  /-- `FLD.D` (rule R521) -/
  | fldD (fd rj : RegNum) (si12 : BitVec 12)
  /-- `FST.D` (rule R523) -/
  | fstD (fd rj : RegNum) (si12 : BitVec 12)
  /-- `DBAR` (rule R390) -/
  | dbar (hint : BitVec 15)
  /-- `IBAR` (rule R391) -/
  | ibar (hint : BitVec 15)
  /-- `BCEQZ` (rule R515) -/
  | bceqz (cj : BitVec 3) (offs : BitVec 21)
  /-- `BCNEZ` (rule R516) -/
  | bcnez (cj : BitVec 3) (offs : BitVec 21)
  /-- `JIRL` (rule R359) -/
  | jirl (rd rj : RegNum) (offs : BitVec 16)
  /-- `B` (rule R357) -/
  | b (offs : BitVec 26)
  /-- `BL` (rule R358) -/
  | bl (offs : BitVec 26)
  /-- `BEQ` (rule R351) -/
  | beq (rj rd : RegNum) (offs : BitVec 16)
  /-- `BNE` (rule R352) -/
  | bne (rj rd : RegNum) (offs : BitVec 16)
  /-- `BLT` (rule R353) -/
  | blt (rj rd : RegNum) (offs : BitVec 16)
  /-- `BGE` (rule R354) -/
  | bge (rj rd : RegNum) (offs : BitVec 16)
  /-- `BLTU` (rule R355) -/
  | bltu (rj rd : RegNum) (offs : BitVec 16)
  /-- `BGEU` (rule R356) -/
  | bgeu (rj rd : RegNum) (offs : BitVec 16)
  deriving DecidableEq, Repr

end Sys2Proof
end

