-- ==== Sys2Proof/WellFormed.lean ====
section
/-! DEFINITION. Which terms of Instr have an encoding of their own (spec/30_encoding.md R242). -/

namespace Sys2Proof

/-- The checks of R242: CSRXCHG's mask register is neither r0 nor r1, because those words are CSRRD and CSRWR; the word
`rdcntvl.w r0` is the word of `rdcntid r0`, which the decoder answers (both write only r0). Every other term is well formed. -/
def Instr.wellFormed : Instr → Bool
  | .csrxchg _ rj _ => rj != 0 && rj != 1
  | .rdcntvlW rd => rd != 0
  | _ => true

end Sys2Proof
end

