-- ==== Sys2Proof/Decode.lean ====
section
/-! DEFINITION. The decoder, total on every byte list and rejecting by name, and the encoder
(spec/30_encoding.md R230 to R254; opcode_table.json). A word is looked up by its opcode from the top (R231, R240); an
encoding that matches no row of R241 is rejected, and executing it raises INE (R250). -/

namespace Sys2Proof

/-- Why a byte list holds no instruction: fewer than four bytes (R230), or a word that matches no row of R241 (R250). -/
inductive DecodeError where
  | truncated
  | undefinedEncoding
  deriving DecidableEq, Repr

/-! The fields of an instruction word (R234). -/

/-- rd, fd; also cd with its two zero bits, and the code, hint, op or fcsr field at bits 4:0. -/
def Word.rd (w : Word) : RegNum := w.extractLsb' 0 5
/-- rj, fj. -/
def Word.rj (w : Word) : RegNum := w.extractLsb' 5 5
/-- rk, fk; also ui5. -/
def Word.rk (w : Word) : RegNum := w.extractLsb' 10 5
/-- fa; also cond. -/
def Word.ra (w : Word) : RegNum := w.extractLsb' 15 5
/-- The destination condition flag register. -/
def Word.cd (w : Word) : BitVec 3 := w.extractLsb' 0 3
/-- The source condition flag register. -/
def Word.cj (w : Word) : BitVec 3 := w.extractLsb' 5 3
/-- The condition flag register of FSEL. -/
def Word.ca (w : Word) : BitVec 3 := w.extractLsb' 15 3
/-- si12, ui12. -/
def Word.imm12 (w : Word) : BitVec 12 := w.extractLsb' 10 12
/-- si14, csr. -/
def Word.imm14 (w : Word) : BitVec 14 := w.extractLsb' 10 14
/-- code, hint, level of the I15 format. -/
def Word.imm15 (w : Word) : BitVec 15 := w.extractLsb' 0 15
/-- offs16, and the low part of a split offset. -/
def Word.imm16 (w : Word) : BitVec 16 := w.extractLsb' 10 16
/-- si20. -/
def Word.imm20 (w : Word) : BitVec 20 := w.extractLsb' 5 20
/-- offs21: `{ir[4:0], ir[25:10]}` (R235). -/
def Word.offs21 (w : Word) : BitVec 21 := w.extractLsb' 0 5 ++ w.extractLsb' 10 16
/-- offs26: `{ir[9:0], ir[25:10]}` (R235). -/
def Word.offs26 (w : Word) : BitVec 26 := w.extractLsb' 0 10 ++ w.extractLsb' 10 16
/-- The opcode of a word: bits 31 down to `lo`, as a number. -/
def Word.op (w : Word) (lo : Nat) : Nat := w.toNat >>> lo

/-- The counter reads, `ir[31:22] = 0` and `ir[31:15] = 0` (R242 (b)): RDCNTID names its register in rj, the others in rd. -/
def decodeCounter (w : Word) : Option Instr :=
  match w.op 10 with
  | 0x18 => if w.rd = 0 then some (.rdcntid w.rj) else if w.rj = 0 then some (.rdcntvlW w.rd) else none
  | 0x19 => if w.rj = 0 then some (.rdcntvhW w.rd) else none
  | _ => none

/-- The integer 3R, 3R-ui5 and I15 formats under `ir[31:22] = 0` and 1 (R240). -/
def decodeInt (w : Word) : Option Instr :=
  match w.op 15 with
  | 0x20 => some (.addW w.rd w.rj w.rk)
  | 0x22 => some (.subW w.rd w.rj w.rk)
  | 0x24 => some (.slt w.rd w.rj w.rk)
  | 0x25 => some (.sltu w.rd w.rj w.rk)
  | 0x28 => some (.nor w.rd w.rj w.rk)
  | 0x29 => some (.and w.rd w.rj w.rk)
  | 0x2a => some (.or w.rd w.rj w.rk)
  | 0x2b => some (.xor w.rd w.rj w.rk)
  | 0x2e => some (.sllW w.rd w.rj w.rk)
  | 0x2f => some (.srlW w.rd w.rj w.rk)
  | 0x30 => some (.sraW w.rd w.rj w.rk)
  | 0x38 => some (.mulW w.rd w.rj w.rk)
  | 0x39 => some (.mulhW w.rd w.rj w.rk)
  | 0x3a => some (.mulhWU w.rd w.rj w.rk)
  | 0x40 => some (.divW w.rd w.rj w.rk)
  | 0x41 => some (.modW w.rd w.rj w.rk)
  | 0x42 => some (.divWU w.rd w.rj w.rk)
  | 0x43 => some (.modWU w.rd w.rj w.rk)
  | 0x54 => some (.brk w.imm15)
  | 0x56 => some (.syscall w.imm15)
  | 0x81 => some (.slliW w.rd w.rj w.rk)
  | 0x89 => some (.srliW w.rd w.rj w.rk)
  | 0x91 => some (.sraiW w.rd w.rj w.rk)
  | _ => decodeCounter w

/-- The floating-point two-register formats under `ir[31:22] = 4`, with the zero bits of R251. -/
def decodeFp2 (w : Word) : Option Instr :=
  match w.op 10 with
  | 0x4501 => some (.fabsS w.rd w.rj)
  | 0x4502 => some (.fabsD w.rd w.rj)
  | 0x4505 => some (.fnegS w.rd w.rj)
  | 0x4506 => some (.fnegD w.rd w.rj)
  | 0x450d => some (.fclassS w.rd w.rj)
  | 0x450e => some (.fclassD w.rd w.rj)
  | 0x4511 => some (.fsqrtS w.rd w.rj)
  | 0x4512 => some (.fsqrtD w.rd w.rj)
  | 0x4515 => some (.frecipS w.rd w.rj)
  | 0x4516 => some (.frecipD w.rd w.rj)
  | 0x4519 => some (.frsqrtS w.rd w.rj)
  | 0x451a => some (.frsqrtD w.rd w.rj)
  | 0x4525 => some (.fmovS w.rd w.rj)
  | 0x4526 => some (.fmovD w.rd w.rj)
  | 0x4529 => some (.movgr2frW w.rd w.rj)
  | 0x452b => some (.movgr2frhW w.rd w.rj)
  | 0x452d => some (.movfr2grS w.rd w.rj)
  | 0x452f => some (.movfrh2grS w.rd w.rj)
  | 0x4530 => some (.movgr2fcsr w.rd w.rj)
  | 0x4532 => some (.movfcsr2gr w.rd w.rj)
  | 0x4646 => some (.fcvtSD w.rd w.rj)
  | 0x4649 => some (.fcvtDS w.rd w.rj)
  | 0x4681 => some (.ftintrmWS w.rd w.rj)
  | 0x4682 => some (.ftintrmWD w.rd w.rj)
  | 0x4691 => some (.ftintrpWS w.rd w.rj)
  | 0x4692 => some (.ftintrpWD w.rd w.rj)
  | 0x46a1 => some (.ftintrzWS w.rd w.rj)
  | 0x46a2 => some (.ftintrzWD w.rd w.rj)
  | 0x46b1 => some (.ftintrneWS w.rd w.rj)
  | 0x46b2 => some (.ftintrneWD w.rd w.rj)
  | 0x46c1 => some (.ftintWS w.rd w.rj)
  | 0x46c2 => some (.ftintWD w.rd w.rj)
  | 0x4744 => some (.ffintSW w.rd w.rj)
  | 0x4748 => some (.ffintDW w.rd w.rj)
  | 0x4534 => if w.extractLsb' 3 2 = 0 then some (.movfr2cf w.cd w.rj) else none
  | 0x4535 => if w.extractLsb' 8 2 = 0 then some (.movcf2fr w.rd w.cj) else none
  | 0x4536 => if w.extractLsb' 3 2 = 0 then some (.movgr2cf w.cd w.rj) else none
  | 0x4537 => if w.extractLsb' 8 2 = 0 then some (.movcf2gr w.rd w.cj) else none
  | _ => none

/-- The floating-point formats under `ir[31:22] = 4` (R240). -/
def decodeFp (w : Word) : Option Instr :=
  match w.op 15 with
  | 0x201 => some (.faddS w.rd w.rj w.rk)
  | 0x202 => some (.faddD w.rd w.rj w.rk)
  | 0x205 => some (.fsubS w.rd w.rj w.rk)
  | 0x206 => some (.fsubD w.rd w.rj w.rk)
  | 0x209 => some (.fmulS w.rd w.rj w.rk)
  | 0x20a => some (.fmulD w.rd w.rj w.rk)
  | 0x20d => some (.fdivS w.rd w.rj w.rk)
  | 0x20e => some (.fdivD w.rd w.rj w.rk)
  | 0x211 => some (.fmaxS w.rd w.rj w.rk)
  | 0x212 => some (.fmaxD w.rd w.rj w.rk)
  | 0x215 => some (.fminS w.rd w.rj w.rk)
  | 0x216 => some (.fminD w.rd w.rj w.rk)
  | 0x219 => some (.fmaxaS w.rd w.rj w.rk)
  | 0x21a => some (.fmaxaD w.rd w.rj w.rk)
  | 0x21d => some (.fminaS w.rd w.rj w.rk)
  | 0x21e => some (.fminaD w.rd w.rj w.rk)
  | 0x225 => some (.fcopysignS w.rd w.rj w.rk)
  | 0x226 => some (.fcopysignD w.rd w.rj w.rk)
  | _ => decodeFp2 w

/-- `ir[31:26] = 0`: integer operations, floating-point operations and the 2RI12 integer immediates. -/
def decodeMajor0 (w : Word) : Option Instr :=
  match w.op 22 with
  | 0x0 => decodeInt w
  | 0x1 => decodeInt w
  | 0x4 => decodeFp w
  | 0x8 => some (.slti w.rd w.rj w.imm12)
  | 0x9 => some (.sltui w.rd w.rj w.imm12)
  | 0xa => some (.addiW w.rd w.rj w.imm12)
  | 0xd => some (.andi w.rd w.rj w.imm12)
  | 0xe => some (.ori w.rd w.rj w.imm12)
  | 0xf => some (.xori w.rd w.rj w.imm12)
  | _ => none

/-- CSR access (R242 (a)): rj = 0 is CSRRD, rj = 1 is CSRWR, any other rj is CSRXCHG. -/
def decodeCsr (w : Word) : Option Instr :=
  if w.rj = 0 then some (.csrrd w.rd w.imm14)
  else if w.rj = 1 then some (.csrwr w.rd w.imm14)
  else some (.csrxchg w.rd w.rj w.imm14)

/-- `ir[31:22] = 0x19`: the TLB instructions, ERTN, IDLE and INVTLB. -/
def decodePriv (w : Word) : Option Instr :=
  match w.op 15 with
  | 0xc91 => some (.idle w.imm15)
  | 0xc93 => some (.invtlb w.rd w.rj w.rk)
  | _ =>
    match w.toNat with
    | 0x6482800 => some .tlbsrch
    | 0x6482c00 => some .tlbrd
    | 0x6483000 => some .tlbwr
    | 0x6483400 => some .tlbfill
    | 0x6483800 => some .ertn
    | _ => none

/-- `ir[31:26] = 1`: the privileged instructions. -/
def decodeMajor1 (w : Word) : Option Instr :=
  match w.op 24 with
  | 0x4 => decodeCsr w
  | _ =>
    match w.op 22 with
    | 0x18 => some (.cacop w.rd w.rj w.imm12)
    | 0x19 => decodePriv w
    | _ => none

/-- `ir[31:26] = 2`: the fused multiply-adds. -/
def decodeMajor2 (w : Word) : Option Instr :=
  match w.op 20 with
  | 0x81 => some (.fmaddS w.rd w.rj w.rk w.ra)
  | 0x82 => some (.fmaddD w.rd w.rj w.rk w.ra)
  | 0x85 => some (.fmsubS w.rd w.rj w.rk w.ra)
  | 0x86 => some (.fmsubD w.rd w.rj w.rk w.ra)
  | 0x89 => some (.fnmaddS w.rd w.rj w.rk w.ra)
  | 0x8a => some (.fnmaddD w.rd w.rj w.rk w.ra)
  | 0x8d => some (.fnmsubS w.rd w.rj w.rk w.ra)
  | 0x8e => some (.fnmsubD w.rd w.rj w.rk w.ra)
  | _ => none

/-- `ir[31:26] = 3`: FCMP, whose bits 4:3 are 0, and FSEL. -/
def decodeMajor3 (w : Word) : Option Instr :=
  match w.op 20 with
  | 0xc1 => if w.extractLsb' 3 2 = 0 then some (.fcmpS w.ra w.cd w.rj w.rk) else none
  | 0xc2 => if w.extractLsb' 3 2 = 0 then some (.fcmpD w.ra w.cd w.rj w.rk) else none
  | _ => if w.op 18 = 0x340 then some (.fsel w.rd w.rj w.rk w.ca) else none

/-- `ir[31:26] = 10`: loads, stores and PRELD. -/
def decodeMem (w : Word) : Option Instr :=
  match w.op 22 with
  | 0xa0 => some (.ldB w.rd w.rj w.imm12)
  | 0xa1 => some (.ldH w.rd w.rj w.imm12)
  | 0xa2 => some (.ldW w.rd w.rj w.imm12)
  | 0xa4 => some (.stB w.rd w.rj w.imm12)
  | 0xa5 => some (.stH w.rd w.rj w.imm12)
  | 0xa6 => some (.stW w.rd w.rj w.imm12)
  | 0xa8 => some (.ldBU w.rd w.rj w.imm12)
  | 0xa9 => some (.ldHU w.rd w.rj w.imm12)
  | 0xab => some (.preld w.rd w.rj w.imm12)
  | 0xac => some (.fldS w.rd w.rj w.imm12)
  | 0xad => some (.fstS w.rd w.rj w.imm12)
  | 0xae => some (.fldD w.rd w.rj w.imm12)
  | 0xaf => some (.fstD w.rd w.rj w.imm12)
  | _ => none

/-- BCEQZ and BCNEZ, told apart by bits 9:8 (R251). -/
def decodeCondBranch (w : Word) : Option Instr :=
  match (w.extractLsb' 8 2).toNat with
  | 0 => some (.bceqz w.cj w.offs21)
  | 1 => some (.bcnez w.cj w.offs21)
  | _ => none

/-- The instruction a word encodes, or none when it matches no row of R241. -/
def decode (w : Word) : Option Instr :=
  match w.op 26 with
  | 0x0 => decodeMajor0 w
  | 0x1 => decodeMajor1 w
  | 0x2 => decodeMajor2 w
  | 0x3 => decodeMajor3 w
  | 0x5 => if w.op 25 = 0xa then some (.lu12iW w.rd w.imm20) else none
  | 0x7 => if w.op 25 = 0xe then some (.pcaddu12i w.rd w.imm20) else none
  | 0x8 =>
    match w.op 24 with
    | 0x20 => some (.llW w.rd w.rj w.imm14)
    | 0x21 => some (.scW w.rd w.rj w.imm14)
    | _ => none
  | 0xa => decodeMem w
  | 0xe =>
    match w.op 15 with
    | 0x70e4 => some (.dbar w.imm15)
    | 0x70e5 => some (.ibar w.imm15)
    | _ => none
  | 0x12 => decodeCondBranch w
  | 0x13 => some (.jirl w.rd w.rj w.imm16)
  | 0x14 => some (.b w.offs26)
  | 0x15 => some (.bl w.offs26)
  | 0x16 => some (.beq w.rj w.rd w.imm16)
  | 0x17 => some (.bne w.rj w.rd w.imm16)
  | 0x18 => some (.blt w.rj w.rd w.imm16)
  | 0x19 => some (.bge w.rj w.rd w.imm16)
  | 0x1a => some (.bltu w.rj w.rd w.imm16)
  | 0x1b => some (.bgeu w.rj w.rd w.imm16)
  | _ => none

/-- The word whose four bytes are `b0 b1 b2 b3` from the lowest address up: little-endian (spec/20_memory.md R153). -/
def wordOfBytes (b0 b1 b2 b3 : Byte) : Word := b3 ++ b2 ++ b1 ++ b0

/-- The four bytes of a word, lowest address first (R153). -/
def bytesOfWord (w : Word) : List Byte :=
  [w.extractLsb' 0 8, w.extractLsb' 8 8, w.extractLsb' 16 8, w.extractLsb' 24 8]

/-- Reads one instruction from the front of a byte list and answers the bytes left over. -/
def decodeBytes : List Byte → Except DecodeError (Instr × List Byte)
  | b0 :: b1 :: b2 :: b3 :: rest =>
    match decode (wordOfBytes b0 b1 b2 b3) with
    | some i => .ok (i, rest)
    | none => .error .undefinedEncoding
  | _ => .error .truncated

/-- The instruction the decoder reads from the table's bit string: the low `nbits` bits of `w`, every bit above them 0. -/
def decodeTableWord (nbits w : Nat) : Option Instr :=
  match decodeBytes (bytesOfWord (BitVec.ofNat 32 (w % 2 ^ nbits))) with
  | .ok (i, _) => some i
  | .error _ => none

/-- A field's contribution to the word: its value with bit 0 at bit `lo`. -/
def fieldAt {n : Nat} (v : BitVec n) (lo : Nat) : Nat := v.toNat * 2 ^ lo

/-- The word of an instruction: the match value of its row with the fields in their places (R241, R234). -/
def encode : Instr → Word
  | .rdcntid rj => BitVec.ofNat 32 (0x00006000 + fieldAt rj 5)
  | .rdcntvlW rd => BitVec.ofNat 32 (0x00006000 + fieldAt rd 0)
  | .rdcntvhW rd => BitVec.ofNat 32 (0x00006400 + fieldAt rd 0)
  | .addW rd rj rk => BitVec.ofNat 32 (0x00100000 + fieldAt rk 10 + fieldAt rj 5 + fieldAt rd 0)
  | .subW rd rj rk => BitVec.ofNat 32 (0x00110000 + fieldAt rk 10 + fieldAt rj 5 + fieldAt rd 0)
  | .slt rd rj rk => BitVec.ofNat 32 (0x00120000 + fieldAt rk 10 + fieldAt rj 5 + fieldAt rd 0)
  | .sltu rd rj rk => BitVec.ofNat 32 (0x00128000 + fieldAt rk 10 + fieldAt rj 5 + fieldAt rd 0)
  | .nor rd rj rk => BitVec.ofNat 32 (0x00140000 + fieldAt rk 10 + fieldAt rj 5 + fieldAt rd 0)
  | .and rd rj rk => BitVec.ofNat 32 (0x00148000 + fieldAt rk 10 + fieldAt rj 5 + fieldAt rd 0)
  | .or rd rj rk => BitVec.ofNat 32 (0x00150000 + fieldAt rk 10 + fieldAt rj 5 + fieldAt rd 0)
  | .xor rd rj rk => BitVec.ofNat 32 (0x00158000 + fieldAt rk 10 + fieldAt rj 5 + fieldAt rd 0)
  | .sllW rd rj rk => BitVec.ofNat 32 (0x00170000 + fieldAt rk 10 + fieldAt rj 5 + fieldAt rd 0)
  | .srlW rd rj rk => BitVec.ofNat 32 (0x00178000 + fieldAt rk 10 + fieldAt rj 5 + fieldAt rd 0)
  | .sraW rd rj rk => BitVec.ofNat 32 (0x00180000 + fieldAt rk 10 + fieldAt rj 5 + fieldAt rd 0)
  | .mulW rd rj rk => BitVec.ofNat 32 (0x001C0000 + fieldAt rk 10 + fieldAt rj 5 + fieldAt rd 0)
  | .mulhW rd rj rk => BitVec.ofNat 32 (0x001C8000 + fieldAt rk 10 + fieldAt rj 5 + fieldAt rd 0)
  | .mulhWU rd rj rk => BitVec.ofNat 32 (0x001D0000 + fieldAt rk 10 + fieldAt rj 5 + fieldAt rd 0)
  | .divW rd rj rk => BitVec.ofNat 32 (0x00200000 + fieldAt rk 10 + fieldAt rj 5 + fieldAt rd 0)
  | .modW rd rj rk => BitVec.ofNat 32 (0x00208000 + fieldAt rk 10 + fieldAt rj 5 + fieldAt rd 0)
  | .divWU rd rj rk => BitVec.ofNat 32 (0x00210000 + fieldAt rk 10 + fieldAt rj 5 + fieldAt rd 0)
  | .modWU rd rj rk => BitVec.ofNat 32 (0x00218000 + fieldAt rk 10 + fieldAt rj 5 + fieldAt rd 0)
  | .brk code => BitVec.ofNat 32 (0x002A0000 + fieldAt code 0)
  | .syscall code => BitVec.ofNat 32 (0x002B0000 + fieldAt code 0)
  | .slliW rd rj ui5 => BitVec.ofNat 32 (0x00408000 + fieldAt ui5 10 + fieldAt rj 5 + fieldAt rd 0)
  | .srliW rd rj ui5 => BitVec.ofNat 32 (0x00448000 + fieldAt ui5 10 + fieldAt rj 5 + fieldAt rd 0)
  | .sraiW rd rj ui5 => BitVec.ofNat 32 (0x00488000 + fieldAt ui5 10 + fieldAt rj 5 + fieldAt rd 0)
  | .faddS fd fj fk => BitVec.ofNat 32 (0x01008000 + fieldAt fk 10 + fieldAt fj 5 + fieldAt fd 0)
  | .faddD fd fj fk => BitVec.ofNat 32 (0x01010000 + fieldAt fk 10 + fieldAt fj 5 + fieldAt fd 0)
  | .fsubS fd fj fk => BitVec.ofNat 32 (0x01028000 + fieldAt fk 10 + fieldAt fj 5 + fieldAt fd 0)
  | .fsubD fd fj fk => BitVec.ofNat 32 (0x01030000 + fieldAt fk 10 + fieldAt fj 5 + fieldAt fd 0)
  | .fmulS fd fj fk => BitVec.ofNat 32 (0x01048000 + fieldAt fk 10 + fieldAt fj 5 + fieldAt fd 0)
  | .fmulD fd fj fk => BitVec.ofNat 32 (0x01050000 + fieldAt fk 10 + fieldAt fj 5 + fieldAt fd 0)
  | .fdivS fd fj fk => BitVec.ofNat 32 (0x01068000 + fieldAt fk 10 + fieldAt fj 5 + fieldAt fd 0)
  | .fdivD fd fj fk => BitVec.ofNat 32 (0x01070000 + fieldAt fk 10 + fieldAt fj 5 + fieldAt fd 0)
  | .fmaxS fd fj fk => BitVec.ofNat 32 (0x01088000 + fieldAt fk 10 + fieldAt fj 5 + fieldAt fd 0)
  | .fmaxD fd fj fk => BitVec.ofNat 32 (0x01090000 + fieldAt fk 10 + fieldAt fj 5 + fieldAt fd 0)
  | .fminS fd fj fk => BitVec.ofNat 32 (0x010A8000 + fieldAt fk 10 + fieldAt fj 5 + fieldAt fd 0)
  | .fminD fd fj fk => BitVec.ofNat 32 (0x010B0000 + fieldAt fk 10 + fieldAt fj 5 + fieldAt fd 0)
  | .fmaxaS fd fj fk => BitVec.ofNat 32 (0x010C8000 + fieldAt fk 10 + fieldAt fj 5 + fieldAt fd 0)
  | .fmaxaD fd fj fk => BitVec.ofNat 32 (0x010D0000 + fieldAt fk 10 + fieldAt fj 5 + fieldAt fd 0)
  | .fminaS fd fj fk => BitVec.ofNat 32 (0x010E8000 + fieldAt fk 10 + fieldAt fj 5 + fieldAt fd 0)
  | .fminaD fd fj fk => BitVec.ofNat 32 (0x010F0000 + fieldAt fk 10 + fieldAt fj 5 + fieldAt fd 0)
  | .fcopysignS fd fj fk => BitVec.ofNat 32 (0x01128000 + fieldAt fk 10 + fieldAt fj 5 + fieldAt fd 0)
  | .fcopysignD fd fj fk => BitVec.ofNat 32 (0x01130000 + fieldAt fk 10 + fieldAt fj 5 + fieldAt fd 0)
  | .fabsS fd fj => BitVec.ofNat 32 (0x01140400 + fieldAt fj 5 + fieldAt fd 0)
  | .fabsD fd fj => BitVec.ofNat 32 (0x01140800 + fieldAt fj 5 + fieldAt fd 0)
  | .fnegS fd fj => BitVec.ofNat 32 (0x01141400 + fieldAt fj 5 + fieldAt fd 0)
  | .fnegD fd fj => BitVec.ofNat 32 (0x01141800 + fieldAt fj 5 + fieldAt fd 0)
  | .fclassS fd fj => BitVec.ofNat 32 (0x01143400 + fieldAt fj 5 + fieldAt fd 0)
  | .fclassD fd fj => BitVec.ofNat 32 (0x01143800 + fieldAt fj 5 + fieldAt fd 0)
  | .fsqrtS fd fj => BitVec.ofNat 32 (0x01144400 + fieldAt fj 5 + fieldAt fd 0)
  | .fsqrtD fd fj => BitVec.ofNat 32 (0x01144800 + fieldAt fj 5 + fieldAt fd 0)
  | .frecipS fd fj => BitVec.ofNat 32 (0x01145400 + fieldAt fj 5 + fieldAt fd 0)
  | .frecipD fd fj => BitVec.ofNat 32 (0x01145800 + fieldAt fj 5 + fieldAt fd 0)
  | .frsqrtS fd fj => BitVec.ofNat 32 (0x01146400 + fieldAt fj 5 + fieldAt fd 0)
  | .frsqrtD fd fj => BitVec.ofNat 32 (0x01146800 + fieldAt fj 5 + fieldAt fd 0)
  | .fmovS fd fj => BitVec.ofNat 32 (0x01149400 + fieldAt fj 5 + fieldAt fd 0)
  | .fmovD fd fj => BitVec.ofNat 32 (0x01149800 + fieldAt fj 5 + fieldAt fd 0)
  | .movgr2frW fd rj => BitVec.ofNat 32 (0x0114A400 + fieldAt rj 5 + fieldAt fd 0)
  | .movgr2frhW fd rj => BitVec.ofNat 32 (0x0114AC00 + fieldAt rj 5 + fieldAt fd 0)
  | .movfr2grS rd fj => BitVec.ofNat 32 (0x0114B400 + fieldAt fj 5 + fieldAt rd 0)
  | .movfrh2grS rd fj => BitVec.ofNat 32 (0x0114BC00 + fieldAt fj 5 + fieldAt rd 0)
  | .movgr2fcsr fcsr rj => BitVec.ofNat 32 (0x0114C000 + fieldAt rj 5 + fieldAt fcsr 0)
  | .movfcsr2gr rd fcsr => BitVec.ofNat 32 (0x0114C800 + fieldAt fcsr 5 + fieldAt rd 0)
  | .movfr2cf cd fj => BitVec.ofNat 32 (0x0114D000 + fieldAt fj 5 + fieldAt cd 0)
  | .movcf2fr fd cj => BitVec.ofNat 32 (0x0114D400 + fieldAt cj 5 + fieldAt fd 0)
  | .movgr2cf cd rj => BitVec.ofNat 32 (0x0114D800 + fieldAt rj 5 + fieldAt cd 0)
  | .movcf2gr rd cj => BitVec.ofNat 32 (0x0114DC00 + fieldAt cj 5 + fieldAt rd 0)
  | .fcvtSD fd fj => BitVec.ofNat 32 (0x01191800 + fieldAt fj 5 + fieldAt fd 0)
  | .fcvtDS fd fj => BitVec.ofNat 32 (0x01192400 + fieldAt fj 5 + fieldAt fd 0)
  | .ftintrmWS fd fj => BitVec.ofNat 32 (0x011A0400 + fieldAt fj 5 + fieldAt fd 0)
  | .ftintrmWD fd fj => BitVec.ofNat 32 (0x011A0800 + fieldAt fj 5 + fieldAt fd 0)
  | .ftintrpWS fd fj => BitVec.ofNat 32 (0x011A4400 + fieldAt fj 5 + fieldAt fd 0)
  | .ftintrpWD fd fj => BitVec.ofNat 32 (0x011A4800 + fieldAt fj 5 + fieldAt fd 0)
  | .ftintrzWS fd fj => BitVec.ofNat 32 (0x011A8400 + fieldAt fj 5 + fieldAt fd 0)
  | .ftintrzWD fd fj => BitVec.ofNat 32 (0x011A8800 + fieldAt fj 5 + fieldAt fd 0)
  | .ftintrneWS fd fj => BitVec.ofNat 32 (0x011AC400 + fieldAt fj 5 + fieldAt fd 0)
  | .ftintrneWD fd fj => BitVec.ofNat 32 (0x011AC800 + fieldAt fj 5 + fieldAt fd 0)
  | .ftintWS fd fj => BitVec.ofNat 32 (0x011B0400 + fieldAt fj 5 + fieldAt fd 0)
  | .ftintWD fd fj => BitVec.ofNat 32 (0x011B0800 + fieldAt fj 5 + fieldAt fd 0)
  | .ffintSW fd fj => BitVec.ofNat 32 (0x011D1000 + fieldAt fj 5 + fieldAt fd 0)
  | .ffintDW fd fj => BitVec.ofNat 32 (0x011D2000 + fieldAt fj 5 + fieldAt fd 0)
  | .slti rd rj si12 => BitVec.ofNat 32 (0x02000000 + fieldAt si12 10 + fieldAt rj 5 + fieldAt rd 0)
  | .sltui rd rj si12 => BitVec.ofNat 32 (0x02400000 + fieldAt si12 10 + fieldAt rj 5 + fieldAt rd 0)
  | .addiW rd rj si12 => BitVec.ofNat 32 (0x02800000 + fieldAt si12 10 + fieldAt rj 5 + fieldAt rd 0)
  | .andi rd rj ui12 => BitVec.ofNat 32 (0x03400000 + fieldAt ui12 10 + fieldAt rj 5 + fieldAt rd 0)
  | .ori rd rj ui12 => BitVec.ofNat 32 (0x03800000 + fieldAt ui12 10 + fieldAt rj 5 + fieldAt rd 0)
  | .xori rd rj ui12 => BitVec.ofNat 32 (0x03C00000 + fieldAt ui12 10 + fieldAt rj 5 + fieldAt rd 0)
  | .csrrd rd csr => BitVec.ofNat 32 (0x04000000 + fieldAt csr 10 + fieldAt rd 0)
  | .csrwr rd csr => BitVec.ofNat 32 (0x04000020 + fieldAt csr 10 + fieldAt rd 0)
  | .csrxchg rd rj csr => BitVec.ofNat 32 (0x04000000 + fieldAt csr 10 + fieldAt rj 5 + fieldAt rd 0)
  | .cacop code rj si12 => BitVec.ofNat 32 (0x06000000 + fieldAt si12 10 + fieldAt rj 5 + fieldAt code 0)
  | .tlbsrch => 0x06482800#32
  | .tlbrd => 0x06482C00#32
  | .tlbwr => 0x06483000#32
  | .tlbfill => 0x06483400#32
  | .ertn => 0x06483800#32
  | .idle level => BitVec.ofNat 32 (0x06488000 + fieldAt level 0)
  | .invtlb op rj rk => BitVec.ofNat 32 (0x06498000 + fieldAt rk 10 + fieldAt rj 5 + fieldAt op 0)
  | .fmaddS fd fj fk fa => BitVec.ofNat 32 (0x08100000 + fieldAt fa 15 + fieldAt fk 10 + fieldAt fj 5 + fieldAt fd 0)
  | .fmaddD fd fj fk fa => BitVec.ofNat 32 (0x08200000 + fieldAt fa 15 + fieldAt fk 10 + fieldAt fj 5 + fieldAt fd 0)
  | .fmsubS fd fj fk fa => BitVec.ofNat 32 (0x08500000 + fieldAt fa 15 + fieldAt fk 10 + fieldAt fj 5 + fieldAt fd 0)
  | .fmsubD fd fj fk fa => BitVec.ofNat 32 (0x08600000 + fieldAt fa 15 + fieldAt fk 10 + fieldAt fj 5 + fieldAt fd 0)
  | .fnmaddS fd fj fk fa => BitVec.ofNat 32 (0x08900000 + fieldAt fa 15 + fieldAt fk 10 + fieldAt fj 5 + fieldAt fd 0)
  | .fnmaddD fd fj fk fa => BitVec.ofNat 32 (0x08A00000 + fieldAt fa 15 + fieldAt fk 10 + fieldAt fj 5 + fieldAt fd 0)
  | .fnmsubS fd fj fk fa => BitVec.ofNat 32 (0x08D00000 + fieldAt fa 15 + fieldAt fk 10 + fieldAt fj 5 + fieldAt fd 0)
  | .fnmsubD fd fj fk fa => BitVec.ofNat 32 (0x08E00000 + fieldAt fa 15 + fieldAt fk 10 + fieldAt fj 5 + fieldAt fd 0)
  | .fcmpS cond cd fj fk => BitVec.ofNat 32 (0x0C100000 + fieldAt cond 15 + fieldAt fk 10 + fieldAt fj 5 + fieldAt cd 0)
  | .fcmpD cond cd fj fk => BitVec.ofNat 32 (0x0C200000 + fieldAt cond 15 + fieldAt fk 10 + fieldAt fj 5 + fieldAt cd 0)
  | .fsel fd fj fk ca => BitVec.ofNat 32 (0x0D000000 + fieldAt ca 15 + fieldAt fk 10 + fieldAt fj 5 + fieldAt fd 0)
  | .lu12iW rd si20 => BitVec.ofNat 32 (0x14000000 + fieldAt si20 5 + fieldAt rd 0)
  | .pcaddu12i rd si20 => BitVec.ofNat 32 (0x1C000000 + fieldAt si20 5 + fieldAt rd 0)
  | .llW rd rj si14 => BitVec.ofNat 32 (0x20000000 + fieldAt si14 10 + fieldAt rj 5 + fieldAt rd 0)
  | .scW rd rj si14 => BitVec.ofNat 32 (0x21000000 + fieldAt si14 10 + fieldAt rj 5 + fieldAt rd 0)
  | .ldB rd rj si12 => BitVec.ofNat 32 (0x28000000 + fieldAt si12 10 + fieldAt rj 5 + fieldAt rd 0)
  | .ldH rd rj si12 => BitVec.ofNat 32 (0x28400000 + fieldAt si12 10 + fieldAt rj 5 + fieldAt rd 0)
  | .ldW rd rj si12 => BitVec.ofNat 32 (0x28800000 + fieldAt si12 10 + fieldAt rj 5 + fieldAt rd 0)
  | .stB rd rj si12 => BitVec.ofNat 32 (0x29000000 + fieldAt si12 10 + fieldAt rj 5 + fieldAt rd 0)
  | .stH rd rj si12 => BitVec.ofNat 32 (0x29400000 + fieldAt si12 10 + fieldAt rj 5 + fieldAt rd 0)
  | .stW rd rj si12 => BitVec.ofNat 32 (0x29800000 + fieldAt si12 10 + fieldAt rj 5 + fieldAt rd 0)
  | .ldBU rd rj si12 => BitVec.ofNat 32 (0x2A000000 + fieldAt si12 10 + fieldAt rj 5 + fieldAt rd 0)
  | .ldHU rd rj si12 => BitVec.ofNat 32 (0x2A400000 + fieldAt si12 10 + fieldAt rj 5 + fieldAt rd 0)
  | .preld hint rj si12 => BitVec.ofNat 32 (0x2AC00000 + fieldAt si12 10 + fieldAt rj 5 + fieldAt hint 0)
  | .fldS fd rj si12 => BitVec.ofNat 32 (0x2B000000 + fieldAt si12 10 + fieldAt rj 5 + fieldAt fd 0)
  | .fstS fd rj si12 => BitVec.ofNat 32 (0x2B400000 + fieldAt si12 10 + fieldAt rj 5 + fieldAt fd 0)
  | .fldD fd rj si12 => BitVec.ofNat 32 (0x2B800000 + fieldAt si12 10 + fieldAt rj 5 + fieldAt fd 0)
  | .fstD fd rj si12 => BitVec.ofNat 32 (0x2BC00000 + fieldAt si12 10 + fieldAt rj 5 + fieldAt fd 0)
  | .dbar hint => BitVec.ofNat 32 (0x38720000 + fieldAt hint 0)
  | .ibar hint => BitVec.ofNat 32 (0x38728000 + fieldAt hint 0)
  | .bceqz cj offs => BitVec.ofNat 32 (0x48000000 + fieldAt (offs.extractLsb' 0 16) 10 + fieldAt cj 5 + fieldAt (offs.extractLsb' 16 5) 0)
  | .bcnez cj offs => BitVec.ofNat 32 (0x48000100 + fieldAt (offs.extractLsb' 0 16) 10 + fieldAt cj 5 + fieldAt (offs.extractLsb' 16 5) 0)
  | .jirl rd rj offs => BitVec.ofNat 32 (0x4C000000 + fieldAt offs 10 + fieldAt rj 5 + fieldAt rd 0)
  | .b offs => BitVec.ofNat 32 (0x50000000 + fieldAt (offs.extractLsb' 0 16) 10 + fieldAt (offs.extractLsb' 16 10) 0)
  | .bl offs => BitVec.ofNat 32 (0x54000000 + fieldAt (offs.extractLsb' 0 16) 10 + fieldAt (offs.extractLsb' 16 10) 0)
  | .beq rj rd offs => BitVec.ofNat 32 (0x58000000 + fieldAt offs 10 + fieldAt rj 5 + fieldAt rd 0)
  | .bne rj rd offs => BitVec.ofNat 32 (0x5C000000 + fieldAt offs 10 + fieldAt rj 5 + fieldAt rd 0)
  | .blt rj rd offs => BitVec.ofNat 32 (0x60000000 + fieldAt offs 10 + fieldAt rj 5 + fieldAt rd 0)
  | .bge rj rd offs => BitVec.ofNat 32 (0x64000000 + fieldAt offs 10 + fieldAt rj 5 + fieldAt rd 0)
  | .bltu rj rd offs => BitVec.ofNat 32 (0x68000000 + fieldAt offs 10 + fieldAt rj 5 + fieldAt rd 0)
  | .bgeu rj rd offs => BitVec.ofNat 32 (0x6C000000 + fieldAt offs 10 + fieldAt rj 5 + fieldAt rd 0)

/-- The instruction's bytes as stored in memory, lowest address first. -/
def encodeBytes (i : Instr) : List Byte := bytesOfWord (encode i)

end Sys2Proof
end

