-- ==== Sys2Proof/Config.lean ====
section
/-! DEFINITION. What an implementation fixes (spec/00_scope.md R6, spec/92_eei_decisions.md "Open parameters") and the free
values the spec leaves open (spec/93_implementation_defined.md). Parameters are plain data, held in State, so that every
statement about all states is a statement about all implementations; free values are constants with no body. -/

namespace Sys2Proof

/-- Which floating-point instructions exist (R6 `FP_LEVEL`, D5). -/
inductive FpLevel where
  | none
  | single
  | full
  deriving DecidableEq, Repr

/-- What stands behind a range of physical addresses (R215, D18): memory, or a device whose behaviour the spec does not give. -/
inductive RegionKind where
  | ram
  | device
  deriving DecidableEq, Repr

/-- A range of physical addresses of the memory map (D18). -/
structure Region where
  base : Nat
  size : Nat
  kind : RegionKind
  deriving DecidableEq, Repr

/-- The parameters of an implementation (R6). No step changes them. -/
structure Config where
  /-- `PALEN`: number of physical address bits (D2). -/
  palen : Nat
  /-- `TLB_ENTRIES` (D3). -/
  tlbEntries : Nat
  /-- `TLB_INDEX_BITS`: width of TLBIDX.Index (D3, R71). -/
  tlbIndexBits : Nat
  /-- `TIMER_BITS`: width of the timer (D4, R81). -/
  timerBits : Nat
  /-- `FP_LEVEL` (D5). -/
  fpLevel : FpLevel
  /-- `CORE_ID`: CPUID.CoreID (R68). -/
  coreId : BitVec 9
  /-- A cache line is 2 ^ lineBits bytes: the unit of R385 and of the Hit-class CACOP (R203). The spec gives no size; log 9. -/
  lineBits : Nat
  /-- The physical memory map (R215, D18). -/
  memMap : List Region
  /-- Reset clears the TLB (R6, R711, U27). Whether it clears the caches shows nowhere: no cache is modelled (D24, log 10). -/
  tlbClearedByReset : Bool
  /-- Reset sets TID to CoreID (R80, U27). -/
  tidResetToCoreId : Bool
  deriving DecidableEq, Repr

namespace Config

/-- The default machine: the spec's defaults where it has them and the examples' values where it has none (D2 to D5, log 1);
all of the 2 ^ 32 bytes are memory (log 7). -/
def default : Config where
  palen := 32
  tlbEntries := 32
  tlbIndexBits := 5
  timerBits := 32
  fpLevel := .full
  coreId := 0
  lineBits := 6
  memMap := [⟨0, 2 ^ 32, .ram⟩]
  tlbClearedByReset := false
  tidResetToCoreId := false

/-- The ranges R6, D3 and D4 allow; a PALEN below 12 is among them, and the PPN fields then have no bit (log 53). -/
def wf (c : Config) : Bool :=
  1 ≤ c.palen && c.palen ≤ 36 && 1 ≤ c.tlbEntries && c.tlbEntries ≤ 2 ^ c.tlbIndexBits && c.tlbIndexBits ≤ 16 &&
    3 ≤ c.timerBits && c.timerBits ≤ 32

/-- FRLEN = 64: the upper halves of the floating-point registers exist (R36). -/
def wideFpr (c : Config) : Bool := c.fpLevel != .single

/-- What stands at a physical address: the first region that holds it, inside the space of R150. -/
def regionAt (c : Config) (pa : Nat) : Option RegionKind :=
  if pa < 2 ^ c.palen then
    (c.memMap.find? fun r => r.base ≤ pa && pa < r.base + r.size).map (·.kind)
  else none

/-- The cache line that holds a physical address. -/
def line (c : Config) (pa : Nat) : Nat := pa >>> c.lineBits

end Config

/-- The places where the spec leaves a value open: one name per kind of `UNSPEC` (R8, spec/93_implementation_defined.md). -/
inductive FreeSite where
  /-- Bits 63:32 of a floating-point register after a narrow write (U21). -/
  | upperHalf
  /-- Quotient or remainder of a division by zero (U1). -/
  | quotient
  /-- The integer result of an invalid FTINT* (U22). -/
  | ftint
  /-- The sign of a NaN result of FMSUB, FNMADD, FNMSUB (U23). -/
  | nanSign
  /-- The sign of FMAX, FMIN, FMAXA, FMINA of zeros of opposite sign (U23). -/
  | zeroSign
  /-- Whether Flags bits of exceptions that did not trap are set when another traps (U25). -/
  | trapFlags
  /-- LLbit after SC.W (U19). -/
  | llbit
  /-- The result register of an SC.W whose access is not coherent cached (U2). -/
  | scResult
  /-- The word left in memory by an SC.W whose access is not coherent cached (U2). -/
  | scStore
  /-- The read value of LLBCTL.WCLLB (U18). -/
  | w1Bit
  /-- The read value of CTAG (R84). -/
  | cacheTag
  /-- MOVGR2FCSR, MOVFCSR2GR with an fcsr number of 4 to 31 (U5). -/
  | fcsr
  /-- The TLB entry TLBFILL picks (U17). -/
  | tlbIndex
  /-- Which word a fetch sees, where the core stored without the sequence of R722 (U12). -/
  | fetched
  /-- The n-th register left unspecified by a reset (U20). -/
  | reset (n : Nat)
  deriving DecidableEq, Repr

/-- The free values: the value drawn at the n-th draw for each place. No body, so no proof can see it; fewer bits are its low bits. -/
opaque Config.free : Nat → FreeSite → DWord

end Sys2Proof
end

