-- ==== Sys2Proof/Machine/State.lean ====
section
/-! DEFINITION. The machine's state, plain data, with everything spec/10_state.md R30 gives it; the reasons a step can stop; and
the state after reset (spec/10_state.md R90, spec/70_reset_and_hazards.md R700). -/

namespace Sys2Proof.Machine

/-- One page of a TLB entry's pair (R45). Bit k of `ppn` is physical address bit k + 12. -/
structure TlbPage where
  /-- V: the page-table entry is valid. -/
  v : Bool
  /-- D: dirty. -/
  d : Bool
  /-- PLV: least privileged level that may use the page. -/
  plv : BitVec 2
  /-- MAT: memory access type. -/
  mat : BitVec 2
  /-- PPN: PALEN - 12 bits, the rest 0. -/
  ppn : BitVec 24
  deriving DecidableEq, Repr

/-- One TLB entry (R45): the compare part and the even and odd page. -/
structure TlbEntry where
  /-- E: the entry exists. -/
  e : Bool
  /-- ASID. -/
  asid : BitVec 10
  /-- G: global. -/
  g : Bool
  /-- PS: page size as a power of two. -/
  ps : BitVec 6
  /-- VPPN: virtual address bits 31:13. -/
  vppn : BitVec 19
  /-- The even page (suffix 0). -/
  page0 : TlbPage
  /-- The odd page (suffix 1). -/
  page1 : TlbPage
  deriving DecidableEq, Repr

/-- One floating-point register, f[n][63:32] and f[n][31:0]. Two words, because a narrow write leaves the upper one open (R37). -/
structure FReg where
  hi : Word
  lo : Word
  deriving DecidableEq, Repr

/-- The control and status registers that hold state of their own (R57 to R81). A reserved or read-only-zero bit is held as 0.
PGD, CPUID, TVAL, TICLR and CTAG hold none; ESTAT.IS[12:2] and LLBCTL.ROLLB are views of other fields. -/
structure Csrs where
  /-- 0x0 (R60). -/
  crmd : Word
  /-- 0x1 (R61). -/
  prmd : Word
  /-- 0x2 (R62). -/
  euen : Word
  /-- 0x4 (R63). -/
  ecfg : Word
  /-- 0x5: IS[1:0], Ecode, EsubCode (R64). -/
  estat : Word
  /-- 0x6 (R65). -/
  era : Word
  /-- 0x7 (R66). -/
  badv : Word
  /-- 0xC (R67). -/
  eentry : Word
  /-- 0x10 (R71). -/
  tlbidx : Word
  /-- 0x11 (R72). -/
  tlbehi : Word
  /-- 0x12 (R73). -/
  tlbelo0 : Word
  /-- 0x13 (R73). -/
  tlbelo1 : Word
  /-- 0x18: the ASID field (R74). -/
  asid : Word
  /-- 0x19 (R75). -/
  pgdl : Word
  /-- 0x1A (R76). -/
  pgdh : Word
  /-- 0x30 (R69). -/
  save0 : Word
  /-- 0x31 (R69). -/
  save1 : Word
  /-- 0x32 (R69). -/
  save2 : Word
  /-- 0x33 (R69). -/
  save3 : Word
  /-- 0x40 (R80). -/
  tid : Word
  /-- 0x41 (R81). -/
  tcfg : Word
  /-- 0x60: the KLO bit (R70). -/
  llbctl : Word
  /-- 0x88 (R78). -/
  tlbrentry : Word
  /-- 0x180 (R79). -/
  dmw0 : Word
  /-- 0x181 (R79). -/
  dmw1 : Word
  deriving DecidableEq, Repr

/-- Physical memory: the bytes that differ from what an unlisted byte reads as, by rising address. -/
abbrev Memory := List Host.Cell

/-- What a physical address not listed reads as. DESIGN CHOICE (log 6): 0x00; the spec leaves memory at power-on open (R701). -/
def Memory.unlisted (_pa : Nat) : Byte := 0

/-- The one canonical form: addresses strictly rising, and no entry equal to what an unlisted address reads as. -/
def Memory.wf : Memory → Bool
  | [] => true
  | (a, b) :: rest => b != Memory.unlisted a && rest.all (fun c => a < c.1) && Memory.wf rest

/-- How far the sequence of R722 has come for a word stored to. -/
inductive SyncStage where
  /-- Stored: the data cache may hold the new word and the instruction cache the old one. -/
  | stored
  /-- CACOP 0x11 has written the line back: the new word is in memory. -/
  | writtenBack
  /-- CACOP 0x10 has then dropped the line from the instruction cache: only instructions fetched early may be old. -/
  | invalidated
  deriving DecidableEq, Repr

/-- An aligned word this core stored to and a fetch need not see yet (R201, U12, log 12). -/
structure StaleWord where
  /-- Its physical address, a multiple of 4. -/
  pa : Nat
  /-- The word as it stood before each store to it since the last complete sequence: what a fetch may still see. -/
  olds : List Word
  /-- How far the sequence has come since the last of those stores. -/
  stage : SyncStage
  deriving DecidableEq, Repr

/-- What an agent other than the core does between two instruction steps (R15, R600). -/
inductive EnvEvent where
  /-- One tick of the constant-frequency clock (R650). -/
  | tick
  /-- The hardware interrupt lines HWI7..HWI0 take these levels (R47). -/
  | hwi (lines : BitVec 8)
  /-- The inter-processor interrupt line takes this level (R47). -/
  | ipi (line : Bool)
  /-- LLbit is cleared for a reason outside the core (R385, D9). -/
  | clearLLbit
  /-- Another core or a coherent I/O master completes the store of a byte (R385). -/
  | store (pa : Nat) (b : Byte)
  /-- The core is reset (R700). -/
  | reset
  deriving DecidableEq, Repr

/-- The machine's state (R30). -/
structure State where
  /-- The implementation's parameters (R6). -/
  cfg : Config
  /-- General registers (R31). r0 is read and written through the accessors only. -/
  gpr : Vector Word 32
  /-- The address of the instruction being executed (R33). -/
  pc : Word
  /-- Floating-point registers (R36). -/
  fpr : Vector FReg 32
  /-- Condition flag register fcc0 (R38). -/
  fcc0 : Bool
  /-- Floating-point control and status (R39). -/
  fcsr0 : Word
  /-- Control and status registers (R57). -/
  csr : Csrs
  /-- LLbit (R42). -/
  llbit : Bool
  /-- The physical address recorded by the last LL.W (R42, log 9). -/
  llAddr : Nat
  /-- Stable Counter (R43). -/
  stableCounter : DWord
  /-- The timer's current value, `TIMER_BITS` bits (R44, R651). -/
  timerVal : Word
  /-- timer_run: the timer has not stopped (R651). -/
  timerRun : Bool
  /-- The timer interrupt flag, seen as ESTAT.IS[11] (R653). -/
  tiFlag : Bool
  /-- The TLB, entry 0 first (R45). -/
  tlb : List TlbEntry
  /-- Levels of HWI7..HWI0, seen as ESTAT.IS[9:2] (R47, R641). -/
  hwi : BitVec 8
  /-- Level of the IPI line, seen as ESTAT.IS[12] (R47, R641). -/
  ipi : Bool
  /-- The core waits after IDLE (R48). -/
  waiting : Bool
  /-- Physical memory (R150). -/
  mem : Memory
  /-- The MODEL's own: the words a fetch may see in an old value, at most one entry an address (R201, U12, log 12). -/
  stale : List StaleWord
  /-- The MODEL's own: how many free values have been drawn (log 2). -/
  draws : Nat
  /-- The MODEL's own: what the other agents do after each coming step, next step first; when empty, one tick (log 8). -/
  agenda : List (List EnvEvent)
  deriving DecidableEq, Repr

/-- Why a step stops with a fault: the spec calls the machine's behaviour undefined and gives it no effect. All are safe: the
model stops where the hardware does something the spec does not say. -/
inductive Fault where
  /-- CRMD (DA, PG) is (0, 0) or (1, 1) when an address is translated (R179, U9). Raised by `translate`. -/
  | illegalTranslationMode
  /-- More than one TLB entry matches (R177, U7). Raised by `tlbLookup` and TLBSRCH. -/
  | multipleTlbHits
  /-- A valid TLB entry whose page size is neither 12 nor 21 is consulted (R178, U8). Raised by `tlbLookup`, TLBSRCH, INVTLB. -/
  | unsupportedPageSize
  /-- TLBRD or TLBWR with an index beyond the TLB (R541, U6). Raised by TLBRD, TLBWR. -/
  | tlbIndexOutOfRange
  /-- A fetch, load or store with the reserved memory access type 2 or 3 (R180, U15). Raised by `checkAccess`. -/
  | reservedMemoryType
  /-- A physical address with nothing behind it (R215, U28). Raised by `checkAccess`. -/
  | noMemory
  deriving DecidableEq, Repr

/-- Why a step is refused. All are safe. -/
inductive Refusal where
  /-- The instruction has no meaning in this model. Raised by an arm of `exec` that is not written yet. -/
  | notModelled (mnemonic : String)
  /-- A cd, cj or ca field of 1 to 7, which names no condition flag register (D7, U26). Raised by the instructions with such a field. -/
  | noSuchConditionFlag
  /-- An access to a device of the memory map, whose behaviour the spec does not give (R185, R668). Raised by `checkAccess`. -/
  | deviceAccess
  deriving DecidableEq, Repr

/-- An empty TLB entry, every field 0. -/
def TlbEntry.empty : TlbEntry where
  e := false
  asid := 0
  g := false
  ps := 0
  vppn := 0
  page0 := ⟨false, false, 0, 0, 0⟩
  page1 := ⟨false, false, 0, 0, 0⟩

/-- A TLB entry after a reset, when it would else hold `held`: where reset clears the TLB it is not valid, as INVTLB 0 leaves it
(R6, R711, U27; that no more than E is cleared is log 10). -/
def TlbEntry.afterReset (cfg : Config) (held : TlbEntry) : TlbEntry :=
  if cfg.tlbClearedByReset then { held with e := false } else held

/-- The control and status registers after reset: R90 gives CRMD, EUEN.FPE, ECFG.LIE, ESTAT.IS[1:0], TCFG.En, LLBCTL.KLO and the
PLV bits of DMW0 and DMW1; every other field is DESIGN CHOICE 0 (log 3), TID the core's number (log 4). -/
def Csrs.reset (cfg : Config) : Csrs where
  crmd := 0x00000008
  prmd := 0
  euen := 0
  ecfg := 0
  estat := 0
  era := 0
  badv := 0
  eentry := 0
  tlbidx := 0
  tlbehi := 0
  tlbelo0 := 0
  tlbelo1 := 0
  asid := 0
  pgdl := 0
  pgdh := 0
  save0 := 0
  save1 := 0
  save2 := 0
  save3 := 0
  tid := cfg.coreId.setWidth 32
  tcfg := 0
  llbctl := 0
  tlbrentry := 0
  dmw0 := 0
  dmw1 := 0

/-- The state right after reset of a machine with the given parameters (R90, R700; what R90 leaves open is log 3 to 6, among it
what a TLB that reset does not clear holds, and TID where reset does not set it). -/
def State.resetWith (cfg : Config) : State where
  cfg := cfg
  gpr := Vector.replicate 32 0
  pc := 0x1C000000
  fpr := Vector.replicate 32 ⟨0, 0⟩
  fcc0 := false
  fcsr0 := 0
  csr := Csrs.reset cfg
  llbit := false
  llAddr := 0
  stableCounter := 0
  timerVal := 0
  timerRun := false
  tiFlag := false
  tlb := List.replicate cfg.tlbEntries (TlbEntry.empty.afterReset cfg)
  hwi := 0
  ipi := false
  waiting := false
  mem := []
  stale := []
  draws := 0
  agenda := []

/-- The machine right after reset, with the default parameters (log 1). -/
def State.reset : State := State.resetWith Config.default

end Sys2Proof.Machine
end

