-- ==== Sys2Proof/Machine/Ops.lean ====
section
/-! DEFINITION. The operations every meaning is written over: registers, free values, taking an exception and returning from
one, interrupts, physical memory, address translation, and the checked memory accesses. -/

namespace Sys2Proof.Machine

/-- What executing an instruction answers. -/
abbrev Result := Host.Outcome State Fault Refusal

/-- The bits of `old` under `mask` replaced by those of `v`. -/
def setBits (old mask v : Word) : Word := (old &&& ~~~mask) ||| (v &&& mask)

/-- One bit as a word. -/
def wordOfBool (b : Bool) : Word := if b then 1 else 0

/-! ## Registers -/

/-- x[r]; x[0] reads 0 (R31). -/
def State.readGpr (s : State) (r : RegNum) : Word := if r = 0 then 0 else s.gpr[r.toNat]'r.isLt

/-- x[r] <- v; a write to x[0] is discarded (R31). -/
def State.writeGpr (s : State) (r : RegNum) (v : Word) : State :=
  if r = 0 then s else { s with gpr := s.gpr.set r.toNat v r.isLt }

/-- f[r] (R36). -/
def State.readFpr (s : State) (r : RegNum) : FReg := s.fpr[r.toNat]'r.isLt

/-- f[r][31:0], the single or word in a register (R37). -/
def State.readFprW (s : State) (r : RegNum) : Word := (s.readFpr r).lo

/-- f[r][63:0]. -/
def State.readFprD (s : State) (r : RegNum) : DWord := (s.readFpr r).hi ++ (s.readFpr r).lo

/-- f[r] <- v. -/
def State.writeFpr (s : State) (r : RegNum) (v : FReg) : State := { s with fpr := s.fpr.set r.toNat v r.isLt }

/-- f[r] <- v, a doubleword. -/
def State.writeFprD (s : State) (r : RegNum) (v : DWord) : State := s.writeFpr r ⟨v.extractLsb' 32 32, v.extractLsb' 0 32⟩

/-- pc <- pc + 4, modulo 2^32 (R34, D1). -/
def State.advance (s : State) : State := { s with pc := s.pc + 4 }

/-- The instruction is complete and the next one follows it (R34). -/
def State.retire (s : State) : Result := .next s.advance

/-! ## Free values (R8 `UNSPEC`, log 2) -/

/-- The value of the current draw at a place the spec leaves open. -/
def State.free (s : State) (site : FreeSite) : DWord := Config.free s.draws site

/-- The same, 32 bits. -/
def State.freeWord (s : State) (site : FreeSite) : Word := (s.free site).extractLsb' 0 32

/-- The same, 1 bit. -/
def State.freeBit (s : State) (site : FreeSite) : Bool := (s.free site).getLsbD 0

/-- The draw is used up. -/
def State.drawn (s : State) : State := { s with draws := s.draws + 1 }

/-- f[r][31:0] <- v; with 64-bit registers f[r][63:32] is a free value (R37, D29, log 35). The instruction uses the draw. -/
def State.writeFprW (s : State) (r : RegNum) (v : Word) : State :=
  s.writeFpr r ⟨if s.cfg.wideFpr then s.freeWord .upperHalf else (s.readFpr r).hi, v⟩

/-! ## The fields of CRMD and PRMD (R60, R61) -/

/-- CRMD.PLV. -/
def State.plv (s : State) : BitVec 2 := s.csr.crmd.extractLsb' 0 2
/-- CRMD.IE. -/
def State.ie (s : State) : Bool := s.csr.crmd.getLsbD 2
/-- CRMD.DA. -/
def State.da (s : State) : Bool := s.csr.crmd.getLsbD 3
/-- CRMD.PG. -/
def State.pg (s : State) : Bool := s.csr.crmd.getLsbD 4
/-- CRMD.DATF. -/
def State.datf (s : State) : BitVec 2 := s.csr.crmd.extractLsb' 5 2
/-- CRMD.DATM. -/
def State.datm (s : State) : BitVec 2 := s.csr.crmd.extractLsb' 7 2
/-- ESTAT.Ecode (R64). -/
def State.ecode (s : State) : BitVec 6 := s.csr.estat.extractLsb' 16 6
/-- EUEN.FPE (R62). -/
def State.fpe (s : State) : Bool := s.csr.euen.getLsbD 0
/-- ASID.ASID (R74). -/
def State.asidField (s : State) : BitVec 10 := s.csr.asid.extractLsb' 0 10

/-! ## Exceptions (R610 to R625) -/

/-- The exceptions of R610, each with the bad virtual address it records. Nothing raises `adem` (R619). -/
inductive Exc where
  | int
  | pil (va : Word)
  | pis (va : Word)
  | pif (va : Word)
  | pme (va : Word)
  | ppi (va : Word)
  | adef (va : Word)
  | adem
  | ale (va : Word)
  | sys
  | brk
  | ine
  | ipe
  | fpd
  | fpe
  | tlbr (va : Word)
  deriving DecidableEq, Repr

/-- The first-level code (R610). -/
def Exc.ecode : Exc → BitVec 6
  | .int => 0x0
  | .pil _ => 0x1
  | .pis _ => 0x2
  | .pif _ => 0x3
  | .pme _ => 0x4
  | .ppi _ => 0x7
  | .adef _ => 0x8
  | .adem => 0x8
  | .ale _ => 0x9
  | .sys => 0xB
  | .brk => 0xC
  | .ine => 0xD
  | .ipe => 0xE
  | .fpd => 0xF
  | .fpe => 0x12
  | .tlbr _ => 0x3F

/-- The second-level code (R610): 1 for ADEM, else 0. -/
def Exc.esubcode : Exc → BitVec 9
  | .adem => 1
  | _ => 0

/-- The address written to BADV, for the exceptions that write it (R66, R620). -/
def Exc.badv : Exc → Option Word
  | .pil va | .pis va | .pif va | .pme va | .ppi va | .adef va | .ale va | .tlbr va => some va
  | _ => none

/-- The address whose bits 31:13 go to TLBEHI, for the TLB-related exceptions (R72, R620). -/
def Exc.tlbAddr : Exc → Option Word
  | .pil va | .pis va | .pif va | .pme va | .ppi va | .tlbr va => some va
  | _ => none

/-- TLB refill has its own entry and switches to direct address translation (R620, R621). -/
def Exc.isRefill : Exc → Bool
  | .tlbr _ => true
  | _ => false

/-- CRMD after entry: PLV and IE 0; for TLB refill DA 1 and PG 0 as well (R620). -/
def Exc.crmdAfter (e : Exc) (crmd : Word) : Word :=
  if e.isRefill then setBits crmd 0x1F 0x08 else setBits crmd 0x07 0

/-- ESTAT after entry: Ecode and EsubCode replaced (R620). -/
def Exc.estatAfter (e : Exc) (estat : Word) : Word :=
  setBits estat 0x7FFF0000 (e.ecode.setWidth 32 <<< 16 ||| e.esubcode.setWidth 32 <<< 22)

/-- TLBEHI after entry (R620, R622). -/
def Exc.tlbehiAfter (e : Exc) (tlbehi : Word) : Word :=
  match e.tlbAddr with
  | some va => va &&& 0xFFFFE000
  | none => tlbehi

/-- The entry address: TLBRENTRY for TLB refill, EENTRY for everything else, low 6 bits 0 (R621, R67, R78). -/
def Exc.entry (e : Exc) (c : Csrs) : Word := (if e.isRefill then c.tlbrentry else c.eentry) &&& 0xFFFFFFC0

/-- Taking an exception or interrupt, `Enter(X, pc, badv)` of R620: the one place where it is done. LLbit stays (D32, log 47). -/
def enterException (e : Exc) (s : State) : State :=
  { s with
    pc := e.entry s.csr
    csr := { s.csr with
      prmd := setBits s.csr.prmd 0x07 s.csr.crmd
      crmd := e.crmdAfter s.csr.crmd
      estat := e.estatAfter s.csr.estat
      era := s.pc
      badv := e.badv.getD s.csr.badv
      tlbehi := e.tlbehiAfter s.csr.tlbehi } }

/-- CRMD after ERTN: PLV and IE from PRMD; DA 0 and PG 1 when the last exception was a TLB refill (R550). -/
def crmdAfterReturn (c : Csrs) : Word :=
  let crmd := setBits c.crmd 0x07 c.prmd
  if c.estat.extractLsb' 16 6 = 0x3F#6 then setBits crmd 0x18 0x10 else crmd

/-- Returning from an exception (R550, R624): LLbit is cleared unless KLO is 1, and KLO works once. -/
def returnFromException (s : State) : State :=
  { s with
    pc := s.csr.era
    llbit := s.llbit && s.csr.llbctl.getLsbD 2
    csr := { s.csr with
      crmd := crmdAfterReturn s.csr
      llbctl := setBits s.csr.llbctl 0x04 0 } }

/-! ## Interrupts (R640 to R645) -/

/-- ESTAT.IS[12:0] as it reads now: the software bits, the hardware lines, the timer flag, the IPI line (R641, D33). -/
def State.interruptStatus (s : State) : Word :=
  (s.csr.estat &&& 0x3) ||| s.hwi.setWidth 32 <<< 2 ||| wordOfBool s.tiFlag <<< 11 ||| wordOfBool s.ipi <<< 12

/-- int_vec: the pending and locally enabled interrupts (R642). -/
def State.intVec (s : State) : Word := s.interruptStatus &&& s.csr.ecfg &&& 0x1BFF

/-- An interrupt is to be taken: IE and some pending, enabled interrupt, at any privilege level (R642). -/
def State.interruptDue (s : State) : Bool := s.ie && s.intVec != 0

/-! ## What can go wrong inside an instruction -/

/-- The answer of a part of an instruction: a value, an exception to take, or a stop. -/
inductive Res (α : Type) where
  | ok (a : α)
  | trap (e : Exc)
  | fault (f : Fault)
  | refused (r : Refusal)
  deriving Repr

/-- Goes on with the value, if there is one. -/
def Res.bind {α β : Type} (r : Res α) (k : α → Res β) : Res β :=
  match r with
  | .ok a => k a
  | .trap e => .trap e
  | .fault f => .fault f
  | .refused r => .refused r

/-- Ends an instruction: goes on with the value, or takes the exception in `s`, which is the state before the instruction (R601). -/
def Res.run {α : Type} (r : Res α) (s : State) (k : α → Result) : Result :=
  match r with
  | .ok a => k a
  | .trap e => .next (enterException e s)
  | .fault f => .fault f
  | .refused r => .refused r

/-- Raises an exception: the instruction has no other effect (R8 `raise`, R601). -/
def raise (e : Exc) (s : State) : Result := .next (enterException e s)

/-- A privileged instruction: IPE at any level but PLV0 (R533, R612). -/
def privileged (s : State) (k : Result) : Result := if s.plv = 0 then k else raise .ipe s

/-- Which implementations have a floating-point instruction (D5): those with any, or those with doubles. -/
inductive FpNeed where
  | single
  | double
  deriving DecidableEq, Repr

/-- The implementation has the instruction (R411 step 1). -/
def FpNeed.present (n : FpNeed) (l : FpLevel) : Bool :=
  match n, l with
  | _, .none => false
  | .single, .single => true
  | .double, .single => false
  | _, .full => true

/-- The frame of a floating-point instruction (R411): INE when the implementation lacks it, then FPD when EUEN.FPE = 0 (R631). -/
def fpInstr (need : FpNeed) (s : State) (k : Result) : Result :=
  if need.present s.cfg.fpLevel then (if s.fpe then k else raise .fpd s) else raise .ine s

/-- An operand field that names a condition flag register: only 0 names one (D7, log 17). -/
def withFlagField (c : BitVec 3) (k : Result) : Result := if c = 0 then k else .refused .noSuchConditionFlag

/-! ## Physical memory (R150, R153) -/

/-- The byte at a physical address. -/
def Memory.read : Memory → Nat → Byte
  | [], a => Memory.unlisted a
  | (x, b) :: rest, a => if x = a then b else Memory.read rest a

/-- An entry in front of `rest`, left out when it says what an unlisted address reads as. -/
def Memory.put (a : Nat) (b : Byte) (rest : Memory) : Memory := if b = Memory.unlisted a then rest else (a, b) :: rest

/-- The memory with one byte written; keeps the canonical form. -/
def Memory.write : Memory → Nat → Byte → Memory
  | [], a, b => Memory.put a b []
  | (x, c) :: rest, a, b =>
    if a < x then Memory.put a b ((x, c) :: rest)
    else if a = x then Memory.put a b rest
    else (x, c) :: Memory.write rest a b

/-- The `n` bytes from `pa` up, little-endian (R153), in the low 8n bits. -/
def Memory.loadLE (m : Memory) (pa : Nat) : Nat → DWord
  | 0 => 0
  | n + 1 => (m.read pa).setWidth 64 ||| Memory.loadLE m (pa + 1) n <<< 8

/-- The low 8n bits of `v` written to the `n` bytes from `pa` up, little-endian (R153). -/
def Memory.storeLE (m : Memory) (pa : Nat) : Nat → DWord → Memory
  | 0, _ => m
  | n + 1, v => Memory.storeLE (m.write pa (v.extractLsb' 0 8)) (pa + 1) n (v >>> 8)

/-! ## What a fetch sees (R201, R722, U12, log 12) -/

/-- The aligned word at a physical address. -/
def Memory.word (m : Memory) (pa : Nat) : Word := (m.loadLE pa 4).extractLsb' 0 32

/-- The old values listed for the word at a physical address. -/
def oldWordsIn (stale : List StaleWord) (pa : Nat) : List Word := ((stale.find? (·.pa == pa)).map (·.olds)).getD []

/-- The old values of the word at a physical address that a fetch may still see. -/
def State.oldWords (s : State) (pa : Nat) : List Word := oldWordsIn s.stale pa

/-- The instruction word a fetch of the word at `pa` sees: as memory holds it now or, where the sequence of R722 is not complete, as
it stood before one of the stores to it; a free value picks, at every fetch (U12). The whole sequence is asked for whatever the
access types of the stores and the fetch are, strongly-ordered uncached ones too, which use no cache (R183, R702): DESIGN CHOICE,
log 12. -/
def State.fetchWord (s : State) (pa : Nat) : Word :=
  (s.oldWords pa).getD ((s.free .fetched).toNat % ((s.oldWords pa).length + 1)) (s.mem.word pa)

/-- The state after the fetch of the word at `pa`: a draw is used when the word has an old value. -/
def State.fetched (s : State) (pa : Nat) : State := if (s.oldWords pa).isEmpty then s else s.drawn

/-- `stale` with `old` recorded as what the word at `pa` was before a store: the sequence starts again for it. -/
def recordOld (stale : List StaleWord) (pa : Nat) (old : Word) : List StaleWord :=
  ⟨pa, (oldWordsIn stale pa).insert old, .stored⟩ :: stale.filter (·.pa != pa)

/-- `stale` with the `k` words of `m` from `pa` up recorded. -/
def recordOlds (m : Memory) (stale : List StaleWord) (pa : Nat) : Nat → List StaleWord
  | 0 => stale
  | k + 1 => recordOlds m (recordOld stale pa (m.word pa)) (pa + 4) k

/-- A store of this core: the low 8n bits of `v` in the `n` bytes from `pa` up, aligned; a fetch may still see the words they lie in
as they were (R201), whatever the access type of the store (DESIGN CHOICE, log 12). -/
def State.storeMem (s : State) (pa n : Nat) (v : DWord) : State :=
  { s with mem := s.mem.storeLE pa n v, stale := recordOlds s.mem s.stale (pa / 4 * 4) ((n + 3) / 4) }

/-- Byte `j` of a word replaced. -/
def replaceByte (w : Word) (j : Nat) (b : Byte) : Word := setBits w (0xFF <<< (8 * j)) (b.setWidth 32 <<< (8 * j))

/-- Another master has stored `b` at `pa`: hardware keeps the instruction cache coherent with that store, so a fetch sees it in every
value of the word it may see (R200). -/
def State.snoop (s : State) (pa : Nat) (b : Byte) : State :=
  { s with stale := s.stale.map fun w =>
      if w.pa = pa / 4 * 4 then { w with olds := w.olds.map (replaceByte · (pa % 4) b) } else w }

/-- What a Hit-class CACOP on cache `obj` does for a word of its line: the data cache (1) is written back, then the instruction cache
(0) drops the line (R203, R722). -/
def SyncStage.afterHit (obj : BitVec 3) : SyncStage → SyncStage
  | .stored => if obj = 1 then .writtenBack else .stored
  | .writtenBack => if obj = 0 then .invalidated else .writtenBack
  | .invalidated => .invalidated

/-- A Hit-class CACOP on cache `obj` for the line that holds `pa`. -/
def State.cacheHit (s : State) (obj : BitVec 3) (pa : Nat) : State :=
  { s with stale := s.stale.map fun b =>
      if s.cfg.line b.pa = s.cfg.line pa then { b with stage := b.stage.afterHit obj } else b }

/-- IBAR (R391): a fetch after it sees the new value of every word for which the cache maintenance is done. -/
def State.fetchBarrier (s : State) : State := { s with stale := s.stale.filter (·.stage != .invalidated) }

/-! ## Address translation (R170 to R179) -/

/-- The kind of an access (R170). -/
inductive Access where
  | fetch
  | load
  | store
  deriving DecidableEq, Repr

/-- A translated address: physical address and memory access type. -/
structure Translated where
  pa : Nat
  mat : BitVec 2
  deriving DecidableEq, Repr

/-- Direct address translation (R171). -/
def directTranslate (s : State) (va : Word) (k : Access) : Translated :=
  ⟨va.toNat % 2 ^ s.cfg.palen, match k with | .fetch => s.datf | .load | .store => s.datm⟩

/-- Window `dmw` hits `va` at the current privilege level (R173). -/
def dmwHit (s : State) (dmw va : Word) : Bool :=
  va.extractLsb' 29 3 == dmw.extractLsb' 29 3 &&
    ((s.plv == 0 && dmw.getLsbD 0) || (s.plv == 3 && dmw.getLsbD 3))

/-- Translation by a window that hits (R173). -/
def dmwTranslate (s : State) (dmw va : Word) : Translated :=
  ⟨(dmw.extractLsb' 25 3 ++ va.extractLsb' 0 29).toNat % 2 ^ s.cfg.palen, dmw.extractLsb' 4 2⟩

/-- Only 4 KB and 2 MB pages are supported (R178). -/
def TlbEntry.psSupported (e : TlbEntry) : Bool := e.ps == 12 || e.ps == 21

/-- G, or the same ASID (R175). -/
def TlbEntry.asidMatch (e : TlbEntry) (asid : BitVec 10) : Bool := e.g || e.asid == asid

/-- `VPPN[31:PS+1] == va[31:PS+1]` (R175, R546). -/
def TlbEntry.vaMatch (e : TlbEntry) (va : Word) : Bool :=
  (e.vppn ++ 0#13).toNat >>> (e.ps.toNat + 1) == va.toNat >>> (e.ps.toNat + 1)

/-- The entries that match, each with its index, in rising order (R175, R540). -/
def tlbMatches (tlb : List TlbEntry) (asid : BitVec 10) (va : Word) : List (TlbEntry × Nat) :=
  tlb.zipIdx.filter fun p => p.1.e && p.1.asidMatch asid && p.1.vaMatch va

/-- The lookup of R175 and R546: the one matching entry and its index, or none; more than one is undefined (R177), and so is a
valid entry of this address space with an unsupported page size (R178). -/
def tlbLookup (s : State) (va : Word) : Res (Option (TlbEntry × Nat)) :=
  if s.tlb.any fun e => e.e && e.asidMatch s.asidField && !e.psSupported then .fault .unsupportedPageSize
  else
    match tlbMatches s.tlb s.asidField va with
    | [] => .ok none
    | [p] => .ok (some p)
    | _ => .fault .multipleTlbHits

/-- The exception for a matching page with V = 0 (R175). -/
def Access.invalidPage (k : Access) (va : Word) : Exc :=
  match k with
  | .fetch => .pif va
  | .load => .pil va
  | .store => .pis va

/-- The page of the pair that `va` falls in: bit PS picks it (R175). -/
def TlbEntry.page (e : TlbEntry) (va : Word) : TlbPage := if va.getLsbD e.ps.toNat then e.page1 else e.page0

/-- `{ppn[PALEN-13 : ps-12], va[ps-1 : 0]}` (R175). -/
def pagePhysical (palen ps : Nat) (ppn : BitVec 24) (va : Word) : Nat :=
  (ppn.toNat % 2 ^ (palen - 12) / 2 ^ (ps - 12) * 2 ^ ps + va.toNat % 2 ^ ps) % 2 ^ palen

/-- The checks on the matching page, in the order of R175. -/
def pageTranslate (s : State) (e : TlbEntry) (va : Word) (k : Access) : Res Translated :=
  let p := e.page va
  if !p.v then .trap (k.invalidPage va)
  else if p.plv < s.plv then .trap (.ppi va)
  else if k == .store && !p.d then .trap (.pme va)
  else .ok ⟨pagePhysical s.cfg.palen e.ps.toNat p.ppn va, p.mat⟩

/-- Page-table mapping through the TLB (R175). -/
def tlbTranslate (s : State) (va : Word) (k : Access) : Res Translated :=
  (tlbLookup s va).bind fun hit =>
    match hit with
    | none => .trap (.tlbr va)
    | some (e, _) => pageTranslate s e va k

/-- Translation, top level (R170): in mapped mode the windows first, DMW0 before DMW1 (D13, log 24); an illegal DA, PG pair is
undefined (R179). -/
def translate (s : State) (va : Word) (k : Access) : Res Translated :=
  match s.da, s.pg with
  | true, false => .ok (directTranslate s va k)
  | false, true =>
    if dmwHit s s.csr.dmw0 va then .ok (dmwTranslate s s.csr.dmw0 va)
    else if dmwHit s s.csr.dmw1 va then .ok (dmwTranslate s s.csr.dmw1 va)
    else tlbTranslate s va k
  | _, _ => .fault .illegalTranslationMode

/-! ## Checked accesses (R210, R211) -/

/-- Naturally aligned (R160). -/
def aligned (va : Word) (n : Nat) : Bool := va.toNat % n == 0

/-- What stands behind the `n` bytes from `pa` up. -/
def behind (cfg : Config) (pa n : Nat) : List (Option RegionKind) := (List.range n).map fun k => cfg.regionAt (pa + k)

/-- The access type is 0 or 1 (R180, D14) and there is memory behind every byte (R215, D18). -/
def checkAccess (cfg : Config) (t : Translated) (n : Nat) : Res Unit :=
  if 2 ≤ t.mat.toNat then .fault .reservedMemoryType
  else if (behind cfg t.pa n).contains none then .fault .noMemory
  else if (behind cfg t.pa n).contains (some .device) then .refused .deviceAccess
  else .ok ()

/-- Alignment, translation and the platform's checks, in this order: the physical address and type of an access to `n` bytes. -/
def accessAddr (s : State) (va : Word) (n : Nat) (k : Access) : Res Translated :=
  if aligned va n then
    (translate s va k).bind fun t => (checkAccess s.cfg t n).bind fun _ => .ok t
  else .trap (.ale va)

/-- `MemRead(va, n, LOAD)` (R210), in the low 8n bits. -/
def memRead (s : State) (va : Word) (n : Nat) : Res DWord :=
  (accessAddr s va n .load).bind fun t => .ok (s.mem.loadLE t.pa n)

/-- `MemWrite(va, n, v)` (R210): the state with the bytes stored. -/
def memWrite (s : State) (va : Word) (n : Nat) (v : DWord) : Res State :=
  (accessAddr s va n .store).bind fun t => .ok (s.storeMem t.pa n v)

/-- The checks of SC.W before it reads or writes (R381, D8): alignment and the translation of a store, whatever LLbit is. The memory
map is checked for an access only: with LLbit 0 a coherent cached SC.W makes none and needs no memory behind its address (DESIGN
CHOICE, log 14; for another type the result is undefined whatever LLbit is, log 13, and the check stays). -/
def scTarget (s : State) (va : Word) : Res Translated :=
  if aligned va 4 then
    (translate s va .store).bind fun t =>
      if t.mat = 1 ∧ s.llbit = false then .ok t else (checkAccess s.cfg t 4).bind fun _ => .ok t
  else .trap (.ale va)

/-- The address part of `MemRead(pc, 4, FETCH)` (R211): ADEF first, then translation and the platform's checks. -/
def fetchAddr (s : State) : Res Translated :=
  if aligned s.pc 4 then
    (translate s s.pc .fetch).bind fun t => (checkAccess s.cfg t 4).bind fun _ => .ok t
  else .trap (.adef s.pc)

end Sys2Proof.Machine
end

