-- ==== Sys2Proof/Machine/Operands.lean ====
section
/-! DEFINITION. Operand forms: how each immediate becomes an operand value (spec/30_encoding.md R235), effective addresses
(spec/43_int_mem.md R370, R380) and branch targets (spec/42_int_branch.md R350). -/

namespace Sys2Proof.Machine

/-- `sext_32(si12)` (R235). -/
def sext12 (i : BitVec 12) : Word := i.signExtend 32

/-- `zext_32(ui12)` (R235). -/
def zext12 (i : BitVec 12) : Word := i.setWidth 32

/-- `{si20, 12'b0}` (R235). -/
def upper20 (i : BitVec 20) : Word := i ++ 0#12

/-- `sext_32({si14, 2'b00})` (R235). -/
def sext14x4 (i : BitVec 14) : Word := (i ++ 0#2).signExtend 32

/-- `sext_32({offs16, 2'b00})` (R235). -/
def sext16x4 (i : BitVec 16) : Word := (i ++ 0#2).signExtend 32

/-- `sext_32({offs21, 2'b00})` (R235). -/
def sext21x4 (i : BitVec 21) : Word := (i ++ 0#2).signExtend 32

/-- `sext_32({offs26, 2'b00})` (R235). -/
def sext26x4 (i : BitVec 26) : Word := (i ++ 0#2).signExtend 32

/-- The effective address of the 2RI12 memory instructions: `x[rj] + sext_32(si12)`, modulo 2^32 (R370). -/
def State.addr12 (s : State) (rj : RegNum) (si12 : BitVec 12) : Word := s.readGpr rj + sext12 si12

/-- The effective address of LL.W and SC.W: `x[rj] + sext_32({si14, 2'b00})`, modulo 2^32 (R380, R381). -/
def State.addr14 (s : State) (rj : RegNum) (si14 : BitVec 14) : Word := s.readGpr rj + sext14x4 si14

/-- The shift amount of the register shifts: `x[rk][4:0]` (R340). -/
def State.shiftAmount (s : State) (rk : RegNum) : Nat := ((s.readGpr rk).extractLsb' 0 5).toNat

/-- The result of an operation that writes one general register and falls through (R300). -/
def State.retireGpr (s : State) (rd : RegNum) (v : Word) : Result := (s.writeGpr rd v).retire

/-- A PC-relative branch: to `pc + offset` when taken, else to the next instruction (R350). -/
def State.branch (s : State) (taken : Bool) (offset : Word) : Result :=
  if taken then .next { s with pc := s.pc + offset } else s.retire

end Sys2Proof.Machine
end

