-- ==== Sys2Proof/Machine/Branch.lean ====
section
/-! DEFINITION. Branches and jumps (spec/42_int_branch.md R350 to R361): no delay slot, no exception of their own. -/

namespace Sys2Proof.Machine

/-- `BEQ` (R351). -/
def execBeq (rj rd : RegNum) (offs : BitVec 16) (s : State) : Result :=
  s.branch (s.readGpr rj == s.readGpr rd) (sext16x4 offs)

/-- `BNE` (R352). -/
def execBne (rj rd : RegNum) (offs : BitVec 16) (s : State) : Result :=
  s.branch (s.readGpr rj != s.readGpr rd) (sext16x4 offs)

/-- `BLT` (R353). -/
def execBlt (rj rd : RegNum) (offs : BitVec 16) (s : State) : Result :=
  s.branch ((s.readGpr rj).slt (s.readGpr rd)) (sext16x4 offs)

/-- `BGE` (R354). -/
def execBge (rj rd : RegNum) (offs : BitVec 16) (s : State) : Result :=
  s.branch (!(s.readGpr rj).slt (s.readGpr rd)) (sext16x4 offs)

/-- `BLTU` (R355). -/
def execBltu (rj rd : RegNum) (offs : BitVec 16) (s : State) : Result :=
  s.branch ((s.readGpr rj).ult (s.readGpr rd)) (sext16x4 offs)

/-- `BGEU` (R356). -/
def execBgeu (rj rd : RegNum) (offs : BitVec 16) (s : State) : Result :=
  s.branch (!(s.readGpr rj).ult (s.readGpr rd)) (sext16x4 offs)

/-- `B` (R357). -/
def execB (offs : BitVec 26) (s : State) : Result :=
  s.branch true (sext26x4 offs)

/-- `BL` (R358): links in r1. -/
def execBl (offs : BitVec 26) (s : State) : Result :=
  (s.writeGpr 1 (s.pc + 4)).branch true (sext26x4 offs)

/-- `JIRL` (R359): the base is x[rj] before the link is written (D39, log 46); the target is not aligned (R360). -/
def execJirl (rd rj : RegNum) (offs : BitVec 16) (s : State) : Result :=
  .next { s.writeGpr rd (s.pc + 4) with pc := s.readGpr rj + sext16x4 offs }

end Sys2Proof.Machine
end

