-- ==== Sys2Proof/Machine/Float.lean ====
section
/-! DEFINITION. The arithmetic of IEEE 754-2008 binary32 and binary64 on bit patterns, as spec/45_fp_arith.md R410 to R419 and
R458 to R460 fix it: exact integers, one rounding at the end. A pattern is held in the low bits of a natural number; an
exception set is five bits, V Z O U I from bit 4 down (R412). -/

namespace Sys2Proof.Machine

/-- A binary interchange format (R410). -/
structure FpFmt where
  /-- Width of the exponent field. -/
  expBits : Nat
  /-- Width of the fraction field. -/
  fracBits : Nat
  deriving DecidableEq, Repr

/-- Single precision (R410). -/
def fp32 : FpFmt := ⟨8, 23⟩

/-- Double precision (R410). -/
def fp64 : FpFmt := ⟨11, 52⟩

/-- Number of bits of a significand, the hidden one included. -/
def FpFmt.prec (f : FpFmt) : Nat := f.fracBits + 1
/-- The exponent field of infinities and NaNs: all ones. -/
def FpFmt.expMax (f : FpFmt) : Nat := 2 ^ f.expBits - 1
/-- The exponent bias: 127 or 1023. -/
def FpFmt.bias (f : FpFmt) : Nat := 2 ^ (f.expBits - 1) - 1
/-- Weight of the last place of a subnormal: Emin - (prec - 1). -/
def FpFmt.qMin (f : FpFmt) : Int := 1 - (f.bias : Int) - f.fracBits
/-- Weight of the last place of the largest finite number: Emax - (prec - 1). -/
def FpFmt.qMax (f : FpFmt) : Int := (f.bias : Int) - f.fracBits
/-- The place of the sign bit. -/
def FpFmt.signPos (f : FpFmt) : Nat := f.expBits + f.fracBits

/-- The sign bit of a pattern. -/
def FpFmt.sign (f : FpFmt) (x : Nat) : Bool := x.testBit f.signPos
/-- The exponent field. -/
def FpFmt.expField (f : FpFmt) (x : Nat) : Nat := x / 2 ^ f.fracBits % 2 ^ f.expBits
/-- The fraction field. -/
def FpFmt.fracField (f : FpFmt) (x : Nat) : Nat := x % 2 ^ f.fracBits
/-- A pattern without its sign bit. -/
def FpFmt.magnitude (f : FpFmt) (x : Nat) : Nat := x % 2 ^ f.signPos
/-- A magnitude with the given sign. -/
def FpFmt.withSign (f : FpFmt) (neg : Bool) (mag : Nat) : Nat := mag + if neg then 2 ^ f.signPos else 0

/-- NaN (R410). -/
def FpFmt.isNaN (f : FpFmt) (x : Nat) : Bool := f.expField x == f.expMax && f.fracField x != 0
/-- A NaN is quiet exactly when the top fraction bit is 1 (R410). -/
def FpFmt.isQuiet (f : FpFmt) (x : Nat) : Bool := x.testBit (f.fracBits - 1)
/-- Signalling NaN (R410). -/
def FpFmt.isSNaN (f : FpFmt) (x : Nat) : Bool := f.isNaN x && !f.isQuiet x
/-- Quiet NaN (R410). -/
def FpFmt.isQNaN (f : FpFmt) (x : Nat) : Bool := f.isNaN x && f.isQuiet x
/-- Infinity (R410). -/
def FpFmt.isInf (f : FpFmt) (x : Nat) : Bool := f.expField x == f.expMax && f.fracField x == 0
/-- Zero (R410). -/
def FpFmt.isZero (f : FpFmt) (x : Nat) : Bool := f.magnitude x == 0
/-- The infinity of a sign (R410). -/
def FpFmt.inf (f : FpFmt) (neg : Bool) : Nat := f.withSign neg (f.expMax * 2 ^ f.fracBits)
/-- The finite number of largest magnitude of a sign (R415). -/
def FpFmt.maxFinite (f : FpFmt) (neg : Bool) : Nat := f.withSign neg (f.expMax * 2 ^ f.fracBits - 1)
/-- The default QNaN, 0x7FC00000 or 0x7FF8000000000000 (R414). -/
def FpFmt.defaultNaN (f : FpFmt) : Nat := f.expMax * 2 ^ f.fracBits + 2 ^ (f.fracBits - 1)
/-- A NaN made quiet: the top fraction bit set, all other bits kept (R414). -/
def FpFmt.quieten (f : FpFmt) (x : Nat) : Nat := if f.isQuiet x then x else x + 2 ^ (f.fracBits - 1)
/-- The significand of a finite pattern as an integer; the value is it times 2 ^ quantum (R410). -/
def FpFmt.significand (f : FpFmt) (x : Nat) : Nat :=
  if f.expField x = 0 then f.fracField x else f.fracField x + 2 ^ f.fracBits
/-- The weight of the last place of a finite pattern (R410). -/
def FpFmt.quantum (f : FpFmt) (x : Nat) : Int := f.qMin + ((max 1 (f.expField x) : Nat) : Int) - 1

/-- The rounding modes with the numbers of fcsr0.RM (R39, R413). -/
inductive RoundMode where
  | rne
  | rz
  | rp
  | rm
  deriving DecidableEq, Repr

/-- V, invalid operation. -/
def flagV : BitVec 5 := 0x10
/-- Z, division by zero. -/
def flagZ : BitVec 5 := 0x08
/-- O, overflow. -/
def flagO : BitVec 5 := 0x04
/-- U, underflow. -/
def flagU : BitVec 5 := 0x02
/-- I, inexact. -/
def flagI : BitVec 5 := 0x01

/-- A result pattern and the set E of exceptions raised (R412). -/
structure FpResult where
  bits : Nat
  flags : BitVec 5
  deriving DecidableEq, Repr

/-- What the operation takes from fcsr0: the rounding mode and Enables.U, on which U depends (R413, R418). -/
structure FpEnv where
  rm : RoundMode
  trapU : Bool
  deriving DecidableEq, Repr

/-- An exact result to be rounded: the sign and the magnitude `m * 2 ^ e`, or a little more when `sticky`, by less than `2 ^ e`. -/
structure Exact where
  neg : Bool
  m : Nat
  e : Int
  sticky : Bool
  deriving DecidableEq, Repr

/-- A magnitude rounded to a multiple `n` of the quantum, and whether that was inexact. -/
structure Rounded where
  n : Nat
  inexact : Bool
  deriving DecidableEq, Repr

/-- Whether the part cut off, `rem` out of `2 ^ d` and a little more when `sticky`, rounds the magnitude up (R413). -/
def roundsUp (mode : RoundMode) (neg odd : Bool) (rem d : Nat) (sticky : Bool) : Bool :=
  match mode with
  | .rne => 2 ^ d < 2 * rem || (2 * rem == 2 ^ d && (sticky || odd))
  | .rz => false
  | .rp => !neg && (rem != 0 || sticky)
  | .rm => neg && (rem != 0 || sticky)

/-- Rounds to a multiple of `2 ^ q`. When `q ≤ e` the value is one already (`sticky` then never holds). -/
def Exact.roundTo (x : Exact) (mode : RoundMode) (q : Int) : Rounded :=
  if q ≤ x.e then ⟨x.m * 2 ^ (x.e - q).toNat, x.sticky⟩
  else
    let d := (q - x.e).toNat
    let n := x.m / 2 ^ d
    let rem := x.m % 2 ^ d
    ⟨if roundsUp mode x.neg (n % 2 == 1) rem d x.sticky then n + 1 else n, rem != 0 || x.sticky⟩

/-- The overflowed result by rounding mode and sign (R415). -/
def FpFmt.overflow (f : FpFmt) (mode : RoundMode) (neg : Bool) : Nat :=
  match mode with
  | .rne => f.inf neg
  | .rz => f.maxFinite neg
  | .rp => if neg then f.maxFinite neg else f.inf neg
  | .rm => if neg then f.inf neg else f.maxFinite neg

/-- The weight of the last place of `x` rounded to full precision with an unbounded exponent. -/
def FpFmt.idealQuantum (f : FpFmt) (x : Exact) : Int := x.e + ((x.m.log2 + 1 : Nat) : Int) - f.prec

/-- The exponent of the last place of the normalised result of rounding `x` with an unbounded exponent. -/
def FpFmt.unboundedQuantum (f : FpFmt) (x : Exact) (mode : RoundMode) : Int :=
  let q := f.idealQuantum x
  if (x.roundTo mode q).n = 2 ^ f.prec then q + 1 else q

/-- A non-zero exact value rounded into the format: overflow is judged with an unbounded exponent (R417), tininess after
rounding with an unbounded exponent and U by Enables.U (R418), I by inexactness (R419). -/
def FpFmt.round (f : FpFmt) (env : FpEnv) (x : Exact) : FpResult :=
  let qu := f.unboundedQuantum x env.rm
  if f.qMax < qu then ⟨f.overflow env.rm x.neg, flagO ||| flagI⟩
  else
    let q := max (f.idealQuantum x) f.qMin
    let r := x.roundTo env.rm q
    let i := if r.inexact then flagI else 0
    let u := if qu < f.qMin && (env.trapU || r.inexact) then flagU else 0
    ⟨f.withSign x.neg ((q - f.qMin).toNat * 2 ^ f.fracBits + r.n), u ||| i⟩

/-- An exact result that may be zero; `zeroNeg` is the sign of an exact zero. -/
def FpFmt.roundOrZero (f : FpFmt) (env : FpEnv) (zeroNeg : Bool) (x : Exact) : FpResult :=
  if x.m = 0 then ⟨f.withSign zeroNeg 0, 0⟩ else f.round env x

/-! ## NaN operands (R414) -/

/-- The operand a NaN result comes from, highest priority first: the first SNaN, else the first QNaN. -/
def FpFmt.nanSource (f : FpFmt) (ops : List Nat) : Option Nat :=
  match ops.find? f.isSNaN with
  | some x => some x
  | none => ops.find? f.isQNaN

/-- V, when some operand is an SNaN (R414 case 1, R416). -/
def FpFmt.snanFlag (f : FpFmt) (ops : List Nat) : BitVec 5 := if ops.any f.isSNaN then flagV else 0

/-- The NaN result of R414, if some operand is a NaN; else the result of the operation on numbers. -/
def FpFmt.withNaN (f : FpFmt) (ops : List Nat) (r : FpResult) : FpResult :=
  match f.nanSource ops with
  | some x => ⟨f.quieten x, f.snanFlag ops⟩
  | none => r

/-- An invalid operation: V and the default QNaN (R414, R416). -/
def FpFmt.invalid (f : FpFmt) : FpResult := ⟨f.defaultNaN, flagV⟩

/-! ## The operations (operands that are not NaNs) -/

/-- A signed integer times `2 ^ e` as an exact value. -/
def exactOfInt (n : Int) (e : Int) : Exact := ⟨n < 0, n.natAbs, e, false⟩

/-- `m` with a sign, as an integer. -/
def signedInt (neg : Bool) (m : Nat) : Int := if neg then -(m : Int) else m

/-- The exact sum of two finite values `±m * 2 ^ e`; a zero sum of opposite signs is -0 under RM and +0 otherwise. -/
def addFinite (f : FpFmt) (env : FpEnv) (na : Bool) (ma : Nat) (ea : Int) (nb : Bool) (mb : Nat) (eb : Int) : FpResult :=
  let e := min ea eb
  let sum := signedInt na (ma * 2 ^ (ea - e).toNat) + signedInt nb (mb * 2 ^ (eb - e).toNat)
  f.roundOrZero env (if na == nb then na else env.rm == .rm) (exactOfInt sum e)

/-- addition(x, y) (R420, R421): V for infinities of opposite sign. -/
def FpFmt.add (f : FpFmt) (env : FpEnv) (x y : Nat) : FpResult :=
  f.withNaN [x, y] <|
    if f.isInf x then (if f.isInf y && f.sign x != f.sign y then f.invalid else ⟨x, 0⟩)
    else if f.isInf y then ⟨y, 0⟩
    else addFinite f env (f.sign x) (f.significand x) (f.quantum x) (f.sign y) (f.significand y) (f.quantum y)

/-- negate(x): the sign bit inverted, NaNs too (R446). -/
def FpFmt.negate (f : FpFmt) (x : Nat) : Nat := f.withSign (!f.sign x) (f.magnitude x)

/-- subtraction(x, y) (R422, R423): the NaN result is that of the operands as they stand. -/
def FpFmt.sub (f : FpFmt) (env : FpEnv) (x y : Nat) : FpResult :=
  f.withNaN [x, y] (f.add env x (f.negate y))

/-- multiplication(x, y) (R424, R425): V for zero times infinity. -/
def FpFmt.mul (f : FpFmt) (env : FpEnv) (x y : Nat) : FpResult :=
  let neg := f.sign x != f.sign y
  f.withNaN [x, y] <|
    if f.isInf x || f.isInf y then (if f.isZero x || f.isZero y then f.invalid else ⟨f.inf neg, 0⟩)
    else f.roundOrZero env neg ⟨neg, f.significand x * f.significand y, f.quantum x + f.quantum y, false⟩

/-- A quotient of two positive integers to more than `prec` bits, with the rest in `sticky`. -/
def divExact (f : FpFmt) (neg : Bool) (mx : Nat) (ex : Int) (my : Nat) (ey : Int) : Exact :=
  let k := my.log2 + 1 + f.prec + 3
  let n := mx * 2 ^ k
  ⟨neg, n / my, ex - ey - k, n % my != 0⟩

/-- division(x, y) (R426, R427): V for 0/0 and infinity/infinity, Z for finite non-zero / 0 (R416). -/
def FpFmt.div (f : FpFmt) (env : FpEnv) (x y : Nat) : FpResult :=
  let neg := f.sign x != f.sign y
  f.withNaN [x, y] <|
    if f.isInf x then (if f.isInf y then f.invalid else ⟨f.inf neg, 0⟩)
    else if f.isInf y then ⟨f.withSign neg 0, 0⟩
    else if f.isZero y then (if f.isZero x then f.invalid else ⟨f.inf neg, flagZ⟩)
    else if f.isZero x then ⟨f.withSign neg 0, 0⟩
    else f.round env (divExact f neg (f.significand x) (f.quantum x) (f.significand y) (f.quantum y))

/-- fusedMultiplyAdd(x, y, z) = x * y + z with one rounding (R428, R429). The operands' priority for NaNs is z, x, y (R414). -/
def FpFmt.fma (f : FpFmt) (env : FpEnv) (x y z : Nat) : FpResult :=
  let neg := f.sign x != f.sign y
  f.withNaN [z, x, y] <|
    if (f.isInf x && f.isZero y) || (f.isZero x && f.isInf y) then f.invalid
    else if f.isInf x || f.isInf y then
      (if f.isInf z && f.sign z != neg then f.invalid else ⟨f.inf neg, 0⟩)
    else if f.isInf z then ⟨z, 0⟩
    else
      addFinite f env neg (f.significand x * f.significand y) (f.quantum x + f.quantum y) (f.sign z) (f.significand z)
        (f.quantum z)

/-- A NaN result with the given sign bit; a number as it is (R458). -/
def FpFmt.signNaN (f : FpFmt) (neg : Bool) (r : FpResult) : FpResult :=
  if f.isNaN r.bits then ⟨f.withSign neg (f.magnitude r.bits), r.flags⟩ else r

/-- The fused operations with negations (R430 to R435, R458): `negZ` negates z, `negR` the result; the sign of a NaN result is
`nanNeg`, which the spec leaves open; NaN payloads follow R414 on the operands as they stand. -/
def FpFmt.fmaNeg (f : FpFmt) (env : FpEnv) (negZ negR nanNeg : Bool) (x y z : Nat) : FpResult :=
  let r := f.withNaN [z, x, y] (f.fma env x y (if negZ then f.negate z else z))
  f.signNaN nanNeg (if negR then ⟨f.negate r.bits, r.flags⟩ else r)

/-- Integer square root, bit by bit from bit `b` - 1 down, on top of the root `r` found so far. -/
def isqrtFrom (n : Nat) : Nat → Nat → Nat
  | 0, r => r
  | b + 1, r => isqrtFrom n b (if (r + 2 ^ b) * (r + 2 ^ b) ≤ n then r + 2 ^ b else r)

/-- The largest r with r * r ≤ n. -/
def isqrt (n : Nat) : Nat := isqrtFrom n (n.log2 / 2 + 1) 0

/-- The square root of `m * 2 ^ e`, m > 0, to more than `prec` bits. -/
def sqrtExact (f : FpFmt) (m : Nat) (e : Int) : Exact :=
  let k := 2 * (f.prec + 3) + (e % 2).toNat
  let n := m * 2 ^ k
  let r := isqrt n
  ⟨false, r, (e - k) / 2, r * r != n⟩

/-- squareRoot(x) (R448, R449): V below zero, -0 for -0. -/
def FpFmt.sqrt (f : FpFmt) (env : FpEnv) (x : Nat) : FpResult :=
  f.withNaN [x] <|
    if f.isZero x then ⟨x, 0⟩
    else if f.sign x then f.invalid
    else if f.isInf x then ⟨x, 0⟩
    else f.round env (sqrtExact f (f.significand x) (f.quantum x))

/-- 1 / sqrt(m * 2 ^ e), m > 0, to more than `prec` bits. -/
def rsqrtExact (f : FpFmt) (m : Nat) (e : Int) : Exact :=
  let k := 2 * (f.prec + 3) + m.log2 + 1
  let k := k + ((k + e) % 2).toNat
  let n := 2 ^ k / m
  let r := isqrt n
  ⟨false, r, -((e + k) / 2), r * r * m != 2 ^ k⟩

/-- rSqrt(x) with one rounding (R452, R453; log 39): Z at zero, V below zero. -/
def FpFmt.rsqrt (f : FpFmt) (env : FpEnv) (x : Nat) : FpResult :=
  f.withNaN [x] <|
    if f.isZero x then ⟨f.inf (f.sign x), flagZ⟩
    else if f.sign x then f.invalid
    else if f.isInf x then ⟨f.withSign false 0, 0⟩
    else f.round env (rsqrtExact f (f.significand x) (f.quantum x))

/-- 1.0. -/
def FpFmt.one (f : FpFmt) : Nat := f.bias * 2 ^ f.fracBits

/-- division(1.0, x) (R450, R451). -/
def FpFmt.recip (f : FpFmt) (env : FpEnv) (x : Nat) : FpResult := f.div env f.one x

/-! ## Comparison (R459, R470) -/

/-- How two numbers relate, or that they do not (R470). -/
inductive FpRel where
  | un
  | lt
  | eq
  | gt
  deriving DecidableEq, Repr

/-- A number as an integer with the same order: its magnitude with its sign. -/
def FpFmt.ordKey (f : FpFmt) (x : Nat) : Int := signedInt (f.sign x) (f.magnitude x)

/-- The relation of x to y: +0 and -0 are equal, a NaN is unordered (R470). -/
def FpFmt.relate (f : FpFmt) (x y : Nat) : FpRel :=
  if f.isNaN x || f.isNaN y then .un
  else if f.ordKey x < f.ordKey y then .lt
  else if f.ordKey y < f.ordKey x then .gt
  else .eq

/-- The NaN cases of R459: an SNaN operand gives V and the quieted SNaN, one QNaN the other operand, two QNaNs the first. -/
def FpFmt.pickNaN (f : FpFmt) (x y : Nat) (pick : Nat) : FpResult :=
  if f.isSNaN x || f.isSNaN y then f.withNaN [x, y] ⟨pick, 0⟩
  else if f.isQNaN x then (if f.isQNaN y then ⟨x, 0⟩ else ⟨y, 0⟩)
  else if f.isQNaN y then ⟨x, 0⟩
  else ⟨pick, 0⟩

/-- The larger (or smaller) of two numbers; of zeros of opposite sign, a zero of sign `zeroNeg`, which the spec leaves open. -/
def FpFmt.pick (f : FpFmt) (larger zeroNeg : Bool) (x y : Nat) : Nat :=
  match f.relate x y with
  | .lt => if larger then y else x
  | .gt => if larger then x else y
  | _ => if f.isZero x && f.sign x != f.sign y then f.withSign zeroNeg 0 else x

/-- maxNum and minNum (R436 to R439, R459). -/
def FpFmt.maxMin (f : FpFmt) (larger zeroNeg : Bool) (x y : Nat) : FpResult :=
  f.pickNaN x y (f.pick larger zeroNeg x y)

/-- maxNumMag and minNumMag: by magnitude, and of equal magnitudes maxNum or minNum of the two (R440 to R443, R459). -/
def FpFmt.maxMinMag (f : FpFmt) (larger zeroNeg : Bool) (x y : Nat) : FpResult :=
  f.pickNaN x y <|
    if f.magnitude x < f.magnitude y then (if larger then y else x)
    else if f.magnitude y < f.magnitude x then (if larger then x else y)
    else f.pick larger zeroNeg x y

/-- The 22 conditions of FCMP that the table defines (R471). -/
def fcmpDefined (cond : BitVec 5) : Bool :=
  cond.toNat ≤ 0x11 || cond == 0x14 || cond == 0x15 || cond == 0x18 || cond == 0x19

/-- The truth value of a condition for a relation (R471): bit 1 LT, bit 2 EQ, bit 3 UN, bit 4 LT or GT. -/
def fcmpHolds (cond : BitVec 5) (r : FpRel) : Bool :=
  match r with
  | .un => cond.getLsbD 3
  | .lt => cond.getLsbD 1 || cond.getLsbD 4
  | .eq => cond.getLsbD 2
  | .gt => cond.getLsbD 4

/-- V of FCMP: an SNaN, or any NaN when the condition is signalling (R472, R474). -/
def FpFmt.fcmpFlags (f : FpFmt) (cond : BitVec 5) (x y : Nat) : BitVec 5 :=
  if f.isSNaN x || f.isSNaN y || (cond.getLsbD 0 && (f.isNaN x || f.isNaN y)) then flagV else 0

/-! ## Conversions (R480 to R494) -/

/-- A NaN of one format in another: the high fraction bits kept, or zeros appended, and the top one set (R414). -/
def convertNaN (src dst : FpFmt) (x : Nat) : Nat :=
  let frac := src.fracField x * 2 ^ (dst.fracBits - src.fracBits) / 2 ^ (src.fracBits - dst.fracBits)
  dst.quieten (dst.withSign (src.sign x) (dst.expMax * 2 ^ dst.fracBits + frac))

/-- convertFormat (R480, R481). -/
def convertFormat (src dst : FpFmt) (env : FpEnv) (x : Nat) : FpResult :=
  if src.isNaN x then ⟨convertNaN src dst x, src.snanFlag [x]⟩
  else if src.isInf x then ⟨dst.inf (src.sign x), 0⟩
  else dst.roundOrZero env (src.sign x) ⟨src.sign x, src.significand x, src.quantum x, false⟩

/-- convertFromInt of a 32-bit signed integer (R482, R483); 0 gives +0. -/
def FpFmt.ofInt (f : FpFmt) (env : FpEnv) (n : Int) : FpResult := f.roundOrZero env false (exactOfInt n 0)

/-- A finite pattern rounded to an integer, and whether that was inexact (R494). -/
def FpFmt.toIntegral (f : FpFmt) (mode : RoundMode) (x : Nat) : Int × Bool :=
  let r := Exact.roundTo ⟨f.sign x, f.significand x, f.quantum x, false⟩ mode 0
  (signedInt (f.sign x) r.n, r.inexact)

/-- `ToSint32(x, rm)` (R494): V, and the open value `bad`, for a NaN, an infinity or a value out of range after rounding. -/
def FpFmt.toSint32 (f : FpFmt) (mode : RoundMode) (bad : Word) (x : Nat) : FpResult :=
  let v := f.toIntegral mode x
  if f.isNaN x || f.isInf x || v.1 < -2 ^ 31 || 2 ^ 31 ≤ v.1 then ⟨bad.toNat, flagV⟩
  else ⟨(BitVec.ofInt 32 v.1).toNat, if v.2 then flagI else 0⟩

/-- The class vector of R460: exactly one bit is 1. -/
def FpFmt.classify (f : FpFmt) (x : Nat) : Nat :=
  if f.isSNaN x then 2 ^ 0
  else if f.isQNaN x then 2 ^ 1
  else
    let base := if f.sign x then 2 else 6
    if f.isInf x then 2 ^ base
    else if f.expField x != 0 then 2 ^ (base + 1)
    else if f.fracField x != 0 then 2 ^ (base + 2)
    else 2 ^ (base + 3)

end Sys2Proof.Machine
end

