-- ==== Sys2Proof/Machine/Flags.lean ====
section
/-! DEFINITION. fcsr0: its fields and views (spec/10_state.md R39, R40), and how the exceptions an arithmetic floating-point
instruction raises reach them and the trap (spec/45_fp_arith.md R412). The integer instructions have no flags (R35). -/

namespace Sys2Proof.Machine

/-- The writable bits of fcsr0 (R39). -/
def fcsrMask : Word := 0x1F1F031F

/-- fcsr0 as it reads: reserved bits 0 (R39). -/
def State.readFcsr (s : State) : Word := s.fcsr0 &&& fcsrMask

/-- fcsr0.Enables (R39). -/
def State.enables (s : State) : BitVec 5 := s.fcsr0.extractLsb' 0 5

/-- fcsr0.RM (R39). -/
def State.roundMode (s : State) : RoundMode :=
  match (s.fcsr0.extractLsb' 8 2).toNat with
  | 0 => .rne
  | 1 => .rz
  | 2 => .rp
  | _ => .rm

/-- What an arithmetic operation takes from fcsr0 (R413, R418). -/
def State.fpEnv (s : State) : FpEnv := ⟨s.roundMode, s.enables.getLsbD 1⟩

/-- The mask of fcsr0 to fcsr3 over fcsr0 (R40); none for the numbers no FCSR has. -/
def fcsrViewMask (i : BitVec 5) : Option Word :=
  match i.toNat with
  | 0 => some 0x1F1F031F
  | 1 => some 0x0000001F
  | 2 => some 0x1F1F0000
  | 3 => some 0x00000300
  | _ => none

/-- fcsr0 with Cause replaced by E and the bits of `set` added to Flags (R412). -/
def fcsrRaise (fcsr0 : Word) (e set : BitVec 5) : Word :=
  setBits fcsr0 0x1F000000 (e.setWidth 32 <<< 24) ||| (set.setWidth 32 <<< 16)

/-- `FpFinish(E, result)` of R412: Cause becomes E. When a raised exception is enabled the trap is taken, the destination is not
written, and Flags bits of the ones that are not enabled may be set or left, by a free value (D20, log 36); else Flags
accumulates E and `write` writes the destination. Uses a draw. -/
def fpFinish (s : State) (e : BitVec 5) (write : State → State) : Result :=
  if e &&& s.enables ≠ 0 then
    let set := e &&& ~~~s.enables &&& (s.free .trapFlags).extractLsb' 0 5
    raise .fpe { s with fcsr0 := fcsrRaise s.fcsr0 e set }.drawn
  else (write { s with fcsr0 := fcsrRaise s.fcsr0 e e }).drawn.retire

/-- The end of an arithmetic instruction with a single or word result in fd (R411, R412). -/
def fpRetireW (s : State) (fd : RegNum) (r : FpResult) : Result :=
  fpFinish s r.flags fun t => t.writeFprW fd (BitVec.ofNat 32 r.bits)

/-- The end of an arithmetic instruction with a double result in fd (R411, R412). -/
def fpRetireD (s : State) (fd : RegNum) (r : FpResult) : Result :=
  fpFinish s r.flags fun t => t.writeFprD fd (BitVec.ofNat 64 r.bits)

/-- The single in a register as a pattern (R411 step 3). -/
def State.single (s : State) (r : RegNum) : Nat := (s.readFprW r).toNat

/-- The double in a register as a pattern (R411 step 3). -/
def State.double (s : State) (r : RegNum) : Nat := (s.readFprD r).toNat

end Sys2Proof.Machine
end

