-- ==== Sys2Proof/Machine/FpArith.lean ====
section
/-! DEFINITION. Floating-point arithmetic (spec/45_fp_arith.md R410 to R461). -/

namespace Sys2Proof.Machine

/-- A single-precision operation on fj and fk (R411, R412). -/
def fp2S (fd fj fk : RegNum) (op : FpEnv → Nat → Nat → FpResult) (s : State) : Result :=
  fpInstr .single s (fpRetireW s fd (op s.fpEnv (s.single fj) (s.single fk)))

/-- A double-precision operation on fj and fk (R411, R412). -/
def fp2D (fd fj fk : RegNum) (op : FpEnv → Nat → Nat → FpResult) (s : State) : Result :=
  fpInstr .double s (fpRetireD s fd (op s.fpEnv (s.double fj) (s.double fk)))

/-- A single-precision operation on fj (R411, R412). -/
def fp1S (fd fj : RegNum) (op : FpEnv → Nat → FpResult) (s : State) : Result :=
  fpInstr .single s (fpRetireW s fd (op s.fpEnv (s.single fj)))

/-- A double-precision operation on fj (R411, R412). -/
def fp1D (fd fj : RegNum) (op : FpEnv → Nat → FpResult) (s : State) : Result :=
  fpInstr .double s (fpRetireD s fd (op s.fpEnv (s.double fj)))

/-- A single-precision operation on fj, fk and fa (R411, R412). -/
def fp3S (fd fj fk fa : RegNum) (op : FpEnv → Nat → Nat → Nat → FpResult) (s : State) : Result :=
  fpInstr .single s (fpRetireW s fd (op s.fpEnv (s.single fj) (s.single fk) (s.single fa)))

/-- A double-precision operation on fj, fk and fa (R411, R412). -/
def fp3D (fd fj fk fa : RegNum) (op : FpEnv → Nat → Nat → Nat → FpResult) (s : State) : Result :=
  fpInstr .double s (fpRetireD s fd (op s.fpEnv (s.double fj) (s.double fk) (s.double fa)))

/-- A bit operation on the singles in fj and fk: no exception, fcsr0 unchanged (D22, log 42). -/
def fpBitsS (fd : RegNum) (v : State → Word) (s : State) : Result :=
  fpInstr .single s (s.writeFprW fd (v s)).drawn.retire

/-- A bit operation with a double result: no exception, fcsr0 unchanged (D22, log 42). -/
def fpBitsD (fd : RegNum) (v : State → DWord) (s : State) : Result :=
  fpInstr .double s (s.writeFprD fd (v s)).retire

/-- `FADD.S` (R420). -/
def execFaddS (fd fj fk : RegNum) (s : State) : Result :=
  fp2S fd fj fk fp32.add s

/-- `FADD.D` (R421). -/
def execFaddD (fd fj fk : RegNum) (s : State) : Result :=
  fp2D fd fj fk fp64.add s

/-- `FSUB.S` (R422). -/
def execFsubS (fd fj fk : RegNum) (s : State) : Result :=
  fp2S fd fj fk fp32.sub s

/-- `FSUB.D` (R423). -/
def execFsubD (fd fj fk : RegNum) (s : State) : Result :=
  fp2D fd fj fk fp64.sub s

/-- `FMUL.S` (R424). -/
def execFmulS (fd fj fk : RegNum) (s : State) : Result :=
  fp2S fd fj fk fp32.mul s

/-- `FMUL.D` (R425). -/
def execFmulD (fd fj fk : RegNum) (s : State) : Result :=
  fp2D fd fj fk fp64.mul s

/-- `FDIV.S` (R426). -/
def execFdivS (fd fj fk : RegNum) (s : State) : Result :=
  fp2S fd fj fk fp32.div s

/-- `FDIV.D` (R427). -/
def execFdivD (fd fj fk : RegNum) (s : State) : Result :=
  fp2D fd fj fk fp64.div s

/-- `FMADD.S` (R428). -/
def execFmaddS (fd fj fk fa : RegNum) (s : State) : Result :=
  fp3S fd fj fk fa fp32.fma s

/-- `FMADD.D` (R429). -/
def execFmaddD (fd fj fk fa : RegNum) (s : State) : Result :=
  fp3D fd fj fk fa fp64.fma s

/-- `FMSUB.S` (R430, R458; log 38). -/
def execFmsubS (fd fj fk fa : RegNum) (s : State) : Result :=
  fp3S fd fj fk fa (fun env => fp32.fmaNeg env true false (s.freeBit .nanSign)) s

/-- `FMSUB.D` (R431, R458; log 38). -/
def execFmsubD (fd fj fk fa : RegNum) (s : State) : Result :=
  fp3D fd fj fk fa (fun env => fp64.fmaNeg env true false (s.freeBit .nanSign)) s

/-- `FNMADD.S` (R432, R458; log 38). -/
def execFnmaddS (fd fj fk fa : RegNum) (s : State) : Result :=
  fp3S fd fj fk fa (fun env => fp32.fmaNeg env false true (s.freeBit .nanSign)) s

/-- `FNMADD.D` (R433, R458; log 38). -/
def execFnmaddD (fd fj fk fa : RegNum) (s : State) : Result :=
  fp3D fd fj fk fa (fun env => fp64.fmaNeg env false true (s.freeBit .nanSign)) s

/-- `FNMSUB.S` (R434, R458; log 38). -/
def execFnmsubS (fd fj fk fa : RegNum) (s : State) : Result :=
  fp3S fd fj fk fa (fun env => fp32.fmaNeg env true true (s.freeBit .nanSign)) s

/-- `FNMSUB.D` (R435, R458; log 38). -/
def execFnmsubD (fd fj fk fa : RegNum) (s : State) : Result :=
  fp3D fd fj fk fa (fun env => fp64.fmaNeg env true true (s.freeBit .nanSign)) s

/-- `FMAX.S` (R436, R459; log 38). -/
def execFmaxS (fd fj fk : RegNum) (s : State) : Result :=
  fp2S fd fj fk (fun _ => fp32.maxMin true (s.freeBit .zeroSign)) s

/-- `FMAX.D` (R437, R459; log 38). -/
def execFmaxD (fd fj fk : RegNum) (s : State) : Result :=
  fp2D fd fj fk (fun _ => fp64.maxMin true (s.freeBit .zeroSign)) s

/-- `FMIN.S` (R438, R459; log 38). -/
def execFminS (fd fj fk : RegNum) (s : State) : Result :=
  fp2S fd fj fk (fun _ => fp32.maxMin false (s.freeBit .zeroSign)) s

/-- `FMIN.D` (R439, R459; log 38). -/
def execFminD (fd fj fk : RegNum) (s : State) : Result :=
  fp2D fd fj fk (fun _ => fp64.maxMin false (s.freeBit .zeroSign)) s

/-- `FMAXA.S` (R440, R459; log 38). -/
def execFmaxaS (fd fj fk : RegNum) (s : State) : Result :=
  fp2S fd fj fk (fun _ => fp32.maxMinMag true (s.freeBit .zeroSign)) s

/-- `FMAXA.D` (R441, R459; log 38). -/
def execFmaxaD (fd fj fk : RegNum) (s : State) : Result :=
  fp2D fd fj fk (fun _ => fp64.maxMinMag true (s.freeBit .zeroSign)) s

/-- `FMINA.S` (R442, R459; log 38). -/
def execFminaS (fd fj fk : RegNum) (s : State) : Result :=
  fp2S fd fj fk (fun _ => fp32.maxMinMag false (s.freeBit .zeroSign)) s

/-- `FMINA.D` (R443, R459; log 38). -/
def execFminaD (fd fj fk : RegNum) (s : State) : Result :=
  fp2D fd fj fk (fun _ => fp64.maxMinMag false (s.freeBit .zeroSign)) s

/-- `FABS.S` (R444). -/
def execFabsS (fd fj : RegNum) (s : State) : Result :=
  fpBitsS fd (fun s => s.readFprW fj &&& 0x7FFFFFFF) s

/-- `FABS.D` (R445). -/
def execFabsD (fd fj : RegNum) (s : State) : Result :=
  fpBitsD fd (fun s => s.readFprD fj &&& 0x7FFFFFFFFFFFFFFF) s

/-- `FNEG.S` (R446). -/
def execFnegS (fd fj : RegNum) (s : State) : Result :=
  fpBitsS fd (fun s => s.readFprW fj ^^^ 0x80000000) s

/-- `FNEG.D` (R447). -/
def execFnegD (fd fj : RegNum) (s : State) : Result :=
  fpBitsD fd (fun s => s.readFprD fj ^^^ 0x8000000000000000) s

/-- `FSQRT.S` (R448). -/
def execFsqrtS (fd fj : RegNum) (s : State) : Result :=
  fp1S fd fj fp32.sqrt s

/-- `FSQRT.D` (R449). -/
def execFsqrtD (fd fj : RegNum) (s : State) : Result :=
  fp1D fd fj fp64.sqrt s

/-- `FRECIP.S` (R450). -/
def execFrecipS (fd fj : RegNum) (s : State) : Result :=
  fp1S fd fj fp32.recip s

/-- `FRECIP.D` (R451). -/
def execFrecipD (fd fj : RegNum) (s : State) : Result :=
  fp1D fd fj fp64.recip s

/-- `FRSQRT.S` (R452; log 39). -/
def execFrsqrtS (fd fj : RegNum) (s : State) : Result :=
  fp1S fd fj fp32.rsqrt s

/-- `FRSQRT.D` (R453; log 39). -/
def execFrsqrtD (fd fj : RegNum) (s : State) : Result :=
  fp1D fd fj fp64.rsqrt s

/-- `FCOPYSIGN.S` (R454). -/
def execFcopysignS (fd fj fk : RegNum) (s : State) : Result :=
  fpBitsS fd (fun s => (s.readFprW fj &&& 0x7FFFFFFF) ||| (s.readFprW fk &&& 0x80000000)) s

/-- `FCOPYSIGN.D` (R455). -/
def execFcopysignD (fd fj fk : RegNum) (s : State) : Result :=
  fpBitsD fd (fun s => (s.readFprD fj &&& 0x7FFFFFFFFFFFFFFF) ||| (s.readFprD fk &&& 0x8000000000000000)) s

/-- `FCLASS.S` (R456). -/
def execFclassS (fd fj : RegNum) (s : State) : Result :=
  fpBitsS fd (fun s => BitVec.ofNat 32 (fp32.classify (s.single fj))) s

/-- `FCLASS.D` (R457). -/
def execFclassD (fd fj : RegNum) (s : State) : Result :=
  fpBitsD fd (fun s => BitVec.ofNat 64 (fp64.classify (s.double fj))) s

end Sys2Proof.Machine
end

