-- ==== Sys2Proof/Machine/FpCmpCvt.lean ====
section
/-! DEFINITION. Floating-point compare and conversion (spec/46_fp_cmp_cvt.md R470 to R494). -/

namespace Sys2Proof.Machine

/-- `FCMP.cond.S` (R472, R471, R474): a condition the table does not define is an undefined encoding (D38, log 29); cd names fcc0. -/
def execFcmpS (cond : BitVec 5) (cd : BitVec 3) (fj fk : RegNum) (s : State) : Result :=
  if fcmpDefined cond then
    fpInstr .single s <| withFlagField cd <|
      fpFinish s (fp32.fcmpFlags cond (s.single fj) (s.single fk)) fun t =>
        { t with fcc0 := fcmpHolds cond (fp32.relate (s.single fj) (s.single fk)) }
  else raise .ine s

/-- `FCMP.cond.D` (R473, R471, R474): a condition the table does not define is an undefined encoding (D38, log 29); cd names fcc0. -/
def execFcmpD (cond : BitVec 5) (cd : BitVec 3) (fj fk : RegNum) (s : State) : Result :=
  if fcmpDefined cond then
    fpInstr .double s <| withFlagField cd <|
      fpFinish s (fp64.fcmpFlags cond (s.double fj) (s.double fk)) fun t =>
        { t with fcc0 := fcmpHolds cond (fp64.relate (s.double fj) (s.double fk)) }
  else raise .ine s

/-- `FCVT.S.D` (R480). -/
def execFcvtSD (fd fj : RegNum) (s : State) : Result :=
  fpInstr .double s (fpRetireW s fd (convertFormat fp64 fp32 s.fpEnv (s.double fj)))

/-- `FCVT.D.S` (R481). -/
def execFcvtDS (fd fj : RegNum) (s : State) : Result :=
  fpInstr .double s (fpRetireD s fd (convertFormat fp32 fp64 s.fpEnv (s.single fj)))

/-- `FFINT.S.W` (R482): from the signed word in fj. -/
def execFfintSW (fd fj : RegNum) (s : State) : Result :=
  fpInstr .single s (fpRetireW s fd (fp32.ofInt s.fpEnv (s.readFprW fj).toInt))

/-- `FFINT.D.W` (R483): from the signed word in fj. -/
def execFfintDW (fd fj : RegNum) (s : State) : Result :=
  fpInstr .double s (fpRetireD s fd (fp64.ofInt s.fpEnv (s.readFprW fj).toInt))

/-- A conversion of the single in fj to a word (R494); the result of an invalid one is open (D21, log 37). -/
def ftintS (fd fj : RegNum) (mode : RoundMode) (s : State) : Result :=
  fpInstr .single s (fpRetireW s fd (fp32.toSint32 mode (s.freeWord .ftint) (s.single fj)))

/-- A conversion of the double in fj to a word (R494); the result of an invalid one is open (D21, log 37). -/
def ftintD (fd fj : RegNum) (mode : RoundMode) (s : State) : Result :=
  fpInstr .double s (fpRetireW s fd (fp64.toSint32 mode (s.freeWord .ftint) (s.double fj)))

/-- `FTINT.W.S` (R484). -/
def execFtintWS (fd fj : RegNum) (s : State) : Result :=
  ftintS fd fj s.roundMode s

/-- `FTINT.W.D` (R485). -/
def execFtintWD (fd fj : RegNum) (s : State) : Result :=
  ftintD fd fj s.roundMode s

/-- `FTINTRM.W.S` (R486). -/
def execFtintrmWS (fd fj : RegNum) (s : State) : Result :=
  ftintS fd fj .rm s

/-- `FTINTRM.W.D` (R487). -/
def execFtintrmWD (fd fj : RegNum) (s : State) : Result :=
  ftintD fd fj .rm s

/-- `FTINTRP.W.S` (R488). -/
def execFtintrpWS (fd fj : RegNum) (s : State) : Result :=
  ftintS fd fj .rp s

/-- `FTINTRP.W.D` (R489). -/
def execFtintrpWD (fd fj : RegNum) (s : State) : Result :=
  ftintD fd fj .rp s

/-- `FTINTRZ.W.S` (R490). -/
def execFtintrzWS (fd fj : RegNum) (s : State) : Result :=
  ftintS fd fj .rz s

/-- `FTINTRZ.W.D` (R491). -/
def execFtintrzWD (fd fj : RegNum) (s : State) : Result :=
  ftintD fd fj .rz s

/-- `FTINTRNE.W.S` (R492). -/
def execFtintrneWS (fd fj : RegNum) (s : State) : Result :=
  ftintS fd fj .rne s

/-- `FTINTRNE.W.D` (R493). -/
def execFtintrneWD (fd fj : RegNum) (s : State) : Result :=
  ftintD fd fj .rne s

end Sys2Proof.Machine
end

