-- ==== Sys2Proof/Machine/FpMove.lean ====
section
/-! DEFINITION. Floating-point moves, branches, loads and stores (spec/47_fp_move_branch_mem.md R500 to R523): no IEEE exception (D22, log 42). -/

namespace Sys2Proof.Machine

/-- `FMOV.S` (R500): a bit copy of the low word, the upper half open. -/
def execFmovS (fd fj : RegNum) (s : State) : Result :=
  fpInstr .single s (s.writeFprW fd (s.readFprW fj)).drawn.retire

/-- `FMOV.D` (R501). -/
def execFmovD (fd fj : RegNum) (s : State) : Result :=
  fpInstr .double s (s.writeFpr fd (s.readFpr fj)).retire

/-- `FSEL` (R502): fk when the flag is 1, else fj; the whole register. -/
def execFsel (fd fj fk : RegNum) (ca : BitVec 3) (s : State) : Result :=
  fpInstr .single s <| withFlagField ca <|
    (s.writeFpr fd (if s.fcc0 then s.readFpr fk else s.readFpr fj)).retire

/-- `MOVGR2FR.W` (R503). -/
def execMovgr2frW (fd rj : RegNum) (s : State) : Result :=
  fpInstr .single s (s.writeFprW fd (s.readGpr rj)).drawn.retire

/-- `MOVGR2FRH.W` (R504): the low word stays. -/
def execMovgr2frhW (fd rj : RegNum) (s : State) : Result :=
  fpInstr .double s (s.writeFpr fd ⟨s.readGpr rj, (s.readFpr fd).lo⟩).retire

/-- `MOVFR2GR.S` (R505). -/
def execMovfr2grS (rd fj : RegNum) (s : State) : Result :=
  fpInstr .single s (s.retireGpr rd (s.readFprW fj))

/-- `MOVFRH2GR.S` (R506). -/
def execMovfrh2grS (rd fj : RegNum) (s : State) : Result :=
  fpInstr .double s (s.retireGpr rd (s.readFpr fj).hi)

/-- `MOVGR2FCSR` (R508): the writable bits of the view; never a trap. A number that names no FCSR may change the writable bits of
fcsr0 in any way (D34, log 16). -/
def execMovgr2fcsr (fcsr : BitVec 5) (rj : RegNum) (s : State) : Result :=
  fpInstr .single s <|
    match fcsrViewMask fcsr with
    | some m => { s with fcsr0 := setBits s.fcsr0 m (s.readGpr rj) }.retire
    | none => { s with fcsr0 := setBits s.fcsr0 fcsrMask (s.freeWord .fcsr) }.drawn.retire

/-- `MOVFCSR2GR` (R509). A number that names no FCSR reads an open value (D34, log 16). -/
def execMovfcsr2gr (rd : RegNum) (fcsr : BitVec 5) (s : State) : Result :=
  fpInstr .single s <|
    match fcsrViewMask fcsr with
    | some m => s.retireGpr rd (s.readFcsr &&& m)
    | none => s.drawn.retireGpr rd (s.freeWord .fcsr)

/-- `MOVFR2CF` (R510): bit 0 of the register. -/
def execMovfr2cf (cd : BitVec 3) (fj : RegNum) (s : State) : Result :=
  fpInstr .single s <| withFlagField cd { s with fcc0 := (s.readFprW fj).getLsbD 0 }.retire

/-- `MOVCF2FR` (R511): the flag, every other bit 0. -/
def execMovcf2fr (fd : RegNum) (cj : BitVec 3) (s : State) : Result :=
  fpInstr .single s <| withFlagField cj (s.writeFpr fd ⟨0, wordOfBool s.fcc0⟩).retire

/-- `MOVGR2CF` (R512): bit 0 of the register. -/
def execMovgr2cf (cd : BitVec 3) (rj : RegNum) (s : State) : Result :=
  fpInstr .single s <| withFlagField cd { s with fcc0 := (s.readGpr rj).getLsbD 0 }.retire

/-- `MOVCF2GR` (R513). -/
def execMovcf2gr (rd : RegNum) (cj : BitVec 3) (s : State) : Result :=
  fpInstr .single s <| withFlagField cj (s.retireGpr rd (wordOfBool s.fcc0))

/-- `BCEQZ` (R515). -/
def execBceqz (cj : BitVec 3) (offs : BitVec 21) (s : State) : Result :=
  fpInstr .single s <| withFlagField cj (s.branch (!s.fcc0) (sext21x4 offs))

/-- `BCNEZ` (R516). -/
def execBcnez (cj : BitVec 3) (offs : BitVec 21) (s : State) : Result :=
  fpInstr .single s <| withFlagField cj (s.branch s.fcc0 (sext21x4 offs))

/-- `FLD.S` (R520). -/
def execFldS (fd rj : RegNum) (si12 : BitVec 12) (s : State) : Result :=
  fpInstr .single s <|
    (memRead s (s.addr12 rj si12) 4).run s fun v => (s.writeFprW fd (v.extractLsb' 0 32)).drawn.retire

/-- `FST.S` (R522). -/
def execFstS (fd rj : RegNum) (si12 : BitVec 12) (s : State) : Result :=
  fpInstr .single s <|
    (memWrite s (s.addr12 rj si12) 4 ((s.readFprW fd).setWidth 64)).run s fun t => t.retire

/-- `FLD.D` (R521). -/
def execFldD (fd rj : RegNum) (si12 : BitVec 12) (s : State) : Result :=
  fpInstr .double s <|
    (memRead s (s.addr12 rj si12) 8).run s fun v => (s.writeFprD fd v).retire

/-- `FST.D` (R523). -/
def execFstD (fd rj : RegNum) (si12 : BitVec 12) (s : State) : Result :=
  fpInstr .double s <|
    (memWrite s (s.addr12 rj si12) 8 (s.readFprD fd)).run s fun t => t.retire

end Sys2Proof.Machine
end

