-- ==== Sys2Proof/Machine/IntArith.lean ====
section
/-! DEFINITION. Integer arithmetic, compare and logic (spec/40_int_arith.md R300 to R325): no flags, no traps, overflow wraps. -/

namespace Sys2Proof.Machine

/-- 1 or 0 (R305). -/
def setIf (c : Bool) : Word := if c then 1 else 0

/-- The shared frame of the divisions: a zero divisor leaves x[rd] open and raises nothing (R325, U1, log 15). -/
def divide (rd rj rk : RegNum) (op : Word → Word → Word) (s : State) : Result :=
  if s.readGpr rk = 0 then (s.writeGpr rd (s.freeWord .quotient)).drawn.retire
  else s.retireGpr rd (op (s.readGpr rj) (s.readGpr rk))

/-- Bits 63:32 of the exact signed product (R319). -/
def mulHighSigned (a b : Word) : Word := (BitVec.ofInt 64 (a.toInt * b.toInt)).extractLsb' 32 32

/-- Bits 63:32 of the exact unsigned product (R320). -/
def mulHighUnsigned (a b : Word) : Word := (BitVec.ofNat 64 (a.toNat * b.toNat)).extractLsb' 32 32

/-- The quotient truncated toward zero; its low 32 bits, so -2^31 / -1 gives 0x80000000 (R321, R325). -/
def quotSigned (a b : Word) : Word := BitVec.ofInt 32 (a.toInt.tdiv b.toInt)

/-- The remainder with the sign of the dividend (R322, R325). -/
def remSigned (a b : Word) : Word := BitVec.ofInt 32 (a.toInt.tmod b.toInt)

/-- The unsigned quotient (R323). -/
def quotUnsigned (a b : Word) : Word := BitVec.ofNat 32 (a.toNat / b.toNat)

/-- The unsigned remainder (R324). -/
def remUnsigned (a b : Word) : Word := BitVec.ofNat 32 (a.toNat % b.toNat)

/-- `ADD.W` (R301). -/
def execAddW (rd rj rk : RegNum) (s : State) : Result :=
  s.retireGpr rd (s.readGpr rj + s.readGpr rk)

/-- `SUB.W` (R302). -/
def execSubW (rd rj rk : RegNum) (s : State) : Result :=
  s.retireGpr rd (s.readGpr rj - s.readGpr rk)

/-- `SLT` (R305). -/
def execSlt (rd rj rk : RegNum) (s : State) : Result :=
  s.retireGpr rd (setIf ((s.readGpr rj).slt (s.readGpr rk)))

/-- `SLTU` (R306). -/
def execSltu (rd rj rk : RegNum) (s : State) : Result :=
  s.retireGpr rd (setIf ((s.readGpr rj).ult (s.readGpr rk)))

/-- `NOR` (R312). -/
def execNor (rd rj rk : RegNum) (s : State) : Result :=
  s.retireGpr rd (~~~(s.readGpr rj ||| s.readGpr rk))

/-- `AND` (R310). -/
def execAnd (rd rj rk : RegNum) (s : State) : Result :=
  s.retireGpr rd (s.readGpr rj &&& s.readGpr rk)

/-- `OR` (R311). -/
def execOr (rd rj rk : RegNum) (s : State) : Result :=
  s.retireGpr rd (s.readGpr rj ||| s.readGpr rk)

/-- `XOR` (R313). -/
def execXor (rd rj rk : RegNum) (s : State) : Result :=
  s.retireGpr rd (s.readGpr rj ^^^ s.readGpr rk)

/-- `MUL.W` (R318): the low 32 bits of the product. -/
def execMulW (rd rj rk : RegNum) (s : State) : Result :=
  s.retireGpr rd (s.readGpr rj * s.readGpr rk)

/-- `MULH.W` (R319). -/
def execMulhW (rd rj rk : RegNum) (s : State) : Result :=
  s.retireGpr rd (mulHighSigned (s.readGpr rj) (s.readGpr rk))

/-- `MULH.WU` (R320). -/
def execMulhWU (rd rj rk : RegNum) (s : State) : Result :=
  s.retireGpr rd (mulHighUnsigned (s.readGpr rj) (s.readGpr rk))

/-- `DIV.W` (R321, R325). -/
def execDivW (rd rj rk : RegNum) (s : State) : Result :=
  divide rd rj rk quotSigned s

/-- `MOD.W` (R322, R325). -/
def execModW (rd rj rk : RegNum) (s : State) : Result :=
  divide rd rj rk remSigned s

/-- `DIV.WU` (R323, R325). -/
def execDivWU (rd rj rk : RegNum) (s : State) : Result :=
  divide rd rj rk quotUnsigned s

/-- `MOD.WU` (R324, R325). -/
def execModWU (rd rj rk : RegNum) (s : State) : Result :=
  divide rd rj rk remUnsigned s

/-- `SLTI` (R307). -/
def execSlti (rd rj : RegNum) (si12 : BitVec 12) (s : State) : Result :=
  s.retireGpr rd (setIf ((s.readGpr rj).slt (sext12 si12)))

/-- `SLTUI` (R308, the immediate sign-extended). -/
def execSltui (rd rj : RegNum) (si12 : BitVec 12) (s : State) : Result :=
  s.retireGpr rd (setIf ((s.readGpr rj).ult (sext12 si12)))

/-- `ADDI.W` (R303). -/
def execAddiW (rd rj : RegNum) (si12 : BitVec 12) (s : State) : Result :=
  s.retireGpr rd (s.readGpr rj + sext12 si12)

/-- `ANDI` (R314; NOP is `andi r0, r0, 0`, R317). -/
def execAndi (rd rj : RegNum) (ui12 : BitVec 12) (s : State) : Result :=
  s.retireGpr rd (s.readGpr rj &&& zext12 ui12)

/-- `ORI` (R315). -/
def execOri (rd rj : RegNum) (ui12 : BitVec 12) (s : State) : Result :=
  s.retireGpr rd (s.readGpr rj ||| zext12 ui12)

/-- `XORI` (R316). -/
def execXori (rd rj : RegNum) (ui12 : BitVec 12) (s : State) : Result :=
  s.retireGpr rd (s.readGpr rj ^^^ zext12 ui12)

/-- `LU12I.W` (R304). -/
def execLu12iW (rd : RegNum) (si20 : BitVec 20) (s : State) : Result :=
  s.retireGpr rd (upper20 si20)

/-- `PCADDU12I` (R309): relative to the address of this instruction. -/
def execPcaddu12i (rd : RegNum) (si20 : BitVec 20) (s : State) : Result :=
  s.retireGpr rd (s.pc + upper20 si20)

end Sys2Proof.Machine
end

