-- ==== Sys2Proof/Machine/IntMem.lean ====
section
/-! DEFINITION. Integer loads, stores, PRELD, LL.W, SC.W and the barriers (spec/43_int_mem.md R370 to R392). -/

namespace Sys2Proof.Machine

/-- A load into a general register (R370): `n` bytes at `x[rj] + si12`, extended by `ext`. The access happens for rd = r0 too. -/
def loadGpr (rd rj : RegNum) (si12 : BitVec 12) (n : Nat) (ext : DWord → Word) (s : State) : Result :=
  (memRead s (s.addr12 rj si12) n).run s fun v => s.retireGpr rd (ext v)

/-- A store of the low `n` bytes of `v` at `x[rj] + si12` (R370). -/
def storeBytes (rj : RegNum) (si12 : BitVec 12) (n : Nat) (v : DWord) (s : State) : Result :=
  (memWrite s (s.addr12 rj si12) n v).run s fun t => t.retire

/-- `LD.B` (R371). -/
def execLdB (rd rj : RegNum) (si12 : BitVec 12) (s : State) : Result :=
  loadGpr rd rj si12 1 (fun v => (v.extractLsb' 0 8).signExtend 32) s

/-- `LD.H` (R372). -/
def execLdH (rd rj : RegNum) (si12 : BitVec 12) (s : State) : Result :=
  loadGpr rd rj si12 2 (fun v => (v.extractLsb' 0 16).signExtend 32) s

/-- `LD.W` (R373). -/
def execLdW (rd rj : RegNum) (si12 : BitVec 12) (s : State) : Result :=
  loadGpr rd rj si12 4 (fun v => v.extractLsb' 0 32) s

/-- `LD.BU` (R374). -/
def execLdBU (rd rj : RegNum) (si12 : BitVec 12) (s : State) : Result :=
  loadGpr rd rj si12 1 (fun v => (v.extractLsb' 0 8).setWidth 32) s

/-- `LD.HU` (R375). -/
def execLdHU (rd rj : RegNum) (si12 : BitVec 12) (s : State) : Result :=
  loadGpr rd rj si12 2 (fun v => (v.extractLsb' 0 16).setWidth 32) s

/-- `ST.B` (R376). -/
def execStB (rd rj : RegNum) (si12 : BitVec 12) (s : State) : Result :=
  storeBytes rj si12 1 ((s.readGpr rd).setWidth 64) s

/-- `ST.H` (R377). -/
def execStH (rd rj : RegNum) (si12 : BitVec 12) (s : State) : Result :=
  storeBytes rj si12 2 ((s.readGpr rd).setWidth 64) s

/-- `ST.W` (R379). -/
def execStW (rd rj : RegNum) (si12 : BitVec 12) (s : State) : Result :=
  storeBytes rj si12 4 ((s.readGpr rd).setWidth 64) s

/-- `PRELD` (R378): a hint; no access, no exception, no effect but the pc (D24, log 12). -/
def execPreld (_hint : BitVec 5) (_rj : RegNum) (_si12 : BitVec 12) (s : State) : Result :=
  s.retire

/-- `LL.W` (R380): loads the word, sets LLbit and records the address. For an access that is not coherent cached the result is
undefined (R384); it loads normally here, by the treatment of U2 (log 13). -/
def execLlW (rd rj : RegNum) (si14 : BitVec 14) (s : State) : Result :=
  (accessAddr s (s.addr14 rj si14) 4 .load).run s fun t =>
    { s with llbit := true, llAddr := t.pa }.retireGpr rd ((s.mem.loadLE t.pa 4).extractLsb' 0 32)

/-- `SC.W` past its address checks, coherent cached (R381, D8, log 14): stores when LLbit is 1, answers it, leaves it open. -/
def scStore (rd : RegNum) (pa : Nat) (s : State) : State :=
  { (if s.llbit then s.storeMem pa 4 ((s.readGpr rd).setWidth 64) else s) with
    llbit := s.freeBit .llbit }.writeGpr rd (wordOfBool s.llbit)

/-- `SC.W` past its address checks, not coherent cached (R384, U2, log 13): the word stored and the result are open. -/
def scStoreUndefined (rd : RegNum) (pa : Nat) (s : State) : State :=
  { s.storeMem pa 4 (s.free .scStore) with llbit := s.freeBit .llbit }.writeGpr rd (s.freeWord .scResult)

/-- `SC.W` (R381): alignment and the translation of a store come first, whatever LLbit is (D8, log 14); the word stored is x[rd] as it
was before (D39, log 46). With LLbit 0 and coherent cached type it makes no access, so nothing need stand behind its address. -/
def execScW (rd rj : RegNum) (si14 : BitVec 14) (s : State) : Result :=
  (scTarget s (s.addr14 rj si14)).run s fun t =>
    (if t.mat = 1 then scStore rd t.pa s else scStoreUndefined rd t.pa s).drawn.retire

/-- `DBAR` (R390): every hint is a full barrier, which one core running in order does not see (R194, log 45). -/
def execDbar (_hint : BitVec 15) (s : State) : Result :=
  s.retire

/-- `IBAR` (R391): every hint acts as 0 (log 45); a fetch after it sees the stores whose cache maintenance is done (R201, R722, log
12). -/
def execIbar (_hint : BitVec 15) (s : State) : Result :=
  s.fetchBarrier.retire

end Sys2Proof.Machine
end

