-- ==== Sys2Proof/Machine/Misc.lean ====
section
/-! DEFINITION. SYSCALL, BREAK and the counter reads (spec/44_int_misc.md R400 to R405), at any privilege level (D27, log 48). -/

namespace Sys2Proof.Machine

/-- `SYSCALL` (R400): takes SYS at any level; the code is recorded nowhere. -/
def execSyscall (_code : BitVec 15) (s : State) : Result :=
  raise .sys s

/-- `BREAK` (R401): takes BRK at any level. -/
def execBrk (_code : BitVec 15) (s : State) : Result :=
  raise .brk s

/-- `RDCNTVL.W` (R402). -/
def execRdcntvlW (rd : RegNum) (s : State) : Result :=
  s.retireGpr rd (s.stableCounter.extractLsb' 0 32)

/-- `RDCNTVH.W` (R403). -/
def execRdcntvhW (rd : RegNum) (s : State) : Result :=
  s.retireGpr rd (s.stableCounter.extractLsb' 32 32)

/-- `RDCNTID` (R404): the destination is the rj field. -/
def execRdcntid (rj : RegNum) (s : State) : Result :=
  s.retireGpr rj s.csr.tid

end Sys2Proof.Machine
end

