-- ==== Sys2Proof/Machine/Csr.lean ====
section
/-! DEFINITION. The control and status registers as CSRRD, CSRWR and CSRXCHG see them: numbers, RW masks, the value read, the
write procedure and the actions of a write (spec/10_state.md R50 to R84, spec/60_exceptions.md R652, R653). -/

namespace Sys2Proof.Machine

/-- The registers of R57. -/
inductive CsrName where
  | crmd | prmd | euen | ecfg | estat | era | badv | eentry
  | tlbidx | tlbehi | tlbelo0 | tlbelo1 | asid | pgdl | pgdh | pgd
  | cpuid | save0 | save1 | save2 | save3
  | tid | tcfg | tval | ticlr
  | llbctl | tlbrentry | ctag | dmw0 | dmw1
  deriving DecidableEq, Repr

/-- The register a csr_num names; none for a number R57 does not list (R55). -/
def csrOfNum (k : BitVec 14) : Option CsrName :=
  match k.toNat with
  | 0x0 => some .crmd
  | 0x1 => some .prmd
  | 0x2 => some .euen
  | 0x4 => some .ecfg
  | 0x5 => some .estat
  | 0x6 => some .era
  | 0x7 => some .badv
  | 0xC => some .eentry
  | 0x10 => some .tlbidx
  | 0x11 => some .tlbehi
  | 0x12 => some .tlbelo0
  | 0x13 => some .tlbelo1
  | 0x18 => some .asid
  | 0x19 => some .pgdl
  | 0x1A => some .pgdh
  | 0x1B => some .pgd
  | 0x20 => some .cpuid
  | 0x30 => some .save0
  | 0x31 => some .save1
  | 0x32 => some .save2
  | 0x33 => some .save3
  | 0x40 => some .tid
  | 0x41 => some .tcfg
  | 0x42 => some .tval
  | 0x44 => some .ticlr
  | 0x60 => some .llbctl
  | 0x88 => some .tlbrentry
  | 0x98 => some .ctag
  | 0x180 => some .dmw0
  | 0x181 => some .dmw1
  | _ => none

/-- A mask of the low n bits. -/
def lowMask (n : Nat) : Word := BitVec.ofNat 32 (2 ^ n - 1)

/-- `W_k`: the RW bits of a register (R56, R60 to R84). The PPN of TLBELO0 and TLBELO1 is PALEN - 12 bits; with a PALEN below 12,
where R73 gives it no width, it has no bit (DESIGN CHOICE, log 53). -/
def CsrName.writeMask (c : Config) : CsrName → Word
  | .crmd => 0x000001FF
  | .prmd => 0x00000007
  | .euen => 0x00000001
  | .ecfg => 0x00001BFF
  | .estat => 0x00000003
  | .era => 0xFFFFFFFF
  | .badv => 0xFFFFFFFF
  | .eentry => 0xFFFFFFC0
  | .tlbidx => 0xBF000000 ||| lowMask c.tlbIndexBits
  | .tlbehi => 0xFFFFE000
  | .tlbelo0 => 0x0000007F ||| lowMask (c.palen - 12) <<< 8
  | .tlbelo1 => 0x0000007F ||| lowMask (c.palen - 12) <<< 8
  | .asid => 0x000003FF
  | .pgdl => 0xFFFFF000
  | .pgdh => 0xFFFFF000
  | .pgd => 0
  | .cpuid => 0
  | .save0 => 0xFFFFFFFF
  | .save1 => 0xFFFFFFFF
  | .save2 => 0xFFFFFFFF
  | .save3 => 0xFFFFFFFF
  | .tid => 0xFFFFFFFF
  | .tcfg => lowMask c.timerBits
  | .tval => 0
  | .ticlr => 0
  | .llbctl => 0x00000004
  | .tlbrentry => 0xFFFFFFC0
  | .ctag => 0
  | .dmw0 => 0xEE000039
  | .dmw1 => 0xEE000039

/-- The bits State.csr holds of a register: the RW bits, and for ESTAT the codes hardware writes (R64). -/
def CsrName.heldMask (c : Config) : CsrName → Word
  | .estat => 0x7FFF0003
  | k => k.writeMask c

/-- The word held for a register; 0 for those that hold none. -/
def Csrs.get (r : Csrs) : CsrName → Word
  | .crmd => r.crmd
  | .prmd => r.prmd
  | .euen => r.euen
  | .ecfg => r.ecfg
  | .estat => r.estat
  | .era => r.era
  | .badv => r.badv
  | .eentry => r.eentry
  | .tlbidx => r.tlbidx
  | .tlbehi => r.tlbehi
  | .tlbelo0 => r.tlbelo0
  | .tlbelo1 => r.tlbelo1
  | .asid => r.asid
  | .pgdl => r.pgdl
  | .pgdh => r.pgdh
  | .save0 => r.save0
  | .save1 => r.save1
  | .save2 => r.save2
  | .save3 => r.save3
  | .tid => r.tid
  | .tcfg => r.tcfg
  | .llbctl => r.llbctl
  | .tlbrentry => r.tlbrentry
  | .dmw0 => r.dmw0
  | .dmw1 => r.dmw1
  | .pgd | .cpuid | .tval | .ticlr | .ctag => 0

/-- The registers with the word held for one replaced; nothing for those that hold none. -/
def Csrs.set (r : Csrs) (k : CsrName) (v : Word) : Csrs :=
  match k with
  | .crmd => { r with crmd := v }
  | .prmd => { r with prmd := v }
  | .euen => { r with euen := v }
  | .ecfg => { r with ecfg := v }
  | .estat => { r with estat := v }
  | .era => { r with era := v }
  | .badv => { r with badv := v }
  | .eentry => { r with eentry := v }
  | .tlbidx => { r with tlbidx := v }
  | .tlbehi => { r with tlbehi := v }
  | .tlbelo0 => { r with tlbelo0 := v }
  | .tlbelo1 => { r with tlbelo1 := v }
  | .asid => { r with asid := v }
  | .pgdl => { r with pgdl := v }
  | .pgdh => { r with pgdh := v }
  | .save0 => { r with save0 := v }
  | .save1 => { r with save1 := v }
  | .save2 => { r with save2 := v }
  | .save3 => { r with save3 := v }
  | .tid => { r with tid := v }
  | .tcfg => { r with tcfg := v }
  | .llbctl => { r with llbctl := v }
  | .tlbrentry => { r with tlbrentry := v }
  | .dmw0 => { r with dmw0 := v }
  | .dmw1 => { r with dmw1 := v }
  | .pgd | .cpuid | .tval | .ticlr | .ctag => r

/-- The page directory base for BADV (R77). -/
def State.pgdBase (s : State) : Word := if s.csr.badv.getLsbD 31 then s.csr.pgdh else s.csr.pgdl

/-- What CSRRD returns for a register (R530): reserved bits 0, the views of R64, R68, R70, R74, R77, R82, R83 computed now;
LLBCTL.WCLLB and CTAG read free values (R54, R84, log 27). -/
def State.csrRead (s : State) (k : CsrName) : Word :=
  match k with
  | .estat => (s.csr.estat &&& 0x7FFF0000) ||| s.interruptStatus
  | .asid => 0x000A0000 ||| (s.csr.asid &&& 0x3FF)
  | .pgd => s.pgdBase &&& 0xFFFFF000
  | .cpuid => s.cfg.coreId.setWidth 32
  | .tval => s.timerVal &&& lowMask s.cfg.timerBits
  | .ticlr => 0
  | .llbctl =>
    (s.csr.llbctl &&& 0x4) ||| wordOfBool s.llbit ||| wordOfBool (s.freeBit .w1Bit) <<< 1
  | .ctag => s.freeWord .cacheTag
  | k => s.csr.get k &&& k.writeMask s.cfg

/-- The state after a read: only a read of a free value changes it, by the draw it uses. -/
def State.csrReadDone (s : State) (k : CsrName) : State :=
  match k with
  | .llbctl | .ctag => s.drawn
  | _ => s

/-- The initial count `{InitVal, 2'b00}` of the timer (R81). -/
def State.timerInit (s : State) : Word := s.csr.tcfg &&& lowMask s.cfg.timerBits &&& 0xFFFFFFFC

/-- The actions of a write of `v` under mask `m` beyond the RW bits: TCFG loads and arms the timer, by every CSRWR and CSRXCHG,
whatever the mask is (R652, D16, log 25), TICLR.CLR
clears the timer interrupt flag (R653), LLBCTL.WCLLB clears LLbit (R70). -/
def State.csrAction (s : State) (k : CsrName) (v m : Word) : State :=
  match k with
  | .tcfg => { s with timerVal := s.timerInit, timerRun := true }
  | .ticlr => { s with tiFlag := s.tiFlag && !(m &&& v).getLsbD 0 }
  | .llbctl => { s with llbit := s.llbit && !(m &&& v).getLsbD 1 }
  | _ => s

/-- The write procedure of R56: the RW bits under the mask, then the actions. -/
def State.csrWrite (s : State) (k : CsrName) (v m : Word) : State :=
  State.csrAction
    { s with csr := s.csr.set k (setBits (s.csr.get k) (m &&& k.writeMask s.cfg) v) } k v m

/-- A CSR access that writes `v` under `m` and leaves the old value in x[rd] (R56, R531, R532). A number that names no register
reads 0 and ignores the write (R55). -/
def State.csrSwap (s : State) (rd : RegNum) (num : BitVec 14) (v m : Word) : Result :=
  match csrOfNum num with
  | none => s.retireGpr rd 0
  | some k => ((s.csrWrite k v m).csrReadDone k).retireGpr rd (s.csrRead k)

end Sys2Proof.Machine
end

