-- ==== Sys2Proof/Machine/Tlb.lean ====
section
/-! DEFINITION. What the TLB instructions do to the TLB and its registers (spec/48_priv.md R540 to R546). -/

namespace Sys2Proof.Machine

/-- TLBIDX.Index (R71). -/
def State.tlbIndex (s : State) : Nat := (s.csr.tlbidx &&& lowMask s.cfg.tlbIndexBits).toNat

/-- A page as TLBELO0 or TLBELO1 gives it (R73, R545); PPN is PALEN - 12 bits, none with a PALEN below 12 (DESIGN CHOICE, log 53). -/
def pageOfTlbelo (cfg : Config) (lo : Word) : TlbPage where
  v := lo.getLsbD 0
  d := lo.getLsbD 1
  plv := lo.extractLsb' 2 2
  mat := lo.extractLsb' 4 2
  ppn := ((lo >>> 8) &&& lowMask (cfg.palen - 12)).extractLsb' 0 24

/-- `TlbEntryFromCsrs()` (R545): inside a TLB refill (Ecode 0x3F) E is 1, else the inverse of TLBIDX.NE. -/
def State.tlbEntryFromCsrs (s : State) : TlbEntry where
  e := s.ecode == 0x3F#6 || !s.csr.tlbidx.getLsbD 31
  asid := s.asidField
  g := s.csr.tlbelo0.getLsbD 6 && s.csr.tlbelo1.getLsbD 6
  ps := s.csr.tlbidx.extractLsb' 24 6
  vppn := s.csr.tlbehi.extractLsb' 13 19
  page0 := pageOfTlbelo s.cfg s.csr.tlbelo0
  page1 := pageOfTlbelo s.cfg s.csr.tlbelo1

/-- TLBELO0 or TLBELO1 as TLBRD writes it from a page (R541). -/
def tlbeloOfPage (cfg : Config) (g : Bool) (p : TlbPage) : Word :=
  (wordOfBool p.v ||| wordOfBool p.d <<< 1 ||| p.plv.setWidth 32 <<< 2 ||| p.mat.setWidth 32 <<< 4 |||
    wordOfBool g <<< 6 ||| p.ppn.setWidth 32 <<< 8) &&& CsrName.writeMask cfg .tlbelo0

/-- TLBIDX with NE and PS replaced (R541). -/
def tlbidxWith (tlbidx : Word) (ne : Bool) (ps : BitVec 6) : Word :=
  setBits tlbidx 0xBF000000 (wordOfBool ne <<< 31 ||| ps.setWidth 32 <<< 24)

/-- The TLB registers after reading an entry (R541): a valid one field by field; else NE 1 and the rest 0. Index stays. -/
def State.tlbReadInto (s : State) (e : TlbEntry) : State :=
  if e.e then
    { s with csr := { s.csr with
        tlbidx := tlbidxWith s.csr.tlbidx false e.ps
        tlbehi := e.vppn ++ 0#13
        tlbelo0 := tlbeloOfPage s.cfg e.g e.page0
        tlbelo1 := tlbeloOfPage s.cfg e.g e.page1
        asid := e.asid.setWidth 32 } }
  else
    { s with csr := { s.csr with
        tlbidx := tlbidxWith s.csr.tlbidx true 0
        tlbehi := 0
        tlbelo0 := 0
        tlbelo1 := 0
        asid := 0 } }

/-- The TLB with entry `i` replaced. -/
def State.tlbSet (s : State) (i : Nat) (e : TlbEntry) : State := { s with tlb := s.tlb.set i e }

/-- The entry TLBFILL picks, "chosen by hardware" (R543, U17): a free value among the entries. -/
def State.tlbFillIndex (s : State) : Nat := (s.free .tlbIndex).toNat % s.tlb.length

/-- TLBIDX after TLBSRCH: on a hit Index and NE = 0, on a miss NE = 1 and Index as it was (R540). -/
def State.tlbSearchDone (s : State) (hit : Option (TlbEntry × Nat)) : State :=
  { s with csr := { s.csr with
      tlbidx := match hit with
        | some (_, i) =>
          setBits s.csr.tlbidx (0x80000000 ||| lowMask s.cfg.tlbIndexBits) (BitVec.ofNat 32 i &&& lowMask s.cfg.tlbIndexBits)
        | none => setBits s.csr.tlbidx 0x80000000 0x80000000 } }

/-- INVTLB's operations 0 to 6: which entries are cleared (R544). -/
def invtlbClears (op : BitVec 5) (asid : BitVec 10) (va : Word) (e : TlbEntry) : Bool :=
  match op.toNat with
  | 0 => true
  | 1 => true
  | 2 => e.g
  | 3 => !e.g
  | 4 => !e.g && e.asid == asid
  | 5 => !e.g && e.asid == asid && e.vaMatch va
  | 6 => (e.g || e.asid == asid) && e.vaMatch va
  | _ => false

/-- Whether an operation compares `va` with this valid entry, whose page size then has to be a supported one (R546, R178). -/
def invtlbCompares (op : BitVec 5) (asid : BitVec 10) (e : TlbEntry) : Bool :=
  e.e && match op.toNat with
    | 5 => !e.g && e.asid == asid
    | 6 => e.g || e.asid == asid
    | _ => false

/-- The TLB after INVTLB: E of every entry it clears is 0 (R544). -/
def invtlbApply (op : BitVec 5) (asid : BitVec 10) (va : Word) (tlb : List TlbEntry) : List TlbEntry :=
  tlb.map fun e => if invtlbClears op asid va e then { e with e := false } else e

end Sys2Proof.Machine
end

