-- ==== Sys2Proof/Machine/Priv.lean ====
section
/-! DEFINITION. The privileged instructions (spec/48_priv.md R530 to R552). -/

namespace Sys2Proof.Machine

/-- `CSRRD` (R530): a number that names no register reads 0 (R55). -/
def execCsrrd (rd : RegNum) (csr : BitVec 14) (s : State) : Result :=
  privileged s <|
    match csrOfNum csr with
    | none => s.retireGpr rd 0
    | some k => (s.csrReadDone k).retireGpr rd (s.csrRead k)

/-- `CSRWR` (R531): a swap of x[rd] and the register. -/
def execCsrwr (rd : RegNum) (csr : BitVec 14) (s : State) : Result :=
  privileged s (s.csrSwap rd csr (s.readGpr rd) 0xFFFFFFFF)

/-- `CSRXCHG` (R532): the swap under the mask x[rj]; both sources are read first (D39, log 46). -/
def execCsrxchg (rd rj : RegNum) (csr : BitVec 14) (s : State) : Result :=
  privileged s (s.csrSwap rd csr (s.readGpr rd) (s.readGpr rj))

/-- `CACOP` (R535): the Hit class, code[4:3] = 2, at any level and translated as a load; the rest privileged (D23, log 28). Of the
caches the model holds only which stored words a fetch may see in an old value (D24, log 12): the Hit class on the L1 caches
takes the line's words on in the sequence of R722, whatever access type its own address translates with, uncached and the reserved
types too (DESIGN CHOICE, logs 12 and 18). Nothing else changes. code[4:3] = 3 has no effect beyond the privilege check
and the pc (U13, the spec's default). The codes 0x13 to 0x17, the Hit class on a cache the architecture does not define, are
translated like the rest of the class, as R535's pseudocode does, and may raise TLBR, PIL or PPI or stop where the translation
does, where U13's default gives no effect but the pc: DESIGN CHOICE, log 28. -/
def execCacop (code : BitVec 5) (rj : RegNum) (si12 : BitVec 12) (s : State) : Result :=
  if code.extractLsb' 3 2 = 2 then
    (translate s (s.addr12 rj si12) .load).run s fun t => (s.cacheHit (code.extractLsb' 0 3) t.pa).retire
  else privileged s s.retire

/-- `TLBSRCH` (R540, R546). -/
def execTlbsrch (s : State) : Result :=
  privileged s <|
    (tlbLookup s (s.csr.tlbehi &&& 0xFFFFE000)).run s fun hit => (s.tlbSearchDone hit).retire

/-- `TLBRD` (R541): an index beyond the TLB is undefined (U6, log 22). -/
def execTlbrd (s : State) : Result :=
  privileged s <|
    match s.tlb[s.tlbIndex]? with
    | some e => (s.tlbReadInto e).retire
    | none => .fault .tlbIndexOutOfRange

/-- `TLBWR` (R542): an index beyond the TLB is undefined (U6, log 22). -/
def execTlbwr (s : State) : Result :=
  privileged s <|
    if s.tlbIndex < s.tlb.length then (s.tlbSet s.tlbIndex s.tlbEntryFromCsrs).retire
    else .fault .tlbIndexOutOfRange

/-- `TLBFILL` (R543): the entry is the hardware's choice (U17). -/
def execTlbfill (s : State) : Result :=
  privileged s (s.tlbSet s.tlbFillIndex s.tlbEntryFromCsrs).drawn.retire

/-- `INVTLB` (R544): an op beyond 6 is an undefined instruction at any level (D11, log 29); bits 9:0 of x[rj] are the ASID and
operands the op does not use are ignored (D40, log 31). -/
def execInvtlb (op : BitVec 5) (rj rk : RegNum) (s : State) : Result :=
  if 6 < op.toNat then raise .ine s
  else
    privileged s <|
      let asid := (s.readGpr rj).extractLsb' 0 10
      if s.tlb.any fun e => invtlbCompares op asid e && !e.psSupported then .fault .unsupportedPageSize
      else { s with tlb := invtlbApply op asid (s.readGpr rk) s.tlb }.retire

/-- `ERTN` (R550). -/
def execErtn (s : State) : Result := privileged s (.next (returnFromException s))

/-- `IDLE` (R552): complete, then waiting; the level has no meaning. -/
def execIdle (_level : BitVec 15) (s : State) : Result := privileged s (.next { s.advance with waiting := true })

end Sys2Proof.Machine
end

