-- ==== Sys2Proof/Machine/Shift.lean ====
section
/-! DEFINITION. Shifts (spec/41_int_shift.md R340 to R347). -/

namespace Sys2Proof.Machine

/-- `SLL.W` (R341). -/
def execSllW (rd rj rk : RegNum) (s : State) : Result :=
  s.retireGpr rd ((s.readGpr rj) <<< s.shiftAmount rk)

/-- `SRL.W` (R342). -/
def execSrlW (rd rj rk : RegNum) (s : State) : Result :=
  s.retireGpr rd ((s.readGpr rj) >>> s.shiftAmount rk)

/-- `SRA.W` (R343). -/
def execSraW (rd rj rk : RegNum) (s : State) : Result :=
  s.retireGpr rd ((s.readGpr rj).sshiftRight (s.shiftAmount rk))

/-- `SLLI.W` (R344). -/
def execSlliW (rd rj : RegNum) (ui5 : BitVec 5) (s : State) : Result :=
  s.retireGpr rd ((s.readGpr rj) <<< ui5.toNat)

/-- `SRLI.W` (R345). -/
def execSrliW (rd rj : RegNum) (ui5 : BitVec 5) (s : State) : Result :=
  s.retireGpr rd ((s.readGpr rj) >>> ui5.toNat)

/-- `SRAI.W` (R346). -/
def execSraiW (rd rj : RegNum) (ui5 : BitVec 5) (s : State) : Result :=
  s.retireGpr rd ((s.readGpr rj).sshiftRight ui5.toNat)

end Sys2Proof.Machine
end

