-- ==== Sys2Proof/Machine/Env.lean ====
section
/-! DEFINITION. The agents other than the core: the tick, the interrupt inputs, other masters and reset (spec/00_scope.md R15,
spec/60_exceptions.md R650, R651, spec/43_int_mem.md R385, spec/70_reset_and_hazards.md R700). They act between instruction
steps, in an order the manual does not fix (R600): the agenda of State says which acts when (log 8). -/

namespace Sys2Proof.Machine

/-- The count one tick later, modulo 2^TIMER_BITS (R651). -/
def State.timerNext (s : State) : Word := (s.timerVal - 1) &&& lowMask s.cfg.timerBits

/-- `TimerTick()` (R651). -/
def State.timerTick (s : State) : State :=
  if s.csr.tcfg.getLsbD 0 && s.timerRun then
    if s.timerNext = 0 then
      if s.csr.tcfg.getLsbD 1 then { s with timerVal := s.timerInit, tiFlag := true }
      else { s with timerVal := 0, tiFlag := true, timerRun := false }
    else { s with timerVal := s.timerNext }
  else s

/-- `Tick()` (R650): the Stable Counter goes up by one, modulo 2^64, and the timer ticks. -/
def State.tick (s : State) : State := { s with stableCounter := s.stableCounter + 1 }.timerTick

/-- The recorded address of LL.W lies in the cache line of `pa` (R385, log 9). -/
def State.llLine (s : State) (pa : Nat) : Bool := s.cfg.line pa == s.cfg.line s.llAddr

/-- Another agent completes the store of a byte: where there is memory it changes, and a fetch sees the new byte at once (R200); LLbit
is cleared when the byte lies in the line LL.W recorded (R385). At an address with no memory or a device behind it the spec says
nothing of such a store (D18 is read as of this core's accesses): the byte is dropped, the machine goes on, and LLbit is
cleared by the same rule (DESIGN CHOICE, log 52). -/
def State.externalStore (s : State) (pa : Nat) (b : Byte) : State :=
  { (if s.cfg.regionAt pa = some .ram then { s.snoop pa b with mem := s.mem.write pa b } else s) with
    llbit := s.llbit && !s.llLine pa }

/-- The n-th register a reset leaves unspecified, 32 bits (R700, R701). -/
def State.resetWord (s : State) (n : Nat) : Word := s.freeWord (.reset n)

/-- A page of a TLB entry a reset leaves unspecified; PPN is PALEN - 12 bits. -/
def State.resetPage (s : State) (n : Nat) : TlbPage := pageOfTlbelo s.cfg (s.resetWord n)

/-- A TLB entry a reset that does not clear the TLB leaves unspecified (R701, log 10). -/
def State.resetTlbEntry (s : State) (n : Nat) : TlbEntry where
  e := (s.resetWord n).getLsbD 0
  asid := (s.resetWord n).extractLsb' 1 10
  g := (s.resetWord n).getLsbD 11
  ps := (s.resetWord n).extractLsb' 12 6
  vppn := (s.resetWord (n + 1)).extractLsb' 13 19
  page0 := s.resetPage (n + 2)
  page1 := s.resetPage (n + 3)

/-- The registers after a reset: R90's values, and a free value under the bits it holds for each one left unspecified (R701). TID is
CoreID where reset sets it (R80). -/
def State.resetCsrs (s : State) : Csrs where
  crmd := 0x00000008
  prmd := s.resetWord 64 &&& CsrName.heldMask s.cfg .prmd
  euen := 0
  ecfg := 0
  estat := s.resetWord 65 &&& 0x7FFF0000
  era := s.resetWord 66
  badv := s.resetWord 67
  eentry := s.resetWord 68 &&& CsrName.heldMask s.cfg .eentry
  tlbidx := s.resetWord 69 &&& CsrName.heldMask s.cfg .tlbidx
  tlbehi := s.resetWord 70 &&& CsrName.heldMask s.cfg .tlbehi
  tlbelo0 := s.resetWord 71 &&& CsrName.heldMask s.cfg .tlbelo0
  tlbelo1 := s.resetWord 72 &&& CsrName.heldMask s.cfg .tlbelo1
  asid := s.resetWord 73 &&& CsrName.heldMask s.cfg .asid
  pgdl := s.resetWord 74 &&& CsrName.heldMask s.cfg .pgdl
  pgdh := s.resetWord 75 &&& CsrName.heldMask s.cfg .pgdh
  save0 := s.resetWord 76
  save1 := s.resetWord 77
  save2 := s.resetWord 78
  save3 := s.resetWord 79
  tid := if s.cfg.tidResetToCoreId then s.cfg.coreId.setWidth 32 else s.resetWord 80
  tcfg := s.resetWord 81 &&& CsrName.heldMask s.cfg .tcfg &&& 0xFFFFFFFE
  llbctl := 0
  tlbrentry := s.resetWord 82 &&& CsrName.heldMask s.cfg .tlbrentry
  dmw0 := s.resetWord 83 &&& 0xEE000030
  dmw1 := s.resetWord 84 &&& 0xEE000030

/-- `Reset()` of a running core (R700): the values R90 gives, the TLB cleared and TID set where the implementation does so (R6, U27),
and a free value for every other register. Memory, the lines from
outside and the parameters are not the core's (log 10). Uses a draw. -/
def State.resetCore (s : State) : State :=
  { s with
    gpr := Vector.ofFn fun i => s.resetWord i.val
    pc := 0x1C000000
    fpr := Vector.ofFn fun i => ⟨s.resetWord (100 + i.val), s.resetWord (32 + i.val)⟩
    fcc0 := (s.resetWord 90).getLsbD 0
    fcsr0 := s.resetWord 91 &&& 0x1F1F031F
    csr := s.resetCsrs
    llbit := (s.resetWord 92).getLsbD 0
    llAddr := (s.free (.reset 93)).toNat % 2 ^ s.cfg.palen
    stableCounter := 0
    timerVal := s.resetWord 94 &&& lowMask s.cfg.timerBits
    timerRun := (s.resetWord 95).getLsbD 0
    tiFlag := (s.resetWord 96).getLsbD 0
    tlb := (List.range s.cfg.tlbEntries).map fun i => (s.resetTlbEntry (200 + 4 * i)).afterReset s.cfg
    waiting := false
    draws := s.draws + 1 }

/-- One event of the other agents. -/
def State.applyEvent (s : State) : EnvEvent → State
  | .tick => s.tick
  | .hwi lines => { s with hwi := lines }
  | .ipi line => { s with ipi := line }
  | .clearLLbit => { s with llbit := false }
  | .store pa b => s.externalStore pa b
  | .reset => s.resetCore

/-- The other agents' turn after an instruction step: the next batch of the agenda, or one tick when it is empty (log 8). -/
def State.envTurn (s : State) : State :=
  match s.agenda with
  | [] => s.tick
  | batch :: rest => batch.foldl State.applyEvent { s with agenda := rest }

end Sys2Proof.Machine
end

