-- ==== Sys2Proof/Machine/Step.lean ====
section
/-! DEFINITION. One step: a step of the core (spec/60_exceptions.md R600), then the turn of the other agents (log 8). -/

namespace Sys2Proof.Machine

/-- A waiting core stays asleep: no enabled interrupt is pending, whatever CRMD.IE is (R600, R552, D12, log 32). -/
def State.asleep (s : State) : Bool := s.waiting && s.intVec == 0

/-- The core is not waiting any more (R600). -/
def State.awake (s : State) : State := { s with waiting := false }

/-- The instruction at the pc: fetched, decoded and executed; a word that matches no row raises INE (R600, R250). -/
def runInstr (s : State) : Result :=
  (fetchAddr s).run s fun t =>
    match decode (s.fetchWord t.pa) with
    | some i => exec i (s.fetched t.pa)
    | none => raise .ine (s.fetched t.pa)

/-- One step of the core (R600): asleep, or an interrupt, or one instruction. -/
def coreStep (s : State) : Result :=
  if s.asleep then .next s
  else if s.awake.interruptDue then raise .int s.awake
  else runInstr s.awake

/-- One step of the machine. No state ends a run but one in which it faults or is refused: the manual has no halt (R19), a waiting core
that nothing can wake goes on waiting, and what a model calls the end of a run is its own (D19: DESIGN CHOICE, log 51). -/
def step (s : State) : Host.Outcome State Fault Refusal :=
  match coreStep s with
  | .next t => .next t.envTurn
  | .fault f => .fault f
  | .refused r => .refused r

/-- `s` with the instruction whose bits are `w` (the low `nbits` of them) stored where the next step fetches: the four bytes at
the physical address of the pc, no old value of that word left to a fetch, and the core not waiting. -/
def State.withFetchWord (s : State) (nbits w : Nat) : State :=
  match translate s s.pc .fetch with
  | .ok t =>
    { s with
      mem := s.mem.storeLE t.pa 4 (BitVec.ofNat 64 (w % 2 ^ nbits))
      stale := s.stale.filter (·.pa != t.pa)
      waiting := false }
  | _ => s

end Sys2Proof.Machine
end

