-- ==== Sys2Proof/Safety.lean ====
section
/-! DEFINITION. What every state a run reaches satisfies: the invariant statements over all states take as a premise, and the
frames the statements speak of: what an instruction writes, and that it changes nothing else. -/

namespace Sys2Proof.Machine

/-- No register holds a reserved or read-only-zero bit (R52, R53, R56). -/
def State.csrHeld (s : State) : Prop := ∀ k : CsrName, s.csr.get k &&& ~~~(k.heldMask s.cfg) = 0

/-- A page's PPN has PALEN - 12 bits (R45), none with a PALEN below 12 (log 53). -/
def TlbPage.fits (cfg : Config) (p : TlbPage) : Prop := p.ppn.toNat < 2 ^ (cfg.palen - 12)

/-- The well-formedness every step keeps. -/
structure State.Inv (s : State) : Prop where
  /-- Memory is in its canonical form. -/
  mem : s.mem.wf = true
  /-- At most one entry an address says what a fetch may still see (log 12). -/
  stale : (s.stale.map (·.pa)).Nodup
  /-- Reserved CSR bits are 0 (R53). -/
  csr : s.csrHeld
  /-- Reserved bits of fcsr0 are 0 (R39). -/
  fcsr : s.fcsr0 &&& ~~~fcsrMask = 0
  /-- The timer's value has TIMER_BITS bits (R44). -/
  timer : s.timerVal &&& ~~~(lowMask s.cfg.timerBits) = 0
  /-- The TLB has TLB_ENTRIES entries (R45). -/
  tlbLength : s.tlb.length = s.cfg.tlbEntries
  /-- Every PPN in the TLB has PALEN - 12 bits (R45). -/
  tlbPpn : ∀ e ∈ s.tlb, e.page0.fits s.cfg ∧ e.page1.fits s.cfg

/-! ## Memory -/

/-- The byte at a physical address. -/
def State.byteAt (s : State) (pa : Nat) : Byte := s.mem.read pa

/-- The number the `n` bytes from `pa` up spell, the lowest address least significant (R153). -/
def State.natAt (s : State) (pa : Nat) : Nat → Nat
  | 0 => 0
  | n + 1 => (s.byteAt pa).toNat + 256 * State.natAt s (pa + 1) n

/-- Every byte of memory reads as before. -/
def SameBytes (s t : State) : Prop := ∀ a, t.byteAt a = s.byteAt a

/-- The `n` bytes from `pa` up hold `v`, the least significant byte first (R153); every other byte reads as before. -/
def StoredBytes (s t : State) (pa n v : Nat) : Prop :=
  (∀ j, j < n → (t.byteAt (pa + j)).toNat = v / 256 ^ j % 256) ∧
    ∀ a, a < pa ∨ pa + n ≤ a → t.byteAt a = s.byteAt a

/-- A fetch sees the word at `pa` as memory holds it: the sequence of R722 is complete for every store to it. -/
def State.fresh (s : State) (pa : Nat) : Prop := s.oldWords pa = []

/-- Where the `n` bytes from `pa` up, aligned, are stored to, the words they lie in may still be fetched as they were, with what could
be before; for every other word a fetch may see what it could before (R201, U12, log 12). -/
def RecordsOld (s t : State) (pa n : Nat) : Prop :=
  let stored := fun j : Nat => pa / 4 * 4 + 4 * j
  (∀ j, j < (n + 3) / 4 → ∀ w : Word,
    w ∈ t.oldWords (stored j) ↔ w.toNat = s.natAt (stored j) 4 ∨ w ∈ s.oldWords (stored j)) ∧
    ∀ a, (∀ j, j < (n + 3) / 4 → a ≠ stored j) → t.oldWords a = s.oldWords a

/-- The access of `n` bytes at virtual address `va` is done at `t.pa`: aligned (R160), translated (R170), of a defined type
(R180), and with memory behind every byte (R215). -/
def AccessOk (s : State) (va : Word) (n : Nat) (k : Access) (t : Translated) : Prop :=
  va.toNat % n = 0 ∧ translate s va k = .ok t ∧ t.mat.toNat < 2 ∧
    ∀ j, j < n → s.cfg.regionAt (t.pa + j) = some .ram

/-! ## What an instruction writes -/

/-- x[rd] holds `v` (0 when rd is r0, R31); every other general register is as before. -/
def GprIs (s t : State) (rd : RegNum) (v : Word) : Prop :=
  t.readGpr rd = (if rd = 0 then 0 else v) ∧ ∀ r, r ≠ rd → t.readGpr r = s.readGpr r

/-- `r` completes an instruction that writes `v` to x[rd], goes on at pc + 4 and changes nothing else. -/
def WritesGpr (s : State) (rd : RegNum) (v : Word) (r : Result) : Prop :=
  ∃ t, r = .next t ∧ GprIs s t rd v ∧ t.pc = s.pc + 4 ∧ SameBytes s t ∧ t = { s with gpr := t.gpr, pc := t.pc }

/-- `r` completes an instruction that changes the pc only. -/
def MovesTo (s : State) (target : Word) (r : Result) : Prop :=
  ∃ t, r = .next t ∧ t.pc = target ∧ SameBytes s t ∧ (∀ k, t.readGpr k = s.readGpr k) ∧ t = { s with pc := t.pc }

/-- `r` completes a store of `n` bytes of `v` at physical address `pa`: nothing else changes but the pc and what a fetch may still
see of the words those bytes lie in. -/
def Stores (s : State) (pa n v : Nat) (r : Result) : Prop :=
  ∃ t, r = .next t ∧ StoredBytes s t pa n v ∧ RecordsOld s t pa n ∧ t.pc = s.pc + 4 ∧ (∀ k, t.readGpr k = s.readGpr k) ∧
    t = { s with mem := t.mem, stale := t.stale, pc := t.pc }

/-! ## Floating point -/

/-- The implementation has the instruction and it is enabled (R411 steps 1 and 2). -/
def FpReady (need : FpNeed) (s : State) : Prop := need.present s.cfg.fpLevel = true ∧ s.fpe = true

/-- No raised exception is enabled: the instruction does not trap (R412). -/
def NoTrap (s : State) (e : BitVec 5) : Prop := e &&& s.enables = 0

/-- fcsr0 after an arithmetic instruction that raised E and did not trap: Cause is E, Flags accumulates E, the rest stays (R412). -/
def FcsrAfter (s t : State) (e : BitVec 5) : Prop :=
  t.fcsr0.extractLsb' 24 5 = e ∧ t.fcsr0.extractLsb' 16 5 = s.fcsr0.extractLsb' 16 5 ||| e ∧
    t.fcsr0 &&& 0xE0E0FFFF = s.fcsr0 &&& 0xE0E0FFFF

/-- `r` completes an arithmetic instruction: f[fd][31:0] holds the result, fcsr0 its exceptions; nothing else changes but the pc,
f[fd][63:32] and the count of free values. -/
def FpWritesW (s : State) (fd : RegNum) (v : FpResult) (r : Result) : Prop :=
  ∃ t, r = .next t ∧ t.readFprW fd = BitVec.ofNat 32 v.bits ∧ (∀ k, k ≠ fd → t.readFpr k = s.readFpr k) ∧
    FcsrAfter s t v.flags ∧ t.pc = s.pc + 4 ∧ SameBytes s t ∧
    t = { s with fpr := t.fpr, fcsr0 := t.fcsr0, pc := t.pc, draws := t.draws }

/-- The same with a double result: f[fd][63:0] holds it. -/
def FpWritesD (s : State) (fd : RegNum) (v : FpResult) (r : Result) : Prop :=
  ∃ t, r = .next t ∧ t.readFprD fd = BitVec.ofNat 64 v.bits ∧ (∀ k, k ≠ fd → t.readFpr k = s.readFpr k) ∧
    FcsrAfter s t v.flags ∧ t.pc = s.pc + 4 ∧ SameBytes s t ∧
    t = { s with fpr := t.fpr, fcsr0 := t.fcsr0, pc := t.pc, draws := t.draws }

/-- `r` completes a floating-point instruction that is not arithmetic: f[fd][31:0] holds `v`, fcsr0 is as before; nothing else
changes but the pc, f[fd][63:32] and the count of free values. -/
def MovesFprW (s : State) (fd : RegNum) (v : Word) (r : Result) : Prop :=
  ∃ t, r = .next t ∧ t.readFprW fd = v ∧ (∀ k, k ≠ fd → t.readFpr k = s.readFpr k) ∧ t.pc = s.pc + 4 ∧ SameBytes s t ∧
    t = { s with fpr := t.fpr, pc := t.pc, draws := t.draws }

/-- The same with all 64 bits: f[fd] holds `v`; nothing else changes but the pc. -/
def MovesFprD (s : State) (fd : RegNum) (v : DWord) (r : Result) : Prop :=
  ∃ t, r = .next t ∧ t.readFprD fd = v ∧ (∀ k, k ≠ fd → t.readFpr k = s.readFpr k) ∧ t.pc = s.pc + 4 ∧ SameBytes s t ∧
    t = { s with fpr := t.fpr, pc := t.pc }

/-- `r` completes an instruction that leaves `b` in fcc0 and changes nothing else but the pc. -/
def WritesFlag (s : State) (b : Bool) (r : Result) : Prop :=
  ∃ t, r = .next t ∧ t.fcc0 = b ∧ t.pc = s.pc + 4 ∧ SameBytes s t ∧ t = { s with fcc0 := t.fcc0, pc := t.pc }

/-- The flags E an arithmetic instruction raises, with what it needs of the implementation: every instruction of R412's list, FCMP
with a condition its table defines and cd = 0. The sign of a NaN or a zero and the word of an invalid conversion, which the spec
leaves open, raise nothing. -/
def fpRaised (s : State) : Instr → Option (FpNeed × BitVec 5)
  | .faddS _ fj fk => some (.single, (fp32.add s.fpEnv (s.single fj) (s.single fk)).flags)
  | .fsubS _ fj fk => some (.single, (fp32.sub s.fpEnv (s.single fj) (s.single fk)).flags)
  | .fmulS _ fj fk => some (.single, (fp32.mul s.fpEnv (s.single fj) (s.single fk)).flags)
  | .fdivS _ fj fk => some (.single, (fp32.div s.fpEnv (s.single fj) (s.single fk)).flags)
  | .faddD _ fj fk => some (.double, (fp64.add s.fpEnv (s.double fj) (s.double fk)).flags)
  | .fsubD _ fj fk => some (.double, (fp64.sub s.fpEnv (s.double fj) (s.double fk)).flags)
  | .fmulD _ fj fk => some (.double, (fp64.mul s.fpEnv (s.double fj) (s.double fk)).flags)
  | .fdivD _ fj fk => some (.double, (fp64.div s.fpEnv (s.double fj) (s.double fk)).flags)
  | .fmaddS _ fj fk fa => some (.single, (fp32.fma s.fpEnv (s.single fj) (s.single fk) (s.single fa)).flags)
  | .fmsubS _ fj fk fa => some (.single, (fp32.fmaNeg s.fpEnv true false false (s.single fj) (s.single fk) (s.single fa)).flags)
  | .fnmaddS _ fj fk fa => some (.single, (fp32.fmaNeg s.fpEnv false true false (s.single fj) (s.single fk) (s.single fa)).flags)
  | .fnmsubS _ fj fk fa => some (.single, (fp32.fmaNeg s.fpEnv true true false (s.single fj) (s.single fk) (s.single fa)).flags)
  | .fmaddD _ fj fk fa => some (.double, (fp64.fma s.fpEnv (s.double fj) (s.double fk) (s.double fa)).flags)
  | .fmsubD _ fj fk fa => some (.double, (fp64.fmaNeg s.fpEnv true false false (s.double fj) (s.double fk) (s.double fa)).flags)
  | .fnmaddD _ fj fk fa => some (.double, (fp64.fmaNeg s.fpEnv false true false (s.double fj) (s.double fk) (s.double fa)).flags)
  | .fnmsubD _ fj fk fa => some (.double, (fp64.fmaNeg s.fpEnv true true false (s.double fj) (s.double fk) (s.double fa)).flags)
  | .fmaxS _ fj fk => some (.single, (fp32.maxMin true false (s.single fj) (s.single fk)).flags)
  | .fminS _ fj fk => some (.single, (fp32.maxMin false false (s.single fj) (s.single fk)).flags)
  | .fmaxaS _ fj fk => some (.single, (fp32.maxMinMag true false (s.single fj) (s.single fk)).flags)
  | .fminaS _ fj fk => some (.single, (fp32.maxMinMag false false (s.single fj) (s.single fk)).flags)
  | .fmaxD _ fj fk => some (.double, (fp64.maxMin true false (s.double fj) (s.double fk)).flags)
  | .fminD _ fj fk => some (.double, (fp64.maxMin false false (s.double fj) (s.double fk)).flags)
  | .fmaxaD _ fj fk => some (.double, (fp64.maxMinMag true false (s.double fj) (s.double fk)).flags)
  | .fminaD _ fj fk => some (.double, (fp64.maxMinMag false false (s.double fj) (s.double fk)).flags)
  | .fsqrtS _ fj => some (.single, (fp32.sqrt s.fpEnv (s.single fj)).flags)
  | .fsqrtD _ fj => some (.double, (fp64.sqrt s.fpEnv (s.double fj)).flags)
  | .frecipS _ fj => some (.single, (fp32.div s.fpEnv 0x3F800000 (s.single fj)).flags)
  | .frecipD _ fj => some (.double, (fp64.div s.fpEnv 0x3FF0000000000000 (s.double fj)).flags)
  | .frsqrtS _ fj => some (.single, (fp32.rsqrt s.fpEnv (s.single fj)).flags)
  | .frsqrtD _ fj => some (.double, (fp64.rsqrt s.fpEnv (s.double fj)).flags)
  | .fcmpS c cd fj fk => if fcmpDefined c ∧ cd = 0 then some (.single, fp32.fcmpFlags c (s.single fj) (s.single fk)) else none
  | .fcmpD c cd fj fk => if fcmpDefined c ∧ cd = 0 then some (.double, fp64.fcmpFlags c (s.double fj) (s.double fk)) else none
  | .fcvtSD _ fj => some (.double, (convertFormat fp64 fp32 s.fpEnv (s.double fj)).flags)
  | .fcvtDS _ fj => some (.double, (convertFormat fp32 fp64 s.fpEnv (s.single fj)).flags)
  | .ffintSW _ fj => some (.single, (fp32.ofInt s.fpEnv (s.readFprW fj).toInt).flags)
  | .ffintDW _ fj => some (.double, (fp64.ofInt s.fpEnv (s.readFprW fj).toInt).flags)
  | .ftintWS _ fj => some (.single, (fp32.toSint32 s.roundMode 0 (s.single fj)).flags)
  | .ftintrmWS _ fj => some (.single, (fp32.toSint32 .rm 0 (s.single fj)).flags)
  | .ftintrpWS _ fj => some (.single, (fp32.toSint32 .rp 0 (s.single fj)).flags)
  | .ftintrzWS _ fj => some (.single, (fp32.toSint32 .rz 0 (s.single fj)).flags)
  | .ftintrneWS _ fj => some (.single, (fp32.toSint32 .rne 0 (s.single fj)).flags)
  | .ftintWD _ fj => some (.double, (fp64.toSint32 s.roundMode 0 (s.double fj)).flags)
  | .ftintrmWD _ fj => some (.double, (fp64.toSint32 .rm 0 (s.double fj)).flags)
  | .ftintrpWD _ fj => some (.double, (fp64.toSint32 .rp 0 (s.double fj)).flags)
  | .ftintrzWD _ fj => some (.double, (fp64.toSint32 .rz 0 (s.double fj)).flags)
  | .ftintrneWD _ fj => some (.double, (fp64.toSint32 .rne 0 (s.double fj)).flags)
  | _ => none

/-! ## Floating-point numbers as real numbers -/

/-- A pattern of the format: no bits beyond its width. -/
def FpFmt.pattern (f : FpFmt) (x : Nat) : Prop := x < 2 ^ (f.signPos + 1)

/-- Neither an infinity nor a NaN. -/
def FpFmt.finite (f : FpFmt) (x : Nat) : Prop := f.pattern x ∧ f.expField x ≠ f.expMax

/-- The number a finite pattern stands for (R410). -/
def FpFmt.value (f : FpFmt) (x : Nat) : ℚ := (if f.sign x then -1 else 1) * f.significand x * 2 ^ f.quantum x

/-- `x` is the infinity of a sign. -/
def FpFmt.IsInf (f : FpFmt) (neg : Bool) (x : Nat) : Prop :=
  f.pattern x ∧ f.sign x = neg ∧ f.expField x = f.expMax ∧ f.fracField x = 0

/-- `x` is the zero of a sign. -/
def FpFmt.IsZero (f : FpFmt) (neg : Bool) (x : Nat) : Prop :=
  f.pattern x ∧ f.sign x = neg ∧ f.expField x = 0 ∧ f.fracField x = 0

/-- `x` is the finite number of largest magnitude with a sign. -/
def FpFmt.IsMaxFinite (f : FpFmt) (neg : Bool) (x : Nat) : Prop :=
  f.pattern x ∧ f.sign x = neg ∧ f.expField x = f.expMax - 1 ∧ f.fracField x = 2 ^ f.fracBits - 1

/-- `n * u` is the multiple of `u` a magnitude `a` rounds to: to nearest, ties to even; toward zero; or, for the sign the mode leans
to, away from it (R413; IEEE 754, log 41). -/
def RoundedAt (mode : RoundMode) (neg : Bool) (a u : ℝ) (n : Nat) : Prop :=
  match mode, neg with
  | .rne, _ => 2 * |a - n * u| ≤ u ∧ (2 * |a - n * u| = u → n % 2 = 0)
  | .rz, _ | .rp, true | .rm, false => n * u ≤ a ∧ a < (n + 1) * u
  | .rp, false | .rm, true => a ≤ n * u ∧ n * u < a + u

/-- `r` is the real number `v`, not 0, rounded once into the format. `n * 2 ^ q` is `v` rounded to full precision with an unbounded
exponent: overflow (R417) and tininess (R418) are judged by it. On overflow O, I and the result of R415; else `v` rounded to a
multiple `k` of the unit the format has there, I when that is inexact (R419), U when the result is tiny and inexact or
Enables.U is set (R418). -/
def RoundsTo (f : FpFmt) (env : FpEnv) (v : ℝ) (r : FpResult) : Prop :=
  ∃ (neg : Bool) (q : ℤ) (n : Nat), (neg = true ↔ v < 0) ∧
    2 ^ (f.prec - 1) * (2 : ℝ) ^ q ≤ |v| ∧ |v| < 2 ^ f.prec * (2 : ℝ) ^ q ∧ RoundedAt env.rm neg |v| (2 ^ q) n ∧
    ((2 ^ f.prec - 1) * (2 : ℝ) ^ f.qMax < n * (2 : ℝ) ^ q → r.flags = 0x05 ∧
      match env.rm, neg with
      | .rne, _ => f.IsInf neg r.bits
      | .rz, _ => f.IsMaxFinite neg r.bits
      | .rp, true | .rm, false => f.IsMaxFinite neg r.bits
      | .rp, false | .rm, true => f.IsInf neg r.bits) ∧
    (n * (2 : ℝ) ^ q ≤ (2 ^ f.prec - 1) * (2 : ℝ) ^ f.qMax → ∃ k : Nat,
      RoundedAt env.rm neg |v| (2 ^ max q f.qMin) k ∧
      f.finite r.bits ∧ f.sign r.bits = neg ∧ |(f.value r.bits : ℝ)| = k * (2 : ℝ) ^ max q f.qMin ∧
      (r.flags.getLsbD 0 = true ↔ |(f.value r.bits : ℝ)| ≠ |v|) ∧
      (r.flags.getLsbD 1 = true ↔
        n * (2 : ℝ) ^ q < (2 : ℝ) ^ (1 - (f.bias : ℤ)) ∧ (env.trapU = true ∨ |(f.value r.bits : ℝ)| ≠ |v|)) ∧
      r.flags.extractLsb' 2 3 = 0)

/-- `r` is an exact zero sum: no exception; -0 when both terms are negative, or when their signs differ and the mode is toward minus
infinity; else +0 (IEEE 754, log 41). -/
def ZeroSum (f : FpFmt) (env : FpEnv) (negA negB : Bool) (r : FpResult) : Prop :=
  r.flags = 0 ∧ f.IsZero (if negA = negB then negA else env.rm == .rm) r.bits

/-! ## Which instructions may write what -/

/-- The general register an instruction writes, if any; BL writes r1, RDCNTID the rj field. -/
def gprTarget : Instr → Option RegNum
  | .rdcntid rj => some rj
  | .rdcntvlW rd | .rdcntvhW rd => some rd
  | .addW rd _ _ | .subW rd _ _ | .slt rd _ _ | .sltu rd _ _ | .nor rd _ _ | .and rd _ _ | .or rd _ _ | .xor rd _ _ => some rd
  | .sllW rd _ _ | .srlW rd _ _ | .sraW rd _ _ | .mulW rd _ _ | .mulhW rd _ _ | .mulhWU rd _ _ => some rd
  | .divW rd _ _ | .modW rd _ _ | .divWU rd _ _ | .modWU rd _ _ => some rd
  | .slliW rd _ _ | .srliW rd _ _ | .sraiW rd _ _ => some rd
  | .slti rd _ _ | .sltui rd _ _ | .addiW rd _ _ | .andi rd _ _ | .ori rd _ _ | .xori rd _ _ => some rd
  | .lu12iW rd _ | .pcaddu12i rd _ => some rd
  | .movfr2grS rd _ | .movfrh2grS rd _ | .movfcsr2gr rd _ | .movcf2gr rd _ => some rd
  | .csrrd rd _ | .csrwr rd _ | .csrxchg rd _ _ => some rd
  | .llW rd _ _ | .scW rd _ _ => some rd
  | .ldB rd _ _ | .ldH rd _ _ | .ldW rd _ _ | .ldBU rd _ _ | .ldHU rd _ _ => some rd
  | .jirl rd _ _ => some rd
  | .bl _ => some 1
  | _ => none

/-- The virtual address and the number of bytes of a store, for the instructions that store. -/
def storeTarget (s : State) : Instr → Option (Word × Nat)
  | .stB _ rj si12 => some (s.addr12 rj si12, 1)
  | .stH _ rj si12 => some (s.addr12 rj si12, 2)
  | .stW _ rj si12 => some (s.addr12 rj si12, 4)
  | .scW _ rj si14 => some (s.addr14 rj si14, 4)
  | .fstS _ rj si12 => some (s.addr12 rj si12, 4)
  | .fstD _ rj si12 => some (s.addr12 rj si12, 8)
  | _ => none

/-- The instructions of the floating-point set (R613), each with what it needs of the implementation (D5). -/
def fpNeeds : Instr → Option FpNeed
  | .faddS .. | .fsubS .. | .fmulS .. | .fdivS .. | .fmaxS .. | .fminS .. | .fmaxaS .. | .fminaS .. => some .single
  | .faddD .. | .fsubD .. | .fmulD .. | .fdivD .. | .fmaxD .. | .fminD .. | .fmaxaD .. | .fminaD .. => some .double
  | .fmaddS .. | .fmsubS .. | .fnmaddS .. | .fnmsubS .. => some .single
  | .fmaddD .. | .fmsubD .. | .fnmaddD .. | .fnmsubD .. => some .double
  | .fcopysignS .. | .fabsS .. | .fnegS .. | .fclassS .. | .fsqrtS .. | .frecipS .. | .frsqrtS .. => some .single
  | .fcopysignD .. | .fabsD .. | .fnegD .. | .fclassD .. | .fsqrtD .. | .frecipD .. | .frsqrtD .. => some .double
  | .fmovS .. | .movgr2frW .. | .movfr2grS .. | .movgr2fcsr .. | .movfcsr2gr .. | .fsel .. => some .single
  | .movfr2cf .. | .movcf2fr .. | .movgr2cf .. | .movcf2gr .. | .bceqz .. | .bcnez .. => some .single
  | .fmovD .. | .movgr2frhW .. | .movfrh2grS .. | .fcvtSD .. | .fcvtDS .. => some .double
  | .ffintSW .. | .ftintWS .. | .ftintrmWS .. | .ftintrpWS .. | .ftintrzWS .. | .ftintrneWS .. => some .single
  | .ffintDW .. | .ftintWD .. | .ftintrmWD .. | .ftintrpWD .. | .ftintrzWD .. | .ftintrneWD .. => some .double
  | .fldS .. | .fstS .. => some .single
  | .fldD .. | .fstD .. => some .double
  | .fcmpS .. => some .single
  | .fcmpD .. => some .double
  | _ => none

/-- The TLB instructions without operands and ERTN (R612). -/
def isTlbOrErtn : Instr → Bool
  | .tlbsrch | .tlbrd | .tlbwr | .tlbfill | .ertn => true
  | _ => false

/-- The privileged instructions with operands (R612): INVTLB with a defined op, CACOP outside the Hit class, CSR access, IDLE. -/
def isPrivilegedForm : Instr → Bool
  | .csrrd .. | .csrwr .. | .csrxchg .. | .idle _ => true
  | .invtlb op _ _ => op.toNat ≤ 6
  | .cacop code _ _ => code.extractLsb' 3 2 != 2
  | _ => false

/-- The privileged instructions of R612, which raise IPE outside PLV0. -/
def isPrivileged (i : Instr) : Bool := isTlbOrErtn i || isPrivilegedForm i

end Sys2Proof.Machine
end

