-- ==== Sys2Proof/Certificates/Slice0/Obligations.lean ====
section
/-! DEFINITION. The statements for the provers. Each docstring names the rule of spec/ it formalises; a statement that rests on a
choice of the model names the log entry. The frames (WritesGpr, Stores, FpWritesW, …) are in Sys2Proof/Safety.lean. -/

section

open Sys2Proof Sys2Proof.Machine

/-! ## Encoding (spec/30_encoding.md) -/

/-- Decoding gives every well-formed instruction back from its encoding, with every operand, and from its four bytes in memory
order, leaving the rest; fewer than four bytes are refused (R240, R241, R242). -/
def Obligations.DecodeOfEncode : Prop :=
  (∀ i : Instr, i.wellFormed = true → decode (encode i) = some i) ∧
    (∀ (i : Instr) (rest : List Byte), i.wellFormed = true → decodeBytes (encodeBytes i ++ rest) = .ok (i, rest)) ∧
    ∀ bytes : List Byte, bytes.length < 4 → decodeBytes bytes = .error .truncated

/-- A word that decodes is the encoding of what it decodes to, which is well formed: no two words decode alike, and no bit of a
word is ignored (R241, R242, R251). -/
def Obligations.EncodeOfDecode : Prop :=
  ∀ (w : Word) (i : Instr), decode w = some i → encode i = w ∧ i.wellFormed = true

/-- Words of the spec's encoding vectors decode to what they stand for (R241; V4, V165, V168, V90, V386, V520, the example of R357,
V135, V586, R550 and, matching no row, V206, V207, V261). -/
def Obligations.SpecWordsDecode : Prop :=
  decode 0x001018A4 = some (.addW 4 5 6) ∧ decode 0x029FFC41 = some (.addiW 1 2 0x7FF) ∧
    decode 0x15000001 = some (.lu12iW 1 0x80000) ∧ decode 0x04060424 = some (.csrwr 4 0x181) ∧
    decode 0x2AC00028 = some (.preld 8 1 0) ∧ decode 0x0C110820 = some (.fcmpS 2 0 1 2) ∧
    decode 0x50000200 = some (.b 0x2000000) ∧ decode 0x5BFFE0A4 = some (.beq 5 4 0xFFF8) ∧
    decode 0x48000110 = some (.bcnez 0 0x100000) ∧ decode 0x06483800 = some .ertn ∧
    decode 0x00000000 = none ∧ decode 0xFFFFFFFF = none ∧ decode 0x48000200 = none

/-! ## The step (spec/60_exceptions.md) -/

/-- When the core is not asleep and no interrupt is to be taken, and the four bytes at the pc are there: if a fetch sees them as
memory holds them and they decode to `i`, one step of the machine is `exec i` on the state with the core awake, followed by the
turn of the other agents; a fault or a refusal of `exec` is the step's. In general the word `w` run is the one memory holds or
that word as it stood before a store of this core for which the sequence of R722 is not complete; then only the count of free
values may have changed before; a word that matches no row raises INE (R600, R201, R250; old words are U12, log 12; the other
agents' turn is log 8). -/
def Obligations.StepRunsDecodedInstruction : Prop :=
  ∀ (s : State) (t : Translated), s.asleep = false → s.awake.interruptDue = false → AccessOk s s.pc 4 .fetch t →
    (∀ i : Instr, s.fresh t.pa → decode (BitVec.ofNat 32 (s.natAt t.pa 4)) = some i →
      step s = match exec i s.awake with
        | .next u => .next u.envTurn
        | .fault f => .fault f
        | .refused r => .refused r) ∧
    ∃ (w : Word) (u : State),
      (w.toNat = s.natAt t.pa 4 ∨ w ∈ s.oldWords t.pa) ∧
      u = { s.awake with draws := u.draws } ∧
      (∀ i : Instr, decode w = some i → step s = match exec i u with
        | .next u => .next u.envTurn
        | .fault f => .fault f
        | .refused r => .refused r) ∧
      (decode w = none → coreStep s = .next (enterException .ine u))

/-- What a fetch can raise, when no interrupt is due: ADEF with the pc for a pc that is not a multiple of 4, whatever the
translation would say; a translation exception; and INE for a word that matches no row, where a fetch sees memory as it is (R161,
R211, R250, R615; a jump to such a pc completes first by D28, log 34). -/
def Obligations.FetchExceptions : Prop :=
  ∀ s : State, s.asleep = false → s.awake.interruptDue = false →
    (s.pc.toNat % 4 ≠ 0 → coreStep s = .next (enterException (.adef s.pc) s.awake)) ∧
    (∀ e, s.pc.toNat % 4 = 0 → translate s s.pc .fetch = .trap e → coreStep s = .next (enterException e s.awake)) ∧
    ∀ t, AccessOk s s.pc 4 .fetch t → s.fresh t.pa → decode (BitVec.ofNat 32 (s.natAt t.pa 4)) = none →
      coreStep s = .next (enterException .ine s.awake)

/-- The sequence of R722 for the line of an address, at any level: CACOP 0x11, CACOP 0x10, IBAR. Each completes, no byte of memory
changes, and afterwards a fetch sees every word of the line as memory holds it, and of every other line what it could see before
or what memory holds. A store of another master to memory is seen by every fetch at once: every value a fetch may see of that
word has the new byte, its other bytes are as they were, and of other words a fetch may see what it could (R200, R201, R391,
R722; which words may be old, for every access type, is log 12, the line size log 9, every hint of IBAR log 45, that a CACOP whose own
address is uncached acts too log 12 and of a reserved type log 18, the Hit class at
any level D23, log 28, the wrap of the address D1, log 33). One entry an address is part of the invariant that StepKeepsInv
states. -/
def Obligations.CodeSynchronisation : Prop :=
  (∀ (s : State) (rj : RegNum) (i12 : BitVec 12) (h15 : BitVec 15) (t : Translated), (s.stale.map (·.pa)).Nodup →
    translate s (s.addr12 rj i12) .load = .ok t → ∃ s1 s2 s3,
      exec (.cacop 0x11 rj i12) s = .next s1 ∧ exec (.cacop 0x10 rj i12) s1 = .next s2 ∧ exec (.ibar h15) s2 = .next s3 ∧
      SameBytes s s3 ∧
      (∀ a, a / 2 ^ s.cfg.lineBits = t.pa / 2 ^ s.cfg.lineBits → s3.oldWords a = []) ∧
      ∀ a, a / 2 ^ s.cfg.lineBits ≠ t.pa / 2 ^ s.cfg.lineBits → s3.oldWords a = s.oldWords a ∨ s3.oldWords a = []) ∧
  ∀ (s : State) (pa : Nat) (b : Byte), s.cfg.regionAt pa = some .ram →
    let u := s.applyEvent (.store pa b)
    (∀ w ∈ u.oldWords (pa / 4 * 4), w.extractLsb' (8 * (pa % 4)) 8 = b ∧
      ∃ w' ∈ s.oldWords (pa / 4 * 4), ∀ j, j < 4 → j ≠ pa % 4 → w.extractLsb' (8 * j) 8 = w'.extractLsb' (8 * j) 8) ∧
    ∀ a, a ≠ pa / 4 * 4 → u.oldWords a = s.oldWords a

/-- An interrupt is due exactly when CRMD.IE is 1 and some bit k is set both in ESTAT.IS, as it reads, and in ECFG.LIE (R642); then
the step of the core takes it and runs no instruction (R600; at the first boundary by D10 and the lines as they stand by D33, log
11). A waiting core with no pending enabled interrupt does nothing: the step is the other agents' turn only. With one pending, it
goes on as if it had not waited, whatever CRMD.IE is (R600, R552; the wake condition is D12, log 32). -/
def Obligations.InterruptsAndWaking : Prop :=
  ∀ s : State,
    let pending := ∃ k, k < 13 ∧ (s.csrRead .estat).getLsbD k = true ∧ s.csr.ecfg.getLsbD k = true
    (s.interruptDue = true ↔ s.ie = true ∧ pending) ∧
    (s.interruptDue = true → coreStep s = .next (enterException .int s.awake)) ∧
    (s.waiting = true → ¬ pending → step s = .next s.envTurn) ∧
    (s.waiting = true → pending → step s = step { s with waiting := false })

/-- Exception entry, field by field, for every exception and every state; nothing else changes (R610, R620, R621). LLbit stays by
D32, log 47. -/
def Obligations.ExceptionEntry : Prop :=
  ∀ (e : Exc) (s : State), ∃ t, enterException e s = t ∧
    t.csr.prmd.extractLsb' 0 2 = s.csr.crmd.extractLsb' 0 2 ∧ t.csr.prmd.getLsbD 2 = s.csr.crmd.getLsbD 2 ∧
    t.csr.prmd.extractLsb' 3 29 = s.csr.prmd.extractLsb' 3 29 ∧
    t.plv = 0 ∧ t.ie = false ∧ t.csr.crmd.extractLsb' 5 27 = s.csr.crmd.extractLsb' 5 27 ∧
    (match e with
      | .tlbr _ => t.da = true ∧ t.pg = false
      | _ => t.da = s.da ∧ t.pg = s.pg) ∧
    (t.csr.estat.extractLsb' 16 6, t.csr.estat.extractLsb' 22 9) =
      (match e with
        | .int => (0x0#6, 0#9) | .pil _ => (0x1#6, 0#9) | .pis _ => (0x2#6, 0#9) | .pif _ => (0x3#6, 0#9)
        | .pme _ => (0x4#6, 0#9) | .ppi _ => (0x7#6, 0#9) | .adef _ => (0x8#6, 0#9) | .adem => (0x8#6, 1#9)
        | .ale _ => (0x9#6, 0#9) | .sys => (0xB#6, 0#9) | .brk => (0xC#6, 0#9) | .ine => (0xD#6, 0#9)
        | .ipe => (0xE#6, 0#9) | .fpd => (0xF#6, 0#9) | .fpe => (0x12#6, 0#9) | .tlbr _ => (0x3F#6, 0#9)) ∧
    t.csr.estat &&& 0x8000FFFF = s.csr.estat &&& 0x8000FFFF ∧ t.csr.era = s.pc ∧
    t.csr.badv = (match e with
      | .tlbr va | .adef va | .ale va | .pil va | .pis va | .pif va | .pme va | .ppi va => va
      | _ => s.csr.badv) ∧
    (match e with
      | .tlbr va | .pil va | .pis va | .pif va | .pme va | .ppi va =>
        t.csr.tlbehi.extractLsb' 13 19 = va.extractLsb' 13 19 ∧ t.csr.tlbehi.extractLsb' 0 13 = 0
      | _ => t.csr.tlbehi = s.csr.tlbehi) ∧
    t.pc.extractLsb' 6 26 = (match e with
      | .tlbr _ => s.csr.tlbrentry.extractLsb' 6 26
      | _ => s.csr.eentry.extractLsb' 6 26) ∧
    t.pc.extractLsb' 0 6 = 0 ∧
    t.csr = { s.csr with prmd := t.csr.prmd, crmd := t.csr.crmd, estat := t.csr.estat, era := t.csr.era,
                         badv := t.csr.badv, tlbehi := t.csr.tlbehi } ∧
    t = { s with pc := t.pc, csr := t.csr }

/-- ERTN at PLV0, field by field (R550, R624): level and enable from PRMD, mapped mode after a TLB refill (Ecode 0x3F), LLbit
cleared unless KLO is 1, KLO cleared, the pc from ERA. A PPLV of 1 or 2 is restored like the others (D15, log 20). -/
def Obligations.ErtnReturns : Prop :=
  ∀ s : State, s.plv = 0 → ∃ t, exec .ertn s = .next t ∧ t.pc = s.csr.era ∧
    t.plv = s.csr.prmd.extractLsb' 0 2 ∧ t.ie = s.csr.prmd.getLsbD 2 ∧
    (t.da, t.pg) = (if s.csr.estat.extractLsb' 16 6 = 0x3F#6 then (false, true) else (s.da, s.pg)) ∧
    t.csr.crmd.extractLsb' 5 27 = s.csr.crmd.extractLsb' 5 27 ∧
    t.llbit = (if s.csr.llbctl.getLsbD 2 then s.llbit else false) ∧
    (∀ b, t.csr.llbctl.getLsbD b = (s.csr.llbctl.getLsbD b && b != 2)) ∧
    t.csr = { s.csr with crmd := t.csr.crmd, llbctl := t.csr.llbctl } ∧
    (∀ r, t.readGpr r = s.readGpr r) ∧ SameBytes s t ∧ t = { s with pc := t.pc, llbit := t.llbit, csr := t.csr }

/-- Taking an exception and returning from it gives back the whole state but what the two write and do not restore: PRMD, ESTAT, ERA,
BADV, TLBEHI, LLBCTL and LLbit. So pc and CRMD, the general and floating-point registers, fcc0, fcsr0, every other CSR, the TLB
and memory are as before: always, but for a TLB refill taken outside mapped mode, which no address translation raises (R620,
R550, R623, R624). -/
def Obligations.EntryThenReturn : Prop :=
  ∀ (e : Exc) (s : State), (∀ va, e = .tlbr va → s.da = false ∧ s.pg = true) →
    let t := returnFromException (enterException e s)
    t.pc = s.pc ∧ t.csr.crmd = s.csr.crmd ∧ t.gpr = s.gpr ∧ t.fpr = s.fpr ∧ t.fcc0 = s.fcc0 ∧ t.fcsr0 = s.fcsr0 ∧ t.mem = s.mem ∧
      t.tlb = s.tlb ∧
      t.csr = { s.csr with prmd := t.csr.prmd, estat := t.csr.estat, era := t.csr.era, badv := t.csr.badv,
                           tlbehi := t.csr.tlbehi, llbctl := t.csr.llbctl } ∧
      t = { s with csr := t.csr, llbit := t.llbit }

/-- A privileged instruction outside PLV0 raises IPE and has no other effect; at PLV0, and for every other instruction at any
level, nothing records Ecode 0xE (R533, R612; the Hit class by D23, log 28; RDCNT* by D27, log 48; INVTLB with an undefined op by
D11, log 29; levels 1 and 2 by D15, log 20). -/
def Obligations.PrivilegedRaisesIpe : Prop :=
  ∀ (i : Instr) (s : State),
    (isPrivileged i = true → s.plv ≠ 0 → exec i s = .next (enterException .ipe s)) ∧
      ∀ t, isPrivileged i = false ∨ s.plv = 0 → exec i s = .next t → s.ecode ≠ 0xE → t.ecode ≠ 0xE

/-- A floating-point instruction the implementation lacks raises INE; one that it has raises FPD while EUEN.FPE is 0, before
anything else (R411, R611, R613, R631; absence by D5 and its priority by D11, log 29); FCMP is meant with a condition its table
defines. FpReady of the other statements is: present, and EUEN.FPE is 1. SYSCALL and BREAK raise SYS and BRK at any level, whatever
their code; INVTLB with an op beyond 6, at any level, and FCMP with a condition its table does not define raise INE (R400, R401,
R544, R611; D11 and D38, log 29). -/
def Obligations.InstructionExceptions : Prop :=
  (∀ (i : Instr) (n : FpNeed) (s : State), fpNeeds i = some n →
    (n.present s.cfg.fpLevel = false → exec i s = .next (enterException .ine s)) ∧
      (FpReady n s ↔ n.present s.cfg.fpLevel = true ∧ s.csr.euen.getLsbD 0 = true) ∧
      (n.present s.cfg.fpLevel = true → s.csr.euen.getLsbD 0 = false →
        (∀ c cd fj fk, i = .fcmpS c cd fj fk ∨ i = .fcmpD c cd fj fk → fcmpDefined c = true) →
        exec i s = .next (enterException .fpd s))) ∧
  ∀ (s : State) (code : BitVec 15) (op : BitVec 5) (rj rk : RegNum) (cd : BitVec 3),
    exec (.syscall code) s = .next (enterException .sys s) ∧ exec (.brk code) s = .next (enterException .brk s) ∧
    (6 < op.toNat → exec (.invtlb op rj rk) s = .next (enterException .ine s)) ∧
    (op ∈ [0x12#5, 0x13#5, 0x16#5, 0x17#5, 0x1A#5, 0x1B#5, 0x1C#5, 0x1D#5, 0x1E#5, 0x1F#5] →
      exec (.fcmpS op cd rj rk) s = .next (enterException .ine s) ∧
        exec (.fcmpD op cd rj rk) s = .next (enterException .ine s))

/-- Loads and stores whose address is not a multiple of their size raise ALE with that address, whatever the translation would say;
aligned ones whose translation raises an exception take that one (R160, R370, R519, R616, R630; addresses wrap by D1, log 33;
SC.W is checked whatever LLbit is by D8, log 14). -/
def Obligations.DataAccessExceptions : Prop :=
  ∀ (s : State) (r rj : RegNum) (i12 : BitVec 12) (i14 : BitVec 14),
    let va := s.addr12 rj i12
    let va14 := s.addr14 rj i14
    (∀ p ∈ [(Instr.ldH r rj i12, va, 2), (.ldHU r rj i12, va, 2), (.ldW r rj i12, va, 4), (.stH r rj i12, va, 2),
        (.stW r rj i12, va, 4), (.llW r rj i14, va14, 4), (.scW r rj i14, va14, 4)],
      p.2.1.toNat % p.2.2 ≠ 0 → exec p.1 s = .next (enterException (.ale p.2.1) s)) ∧
    (∀ p ∈ [(Instr.fldS r rj i12, FpNeed.single, 4), (.fstS r rj i12, .single, 4), (.fldD r rj i12, .double, 8),
        (.fstD r rj i12, .double, 8)],
      FpReady p.2.1 s → va.toNat % p.2.2 ≠ 0 → exec p.1 s = .next (enterException (.ale va) s)) ∧
    (∀ e, ∀ p ∈ [(Instr.ldB r rj i12, va, 1), (.ldBU r rj i12, va, 1), (.ldH r rj i12, va, 2), (.ldHU r rj i12, va, 2),
        (.ldW r rj i12, va, 4), (.llW r rj i14, va14, 4)],
      p.2.1.toNat % p.2.2 = 0 → translate s p.2.1 .load = .trap e → exec p.1 s = .next (enterException e s)) ∧
    (∀ e, ∀ p ∈ [(Instr.stB r rj i12, va, 1), (.stH r rj i12, va, 2), (.stW r rj i12, va, 4), (.scW r rj i14, va14, 4)],
      p.2.1.toNat % p.2.2 = 0 → translate s p.2.1 .store = .trap e → exec p.1 s = .next (enterException e s)) ∧
    (∀ e, ∀ p ∈ [(Instr.fldS r rj i12, FpNeed.single, 4, Access.load), (.fstS r rj i12, .single, 4, .store),
        (.fldD r rj i12, .double, 8, .load), (.fstD r rj i12, .double, 8, .store)],
      FpReady p.2.1 s → va.toNat % p.2.2.1 = 0 → translate s va p.2.2.2 = .trap e → exec p.1 s = .next (enterException e s))

/-- Where an aligned load, store or fetch, and a Hit-class CACOP at any level, stops, by name: an illegal DA, PG pair (R179, U9,
log 19); in mapped mode outside the windows, a valid entry of this address space with an unsupported page size (R178, U8, log 23)
or more than one entry that matches (R177, U7, log 21); and, but for CACOP, a reserved access type (R180, D14, log 18); no memory
behind a byte, or a device (R215, D18, R668, log 7); addresses wrap by D1, log 33. SC.W needs memory only where it may access it:
with LLbit 1, or not coherent cached (log 14). A fetch is the step of a core that is not asleep, with no interrupt due. TLBSRCH at
PLV0 stops on the same entries, whatever the mode; INVTLB 5 and 6 on a valid entry of an unsupported size among those whose address
they compare, the ASID being x[rj][9:0] (R540, R544, R546; D26 and D40, log 31). That codes 0x13 to 0x17 of CACOP are translated at
all is the model's choice, log 28. -/
def Obligations.UndefinedAccessesStop : Prop :=
  ∀ (s : State) (r rj : RegNum) (i12 : BitVec 12) (i14 : BitVec 14),
    let va12 := s.addr12 rj i12
    let va14 := s.addr14 rj i14
    let inSpace := fun e : TlbEntry => e.e = true ∧ (e.g = true ∨ e.asid = s.csr.asid.extractLsb' 0 10)
    let badSize := ∃ e ∈ s.tlb, inSpace e ∧ e.ps ≠ 12 ∧ e.ps ≠ 21
    let hits := fun (va : Nat) (e : TlbEntry) => inSpace e ∧ e.vppn.toNat * 2 ^ 13 / 2 ^ (e.ps.toNat + 1) = va / 2 ^ (e.ps.toNat + 1)
    let twice := fun va : Nat => ∃ (j k : Nat) (e e' : TlbEntry), j < k ∧ s.tlb[j]? = some e ∧ s.tlb[k]? = some e' ∧ hits va e ∧ hits va e'
    let untranslated := fun (va : Word) (r : Host.Outcome State Fault Refusal) =>
      (s.da = s.pg → r = .fault .illegalTranslationMode) ∧
      (s.da = false → s.pg = true → dmwHit s s.csr.dmw0 va = false → dmwHit s s.csr.dmw1 va = false →
        (badSize → r = .fault .unsupportedPageSize) ∧ (¬ badSize → twice va.toNat → r = .fault .multipleTlbHits))
    let noAccess := fun (t : Translated) (n : Nat) (r : Host.Outcome State Fault Refusal) =>
      (t.mat.toNat < 2 → (∃ j, j < n ∧ s.cfg.regionAt (t.pa + j) = none) → r = .fault .noMemory) ∧
      (t.mat.toNat < 2 → (∀ j, j < n → s.cfg.regionAt (t.pa + j) ≠ none) →
        (∃ j, j < n ∧ s.cfg.regionAt (t.pa + j) = some .device) → r = .refused .deviceAccess)
    (∀ p ∈ [(Instr.ldB r rj i12, va12, 1, Access.load), (.ldBU r rj i12, va12, 1, .load), (.ldH r rj i12, va12, 2, .load),
        (.ldHU r rj i12, va12, 2, .load), (.ldW r rj i12, va12, 4, .load), (.stB r rj i12, va12, 1, .store),
        (.stH r rj i12, va12, 2, .store), (.stW r rj i12, va12, 4, .store), (.llW r rj i14, va14, 4, .load),
        (.scW r rj i14, va14, 4, .store), (.fldS r rj i12, va12, 4, .load), (.fldD r rj i12, va12, 8, .load),
        (.fstS r rj i12, va12, 4, .store), (.fstD r rj i12, va12, 8, .store)],
      let va := p.2.1
      let n := p.2.2.1
      va.toNat % n = 0 → (∀ need, fpNeeds p.1 = some need → FpReady need s) →
      untranslated va (exec p.1 s) ∧
      ∀ t, translate s va p.2.2.2 = .ok t →
        (2 ≤ t.mat.toNat → exec p.1 s = .fault .reservedMemoryType) ∧
        ((p.1 = .scW r rj i14 → s.llbit = true ∨ t.mat ≠ 1) → noAccess t n (exec p.1 s))) ∧
    (s.asleep = false → s.awake.interruptDue = false → s.pc.toNat % 4 = 0 →
      untranslated s.pc (step s) ∧
      ∀ t, translate s s.pc .fetch = .ok t →
        (2 ≤ t.mat.toNat → step s = .fault .reservedMemoryType) ∧ noAccess t 4 (step s)) ∧
    (∀ code : BitVec 5, code.toNat / 8 = 2 → untranslated va12 (exec (.cacop code rj i12) s)) ∧
    (s.plv = 0 → (badSize → exec .tlbsrch s = .fault .unsupportedPageSize) ∧
      (¬ badSize → twice (s.csr.tlbehi.toNat / 2 ^ 13 * 2 ^ 13) → exec .tlbsrch s = .fault .multipleTlbHits)) ∧
    ∀ (rk : RegNum) (e : TlbEntry), s.plv = 0 → e ∈ s.tlb → e.e = true → e.ps ≠ 12 → e.ps ≠ 21 →
      let sameAsid := e.asid = (s.readGpr rj).extractLsb' 0 10
      (e.g = false ∧ sameAsid → exec (.invtlb 5 rj rk) s = .fault .unsupportedPageSize) ∧
      (e.g = true ∨ sameAsid → exec (.invtlb 6 rj rk) s = .fault .unsupportedPageSize)

/-! ## Address translation (spec/20_memory.md) -/

/-- Direct mode: the low PALEN bits, the type from DATF or DATM, no exception (R171; D30, log 49). Mapped mode: a window whose
VSEG is va[31:29] and which is enabled at the current level maps to {PSEG, va[28:0]} with the window's type (R173); when both do,
DMW0 (D13, log 24). -/
def Obligations.DirectAndWindowTranslation : Prop :=
  ∀ (s : State) (va : Word) (k : Access),
    let hits := fun dmw : Word => va.toNat / 2 ^ 29 = dmw.toNat / 2 ^ 29 ∧
      (s.plv = 0 ∧ dmw.getLsbD 0 = true ∨ s.plv = 3 ∧ dmw.getLsbD 3 = true)
    let maps := fun dmw : Word => Res.ok (Translated.mk
      ((dmw.toNat / 2 ^ 25 % 8 * 2 ^ 29 + va.toNat % 2 ^ 29) % 2 ^ s.cfg.palen) (dmw.extractLsb' 4 2))
    (s.da = true → s.pg = false → translate s va k = .ok (Translated.mk (va.toNat % 2 ^ s.cfg.palen)
      (match k with | .fetch => s.csr.crmd.extractLsb' 5 2 | .load => s.csr.crmd.extractLsb' 7 2 | .store => s.csr.crmd.extractLsb' 7 2))) ∧
    (s.da = false → s.pg = true → hits s.csr.dmw0 → translate s va k = maps s.csr.dmw0) ∧
    (s.da = false → s.pg = true → ¬ hits s.csr.dmw0 → hits s.csr.dmw1 → translate s va k = maps s.csr.dmw1)

/-- Mapped mode, no window hit, every valid entry of a supported page size. With no entry that matches, TLBR. With exactly one, its
page of the pair by bit PS of the address: PIF, PIL or PIS when V is 0, else PPI when PLV is beyond the page's, else PME for a
store to a page with D = 0, else the physical address from PPN and the type (R175, R176, R178). -/
def Obligations.TlbTranslation : Prop :=
  ∀ (s : State) (va : Word) (k : Access), s.da = false → s.pg = true →
    dmwHit s s.csr.dmw0 va = false → dmwHit s s.csr.dmw1 va = false →
    (∀ e ∈ s.tlb, e.e = true → e.ps = 12 ∨ e.ps = 21) →
    let hits := fun e : TlbEntry => e.e = true ∧ (e.g = true ∨ e.asid = s.csr.asid.extractLsb' 0 10) ∧
      e.vppn.toNat * 2 ^ 13 / 2 ^ (e.ps.toNat + 1) = va.toNat / 2 ^ (e.ps.toNat + 1)
    ((∀ e ∈ s.tlb, ¬ hits e) → translate s va k = .trap (.tlbr va)) ∧
    ∀ (j : Nat) (e : TlbEntry), s.tlb[j]? = some e → hits e →
      (∀ (j' : Nat) (e' : TlbEntry), s.tlb[j']? = some e' → hits e' → j' = j) →
      let p := if va.toNat / 2 ^ e.ps.toNat % 2 = 0 then e.page0 else e.page1
      (p.v = false → translate s va k =
        .trap (match k with | .fetch => .pif va | .load => .pil va | .store => .pis va)) ∧
      (p.v = true → p.plv.toNat < s.plv.toNat → translate s va k = .trap (.ppi va)) ∧
      (p.v = true → s.plv.toNat ≤ p.plv.toNat → k = .store → p.d = false → translate s va k = .trap (.pme va)) ∧
      (p.v = true → s.plv.toNat ≤ p.plv.toNat → (k = .store → p.d = true) →
        p.fits s.cfg → e.ps.toNat ≤ s.cfg.palen →
        translate s va k = .ok ⟨p.ppn.toNat * 2 ^ 12 / 2 ^ e.ps.toNat * 2 ^ e.ps.toNat + va.toNat % 2 ^ e.ps.toNat, p.mat⟩)

/-! ## Integer instructions (spec/40_int_arith.md to spec/44_int_misc.md) -/

/-- Arithmetic, compare, logic and multiply on two registers: the result in x[rd], the pc at pc + 4, nothing else (R301, R302, R305,
R306, R310 to R313, R318 to R320). -/
def Obligations.IntegerRegister : Prop :=
  ∀ (s : State) (rd rj rk : RegNum),
    let a := s.readGpr rj
    let b := s.readGpr rk
    WritesGpr s rd (BitVec.ofNat 32 (a.toNat + b.toNat)) (exec (.addW rd rj rk) s) ∧
    WritesGpr s rd (BitVec.ofInt 32 (a.toInt - b.toInt)) (exec (.subW rd rj rk) s) ∧
    WritesGpr s rd (if a.toInt < b.toInt then 1 else 0) (exec (.slt rd rj rk) s) ∧
    WritesGpr s rd (if a.toNat < b.toNat then 1 else 0) (exec (.sltu rd rj rk) s) ∧
    WritesGpr s rd (a &&& b) (exec (.and rd rj rk) s) ∧
    WritesGpr s rd (a ||| b) (exec (.or rd rj rk) s) ∧
    WritesGpr s rd (~~~(a ||| b)) (exec (.nor rd rj rk) s) ∧
    WritesGpr s rd (a ^^^ b) (exec (.xor rd rj rk) s) ∧
    WritesGpr s rd (BitVec.ofInt 32 (a.toInt * b.toInt)) (exec (.mulW rd rj rk) s) ∧
    WritesGpr s rd (BitVec.ofInt 32 (a.toInt * b.toInt / 2 ^ 32)) (exec (.mulhW rd rj rk) s) ∧
    WritesGpr s rd (BitVec.ofNat 32 (a.toNat * b.toNat / 2 ^ 32)) (exec (.mulhWU rd rj rk) s)

/-- Shifts by x[rk][4:0] or ui5, 0 to 31 (R340 to R346). -/
def Obligations.Shifts : Prop :=
  ∀ (s : State) (rd rj rk : RegNum) (ui5 : BitVec 5),
    let a := s.readGpr rj
    let n := (s.readGpr rk).toNat % 32
    WritesGpr s rd (BitVec.ofNat 32 (a.toNat * 2 ^ n)) (exec (.sllW rd rj rk) s) ∧
    WritesGpr s rd (BitVec.ofNat 32 (a.toNat / 2 ^ n)) (exec (.srlW rd rj rk) s) ∧
    WritesGpr s rd (BitVec.ofInt 32 (a.toInt / 2 ^ n)) (exec (.sraW rd rj rk) s) ∧
    WritesGpr s rd (BitVec.ofNat 32 (a.toNat * 2 ^ ui5.toNat)) (exec (.slliW rd rj ui5) s) ∧
    WritesGpr s rd (BitVec.ofNat 32 (a.toNat / 2 ^ ui5.toNat)) (exec (.srliW rd rj ui5) s) ∧
    WritesGpr s rd (BitVec.ofInt 32 (a.toInt / 2 ^ ui5.toNat)) (exec (.sraiW rd rj ui5) s)

/-- Division: with a non-zero divisor the quotient truncated toward zero and the remainder with the sign of the dividend; with
divisor 0 the instruction completes all the same, with some value in x[rd] (R321 to R325; the open value is log 15). -/
def Obligations.Division : Prop :=
  ∀ (s : State) (rd rj rk : RegNum),
    let a := s.readGpr rj
    let b := s.readGpr rk
    (b ≠ 0 →
      WritesGpr s rd (BitVec.ofInt 32 (a.toInt.tdiv b.toInt)) (exec (.divW rd rj rk) s) ∧
      WritesGpr s rd (BitVec.ofInt 32 (a.toInt - b.toInt * a.toInt.tdiv b.toInt)) (exec (.modW rd rj rk) s) ∧
      WritesGpr s rd (BitVec.ofNat 32 (a.toNat / b.toNat)) (exec (.divWU rd rj rk) s) ∧
      WritesGpr s rd (BitVec.ofNat 32 (a.toNat % b.toNat)) (exec (.modWU rd rj rk) s)) ∧
    (b = 0 → ∀ i ∈ [Instr.divW rd rj rk, .modW rd rj rk, .divWU rd rj rk, .modWU rd rj rk], ∃ t v, exec i s = .next t ∧
      GprIs s t rd v ∧ t.pc = s.pc + 4 ∧ SameBytes s t ∧ t = { s with gpr := t.gpr, pc := t.pc, draws := t.draws })

/-- The forms with an immediate: si12 sign-extended, for SLTUI too, ui12 zero-extended, si20 as bits 31:12 (R303, R304, R307 to
R309, R314 to R316). -/
def Obligations.IntegerImmediate : Prop :=
  ∀ (s : State) (rd rj : RegNum) (i12 : BitVec 12) (i20 : BitVec 20),
    let a := s.readGpr rj
    WritesGpr s rd (BitVec.ofInt 32 (a.toInt + i12.toInt)) (exec (.addiW rd rj i12) s) ∧
    WritesGpr s rd (if a.toInt < i12.toInt then 1 else 0) (exec (.slti rd rj i12) s) ∧
    WritesGpr s rd (if a.toNat < (i12.toInt % 2 ^ 32).toNat then 1 else 0) (exec (.sltui rd rj i12) s) ∧
    WritesGpr s rd (a &&& BitVec.ofNat 32 i12.toNat) (exec (.andi rd rj i12) s) ∧
    WritesGpr s rd (a ||| BitVec.ofNat 32 i12.toNat) (exec (.ori rd rj i12) s) ∧
    WritesGpr s rd (a ^^^ BitVec.ofNat 32 i12.toNat) (exec (.xori rd rj i12) s) ∧
    WritesGpr s rd (BitVec.ofNat 32 (i20.toNat * 2 ^ 12)) (exec (.lu12iW rd i20) s) ∧
    WritesGpr s rd (BitVec.ofNat 32 (s.pc.toNat + i20.toNat * 2 ^ 12)) (exec (.pcaddu12i rd i20) s)

/-- RDCNTVL.W, RDCNTVH.W and RDCNTID at any level; RDCNTID writes the register of the rj field (R402 to R404; that they need no
privilege is D27, log 48). -/
def Obligations.CounterReads : Prop :=
  ∀ (s : State) (r : RegNum),
    WritesGpr s r (BitVec.ofNat 32 s.stableCounter.toNat) (exec (.rdcntvlW r) s) ∧
    WritesGpr s r (BitVec.ofNat 32 (s.stableCounter.toNat / 2 ^ 32)) (exec (.rdcntvhW r) s) ∧
    WritesGpr s r s.csr.tid (exec (.rdcntid r) s)

/-- Branches: to pc + 4 * offset, signed, when taken, else to pc + 4; B always; BL links pc + 4 in r1 (R351 to R358; the wrap of
pc and target modulo 2^32 is D1, log 33). -/
def Obligations.Branches : Prop :=
  ∀ (s : State) (r r' : RegNum) (o16 : BitVec 16) (o26 : BitVec 26),
    let a := s.readGpr r
    let b := s.readGpr r'
    let dest := fun taken : Bool => BitVec.ofInt 32 (s.pc.toNat + if taken then o16.toInt * 4 else 4)
    MovesTo s (dest (decide (a = b))) (exec (.beq r r' o16) s) ∧
    MovesTo s (dest (decide (a ≠ b))) (exec (.bne r r' o16) s) ∧
    MovesTo s (dest (decide (a.toInt < b.toInt))) (exec (.blt r r' o16) s) ∧
    MovesTo s (dest (decide (b.toInt ≤ a.toInt))) (exec (.bge r r' o16) s) ∧
    MovesTo s (dest (decide (a.toNat < b.toNat))) (exec (.bltu r r' o16) s) ∧
    MovesTo s (dest (decide (b.toNat ≤ a.toNat))) (exec (.bgeu r r' o16) s) ∧
    MovesTo s (BitVec.ofInt 32 (s.pc.toNat + o26.toInt * 4)) (exec (.b o26) s) ∧
    (∃ t, exec (.bl o26) s = .next t ∧ GprIs s t 1 (s.pc + 4) ∧ t.pc = BitVec.ofInt 32 (s.pc.toNat + o26.toInt * 4) ∧
      SameBytes s t ∧ t = { s with gpr := t.gpr, pc := t.pc })

/-- JIRL jumps to x[rj] + 4 * offset, signed, modulo 2^32, and links pc + 4 in x[rd]; the jump uses the old x[rj], also when rd = rj,
and bits 1:0 of it pass through (R359, R360; the old x[rj] is D39, log 46; the wrap is D1, log 33; the misaligned target D28, log
34). -/
def Obligations.IndirectJump : Prop :=
  ∀ (s : State) (rd rj : RegNum) (o16 : BitVec 16), ∃ t, exec (.jirl rd rj o16) s = .next t ∧ GprIs s t rd (s.pc + 4) ∧
    t.pc = BitVec.ofInt 32 ((s.readGpr rj).toNat + o16.toInt * 4) ∧ SameBytes s t ∧ t = { s with gpr := t.gpr, pc := t.pc }

/-- Loads: the little-endian bytes at the translated address, sign- or zero-extended, in x[rd] (R370 to R375, R153; the address
wraps by D1, log 33). -/
def Obligations.Loads : Prop :=
  ∀ (s : State) (rd rj : RegNum) (i12 : BitVec 12) (t : Translated),
    let va := s.addr12 rj i12
    (AccessOk s va 1 .load t →
      WritesGpr s rd ((BitVec.ofNat 8 (s.natAt t.pa 1)).signExtend 32) (exec (.ldB rd rj i12) s) ∧
      WritesGpr s rd (BitVec.ofNat 32 (s.natAt t.pa 1)) (exec (.ldBU rd rj i12) s)) ∧
    (AccessOk s va 2 .load t →
      WritesGpr s rd ((BitVec.ofNat 16 (s.natAt t.pa 2)).signExtend 32) (exec (.ldH rd rj i12) s) ∧
      WritesGpr s rd (BitVec.ofNat 32 (s.natAt t.pa 2)) (exec (.ldHU rd rj i12) s)) ∧
    (AccessOk s va 4 .load t → WritesGpr s rd (BitVec.ofNat 32 (s.natAt t.pa 4)) (exec (.ldW rd rj i12) s))

/-- Stores: the low 1, 2 or 4 bytes of x[rd], little-endian, at the translated address; no other byte changes (R370, R376, R377,
R379, R153; the wrap of the address is D1, log 33; what a later fetch may still see of
the words stored to, in RecordsOld, is U12, log 12). The premise on memory is part of the invariant that StepKeepsInv states. -/
def Obligations.Stores : Prop :=
  ∀ (s : State) (rd rj : RegNum) (i12 : BitVec 12) (t : Translated), s.mem.wf = true →
    let va := s.addr12 rj i12
    let v := (s.readGpr rd).toNat
    (AccessOk s va 1 .store t → Machine.Stores s t.pa 1 v (exec (.stB rd rj i12) s)) ∧
    (AccessOk s va 2 .store t → Machine.Stores s t.pa 2 v (exec (.stH rd rj i12) s)) ∧
    (AccessOk s va 4 .store t → Machine.Stores s t.pa 4 v (exec (.stW rd rj i12) s))

/-- LL.W loads the word, sets LLbit and records the physical address. SC.W to coherent cached memory stores x[rd] as it was before
when LLbit is 1, and with LLbit 0 makes no access, so that its address need only be aligned and translate as a store; it answers
LLbit in x[rd]; what is left in LLbit is open (R380, R381; the physical address is log 9, the order of SC.W and that nothing need
stand behind its address with LLbit 0 is D8, log 14; the old x[rd] also as destination is D39, log 46; an LL.W that is not coherent
cached loads as well, log 13). SC.W to memory that is not coherent cached completes too: of memory it changes no byte outside its
word (R384: the result is undefined; log 13: the word and the result are free values). A store of another master clears LLbit
exactly when its byte lies in the line of the recorded address, and changes that byte of memory only (R385; the line size is log 9;
that one where there is no memory changes nothing else, and goes on, is the model's choice, log 52). The address wraps by D1, log
33; what a later fetch may still see of the words stored to is U12, log 12. -/
def Obligations.LinkedAccess : Prop :=
  (∀ (s : State) (rd rj : RegNum) (i14 : BitVec 14) (t : Translated), s.mem.wf = true →
    let va := s.addr14 rj i14
    (AccessOk s va 4 .load t → ∃ u, exec (.llW rd rj i14) s = .next u ∧ GprIs s u rd (BitVec.ofNat 32 (s.natAt t.pa 4)) ∧
      u.llbit = true ∧ u.llAddr = t.pa ∧ u.pc = s.pc + 4 ∧ SameBytes s u ∧
      u = { s with gpr := u.gpr, pc := u.pc, llbit := u.llbit, llAddr := u.llAddr }) ∧
    (AccessOk s va 4 .store t → t.mat = 1 → s.llbit = true → ∃ u, exec (.scW rd rj i14) s = .next u ∧ GprIs s u rd 1 ∧
      StoredBytes s u t.pa 4 (s.readGpr rd).toNat ∧ RecordsOld s u t.pa 4 ∧ u.pc = s.pc + 4 ∧
      u = { s with gpr := u.gpr, pc := u.pc, llbit := u.llbit, mem := u.mem, stale := u.stale, draws := u.draws }) ∧
    (va.toNat % 4 = 0 → translate s va .store = .ok t → t.mat = 1 → s.llbit = false → ∃ u, exec (.scW rd rj i14) s = .next u ∧
      GprIs s u rd 0 ∧ SameBytes s u ∧ u.pc = s.pc + 4 ∧
      u = { s with gpr := u.gpr, pc := u.pc, llbit := u.llbit, draws := u.draws }) ∧
    (AccessOk s va 4 .store t → t.mat ≠ 1 → ∃ u, exec (.scW rd rj i14) s = .next u ∧
      (∀ r, r ≠ rd → u.readGpr r = s.readGpr r) ∧ (∀ a, a < t.pa ∨ t.pa + 4 ≤ a → u.byteAt a = s.byteAt a) ∧
      RecordsOld s u t.pa 4 ∧ u.pc = s.pc + 4 ∧
      u = { s with gpr := u.gpr, pc := u.pc, llbit := u.llbit, mem := u.mem, stale := u.stale, draws := u.draws })) ∧
  ∀ (s : State) (pa : Nat) (b : Byte), s.mem.wf = true →
    let u := s.applyEvent (.store pa b)
    u.llbit = (if pa / 2 ^ s.cfg.lineBits = s.llAddr / 2 ^ s.cfg.lineBits then false else s.llbit) ∧
      (∀ a, u.byteAt a = if a = pa ∧ s.cfg.regionAt pa = some .ram then b else s.byteAt a) ∧
      (s.cfg.regionAt pa ≠ some .ram → u.stale = s.stale) ∧ u = { s with mem := u.mem, stale := u.stale, llbit := u.llbit }

/-- PRELD and DBAR only advance the pc, whatever their hint and address; so does CACOP at PLV0 outside the Hit class, its undefined
operations too. A Hit-class CACOP at any level completes when its address translates as a load, and else takes the translation's
exception, with no alignment check; of the words a fetch may see old, those of its line go on in the sequence of R722: on the
data cache (1) a stored word is written back, on the instruction cache (0) a written-back one is dropped; no other code does
anything more. IBAR, with any hint, takes out the words that were dropped. IDLE at PLV0 makes the core wait (R378, R390, R391,
R535, R552; no other cache state is D24 and the old words U12, log 12; that CACOP acts whatever the type of its own
address is log 12, for a reserved type log 18; the Hit class at any level is D23, that undefined operations
have no effect U13, and that codes 0x13 to 0x17 are translated with the rest of the class is the model's choice, all log 28; that
every hint acts as 0 is D37, log 45; the line size is log 9; the wrap of the address is D1, log 33). -/
def Obligations.HintsCacopIdle : Prop :=
  ∀ (s : State) (h c : BitVec 5) (h15 : BitVec 15) (rj : RegNum) (i12 : BitVec 12),
    MovesTo s (s.pc + 4) (exec (.preld h rj i12) s) ∧ MovesTo s (s.pc + 4) (exec (.dbar h15) s) ∧
    (s.plv = 0 → c.toNat / 8 ≠ 2 → MovesTo s (s.pc + 4) (exec (.cacop c rj i12) s)) ∧
    (∀ tr, c.toNat / 8 = 2 → translate s (s.addr12 rj i12) .load = .ok tr → ∃ t, exec (.cacop c rj i12) s = .next t ∧
      t.stale = s.stale.map (fun b =>
        if b.pa / 2 ^ s.cfg.lineBits = tr.pa / 2 ^ s.cfg.lineBits then
          { b with stage := match b.stage with
              | .stored => if c.toNat % 8 = 1 then .writtenBack else .stored
              | .writtenBack => if c.toNat % 8 = 0 then .invalidated else .writtenBack
              | .invalidated => .invalidated }
        else b) ∧
      t.pc = s.pc + 4 ∧ SameBytes s t ∧ (∀ r, t.readGpr r = s.readGpr r) ∧ t = { s with stale := t.stale, pc := t.pc }) ∧
    (∀ e, c.toNat / 8 = 2 → translate s (s.addr12 rj i12) .load = .trap e →
      exec (.cacop c rj i12) s = .next (enterException e s)) ∧
    (∃ t, exec (.ibar h15) s = .next t ∧ (∀ b, b ∈ t.stale ↔ b ∈ s.stale ∧ b.stage ≠ .invalidated) ∧
      t.pc = s.pc + 4 ∧ SameBytes s t ∧ (∀ r, t.readGpr r = s.readGpr r) ∧ t = { s with stale := t.stale, pc := t.pc }) ∧
    (s.plv = 0 → ∃ t, exec (.idle h15) s = .next t ∧ t.waiting = true ∧ t.pc = s.pc + 4 ∧ SameBytes s t ∧
      (∀ r, t.readGpr r = s.readGpr r) ∧ t = { s with waiting := t.waiting, pc := t.pc })

/-! ## Floating point (spec/45_fp_arith.md to spec/47_fp_move_branch_mem.md) -/

/-- The two-operand arithmetic instructions complete with the result of their operation in fd and its exceptions in fcsr0, when
none that is raised is enabled (R411, R412, R420 to R427, R436 to R443; the operations are defined in Machine/Float.lean and
FpArithmeticValues, FpQuotientsAndRoots, FpOrder and FpNaNResults say what they compute; the free bit of the zero cases is log 38). -/
def Obligations.FpTwoOperand : Prop :=
  ∀ (s : State) (fd fj fk : RegNum), ∃ zeroSign : Bool,
    let x := (s.readFprW fj).toNat
    let y := (s.readFprW fk).toNat
    let x' := (s.readFprD fj).toNat
    let y' := (s.readFprD fk).toNat
    (FpReady .single s → ∀ p ∈ [(Instr.faddS fd fj fk, fp32.add s.fpEnv x y), (.fsubS fd fj fk, fp32.sub s.fpEnv x y),
        (.fmulS fd fj fk, fp32.mul s.fpEnv x y), (.fdivS fd fj fk, fp32.div s.fpEnv x y),
        (.fmaxS fd fj fk, fp32.maxMin true zeroSign x y), (.fminS fd fj fk, fp32.maxMin false zeroSign x y),
        (.fmaxaS fd fj fk, fp32.maxMinMag true zeroSign x y), (.fminaS fd fj fk, fp32.maxMinMag false zeroSign x y)],
      NoTrap s p.2.flags → FpWritesW s fd p.2 (exec p.1 s)) ∧
    (FpReady .double s → ∀ p ∈ [(Instr.faddD fd fj fk, fp64.add s.fpEnv x' y'), (.fsubD fd fj fk, fp64.sub s.fpEnv x' y'),
        (.fmulD fd fj fk, fp64.mul s.fpEnv x' y'), (.fdivD fd fj fk, fp64.div s.fpEnv x' y'),
        (.fmaxD fd fj fk, fp64.maxMin true zeroSign x' y'), (.fminD fd fj fk, fp64.maxMin false zeroSign x' y'),
        (.fmaxaD fd fj fk, fp64.maxMinMag true zeroSign x' y'), (.fminaD fd fj fk, fp64.maxMinMag false zeroSign x' y')],
      NoTrap s p.2.flags → FpWritesD s fd p.2 (exec p.1 s))

/-- The fused instructions complete with x * y + z, x * y - z, or its negative, rounded once; the sign of a NaN result of the
three with a negation is open (R428 to R435, R458, log 38; FpArithmeticValues says what fma and fmaNeg compute). -/
def Obligations.FpFused : Prop :=
  ∀ (s : State) (fd fj fk fa : RegNum), ∃ nanSign : Bool,
    let x := (s.readFprW fj).toNat
    let y := (s.readFprW fk).toNat
    let z := (s.readFprW fa).toNat
    let x' := (s.readFprD fj).toNat
    let y' := (s.readFprD fk).toNat
    let z' := (s.readFprD fa).toNat
    (FpReady .single s → ∀ p ∈ [(Instr.fmaddS fd fj fk fa, fp32.fma s.fpEnv x y z),
        (.fmsubS fd fj fk fa, fp32.fmaNeg s.fpEnv true false nanSign x y z),
        (.fnmaddS fd fj fk fa, fp32.fmaNeg s.fpEnv false true nanSign x y z),
        (.fnmsubS fd fj fk fa, fp32.fmaNeg s.fpEnv true true nanSign x y z)],
      NoTrap s p.2.flags → FpWritesW s fd p.2 (exec p.1 s)) ∧
    (FpReady .double s → ∀ p ∈ [(Instr.fmaddD fd fj fk fa, fp64.fma s.fpEnv x' y' z'),
        (.fmsubD fd fj fk fa, fp64.fmaNeg s.fpEnv true false nanSign x' y' z'),
        (.fnmaddD fd fj fk fa, fp64.fmaNeg s.fpEnv false true nanSign x' y' z'),
        (.fnmsubD fd fj fk fa, fp64.fmaNeg s.fpEnv true true nanSign x' y' z')],
      NoTrap s p.2.flags → FpWritesD s fd p.2 (exec p.1 s))

/-- Square root, reciprocal (the division of 1.0) and reciprocal square root complete (R448 to R453; one rounding for the last is
C9, log 39; FpQuotientsAndRoots says what the operations compute). -/
def Obligations.FpOneOperand : Prop :=
  ∀ (s : State) (fd fj : RegNum),
    let x := (s.readFprW fj).toNat
    let x' := (s.readFprD fj).toNat
    (FpReady .single s → ∀ p ∈ [(Instr.fsqrtS fd fj, fp32.sqrt s.fpEnv x), (.frecipS fd fj, fp32.div s.fpEnv 0x3F800000 x),
        (.frsqrtS fd fj, fp32.rsqrt s.fpEnv x)],
      NoTrap s p.2.flags → FpWritesW s fd p.2 (exec p.1 s)) ∧
    (FpReady .double s → ∀ p ∈ [(Instr.fsqrtD fd fj, fp64.sqrt s.fpEnv x'),
        (.frecipD fd fj, fp64.div s.fpEnv 0x3FF0000000000000 x'), (.frsqrtD fd fj, fp64.rsqrt s.fpEnv x')],
      NoTrap s p.2.flags → FpWritesD s fd p.2 (exec p.1 s))

/-- FABS, FNEG, FCOPYSIGN change the sign bit only and FCLASS sets the one bit of its class, with no exception and fcsr0 unchanged
(R444 to R447, R454 to R457, R460; fcsr0 is D22, log 42). -/
def Obligations.FpBitOperations : Prop :=
  ∀ (s : State) (fd fj fk : RegNum),
    let x := s.readFprW fj
    let y := s.readFprW fk
    let x' := s.readFprD fj
    let y' := s.readFprD fk
    (FpReady .single s →
      MovesFprW s fd (BitVec.ofNat 32 (x.toNat % 2 ^ 31)) (exec (.fabsS fd fj) s) ∧
      MovesFprW s fd (x ^^^ 0x80000000) (exec (.fnegS fd fj) s) ∧
      MovesFprW s fd (BitVec.ofNat 32 (x.toNat % 2 ^ 31 + y.toNat / 2 ^ 31 * 2 ^ 31)) (exec (.fcopysignS fd fj fk) s) ∧
      MovesFprW s fd (BitVec.ofNat 32 (fp32.classify x.toNat)) (exec (.fclassS fd fj) s)) ∧
    (FpReady .double s →
      MovesFprD s fd (BitVec.ofNat 64 (x'.toNat % 2 ^ 63)) (exec (.fabsD fd fj) s) ∧
      MovesFprD s fd (x' ^^^ 0x8000000000000000) (exec (.fnegD fd fj) s) ∧
      MovesFprD s fd (BitVec.ofNat 64 (x'.toNat % 2 ^ 63 + y'.toNat / 2 ^ 63 * 2 ^ 63)) (exec (.fcopysignD fd fj fk) s) ∧
      MovesFprD s fd (BitVec.ofNat 64 (fp64.classify x'.toNat)) (exec (.fclassD fd fj) s))

/-- The conversions complete: between the formats, from a word, and to a word under fcsr0.RM or the mode of the name; the result
of an invalid conversion to a word is some word `bad` (R480 to R494; `bad` is D21, log 37; FpConversionValues says what the
operations compute). -/
def Obligations.FpConvert : Prop :=
  ∀ (s : State) (fd fj : RegNum), ∃ bad : Word,
    let x := (s.readFprW fj).toNat
    let x' := (s.readFprD fj).toNat
    let n := (s.readFprW fj).toInt
    (FpReady .single s → ∀ p ∈ [(Instr.ffintSW fd fj, fp32.ofInt s.fpEnv n), (.ftintWS fd fj, fp32.toSint32 s.roundMode bad x),
        (.ftintrmWS fd fj, fp32.toSint32 .rm bad x), (.ftintrpWS fd fj, fp32.toSint32 .rp bad x),
        (.ftintrzWS fd fj, fp32.toSint32 .rz bad x), (.ftintrneWS fd fj, fp32.toSint32 .rne bad x)],
      NoTrap s p.2.flags → FpWritesW s fd p.2 (exec p.1 s)) ∧
    (FpReady .double s →
      (∀ p ∈ [(Instr.fcvtSD fd fj, convertFormat fp64 fp32 s.fpEnv x'), (.ftintWD fd fj, fp64.toSint32 s.roundMode bad x'),
          (.ftintrmWD fd fj, fp64.toSint32 .rm bad x'), (.ftintrpWD fd fj, fp64.toSint32 .rp bad x'),
          (.ftintrzWD fd fj, fp64.toSint32 .rz bad x'), (.ftintrneWD fd fj, fp64.toSint32 .rne bad x')],
        NoTrap s p.2.flags → FpWritesW s fd p.2 (exec p.1 s)) ∧
      ∀ p ∈ [(Instr.fcvtDS fd fj, convertFormat fp32 fp64 s.fpEnv x), (.ffintDW fd fj, fp64.ofInt s.fpEnv n)],
        NoTrap s p.2.flags → FpWritesD s fd p.2 (exec p.1 s))

/-- FCMP with one of the 22 conditions of the table and cd = 0 completes: fcc0 is 1 exactly when the relation of the operands is one
of the row's, and V is raised by an SNaN, and by any NaN in the signalling rows (R470 to R474; that +0 equals -0 is log 41). The
rows: condition, true for LT, EQ, GT, UN, signalling. -/
def Obligations.FpCompare : Prop :=
  ∀ (s : State) (fj fk : RegNum),
    ∀ row ∈ [(0x00#5, false, false, false, false, false), (0x08#5, false, false, false, true, false),
        (0x04#5, false, true, false, false, false), (0x0C#5, false, true, false, true, false),
        (0x02#5, true, false, false, false, false), (0x0A#5, true, false, false, true, false),
        (0x06#5, true, true, false, false, false), (0x0E#5, true, true, false, true, false),
        (0x10#5, true, false, true, false, false), (0x14#5, true, true, true, false, false),
        (0x18#5, true, false, true, true, false), (0x01#5, false, false, false, false, true),
        (0x09#5, false, false, false, true, true), (0x05#5, false, true, false, false, true),
        (0x0D#5, false, true, false, true, true), (0x03#5, true, false, false, false, true),
        (0x0B#5, true, false, false, true, true), (0x07#5, true, true, false, false, true),
        (0x0F#5, true, true, false, true, true), (0x11#5, true, false, true, false, true),
        (0x15#5, true, true, true, false, true), (0x19#5, true, false, true, true, true)],
      ∀ p ∈ [(Instr.fcmpS row.1 0 fj fk, FpNeed.single, fp32, (s.readFprW fj).toNat, (s.readFprW fk).toNat),
          (.fcmpD row.1 0 fj fk, .double, fp64, (s.readFprD fj).toNat, (s.readFprD fk).toNat)],
        let f := p.2.2.1
        let x := p.2.2.2.1
        let y := p.2.2.2.2
        let flags : BitVec 5 :=
          if f.isSNaN x || f.isSNaN y || (row.2.2.2.2.2 && (f.isNaN x || f.isNaN y)) then 0x10 else 0
        FpReady p.2.1 s → NoTrap s flags → ∃ t, exec p.1 s = .next t ∧
          t.fcc0 = (match f.relate x y with
            | .lt => row.2.1 | .eq => row.2.2.1 | .gt => row.2.2.2.1 | .un => row.2.2.2.2.1) ∧
          FcsrAfter s t flags ∧ t.pc = s.pc + 4 ∧ SameBytes s t ∧ (∀ r, t.readGpr r = s.readGpr r) ∧
          t = { s with fcc0 := t.fcc0, fcsr0 := t.fcsr0, pc := t.pc, draws := t.draws }

/-- The moves between the register files, fcc0 and within the floating-point registers copy bits: no exception, fcsr0 unchanged
(R500 to R506, R510 to R513; ca, cj, cd = 0 name fcc0; that FSEL and the MOV* moves raise nothing is D22, log 42). MOVGR2FCSR
writes the bits of fcsr0 that its number views and no other, with no trap; MOVFCSR2GR reads them in place, the rest 0 (R40, R508,
R509). A number of 4 to 31 still completes: the write changes writable bits of fcsr0 only (D34, log 16). What the other statements
call the rounding mode is fcsr0[9:8], RNE, RZ, RP or RM; the enables, which NoTrap asks, are fcsr0[4:0]; and an operation takes that
mode and Enables.U, bit 1 (R39, R413, R418). -/
def Obligations.FpMoves : Prop :=
  (∀ (s : State) (fd fj fk r : RegNum),
    (FpReady .single s →
      MovesFprW s fd (s.readFprW fj) (exec (.fmovS fd fj) s) ∧
      MovesFprD s fd (if s.fcc0 then s.readFprD fk else s.readFprD fj) (exec (.fsel fd fj fk 0) s) ∧
      MovesFprW s fd (s.readGpr r) (exec (.movgr2frW fd r) s) ∧
      MovesFprD s fd (if s.fcc0 then 1 else 0) (exec (.movcf2fr fd 0) s) ∧
      WritesGpr s r (s.readFprW fj) (exec (.movfr2grS r fj) s) ∧
      WritesGpr s r (if s.fcc0 then 1 else 0) (exec (.movcf2gr r 0) s) ∧
      WritesFlag s ((s.readFprW fj).toNat % 2 == 1) (exec (.movfr2cf 0 fj) s) ∧
      WritesFlag s ((s.readGpr r).toNat % 2 == 1) (exec (.movgr2cf 0 r) s)) ∧
    (FpReady .double s →
      MovesFprD s fd (s.readFprD fj) (exec (.fmovD fd fj) s) ∧
      MovesFprD s fd (s.readGpr r ++ (s.readFprD fd).extractLsb' 0 32) (exec (.movgr2frhW fd r) s) ∧
      WritesGpr s r ((s.readFprD fj).extractLsb' 32 32) (exec (.movfrh2grS r fj) s))) ∧
  (∀ (s : State) (r : RegNum), FpReady .single s →
    (∀ p ∈ [(0#5, 0x1F1F031F#32), (1#5, 0x0000001F#32), (2#5, 0x1F1F0000#32), (3#5, 0x00000300#32)],
      (∃ t, exec (.movgr2fcsr p.1 r) s = .next t ∧
        (∀ b, b < 32 → t.fcsr0.getLsbD b = if p.2.getLsbD b then (s.readGpr r).getLsbD b else s.fcsr0.getLsbD b) ∧
        t.pc = s.pc + 4 ∧ SameBytes s t ∧ (∀ k, t.readGpr k = s.readGpr k) ∧ t = { s with fcsr0 := t.fcsr0, pc := t.pc }) ∧
      WritesGpr s r (s.fcsr0 &&& p.2) (exec (.movfcsr2gr r p.1) s)) ∧
    ∀ i : BitVec 5, 4 ≤ i.toNat →
      (∃ t, exec (.movgr2fcsr i r) s = .next t ∧ t.fcsr0 &&& 0xE0E0FCE0 = s.fcsr0 &&& 0xE0E0FCE0 ∧ t.pc = s.pc + 4 ∧
        t = { s with fcsr0 := t.fcsr0, pc := t.pc, draws := t.draws }) ∧
      ∃ t v, exec (.movfcsr2gr r i) s = .next t ∧ GprIs s t r v ∧ t.pc = s.pc + 4 ∧
        t = { s with gpr := t.gpr, pc := t.pc, draws := t.draws }) ∧
  ∀ s : State,
    (∀ p ∈ [(0, RoundMode.rne), (1, .rz), (2, .rp), (3, .rm)], s.fcsr0.toNat / 2 ^ 8 % 4 = p.1 → s.roundMode = p.2) ∧
    s.enables.toNat = s.fcsr0.toNat % 2 ^ 5 ∧ (∀ e : BitVec 5, NoTrap s e ↔ ∀ b, b < 5 → ¬ (e.getLsbD b ∧ s.fcsr0.getLsbD b)) ∧
    s.fpEnv.rm = s.roundMode ∧ s.fpEnv.trapU = s.fcsr0.getLsbD 1

/-- BCEQZ and BCNEZ branch on fcc0 (cj = 0) by 4 * offs21, signed (R515, R516; the wrap is D1, log 33; fcsr0 as before is D22, log
42). A condition field of 1 to 7 is refused, in every instruction that has one, FCMP with every condition its table defines (D7,
log 17). -/
def Obligations.FpBranches : Prop :=
  ∀ (s : State) (o21 : BitVec 21) (c : BitVec 3) (cond : BitVec 5) (r r' r'' : RegNum), FpReady .single s →
    MovesTo s (BitVec.ofInt 32 (s.pc.toNat + if s.fcc0 = false then o21.toInt * 4 else 4)) (exec (.bceqz 0 o21) s) ∧
    MovesTo s (BitVec.ofInt 32 (s.pc.toNat + if s.fcc0 = true then o21.toInt * 4 else 4)) (exec (.bcnez 0 o21) s) ∧
    (c ≠ 0 →
      (∀ i ∈ [Instr.bceqz c o21, .bcnez c o21, .fsel r r' r'' c, .movfr2cf c r, .movgr2cf c r, .movcf2fr r c, .movcf2gr r c],
        exec i s = .refused .noSuchConditionFlag) ∧
      (fcmpDefined cond = true → exec (.fcmpS cond c r r') s = .refused .noSuchConditionFlag ∧
        (FpReady .double s → exec (.fcmpD cond c r r') s = .refused .noSuchConditionFlag)))

/-- FLD and FST, single and double (R519 to R523; fcsr0 as before is D22, log 42; the wrap of the address is D1, log 33; what a later
fetch may still see of the words stored to is U12, log 12). The premise on memory is part of the invariant that StepKeepsInv
states. -/
def Obligations.FpMemory : Prop :=
  ∀ (s : State) (fd rj : RegNum) (i12 : BitVec 12) (t : Translated), s.mem.wf = true →
    let va := s.addr12 rj i12
    (FpReady .single s →
      (AccessOk s va 4 .load t → MovesFprW s fd (BitVec.ofNat 32 (s.natAt t.pa 4)) (exec (.fldS fd rj i12) s)) ∧
      (AccessOk s va 4 .store t → Machine.Stores s t.pa 4 (s.readFprW fd).toNat (exec (.fstS fd rj i12) s))) ∧
    (FpReady .double s →
      (AccessOk s va 8 .load t → MovesFprD s fd (BitVec.ofNat 64 (s.natAt t.pa 8)) (exec (.fldD fd rj i12) s)) ∧
      (AccessOk s va 8 .store t → Machine.Stores s t.pa 8 (s.readFprD fd).toNat (exec (.fstD fd rj i12) s)))

/-- The floating-point trap: when a raised exception is enabled the destination is not written, Cause is the whole set E, Flags gains
at most bits of E that are not enabled, and FPE is taken (R412, R618; which Flags bits is D20, log 36). For every instruction of
R412's list, in both formats; `fpRaised` names each one's E. -/
def Obligations.FpTraps : Prop :=
  ∀ (i : Instr) (s : State) (need : FpNeed) (e : BitVec 5), fpRaised s i = some (need, e) → FpReady need s → ¬ NoTrap s e →
    ∃ u, exec i s = .next (enterException .fpe u) ∧
      u.fcsr0.extractLsb' 24 5 = e ∧ u.fcsr0 &&& 0xE0E0FFFF = s.fcsr0 &&& 0xE0E0FFFF ∧
      s.fcsr0.extractLsb' 16 5 &&& ~~~(u.fcsr0.extractLsb' 16 5) = 0 ∧
      u.fcsr0.extractLsb' 16 5 &&& ~~~(s.fcsr0.extractLsb' 16 5 ||| (e &&& ~~~ s.enables)) = 0 ∧
      u = { s with fcsr0 := u.fcsr0, draws := u.draws }

/-! ## What the floating-point operations compute -/

/-- Rounding an exact value into a format gives the real number rounded once, in the four modes, with overflow and its result,
underflow and inexactness: for a magnitude m * 2^e, and for one a little above it, which `sticky` stands for, as division and the
roots leave it when m has more bits than the format (R413, R415, R417 to R419; what the modes mean is IEEE 754, log 41). -/
def Obligations.FpRounding : Prop :=
  ∀ f ∈ [fp32, fp64], ∀ (env : FpEnv) (neg : Bool) (m : Nat) (e : Int) (v : ℝ), m ≠ 0 → (neg = true ↔ v < 0) →
    (|v| = m * (2 : ℝ) ^ e → RoundsTo f env v (f.round env ⟨neg, m, e, false⟩)) ∧
    (2 ^ f.prec ≤ m → m * (2 : ℝ) ^ e < |v| → |v| < (m + 1) * (2 : ℝ) ^ e → RoundsTo f env v (f.round env ⟨neg, m, e, true⟩))

/-- A value the format holds rounds to itself in every mode, with no exception: every finite non-zero pattern, subnormals included,
comes back from its sign, significand and exponent; U is raised for a subnormal only when U is enabled (R410, R413, R418; IEEE 754, log
41). -/
def Obligations.FpExactResults : Prop :=
  ∀ f ∈ [fp32, fp64], ∀ (env : FpEnv) (x : Nat), x < 2 ^ (f.signPos + 1) → f.expField x ≠ f.expMax → f.magnitude x ≠ 0 →
    f.round env ⟨f.sign x, f.significand x, f.quantum x, false⟩ =
      ⟨x, if f.expField x = 0 ∧ env.trapU = true then 0x02 else 0⟩

/-- The relation of two operands that are no NaN is the order of their values, the exact integers significand * 2^(exponent) with
their sign, an infinity's being beyond every finite one's; a NaN is unordered with everything; +0 and -0 are equal (R410, R470; the
last is log 41). FMAX, FMIN, FMAXA and FMINA of two
finite numbers or infinities pick an operand, by the relation, respectively by magnitude first, with no exception; of zeros of
opposite sign a zero of the open sign `z`. An SNaN is given back made quiet, with V, fj's first; of one QNaN and a number the
number, of two QNaNs the first, with no exception (R436 to R443, R459; the open sign is U23, log 38). -/
def Obligations.FpOrder : Prop :=
  ∀ f ∈ [fp32, fp64], ∀ x y : Nat,
    let value := fun z => (if f.sign z then -1 else 1 : Int) * (f.significand z * 2 ^ (max 1 (f.expField z) - 1) : Nat)
    let quiet := fun w : Nat => w ||| 2 ^ (f.fracBits - 1)
    (f.isNaN x = true ∨ f.isNaN y = true → f.relate x y = .un) ∧
    (f.isNaN x = false → f.isNaN y = false →
      (∀ z, f.isInf z = true → f.expField y ≠ f.expMax → value z = (if f.sign z then -1 else 1) * |value z| ∧ |value y| < |value z|) ∧
      (f.relate x y = .lt ↔ value x < value y) ∧ (f.relate x y = .eq ↔ value x = value y) ∧
        (f.relate x y = .gt ↔ value y < value x)) ∧
    ∀ larger z : Bool, f.pattern x → f.pattern y →
      let better := if larger then FpRel.gt else FpRel.lt
      let byValue : FpResult → Prop := fun r => r.flags = 0 ∧
        (f.relate x y = better → r.bits = x) ∧ (f.relate y x = better → r.bits = y) ∧
        (f.relate x y = .eq → if f.sign x = f.sign y then r.bits = x else f.IsZero z r.bits)
      (f.isNaN x = false → f.isNaN y = false → byValue (f.maxMin larger z x y) ∧
        (f.magnitude x < f.magnitude y → f.maxMinMag larger z x y = ⟨if larger then y else x, 0⟩) ∧
        (f.magnitude y < f.magnitude x → f.maxMinMag larger z x y = ⟨if larger then x else y, 0⟩) ∧
        (f.magnitude x = f.magnitude y → byValue (f.maxMinMag larger z x y))) ∧
      ∀ r ∈ [f.maxMin larger z x y, f.maxMinMag larger z x y],
        (f.isSNaN x = true → r = ⟨quiet x, 0x10⟩) ∧
        (f.isSNaN x = false → f.isSNaN y = true → r = ⟨quiet y, 0x10⟩) ∧
        (f.isSNaN x = false → f.isSNaN y = false → f.isNaN x = true → r = ⟨if f.isNaN y then x else y, 0⟩) ∧
        (f.isNaN x = false → f.isSNaN y = false → f.isNaN y = true → r = ⟨x, 0⟩)

/-- The NaN result of addition, subtraction, multiplication and division is the first SNaN made quiet, with V, else the first QNaN
with no exception; of the fused multiply-add the same with the order fa, fj, fk (R414; that a QNaN wins over an infinity times
zero, with no exception, is its case 2 read literally, log 40). -/
def Obligations.FpNaNResults : Prop :=
  ∀ f ∈ [fp32, fp64], ∀ (env : FpEnv) (x y z : Nat),
    let quiet := fun w : Nat => w ||| 2 ^ (f.fracBits - 1)
    (∀ op ∈ [f.add env, f.sub env, f.mul env, f.div env],
      (f.isSNaN x = true → op x y = ⟨quiet x, 0x10⟩) ∧
      (f.isSNaN x = false → f.isSNaN y = true → op x y = ⟨quiet y, 0x10⟩) ∧
      (f.isSNaN x = false → f.isSNaN y = false → f.isNaN x = true → op x y = ⟨x, 0⟩) ∧
      (f.isNaN x = false → f.isSNaN y = false → f.isNaN y = true → op x y = ⟨y, 0⟩)) ∧
    (f.isSNaN z = true → f.fma env x y z = ⟨quiet z, 0x10⟩) ∧
    (f.isSNaN z = false → f.isSNaN x = true → f.fma env x y z = ⟨quiet x, 0x10⟩) ∧
    (f.isSNaN z = false → f.isSNaN x = false → f.isSNaN y = true → f.fma env x y z = ⟨quiet y, 0x10⟩) ∧
    (f.isSNaN z = false → f.isSNaN x = false → f.isSNaN y = false →
      (f.isNaN z = true → f.fma env x y z = ⟨z, 0⟩) ∧
      (f.isNaN z = false → f.isNaN x = true → f.fma env x y z = ⟨x, 0⟩) ∧
      (f.isNaN z = false → f.isNaN x = false → f.isNaN y = true → f.fma env x y z = ⟨y, 0⟩))


/-- Addition, subtraction, multiplication and the fused operations on numbers: the exact sum, difference, product or sum of product
and addend of the real values, rounded once; the sign of an exact zero; infinities; V and the default QNaN for infinities that
cancel and for zero times infinity (R410, R413 to R417, R420 to R425, R428 to R435). The negated forms are fma of z with its sign
inverted, the result's sign inverted after rounding; the sign of a NaN result is `n` (R458, log 38). What the modes mean and the
sign of zeros is IEEE 754, log 41. -/
def Obligations.FpArithmeticValues : Prop :=
  ∀ f ∈ [fp32, fp64], ∀ (env : FpEnv) (x y z : Nat), f.pattern x → f.pattern y → f.pattern z →
    let flip := fun w : Nat => w ^^^ 2 ^ f.signPos
    let invalid := fun r : FpResult => r = ⟨2 ^ f.signPos - 2 ^ (f.fracBits - 1), 0x10⟩
    let neg := f.sign x ^^ f.sign y
    (∀ p ∈ [(f.add env x y, y), (f.sub env x y, flip y)],
      (f.finite x → f.finite y →
        (f.value x + f.value p.2 ≠ 0 → RoundsTo f env ((f.value x + f.value p.2 : ℚ) : ℝ) p.1) ∧
        (f.value x + f.value p.2 = 0 → ZeroSum f env (f.sign x) (f.sign p.2) p.1)) ∧
      (f.isInf x = true → f.finite y ∨ f.IsInf (f.sign x) p.2 → p.1 = ⟨x, 0⟩) ∧
      (f.isInf x = true → f.IsInf (!f.sign x) p.2 → invalid p.1) ∧
      (f.finite x → f.isInf y = true → p.1 = ⟨p.2, 0⟩)) ∧
    ((f.finite x → f.finite y →
        (f.value x * f.value y ≠ 0 → RoundsTo f env ((f.value x * f.value y : ℚ) : ℝ) (f.mul env x y)) ∧
        (f.value x * f.value y = 0 → (f.mul env x y).flags = 0 ∧ f.IsZero neg (f.mul env x y).bits)) ∧
      ((f.isInf x = true ∧ f.isZero y = true) ∨ (f.isZero x = true ∧ f.isInf y = true) →
        invalid (f.mul env x y) ∧ (f.isNaN z = false → invalid (f.fma env x y z))) ∧
      ((f.isInf x = true ∧ f.isZero y = false ∧ f.isNaN y = false) ∨ (f.isInf y = true ∧ f.isZero x = false ∧ f.isNaN x = false) →
        ((f.mul env x y).flags = 0 ∧ f.IsInf neg (f.mul env x y).bits) ∧
        (f.finite z ∨ f.IsInf neg z → (f.fma env x y z).flags = 0 ∧ f.IsInf neg (f.fma env x y z).bits) ∧
        (f.IsInf (!neg) z → invalid (f.fma env x y z)))) ∧
    (f.finite x → f.finite y →
      (f.finite z →
        (f.value x * f.value y + f.value z ≠ 0 →
          RoundsTo f env ((f.value x * f.value y + f.value z : ℚ) : ℝ) (f.fma env x y z)) ∧
        (f.value x * f.value y + f.value z = 0 → ZeroSum f env neg (f.sign z) (f.fma env x y z))) ∧
      (f.isInf z = true → f.fma env x y z = ⟨z, 0⟩)) ∧
    ∀ negZ negR n : Bool,
      let r := f.fma env x y (if negZ then flip z else z)
      (f.isNaN r.bits = false →
        f.fmaNeg env negZ negR n x y z = ⟨if negR then flip r.bits else r.bits, r.flags⟩) ∧
      (f.isNaN x = false → f.isNaN y = false → f.isNaN z = false → f.isNaN r.bits = true →
        f.fmaNeg env negZ negR n x y z = ⟨f.withSign n r.bits, 0x10⟩) ∧
      (f.isNaN x = true ∨ f.isNaN y = true ∨ f.isNaN z = true → f.fmaNeg env negZ negR n x y z =
        ⟨f.withSign n ((f.fma env x y z).bits % 2 ^ f.signPos), (f.fma env x y z).flags⟩)

/-- Division, square root and reciprocal square root on numbers: the exact quotient, root or reciprocal root of the real values,
rounded once; Z and an infinity for a number divided by zero and for the reciprocal root of a zero; V and the default QNaN for
0/0, infinity over infinity and the roots of negative numbers; infinities and zeros (R410, R413 to R417, R426, R427, R448 to R453;
one rounding for the last two is C9, log 39; the root of -0 is IEEE 754, log 41). Roots of NaNs as R414 has them. -/
def Obligations.FpQuotientsAndRoots : Prop :=
  ∀ f ∈ [fp32, fp64], ∀ (env : FpEnv) (x y : Nat), f.pattern x → f.pattern y →
    let invalid := fun r : FpResult => r = ⟨2 ^ f.signPos - 2 ^ (f.fracBits - 1), 0x10⟩
    let neg := f.sign x ^^ f.sign y
    let q := f.div env x y
    (f.finite x → f.finite y →
      (f.value x ≠ 0 → f.value y ≠ 0 → RoundsTo f env ((f.value x / f.value y : ℚ) : ℝ) q) ∧
      (f.value x ≠ 0 → f.value y = 0 → q.flags = 0x08 ∧ f.IsInf neg q.bits) ∧
      (f.value x = 0 → f.value y ≠ 0 → q.flags = 0 ∧ f.IsZero neg q.bits) ∧
      (f.value x = 0 → f.value y = 0 → invalid q)) ∧
    (f.isInf x = true → f.isInf y = true → invalid q) ∧
    (f.isInf x = true → f.finite y → q.flags = 0 ∧ f.IsInf neg q.bits) ∧
    (f.finite x → f.isInf y = true → q.flags = 0 ∧ f.IsZero neg q.bits) ∧
    (f.finite x → 0 < f.value x → RoundsTo f env (√(f.value x : ℝ)) (f.sqrt env x) ∧
      RoundsTo f env (1 / √(f.value x : ℝ)) (f.rsqrt env x)) ∧
    (f.isZero x = true → f.sqrt env x = ⟨x, 0⟩ ∧ (f.rsqrt env x).flags = 0x08 ∧ f.IsInf (f.sign x) (f.rsqrt env x).bits) ∧
    (f.IsInf false x → f.sqrt env x = ⟨x, 0⟩ ∧ (f.rsqrt env x).flags = 0 ∧ f.IsZero false (f.rsqrt env x).bits) ∧
    (f.sign x = true → f.isZero x = false → f.isNaN x = false → invalid (f.sqrt env x) ∧ invalid (f.rsqrt env x)) ∧
    ∀ r ∈ [f.sqrt env x, f.rsqrt env x],
      (f.isSNaN x = true → r = ⟨x ||| 2 ^ (f.fracBits - 1), 0x10⟩) ∧ (f.isSNaN x = false → f.isNaN x = true → r = ⟨x, 0⟩)

/-- The conversions. From an integer and between the formats: the number rounded into the format, a zero kept with its sign, an
infinity kept, a NaN made quiet with its sign and the high bits of its fraction, V for an SNaN. To a word: the number rounded to
an integer in the mode, I when that is inexact; V and the open word `bad` when it does not fit, and for an infinity or a NaN
(R413, R414, R417 to R419, R480 to R494; the open word is D21, log 37; what the modes mean is IEEE 754, log 41). -/
def Obligations.FpConversionValues : Prop :=
  (∀ f ∈ [fp32, fp64], ∀ (env : FpEnv) (n : Int),
    (n ≠ 0 → RoundsTo f env n (f.ofInt env n)) ∧ f.ofInt env 0 = ⟨0, 0⟩) ∧
  (∀ p ∈ [(fp64, fp32), (fp32, fp64)], ∀ (env : FpEnv) (x : Nat), p.1.pattern x →
    let r := convertFormat p.1 p.2 env x
    (p.1.finite x → p.1.value x ≠ 0 → RoundsTo p.2 env (p.1.value x : ℝ) r) ∧
    (p.1.isZero x = true → r.flags = 0 ∧ p.2.IsZero (p.1.sign x) r.bits) ∧
    (p.1.isInf x = true → r.flags = 0 ∧ p.2.IsInf (p.1.sign x) r.bits) ∧
    (p.1.isNaN x = true → r.flags = (if p.1.isSNaN x then 0x10 else 0) ∧ p.2.pattern r.bits ∧
      p.2.sign r.bits = p.1.sign x ∧ p.2.expField r.bits = p.2.expMax ∧
      p.2.fracField r.bits = 2 ^ (p.2.fracBits - 1) |||
        p.1.fracField x * 2 ^ p.2.fracBits / 2 ^ p.1.fracBits)) ∧
  ∀ f ∈ [fp32, fp64], ∀ (mode : RoundMode) (bad : Word) (x : Nat),
    (f.finite x → ∃ n : Nat, RoundedAt mode (f.sign x) |(f.value x : ℝ)| 1 n ∧
      let i : Int := if f.sign x then -n else n
      (-2 ^ 31 ≤ i → i < 2 ^ 31 → f.toSint32 mode bad x =
        ⟨(BitVec.ofInt 32 i).toNat, if f.value x = i then 0 else 0x01⟩) ∧
      (i < -2 ^ 31 ∨ 2 ^ 31 ≤ i → f.toSint32 mode bad x = ⟨bad.toNat, 0x10⟩)) ∧
    (f.isNaN x = true ∨ f.isInf x = true → f.toSint32 mode bad x = ⟨bad.toNat, 0x10⟩)

/-- FCLASS: exactly the bit of the operand's class, by its sign, exponent and fraction fields (R460). -/
def Obligations.FclassVector : Prop :=
  ∀ f ∈ [fp32, fp64], ∀ x : Nat,
    let e := f.expField x
    let m := f.fracField x
    let neg := f.sign x
    let quiet := x.testBit (f.fracBits - 1)
    (f.classify x).testBit 0 = decide (e = f.expMax ∧ m ≠ 0 ∧ quiet = false) ∧
    (f.classify x).testBit 1 = decide (e = f.expMax ∧ m ≠ 0 ∧ quiet = true) ∧
    (f.classify x).testBit 2 = decide (neg = true ∧ e = f.expMax ∧ m = 0) ∧
    (f.classify x).testBit 3 = decide (neg = true ∧ e ≠ 0 ∧ e ≠ f.expMax) ∧
    (f.classify x).testBit 4 = decide (neg = true ∧ e = 0 ∧ m ≠ 0) ∧
    (f.classify x).testBit 5 = decide (neg = true ∧ e = 0 ∧ m = 0) ∧
    (f.classify x).testBit 6 = decide (neg = false ∧ e = f.expMax ∧ m = 0) ∧
    (f.classify x).testBit 7 = decide (neg = false ∧ e ≠ 0 ∧ e ≠ f.expMax) ∧
    (f.classify x).testBit 8 = decide (neg = false ∧ e = 0 ∧ m ≠ 0) ∧
    (f.classify x).testBit 9 = decide (neg = false ∧ e = 0 ∧ m = 0) ∧
    ∃ k, k < 10 ∧ f.classify x = 2 ^ k

/-! ## Control and status registers (spec/10_state.md, spec/48_priv.md) -/

/-- A csr_num names the register R57 lists for it, and any other number none. CSRRD at PLV0 completes for every csr_num and changes
x[rd] only; a number that names no register gives 0; the views read the state they are views of; reserved bits read 0 (R53, R55,
R57, R64, R68, R70, R74, R77, R82, R83, R530; that TLBELO has no PPN bit with a PALEN below 12 is log 53). What the other
statements call PLV, IE, DA, PG and Ecode are CRMD[1:0], [2], [3], [4] and ESTAT[21:16] (R60, R64; what LLBCTL.WCLLB and CTAG read
is open, log 27; the input lines as they stand by D33, log 11). -/
def Obligations.CsrRead : Prop :=
  (let table := [(0x0#14, CsrName.crmd), (0x1#14, .prmd), (0x2#14, .euen), (0x4#14, .ecfg), (0x5#14, .estat), (0x6#14, .era),
      (0x7#14, .badv), (0xC#14, .eentry), (0x10#14, .tlbidx), (0x11#14, .tlbehi), (0x12#14, .tlbelo0), (0x13#14, .tlbelo1),
      (0x18#14, .asid), (0x19#14, .pgdl), (0x1A#14, .pgdh), (0x1B#14, .pgd), (0x20#14, .cpuid), (0x30#14, .save0),
      (0x31#14, .save1), (0x32#14, .save2), (0x33#14, .save3), (0x40#14, .tid), (0x41#14, .tcfg), (0x42#14, .tval),
      (0x44#14, .ticlr), (0x60#14, .llbctl), (0x88#14, .tlbrentry), (0x98#14, .ctag), (0x180#14, .dmw0), (0x181#14, .dmw1)]
    ∀ (num : BitVec 14) (k : CsrName), csrOfNum num = some k ↔ (num, k) ∈ table) ∧
  (∀ s : State, s.plv.toNat = s.csr.crmd.toNat % 4 ∧ s.ie = s.csr.crmd.getLsbD 2 ∧ s.da = s.csr.crmd.getLsbD 3 ∧
    s.pg = s.csr.crmd.getLsbD 4 ∧ s.ecode.toNat = s.csr.estat.toNat / 2 ^ 16 % 2 ^ 6) ∧
  ∀ (s : State) (rd : RegNum) (num : BitVec 14), s.plv = 0 → ∃ t v, exec (.csrrd rd num) s = .next t ∧ GprIs s t rd v ∧
    t.pc = s.pc + 4 ∧ SameBytes s t ∧ t = { s with gpr := t.gpr, pc := t.pc, draws := t.draws } ∧
    match csrOfNum num with
    | none => v = 0
    | some .estat =>
      v.extractLsb' 16 15 = s.csr.estat.extractLsb' 16 15 ∧ v.extractLsb' 0 2 = s.csr.estat.extractLsb' 0 2 ∧
        v.extractLsb' 2 8 = s.hwi ∧ v.getLsbD 10 = false ∧ v.getLsbD 11 = s.tiFlag ∧ v.getLsbD 12 = s.ipi ∧
        v.extractLsb' 13 3 = 0 ∧ v.getLsbD 31 = false
    | some .asid => v = BitVec.ofNat 32 (0x000A0000 + s.csr.asid.toNat % 2 ^ 10)
    | some .pgd => v = (if s.csr.badv.toNat < 2 ^ 31 then s.csr.pgdl else s.csr.pgdh) &&& 0xFFFFF000
    | some .cpuid => v.toNat = s.cfg.coreId.toNat
    | some .tval => s.cfg.timerBits ≤ 32 → v.toNat = s.timerVal.toNat % 2 ^ s.cfg.timerBits
    | some .ticlr => v = 0
    | some .llbctl => v.getLsbD 0 = s.llbit ∧ v.getLsbD 2 = s.csr.llbctl.getLsbD 2 ∧ v.extractLsb' 3 29 = 0
    | some .ctag => True
    | some k => v = s.csr.get k &&& k.writeMask s.cfg

/-- The RW masks are the masks W of R60 to R83; that a write to CTAG changes nothing is D24, log 27. The write procedure, for
CSRXCHG under the mask x[rj] and for CSRWR under all ones: x[rd] gets what CSRRD reads, the RW bits under the mask take the bits
of the old x[rd], every other bit and every other register stays; a number that names no register is written nothing and gives 0.
The actions: TCFG loads and arms the timer, whatever the mask, TICLR.CLR clears the timer flag, LLBCTL.WCLLB clears LLbit (R31,
R55, R56, R70, R531, R532, R652, R653; the timer load, for a mask of 0 too, is D16, log 25; that CSRXCHG with rd = rj uses the old
x[rd] as value and mask is D39, log 46; that TLBELO has no PPN bit with a PALEN below 12 is log 53). -/
def Obligations.CsrWrite : Prop :=
  (∀ c : Config, c.wf = true → ∀ p ∈ [(CsrName.crmd, 0x000001FF), (.prmd, 0x00000007), (.euen, 0x00000001), (.ecfg, 0x00001BFF),
      (.estat, 0x00000003), (.era, 0xFFFFFFFF), (.badv, 0xFFFFFFFF), (.eentry, 0xFFFFFFC0),
      (.tlbidx, 0xBF000000 + (2 ^ c.tlbIndexBits - 1)), (.tlbehi, 0xFFFFE000),
      (.tlbelo0, 0x0000007F + (2 ^ (c.palen - 12) - 1) * 2 ^ 8), (.tlbelo1, 0x0000007F + (2 ^ (c.palen - 12) - 1) * 2 ^ 8),
      (.asid, 0x000003FF), (.pgdl, 0xFFFFF000), (.pgdh, 0xFFFFF000), (.pgd, 0), (.cpuid, 0), (.save0, 0xFFFFFFFF),
      (.save1, 0xFFFFFFFF), (.save2, 0xFFFFFFFF), (.save3, 0xFFFFFFFF), (.tid, 0xFFFFFFFF), (.tcfg, 2 ^ c.timerBits - 1),
      (.tval, 0), (.ticlr, 0), (.llbctl, 0x00000004), (.tlbrentry, 0xFFFFFFC0), (.dmw0, 0xEE000039),
      (.dmw1, 0xEE000039)],
    (p.1.writeMask c).toNat = p.2) ∧ (∀ c : Config, CsrName.ctag.writeMask c = 0) ∧
  ∀ (s : State) (rd rj : RegNum) (num : BitVec 14), s.plv = 0 →
    ∀ p ∈ [(Instr.csrwr rd num, 0xFFFFFFFF#32), (.csrxchg rd rj num, s.readGpr rj)],
      let v := s.readGpr rd
      let m := p.2
      match csrOfNum num with
      | none => WritesGpr s rd 0 (exec p.1 s)
      | some k => ∃ t, exec p.1 s = .next t ∧ GprIs s t rd (s.csrRead k) ∧
          (∀ b, b < 32 → (t.csr.get k).getLsbD b =
            if m.getLsbD b && (k.writeMask s.cfg).getLsbD b then v.getLsbD b else (s.csr.get k).getLsbD b) ∧
          (∀ j, j ≠ k → t.csr.get j = s.csr.get j) ∧
          t.tiFlag = (s.tiFlag && !(k == .ticlr && m.getLsbD 0 && v.getLsbD 0)) ∧
          t.llbit = (s.llbit && !(k == .llbctl && m.getLsbD 1 && v.getLsbD 1)) ∧
          (if k = .tcfg then t.timerRun = true ∧
              (s.cfg.timerBits ≤ 32 → t.timerVal.toNat = t.csr.tcfg.toNat % 2 ^ s.cfg.timerBits / 4 * 4)
            else t.timerRun = s.timerRun ∧ t.timerVal = s.timerVal) ∧
          t.pc = s.pc + 4 ∧ SameBytes s t ∧
          t = { s with gpr := t.gpr, csr := t.csr, tiFlag := t.tiFlag, llbit := t.llbit, timerRun := t.timerRun,
                       timerVal := t.timerVal, pc := t.pc, draws := t.draws }

/-! ## The TLB instructions (spec/48_priv.md) -/

/-- TLBSRCH at PLV0, every valid entry of a supported page size. Exactly one entry that matches ASID and TLBEHI: its index goes to
TLBIDX.Index and NE is 0. None: NE is 1. Every other bit of TLBIDX stays (R540, R546; the comparison is D26, log
31). -/
def Obligations.TlbSearch : Prop :=
  ∀ s : State, s.plv = 0 → (∀ e ∈ s.tlb, e.e = true → e.ps = 12 ∨ e.ps = 21) →
    let va := s.csr.tlbehi.toNat / 2 ^ 13 * 2 ^ 13
    let hits := fun e : TlbEntry => e.e = true ∧ (e.g = true ∨ e.asid = s.csr.asid.extractLsb' 0 10) ∧
      e.vppn.toNat * 2 ^ 13 / 2 ^ (e.ps.toNat + 1) = va / 2 ^ (e.ps.toNat + 1)
    ((∀ e ∈ s.tlb, ¬ hits e) → ∃ t, exec .tlbsrch s = .next t ∧
      t.csr.tlbidx = (s.csr.tlbidx ||| 0x80000000) ∧ t.csr = { s.csr with tlbidx := t.csr.tlbidx } ∧ t.pc = s.pc + 4 ∧
      SameBytes s t ∧ (∀ r, t.readGpr r = s.readGpr r) ∧ t = { s with csr := t.csr, pc := t.pc }) ∧
    ∀ (j : Nat) (e : TlbEntry), s.tlb[j]? = some e → hits e → (∀ (j' : Nat) (e' : TlbEntry), s.tlb[j']? = some e' → hits e' → j' = j) →
      j < 2 ^ s.cfg.tlbIndexBits → s.cfg.tlbIndexBits ≤ 16 → ∃ t, exec .tlbsrch s = .next t ∧
      t.csr.tlbidx.toNat % 2 ^ s.cfg.tlbIndexBits = j ∧ t.csr.tlbidx.getLsbD 31 = false ∧
      (∀ b, s.cfg.tlbIndexBits ≤ b → b < 31 → t.csr.tlbidx.getLsbD b = s.csr.tlbidx.getLsbD b) ∧
      t.csr = { s.csr with tlbidx := t.csr.tlbidx } ∧ t.pc = s.pc + 4 ∧ SameBytes s t ∧
      (∀ r, t.readGpr r = s.readGpr r) ∧ t = { s with csr := t.csr, pc := t.pc }

/-- TLBRD at PLV0 of an entry of the TLB: a valid one fills TLBEHI, TLBELO0, TLBELO1, PS and ASID and clears NE; for another NE is 1
and they are 0; Index, the low TLB_INDEX_BITS of TLBIDX, and the reserved bits stay; no other register changes. An index beyond
the TLB faults (R71, R541; U6, log 22; that PPN has no bit with a PALEN below 12 is log 53). -/
def Obligations.TlbRead : Prop :=
  ∀ s : State, s.plv = 0 →
    let index := s.csr.tlbidx.toNat % 2 ^ s.cfg.tlbIndexBits
    (s.tlb.length ≤ index → exec .tlbrd s = .fault .tlbIndexOutOfRange) ∧
    ∀ e, s.tlb[index]? = some e → e.page0.fits s.cfg → e.page1.fits s.cfg → ∃ t, exec .tlbrd s = .next t ∧
      t.csr.tlbidx.getLsbD 31 = !e.e ∧ t.csr.tlbidx &&& 0x40FFFFFF = s.csr.tlbidx &&& 0x40FFFFFF ∧
      (if e.e then
        t.csr.tlbehi.toNat = e.vppn.toNat * 2 ^ 13 ∧ t.csr.tlbidx.extractLsb' 24 6 = e.ps ∧
          t.csr.asid.toNat = e.asid.toNat ∧
          ∀ q ∈ [(t.csr.tlbelo0, e.page0), (t.csr.tlbelo1, e.page1)],
            q.1.getLsbD 0 = q.2.v ∧ q.1.getLsbD 1 = q.2.d ∧ q.1.extractLsb' 2 2 = q.2.plv ∧ q.1.extractLsb' 4 2 = q.2.mat ∧
              q.1.getLsbD 6 = e.g ∧ q.1.getLsbD 7 = false ∧ q.1.toNat / 2 ^ 8 = q.2.ppn.toNat
      else t.csr.tlbehi = 0 ∧ t.csr.tlbelo0 = 0 ∧ t.csr.tlbelo1 = 0 ∧ t.csr.tlbidx.extractLsb' 24 6 = 0 ∧ t.csr.asid = 0) ∧
      t.csr = { s.csr with tlbidx := t.csr.tlbidx, tlbehi := t.csr.tlbehi, tlbelo0 := t.csr.tlbelo0,
                           tlbelo1 := t.csr.tlbelo1, asid := t.csr.asid } ∧
      t.pc = s.pc + 4 ∧ SameBytes s t ∧ (∀ r, t.readGpr r = s.readGpr r) ∧ t = { s with csr := t.csr, pc := t.pc }

/-- TLBWR and TLBFILL at PLV0 put the entry made of the TLB registers at TLBIDX.Index, its low TLB_INDEX_BITS, respectively at some
index; no other entry and no register changes. E is 1 in a TLB refill (Ecode 0x3F), else the inverse of NE; G is both G bits (R71,
R542, R543, R545; that TLBWR faults beyond the TLB is U6, log 22). That both complete for every page size, a valid entry with a
PS other than 12 or 21 too, where U8 suggests refusing, is the model's choice, log 23; so is that PPN has no bit with a PALEN
below 12, log 53. -/
def Obligations.TlbWrite : Prop :=
  ∀ s : State, s.plv = 0 →
    let index := s.csr.tlbidx.toNat % 2 ^ s.cfg.tlbIndexBits
    ∃ e : TlbEntry,
    e.e = (if s.csr.estat.extractLsb' 16 6 = 0x3F#6 then true else !s.csr.tlbidx.getLsbD 31) ∧
    e.asid = s.csr.asid.extractLsb' 0 10 ∧ e.g = (s.csr.tlbelo0.getLsbD 6 && s.csr.tlbelo1.getLsbD 6) ∧
    e.ps = s.csr.tlbidx.extractLsb' 24 6 ∧ e.vppn = s.csr.tlbehi.extractLsb' 13 19 ∧
    (∀ q ∈ [(s.csr.tlbelo0, e.page0), (s.csr.tlbelo1, e.page1)],
      q.2.v = q.1.getLsbD 0 ∧ q.2.d = q.1.getLsbD 1 ∧ q.2.plv = q.1.extractLsb' 2 2 ∧ q.2.mat = q.1.extractLsb' 4 2 ∧
        (s.cfg.palen ≤ 36 → q.2.ppn.toNat = q.1.toNat / 2 ^ 8 % 2 ^ (s.cfg.palen - 12))) ∧
    (index < s.tlb.length → ∃ t, exec .tlbwr s = .next t ∧ t.tlb = s.tlb.set index e ∧ t.pc = s.pc + 4 ∧
      SameBytes s t ∧ (∀ r, t.readGpr r = s.readGpr r) ∧ t = { s with tlb := t.tlb, pc := t.pc }) ∧
    (s.tlb.length ≤ index → exec .tlbwr s = .fault .tlbIndexOutOfRange) ∧
    (s.tlb ≠ [] → ∃ t j, exec .tlbfill s = .next t ∧ j < s.tlb.length ∧ t.tlb = s.tlb.set j e ∧ t.pc = s.pc + 4 ∧
      SameBytes s t ∧ (∀ r, t.readGpr r = s.readGpr r) ∧ t = { s with tlb := t.tlb, pc := t.pc, draws := t.draws })

/-- INVTLB with op 0 to 6 at PLV0, every valid entry of a supported page size: E is cleared in exactly the entries the op names,
the ASID being x[rj][9:0] and the address x[rk]; nothing else changes (R544, R546; the comparison is D26, and bits 31:10 of x[rj]
are ignored by D40, log 31). -/
def Obligations.TlbInvalidate : Prop :=
  ∀ (s : State) (op : BitVec 5) (rj rk : RegNum), s.plv = 0 → op.toNat ≤ 6 →
    (∀ e ∈ s.tlb, e.e = true → e.ps = 12 ∨ e.ps = 21) →
    let asid := (s.readGpr rj).extractLsb' 0 10
    let vaMatch := fun e : TlbEntry =>
      e.vppn.toNat * 2 ^ 13 / 2 ^ (e.ps.toNat + 1) = (s.readGpr rk).toNat / 2 ^ (e.ps.toNat + 1)
    let clears := fun e : TlbEntry => match op.toNat with
      | 0 => True
      | 1 => True
      | 2 => e.g = true
      | 3 => e.g = false
      | 4 => e.g = false ∧ e.asid = asid
      | 5 => e.g = false ∧ e.asid = asid ∧ vaMatch e
      | _ => (e.g = true ∨ e.asid = asid) ∧ vaMatch e
    ∃ t, exec (.invtlb op rj rk) s = .next t ∧ t.tlb.length = s.tlb.length ∧
      (∀ (j : Nat) (e : TlbEntry), s.tlb[j]? = some e → (clears e → t.tlb[j]? = some { e with e := false }) ∧ (¬ clears e → t.tlb[j]? = some e)) ∧
      t.pc = s.pc + 4 ∧ SameBytes s t ∧ (∀ r, t.readGpr r = s.readGpr r) ∧ t = { s with tlb := t.tlb, pc := t.pc }

/-- TLBWR then TLBRD with NE = 0: the TLB registers read back as they were written, G in both halves being the
conjunction of the two. Reserved bits being 0 is part of the invariant (R541, R542, R545; that an unsupported page size is
written and read back as any other is log 23, a PALEN below 12 log 53). -/
def Obligations.TlbWriteThenRead : Prop :=
  ∀ s t u : State, s.Inv → s.cfg.wf = true → s.plv = 0 → s.csr.tlbidx.getLsbD 31 = false →
    exec .tlbwr s = .next t → exec .tlbrd t = .next u →
    u.csr.tlbidx = s.csr.tlbidx ∧ u.csr.tlbehi = s.csr.tlbehi ∧ u.csr.asid = s.csr.asid ∧
    (∀ b, b ≠ 6 → u.csr.tlbelo0.getLsbD b = s.csr.tlbelo0.getLsbD b ∧ u.csr.tlbelo1.getLsbD b = s.csr.tlbelo1.getLsbD b) ∧
    u.csr.tlbelo0.getLsbD 6 = (s.csr.tlbelo0.getLsbD 6 && s.csr.tlbelo1.getLsbD 6) ∧
    u.csr.tlbelo1.getLsbD 6 = (s.csr.tlbelo0.getLsbD 6 && s.csr.tlbelo1.getLsbD 6)

/-! ## The whole machine -/

/-- No instruction changes a general register but its destination, and none changes the Stable Counter, the interrupt inputs, the
agenda or the parameters (R31, R43, R47, R601; the agenda is the model's own field, log 8). An instruction that is not one of manual
§3.2 changes no floating-point register, not fcc0 and not fcsr0 (R533 for the privileged ones, R601 where it takes an exception);
that a CSRWR or CSRXCHG of EUEN keeps them too, where R667 says only that they cannot be assumed kept while FPE is 0, is the
model's choice, log 50. -/
def Obligations.RegisterFrame : Prop :=
  ∀ (i : Instr) (s t : State), exec i s = .next t →
    (∀ r, gprTarget i ≠ some r → t.readGpr r = s.readGpr r) ∧
    (fpNeeds i = none → t.fpr = s.fpr ∧ t.fcc0 = s.fcc0 ∧ t.fcsr0 = s.fcsr0) ∧
    t.stableCounter = s.stableCounter ∧ t.hwi = s.hwi ∧ t.ipi = s.ipi ∧ t.cfg = s.cfg ∧ t.agenda = s.agenda

/-- Memory isolation: a byte an instruction changes lies in the bytes of a store at the address the instruction computes, aligned,
translated as a store for the current level, and allowed there; everything else in memory is as before, whatever the instruction
and whether it completes or traps (R370, R381, R519, R601, R661; the wrap of the
address is D1, log 33). -/
def Obligations.MemoryFrame : Prop :=
  ∀ (i : Instr) (s t : State) (a : Nat), s.mem.wf = true → exec i s = .next t → t.byteAt a ≠ s.byteAt a →
    ∃ va n tr, storeTarget s i = some (va, n) ∧ va.toNat % n = 0 ∧ translate s va .store = .ok tr ∧ tr.pa ≤ a ∧ a < tr.pa + n

/-- Privilege: outside PLV0 an instruction leaves every CSR, the TLB, the timer with its interrupt flag and the waiting state
alone, unless it takes an exception; and then the CSRs are what exception entry makes of them, the pc is one of the two entry
addresses, and no general or floating-point register, condition flag, byte of memory, old word a fetch may see or LLbit has
changed, nor fcsr0 but by the floating-point exception, which records its cause there (R601, R612, R618, R661, R662; levels 1 and
2 by D15, log 20; that entry leaves LLbit is D32, log 47; the old words are U12, log 12). -/
def Obligations.UserMode : Prop :=
  ∀ (i : Instr) (s t : State), s.plv ≠ 0 → exec i s = .next t →
    t.tlb = s.tlb ∧ t.tiFlag = s.tiFlag ∧ t.timerVal = s.timerVal ∧ t.timerRun = s.timerRun ∧ t.waiting = s.waiting ∧
    (t.csr = s.csr ∨
      (∃ e, t.csr = (enterException e s).csr ∧ (e ≠ .fpe → t.fcsr0 = s.fcsr0)) ∧ t.gpr = s.gpr ∧ t.fpr = s.fpr ∧
        t.fcc0 = s.fcc0 ∧ t.mem = s.mem ∧ t.stale = s.stale ∧ t.llbit = s.llbit ∧
        (t.pc = s.csr.eentry &&& 0xFFFFFFC0 ∨ t.pc = s.csr.tlbrentry &&& 0xFFFFFFC0))

/-- The invariant every step keeps, instruction, exception, interrupt, wait and every event of the other agents alike: memory in
its canonical form, what a fetch may see old listed once an address, reserved CSR and fcsr0 bits 0, the timer within its width,
the TLB of its size with physical page numbers of their width; and no step changes the parameters (R39, R44, R45, R52, R53, R56). -/
def Obligations.StepKeepsInv : Prop :=
  ∀ s t : State, s.Inv → step s = .next t → t.Inv ∧ t.cfg = s.cfg

/-- The invariant holds after reset, for every implementation. -/
def Obligations.ResetHasInv : Prop := State.reset.Inv ∧ ∀ c : Config, (State.resetWith c).Inv

/-- The values the spec gives for reset, for every implementation and after the event of a reset of a running core, whatever it did
before; where the implementation clears the TLB no entry is valid, and where it sets TID that is CoreID (R6, R90, R700, R711; that a
reset is an event between steps, and that clearing means E = 0, is log 10). -/
def Obligations.ResetValues : Prop :=
  ∀ (s : State) (c : Config), ∀ t ∈ [State.reset, State.resetWith c, s.applyEvent .reset],
    t.pc = 0x1C000000 ∧ t.csrRead .crmd = 0x00000008 ∧ t.csrRead .euen = 0 ∧ t.csrRead .ecfg = 0 ∧
    (t.csr.estat.extractLsb' 0 2 = 0) ∧ t.csr.tcfg.getLsbD 0 = false ∧ t.csr.llbctl.getLsbD 2 = false ∧
    t.csr.dmw0.getLsbD 0 = false ∧ t.csr.dmw0.getLsbD 3 = false ∧ t.csr.dmw1.getLsbD 0 = false ∧
    t.csr.dmw1.getLsbD 3 = false ∧ t.stableCounter = 0 ∧ t.waiting = false ∧ t.readGpr 0 = 0 ∧
    (t.csrRead .asid).extractLsb' 16 8 = 10 ∧ (t.csrRead .cpuid).toNat = t.cfg.coreId.toNat ∧
    t.tlb.length = t.cfg.tlbEntries ∧ (t.cfg.tlbClearedByReset = true → ∀ e ∈ t.tlb, e.e = false) ∧
    (t.cfg.tidResetToCoreId = true → (t.csrRead .tid).toNat = t.cfg.coreId.toNat)

/-- A tick: the Stable Counter goes up by one modulo 2^64; a running, enabled timer counts down modulo 2^TIMER_BITS, and at 0 raises
its flag and reloads {InitVal, 00} or stops; nothing else changes (R43, R650, R651; one tick for both by D17, the countdown as D41
reads it, log 26). So a running timer holding v > 0 raises its interrupt with the v-th tick and not before, and counts down by
one with each (the spec asks that no proof depend on one tick more or less, log 26). The other agents' turn after an instruction
is one tick when the agenda is empty, else the events of its first batch one by one, in order; that batch is then gone (R600; the
agenda is log 8). An event is: a tick; the lines HWI[7:0], which ESTAT.IS[9:2] then reads, or the line IPI, which IS[12] reads, at
a new level (R641, log 11); LLbit cleared from outside (R385, log 9); a reset, after which the registers are as ResetValues says
(R700) and memory, the lines, the agenda and the parameters as before (log 10); or another master's store of a byte, which
LinkedAccess and CodeSynchronisation state. -/
def Obligations.Tick : Prop :=
  (∀ s : State, s.cfg.timerBits ≤ 32 → s.timerVal.toNat < 2 ^ s.cfg.timerBits →
      let next := (s.timerVal.toNat + 2 ^ s.cfg.timerBits - 1) % 2 ^ s.cfg.timerBits
      s.tick.stableCounter.toNat = (s.stableCounter.toNat + 1) % 2 ^ 64 ∧
      s.tick = { s with stableCounter := s.tick.stableCounter, timerVal := s.tick.timerVal, timerRun := s.tick.timerRun,
                        tiFlag := s.tick.tiFlag } ∧
      if s.csr.tcfg.getLsbD 0 && s.timerRun then
        if next ≠ 0 then s.tick.timerVal.toNat = next ∧ s.tick.tiFlag = s.tiFlag ∧ s.tick.timerRun = true
        else s.tick.tiFlag = true ∧
          if s.csr.tcfg.getLsbD 1 then
            s.tick.timerVal.toNat = s.csr.tcfg.toNat % 2 ^ s.cfg.timerBits / 4 * 4 ∧ s.tick.timerRun = true
          else s.tick.timerVal = 0 ∧ s.tick.timerRun = false
      else s.tick.timerVal = s.timerVal ∧ s.tick.tiFlag = s.tiFlag ∧ s.tick.timerRun = s.timerRun) ∧
  (∀ s : State, s.cfg.timerBits ≤ 32 → s.timerVal.toNat < 2 ^ s.cfg.timerBits → 0 < s.timerVal.toNat →
    s.csr.tcfg.getLsbD 0 = true → s.timerRun = true →
    (∀ n, n < s.timerVal.toNat → (State.tick^[n] s).timerVal.toNat = s.timerVal.toNat - n ∧
      (State.tick^[n] s).tiFlag = s.tiFlag) ∧
    (State.tick^[s.timerVal.toNat] s).tiFlag = true) ∧
  ∀ s : State,
    (s.agenda = [] → s.envTurn = s.tick) ∧
    (∀ rest, s.agenda = [] :: rest → s.envTurn = { s with agenda := rest }) ∧
    (∀ (event : EnvEvent) (batch : List EnvEvent) (rest : List (List EnvEvent)), s.agenda = (event :: batch) :: rest →
      s.envTurn = State.envTurn { s.applyEvent event with agenda := batch :: rest }) ∧
    s.applyEvent .tick = s.tick ∧
    (∀ lines, let u := s.applyEvent (.hwi lines)
      (u.csrRead .estat).extractLsb' 2 8 = lines ∧ u = { s with hwi := lines }) ∧
    (∀ line, let u := s.applyEvent (.ipi line)
      (u.csrRead .estat).getLsbD 12 = line ∧ u = { s with ipi := line }) ∧
    s.applyEvent .clearLLbit = { s with llbit := false } ∧
    let u := s.applyEvent .reset
    u = s.resetCore ∧ u.pc = 0x1C000000 ∧ u.csrRead .crmd = 0x00000008 ∧ u.waiting = false ∧
      (u.mem, u.stale, u.hwi, u.ipi, u.agenda, u.cfg) = (s.mem, s.stale, s.hwi, s.ipi, s.agenda, s.cfg)

/-- Memory: a store of n bytes leaves them little-endian, least significant byte lowest, and no other byte changed; loading them
back gives the value; the canonical form is kept, and in it two memories that read alike are equal (R150, R153; the form is
the model's, log 6). -/
def Obligations.MemoryByteOrder : Prop :=
  ∀ (m : Memory) (pa n : Nat) (v : DWord), m.wf = true → n ≤ 8 →
    (∀ j, j < n → ((m.storeLE pa n v).read (pa + j)).toNat = v.toNat / 256 ^ j % 256) ∧
    (∀ a, a < pa ∨ pa + n ≤ a → (m.storeLE pa n v).read a = m.read a) ∧
    ((m.storeLE pa n v).loadLE pa n).toNat = v.toNat % 256 ^ n ∧ (m.storeLE pa n v).wf = true ∧
    ∀ m' : Memory, m'.wf = true → (∀ a, m'.read a = m.read a) → m' = m

end
end

