-- ==== Sys2Proof/Laws/Memory.lean ====
section
/-! SUPPORT. Physical memory: every operation keeps the canonical form, reading gives back what was written, and a write leaves
every other byte alone. -/

namespace Sys2Proof.Machine

/-- All addresses of a list are above `a`. -/
theorem Memory.wf_cons {a : Nat} {b : Byte} {m : Memory} :
    Memory.wf ((a, b) :: m) = true ↔
      b ≠ Memory.unlisted a ∧ (∀ c ∈ m, a < c.1) ∧ Memory.wf m = true := by
  simp [Memory.wf, and_assoc]

theorem Memory.wf_nil : Memory.wf [] = true := rfl

/-- An address below every listed one reads as an unlisted one. -/
theorem Memory.read_below {m : Memory} {a : Nat} (h : ∀ c ∈ m, a < c.1) : m.read a = Memory.unlisted a := by
  induction m with
  | nil => rfl
  | cons c m ih =>
    have h1 := h c (by simp)
    rw [Memory.read, if_neg (by omega)]
    exact ih fun d hd => h d (by simp [hd])

theorem Memory.read_put (a : Nat) (b : Byte) (m : Memory) (h : ∀ c ∈ m, a < c.1) (x : Nat) :
    (Memory.put a b m).read x = if x = a then b else m.read x := by
  unfold Memory.put
  split
  · rename_i hb
    by_cases hx : x = a
    · subst hx; rw [if_pos rfl, Memory.read_below h, hb]
    · rw [if_neg hx]
  · by_cases hx : x = a
    · subst hx; simp [Memory.read]
    · rw [if_neg hx, Memory.read, if_neg (fun e => hx e.symm)]

theorem Memory.wf_put {a : Nat} {b : Byte} {m : Memory} (h : ∀ c ∈ m, a < c.1) (hm : m.wf = true) :
    (Memory.put a b m).wf = true := by
  unfold Memory.put
  split
  · exact hm
  · rename_i hb; exact Memory.wf_cons.2 ⟨hb, h, hm⟩

/-- Every address listed after a write was listed before it or is the one written. -/
theorem Memory.mem_write {m : Memory} {a : Nat} {b : Byte} {c : Host.Cell} (h : c ∈ m.write a b) :
    c ∈ m ∨ c.1 = a := by
  induction m with
  | nil =>
    simp only [Memory.write, Memory.put] at h
    split at h
    · cases h
    · right; rw [List.mem_singleton] at h; rw [h]
  | cons d m ih =>
    obtain ⟨x, y⟩ := d
    simp only [Memory.write, Memory.put] at h
    split at h
    · split at h
      · exact .inl h
      · rcases List.mem_cons.1 h with rfl | h
        · exact .inr rfl
        · exact .inl h
    · split at h
      · split at h
        · exact .inl (List.mem_cons_of_mem _ h)
        · rcases List.mem_cons.1 h with rfl | h
          · exact .inr rfl
          · exact .inl (List.mem_cons_of_mem _ h)
      · rcases List.mem_cons.1 h with rfl | h
        · exact .inl (by simp)
        · rcases ih h with h | h
          · exact .inl (List.mem_cons_of_mem _ h)
          · exact .inr h

/-- A write keeps the canonical form. -/
theorem Memory.wf_write {m : Memory} (a : Nat) (b : Byte) (hm : m.wf = true) : (m.write a b).wf = true := by
  induction m with
  | nil => exact Memory.wf_put (by simp) hm
  | cons d m ih =>
    obtain ⟨x, y⟩ := d
    obtain ⟨h1, h2, h3⟩ := Memory.wf_cons.1 hm
    simp only [Memory.write]
    split
    · refine Memory.wf_put (fun c hc => ?_) hm
      rcases List.mem_cons.1 hc with rfl | hc
      · assumption
      · exact Nat.lt_trans (by assumption) (h2 c hc)
    · split
      · rename_i hax; subst hax; exact Memory.wf_put h2 h3
      · refine Memory.wf_cons.2 ⟨h1, fun c hc => ?_, ih h3⟩
        rcases Memory.mem_write hc with hc | hc
        · exact h2 c hc
        · omega

/-- What a byte reads as after a write. -/
theorem Memory.read_write {m : Memory} (hm : m.wf = true) (a : Nat) (b : Byte) (x : Nat) :
    (m.write a b).read x = if x = a then b else m.read x := by
  induction m with
  | nil => exact Memory.read_put a b [] (by simp) x
  | cons d m ih =>
    obtain ⟨y, v⟩ := d
    obtain ⟨h1, h2, h3⟩ := Memory.wf_cons.1 hm
    simp only [Memory.write]
    split
    · refine Memory.read_put a b _ (fun c hc => ?_) x
      rcases List.mem_cons.1 hc with rfl | hc
      · assumption
      · exact Nat.lt_trans (by assumption) (h2 c hc)
    · split
      · rename_i hay; subst hay
        rw [Memory.read_put a b m h2 x]
        by_cases hx : x = a
        · simp [hx]
        · simp only [if_neg hx, Memory.read, if_neg (fun e => hx (Eq.symm e))]
      · simp only [Memory.read]
        split
        · rename_i hyx; rw [if_neg (by omega)]
        · exact ih h3

/-- A store keeps the canonical form. -/
theorem Memory.wf_storeLE {m : Memory} (pa n : Nat) (v : DWord) (hm : m.wf = true) :
    (m.storeLE pa n v).wf = true := by
  induction n generalizing m pa v with
  | zero => exact hm
  | succ n ih => exact ih _ _ (Memory.wf_write _ _ hm)

/-- A store leaves every byte outside its own alone. -/
theorem Memory.read_storeLE_of_out {m : Memory} (hm : m.wf = true) (pa n : Nat) (v : DWord) (x : Nat)
    (h : x < pa ∨ pa + n ≤ x) : (m.storeLE pa n v).read x = m.read x := by
  induction n generalizing m pa v with
  | zero => rfl
  | succ n ih =>
    rw [Memory.storeLE, ih (Memory.wf_write _ _ hm) _ _ (by omega), Memory.read_write hm, if_neg (by omega)]

/-- The j-th byte stored, the least significant first. -/
theorem Memory.read_storeLE {m : Memory} (hm : m.wf = true) (pa n : Nat) (v : DWord) (j : Nat) (h : j < n) :
    (m.storeLE pa n v).read (pa + j) = v.extractLsb' (8 * j) 8 := by
  induction n generalizing m pa v j with
  | zero => omega
  | succ n ih =>
    rw [Memory.storeLE]
    cases j with
    | zero =>
      rw [Memory.read_storeLE_of_out (Memory.wf_write _ _ hm) _ _ _ _ (by omega), Memory.read_write hm]
      simp
    | succ j =>
      have := ih (Memory.wf_write pa (v.extractLsb' 0 8) hm) (pa + 1) (v >>> 8) j (by omega)
      rw [show pa + (j + 1) = pa + 1 + j by omega, this]
      apply BitVec.eq_of_getLsbD_eq
      intro i hi
      simp only [BitVec.getLsbD_extractLsb', BitVec.getLsbD_ushiftRight, hi, decide_true, Bool.true_and]
      congr 1
      omega

/-- A load depends on the bytes it reads only. -/
theorem Memory.loadLE_congr {m k : Memory} (pa n : Nat) (h : ∀ j < n, m.read (pa + j) = k.read (pa + j)) :
    m.loadLE pa n = k.loadLE pa n := by
  induction n generalizing pa with
  | zero => rfl
  | succ n ih =>
    rw [Memory.loadLE, Memory.loadLE, show m.read pa = k.read pa from h 0 (by omega),
      ih (pa + 1) fun j hj => by rw [show pa + 1 + j = pa + (j + 1) by omega]; exact h (j + 1) (by omega)]

end Sys2Proof.Machine
end

