-- ==== Sys2Proof/Laws/State.lean ====
section
/-! SUPPORT. One lemma per field per update of State, so that no proof unfolds a record update; and what reading a register gives
after a register is written. -/

namespace Sys2Proof.Machine

@[simp] theorem State.advance_cfg (s : State) : s.advance.cfg = s.cfg := rfl
@[simp] theorem State.advance_gpr (s : State) : s.advance.gpr = s.gpr := rfl
@[simp] theorem State.advance_pc (s : State) : s.advance.pc = s.pc + 4 := rfl
@[simp] theorem State.advance_fpr (s : State) : s.advance.fpr = s.fpr := rfl
@[simp] theorem State.advance_fcc0 (s : State) : s.advance.fcc0 = s.fcc0 := rfl
@[simp] theorem State.advance_fcsr0 (s : State) : s.advance.fcsr0 = s.fcsr0 := rfl
@[simp] theorem State.advance_csr (s : State) : s.advance.csr = s.csr := rfl
@[simp] theorem State.advance_llbit (s : State) : s.advance.llbit = s.llbit := rfl
@[simp] theorem State.advance_llAddr (s : State) : s.advance.llAddr = s.llAddr := rfl
@[simp] theorem State.advance_stableCounter (s : State) : s.advance.stableCounter = s.stableCounter := rfl
@[simp] theorem State.advance_timerVal (s : State) : s.advance.timerVal = s.timerVal := rfl
@[simp] theorem State.advance_timerRun (s : State) : s.advance.timerRun = s.timerRun := rfl
@[simp] theorem State.advance_tiFlag (s : State) : s.advance.tiFlag = s.tiFlag := rfl
@[simp] theorem State.advance_tlb (s : State) : s.advance.tlb = s.tlb := rfl
@[simp] theorem State.advance_hwi (s : State) : s.advance.hwi = s.hwi := rfl
@[simp] theorem State.advance_ipi (s : State) : s.advance.ipi = s.ipi := rfl
@[simp] theorem State.advance_waiting (s : State) : s.advance.waiting = s.waiting := rfl
@[simp] theorem State.advance_mem (s : State) : s.advance.mem = s.mem := rfl
@[simp] theorem State.advance_stale (s : State) : s.advance.stale = s.stale := rfl
@[simp] theorem State.advance_draws (s : State) : s.advance.draws = s.draws := rfl
@[simp] theorem State.advance_agenda (s : State) : s.advance.agenda = s.agenda := rfl

@[simp] theorem State.drawn_cfg (s : State) : s.drawn.cfg = s.cfg := rfl
@[simp] theorem State.drawn_gpr (s : State) : s.drawn.gpr = s.gpr := rfl
@[simp] theorem State.drawn_pc (s : State) : s.drawn.pc = s.pc := rfl
@[simp] theorem State.drawn_fpr (s : State) : s.drawn.fpr = s.fpr := rfl
@[simp] theorem State.drawn_fcc0 (s : State) : s.drawn.fcc0 = s.fcc0 := rfl
@[simp] theorem State.drawn_fcsr0 (s : State) : s.drawn.fcsr0 = s.fcsr0 := rfl
@[simp] theorem State.drawn_csr (s : State) : s.drawn.csr = s.csr := rfl
@[simp] theorem State.drawn_llbit (s : State) : s.drawn.llbit = s.llbit := rfl
@[simp] theorem State.drawn_llAddr (s : State) : s.drawn.llAddr = s.llAddr := rfl
@[simp] theorem State.drawn_stableCounter (s : State) : s.drawn.stableCounter = s.stableCounter := rfl
@[simp] theorem State.drawn_timerVal (s : State) : s.drawn.timerVal = s.timerVal := rfl
@[simp] theorem State.drawn_timerRun (s : State) : s.drawn.timerRun = s.timerRun := rfl
@[simp] theorem State.drawn_tiFlag (s : State) : s.drawn.tiFlag = s.tiFlag := rfl
@[simp] theorem State.drawn_tlb (s : State) : s.drawn.tlb = s.tlb := rfl
@[simp] theorem State.drawn_hwi (s : State) : s.drawn.hwi = s.hwi := rfl
@[simp] theorem State.drawn_ipi (s : State) : s.drawn.ipi = s.ipi := rfl
@[simp] theorem State.drawn_waiting (s : State) : s.drawn.waiting = s.waiting := rfl
@[simp] theorem State.drawn_mem (s : State) : s.drawn.mem = s.mem := rfl
@[simp] theorem State.drawn_stale (s : State) : s.drawn.stale = s.stale := rfl
@[simp] theorem State.drawn_draws (s : State) : s.drawn.draws = s.draws + 1 := rfl
@[simp] theorem State.drawn_agenda (s : State) : s.drawn.agenda = s.agenda := rfl

@[simp] theorem State.awake_cfg (s : State) : s.awake.cfg = s.cfg := rfl
@[simp] theorem State.awake_gpr (s : State) : s.awake.gpr = s.gpr := rfl
@[simp] theorem State.awake_pc (s : State) : s.awake.pc = s.pc := rfl
@[simp] theorem State.awake_fpr (s : State) : s.awake.fpr = s.fpr := rfl
@[simp] theorem State.awake_fcc0 (s : State) : s.awake.fcc0 = s.fcc0 := rfl
@[simp] theorem State.awake_fcsr0 (s : State) : s.awake.fcsr0 = s.fcsr0 := rfl
@[simp] theorem State.awake_csr (s : State) : s.awake.csr = s.csr := rfl
@[simp] theorem State.awake_llbit (s : State) : s.awake.llbit = s.llbit := rfl
@[simp] theorem State.awake_llAddr (s : State) : s.awake.llAddr = s.llAddr := rfl
@[simp] theorem State.awake_stableCounter (s : State) : s.awake.stableCounter = s.stableCounter := rfl
@[simp] theorem State.awake_timerVal (s : State) : s.awake.timerVal = s.timerVal := rfl
@[simp] theorem State.awake_timerRun (s : State) : s.awake.timerRun = s.timerRun := rfl
@[simp] theorem State.awake_tiFlag (s : State) : s.awake.tiFlag = s.tiFlag := rfl
@[simp] theorem State.awake_tlb (s : State) : s.awake.tlb = s.tlb := rfl
@[simp] theorem State.awake_hwi (s : State) : s.awake.hwi = s.hwi := rfl
@[simp] theorem State.awake_ipi (s : State) : s.awake.ipi = s.ipi := rfl
@[simp] theorem State.awake_waiting (s : State) : s.awake.waiting = false := rfl
@[simp] theorem State.awake_mem (s : State) : s.awake.mem = s.mem := rfl
@[simp] theorem State.awake_stale (s : State) : s.awake.stale = s.stale := rfl
@[simp] theorem State.awake_draws (s : State) : s.awake.draws = s.draws := rfl
@[simp] theorem State.awake_agenda (s : State) : s.awake.agenda = s.agenda := rfl

@[simp] theorem State.writeGpr_cfg (s : State) (r : RegNum) (v : Word) : (s.writeGpr r v).cfg = s.cfg := by unfold State.writeGpr; split <;> rfl
@[simp] theorem State.writeGpr_pc (s : State) (r : RegNum) (v : Word) : (s.writeGpr r v).pc = s.pc := by unfold State.writeGpr; split <;> rfl
@[simp] theorem State.writeGpr_fpr (s : State) (r : RegNum) (v : Word) : (s.writeGpr r v).fpr = s.fpr := by unfold State.writeGpr; split <;> rfl
@[simp] theorem State.writeGpr_fcc0 (s : State) (r : RegNum) (v : Word) : (s.writeGpr r v).fcc0 = s.fcc0 := by unfold State.writeGpr; split <;> rfl
@[simp] theorem State.writeGpr_fcsr0 (s : State) (r : RegNum) (v : Word) : (s.writeGpr r v).fcsr0 = s.fcsr0 := by unfold State.writeGpr; split <;> rfl
@[simp] theorem State.writeGpr_csr (s : State) (r : RegNum) (v : Word) : (s.writeGpr r v).csr = s.csr := by unfold State.writeGpr; split <;> rfl
@[simp] theorem State.writeGpr_llbit (s : State) (r : RegNum) (v : Word) : (s.writeGpr r v).llbit = s.llbit := by unfold State.writeGpr; split <;> rfl
@[simp] theorem State.writeGpr_llAddr (s : State) (r : RegNum) (v : Word) : (s.writeGpr r v).llAddr = s.llAddr := by unfold State.writeGpr; split <;> rfl
@[simp] theorem State.writeGpr_stableCounter (s : State) (r : RegNum) (v : Word) : (s.writeGpr r v).stableCounter = s.stableCounter := by unfold State.writeGpr; split <;> rfl
@[simp] theorem State.writeGpr_timerVal (s : State) (r : RegNum) (v : Word) : (s.writeGpr r v).timerVal = s.timerVal := by unfold State.writeGpr; split <;> rfl
@[simp] theorem State.writeGpr_timerRun (s : State) (r : RegNum) (v : Word) : (s.writeGpr r v).timerRun = s.timerRun := by unfold State.writeGpr; split <;> rfl
@[simp] theorem State.writeGpr_tiFlag (s : State) (r : RegNum) (v : Word) : (s.writeGpr r v).tiFlag = s.tiFlag := by unfold State.writeGpr; split <;> rfl
@[simp] theorem State.writeGpr_tlb (s : State) (r : RegNum) (v : Word) : (s.writeGpr r v).tlb = s.tlb := by unfold State.writeGpr; split <;> rfl
@[simp] theorem State.writeGpr_hwi (s : State) (r : RegNum) (v : Word) : (s.writeGpr r v).hwi = s.hwi := by unfold State.writeGpr; split <;> rfl
@[simp] theorem State.writeGpr_ipi (s : State) (r : RegNum) (v : Word) : (s.writeGpr r v).ipi = s.ipi := by unfold State.writeGpr; split <;> rfl
@[simp] theorem State.writeGpr_waiting (s : State) (r : RegNum) (v : Word) : (s.writeGpr r v).waiting = s.waiting := by unfold State.writeGpr; split <;> rfl
@[simp] theorem State.writeGpr_mem (s : State) (r : RegNum) (v : Word) : (s.writeGpr r v).mem = s.mem := by unfold State.writeGpr; split <;> rfl
@[simp] theorem State.writeGpr_stale (s : State) (r : RegNum) (v : Word) : (s.writeGpr r v).stale = s.stale := by unfold State.writeGpr; split <;> rfl
@[simp] theorem State.writeGpr_draws (s : State) (r : RegNum) (v : Word) : (s.writeGpr r v).draws = s.draws := by unfold State.writeGpr; split <;> rfl
@[simp] theorem State.writeGpr_agenda (s : State) (r : RegNum) (v : Word) : (s.writeGpr r v).agenda = s.agenda := by unfold State.writeGpr; split <;> rfl

@[simp] theorem State.writeFpr_cfg (s : State) (r : RegNum) (v : FReg) : (s.writeFpr r v).cfg = s.cfg := rfl
@[simp] theorem State.writeFpr_gpr (s : State) (r : RegNum) (v : FReg) : (s.writeFpr r v).gpr = s.gpr := rfl
@[simp] theorem State.writeFpr_pc (s : State) (r : RegNum) (v : FReg) : (s.writeFpr r v).pc = s.pc := rfl
@[simp] theorem State.writeFpr_fpr (s : State) (r : RegNum) (v : FReg) : (s.writeFpr r v).fpr = s.fpr.set r.toNat v r.isLt := rfl
@[simp] theorem State.writeFpr_fcc0 (s : State) (r : RegNum) (v : FReg) : (s.writeFpr r v).fcc0 = s.fcc0 := rfl
@[simp] theorem State.writeFpr_fcsr0 (s : State) (r : RegNum) (v : FReg) : (s.writeFpr r v).fcsr0 = s.fcsr0 := rfl
@[simp] theorem State.writeFpr_csr (s : State) (r : RegNum) (v : FReg) : (s.writeFpr r v).csr = s.csr := rfl
@[simp] theorem State.writeFpr_llbit (s : State) (r : RegNum) (v : FReg) : (s.writeFpr r v).llbit = s.llbit := rfl
@[simp] theorem State.writeFpr_llAddr (s : State) (r : RegNum) (v : FReg) : (s.writeFpr r v).llAddr = s.llAddr := rfl
@[simp] theorem State.writeFpr_stableCounter (s : State) (r : RegNum) (v : FReg) : (s.writeFpr r v).stableCounter = s.stableCounter := rfl
@[simp] theorem State.writeFpr_timerVal (s : State) (r : RegNum) (v : FReg) : (s.writeFpr r v).timerVal = s.timerVal := rfl
@[simp] theorem State.writeFpr_timerRun (s : State) (r : RegNum) (v : FReg) : (s.writeFpr r v).timerRun = s.timerRun := rfl
@[simp] theorem State.writeFpr_tiFlag (s : State) (r : RegNum) (v : FReg) : (s.writeFpr r v).tiFlag = s.tiFlag := rfl
@[simp] theorem State.writeFpr_tlb (s : State) (r : RegNum) (v : FReg) : (s.writeFpr r v).tlb = s.tlb := rfl
@[simp] theorem State.writeFpr_hwi (s : State) (r : RegNum) (v : FReg) : (s.writeFpr r v).hwi = s.hwi := rfl
@[simp] theorem State.writeFpr_ipi (s : State) (r : RegNum) (v : FReg) : (s.writeFpr r v).ipi = s.ipi := rfl
@[simp] theorem State.writeFpr_waiting (s : State) (r : RegNum) (v : FReg) : (s.writeFpr r v).waiting = s.waiting := rfl
@[simp] theorem State.writeFpr_mem (s : State) (r : RegNum) (v : FReg) : (s.writeFpr r v).mem = s.mem := rfl
@[simp] theorem State.writeFpr_stale (s : State) (r : RegNum) (v : FReg) : (s.writeFpr r v).stale = s.stale := rfl
@[simp] theorem State.writeFpr_draws (s : State) (r : RegNum) (v : FReg) : (s.writeFpr r v).draws = s.draws := rfl
@[simp] theorem State.writeFpr_agenda (s : State) (r : RegNum) (v : FReg) : (s.writeFpr r v).agenda = s.agenda := rfl

@[simp] theorem State.writeFprD_cfg (s : State) (r : RegNum) (v : DWord) : (s.writeFprD r v).cfg = s.cfg := rfl
@[simp] theorem State.writeFprD_gpr (s : State) (r : RegNum) (v : DWord) : (s.writeFprD r v).gpr = s.gpr := rfl
@[simp] theorem State.writeFprD_pc (s : State) (r : RegNum) (v : DWord) : (s.writeFprD r v).pc = s.pc := rfl
@[simp] theorem State.writeFprD_fcc0 (s : State) (r : RegNum) (v : DWord) : (s.writeFprD r v).fcc0 = s.fcc0 := rfl
@[simp] theorem State.writeFprD_fcsr0 (s : State) (r : RegNum) (v : DWord) : (s.writeFprD r v).fcsr0 = s.fcsr0 := rfl
@[simp] theorem State.writeFprD_csr (s : State) (r : RegNum) (v : DWord) : (s.writeFprD r v).csr = s.csr := rfl
@[simp] theorem State.writeFprD_llbit (s : State) (r : RegNum) (v : DWord) : (s.writeFprD r v).llbit = s.llbit := rfl
@[simp] theorem State.writeFprD_llAddr (s : State) (r : RegNum) (v : DWord) : (s.writeFprD r v).llAddr = s.llAddr := rfl
@[simp] theorem State.writeFprD_stableCounter (s : State) (r : RegNum) (v : DWord) : (s.writeFprD r v).stableCounter = s.stableCounter := rfl
@[simp] theorem State.writeFprD_timerVal (s : State) (r : RegNum) (v : DWord) : (s.writeFprD r v).timerVal = s.timerVal := rfl
@[simp] theorem State.writeFprD_timerRun (s : State) (r : RegNum) (v : DWord) : (s.writeFprD r v).timerRun = s.timerRun := rfl
@[simp] theorem State.writeFprD_tiFlag (s : State) (r : RegNum) (v : DWord) : (s.writeFprD r v).tiFlag = s.tiFlag := rfl
@[simp] theorem State.writeFprD_tlb (s : State) (r : RegNum) (v : DWord) : (s.writeFprD r v).tlb = s.tlb := rfl
@[simp] theorem State.writeFprD_hwi (s : State) (r : RegNum) (v : DWord) : (s.writeFprD r v).hwi = s.hwi := rfl
@[simp] theorem State.writeFprD_ipi (s : State) (r : RegNum) (v : DWord) : (s.writeFprD r v).ipi = s.ipi := rfl
@[simp] theorem State.writeFprD_waiting (s : State) (r : RegNum) (v : DWord) : (s.writeFprD r v).waiting = s.waiting := rfl
@[simp] theorem State.writeFprD_mem (s : State) (r : RegNum) (v : DWord) : (s.writeFprD r v).mem = s.mem := rfl
@[simp] theorem State.writeFprD_stale (s : State) (r : RegNum) (v : DWord) : (s.writeFprD r v).stale = s.stale := rfl
@[simp] theorem State.writeFprD_draws (s : State) (r : RegNum) (v : DWord) : (s.writeFprD r v).draws = s.draws := rfl
@[simp] theorem State.writeFprD_agenda (s : State) (r : RegNum) (v : DWord) : (s.writeFprD r v).agenda = s.agenda := rfl

@[simp] theorem State.writeFprW_cfg (s : State) (r : RegNum) (v : Word) : (s.writeFprW r v).cfg = s.cfg := rfl
@[simp] theorem State.writeFprW_gpr (s : State) (r : RegNum) (v : Word) : (s.writeFprW r v).gpr = s.gpr := rfl
@[simp] theorem State.writeFprW_pc (s : State) (r : RegNum) (v : Word) : (s.writeFprW r v).pc = s.pc := rfl
@[simp] theorem State.writeFprW_fcc0 (s : State) (r : RegNum) (v : Word) : (s.writeFprW r v).fcc0 = s.fcc0 := rfl
@[simp] theorem State.writeFprW_fcsr0 (s : State) (r : RegNum) (v : Word) : (s.writeFprW r v).fcsr0 = s.fcsr0 := rfl
@[simp] theorem State.writeFprW_csr (s : State) (r : RegNum) (v : Word) : (s.writeFprW r v).csr = s.csr := rfl
@[simp] theorem State.writeFprW_llbit (s : State) (r : RegNum) (v : Word) : (s.writeFprW r v).llbit = s.llbit := rfl
@[simp] theorem State.writeFprW_llAddr (s : State) (r : RegNum) (v : Word) : (s.writeFprW r v).llAddr = s.llAddr := rfl
@[simp] theorem State.writeFprW_stableCounter (s : State) (r : RegNum) (v : Word) : (s.writeFprW r v).stableCounter = s.stableCounter := rfl
@[simp] theorem State.writeFprW_timerVal (s : State) (r : RegNum) (v : Word) : (s.writeFprW r v).timerVal = s.timerVal := rfl
@[simp] theorem State.writeFprW_timerRun (s : State) (r : RegNum) (v : Word) : (s.writeFprW r v).timerRun = s.timerRun := rfl
@[simp] theorem State.writeFprW_tiFlag (s : State) (r : RegNum) (v : Word) : (s.writeFprW r v).tiFlag = s.tiFlag := rfl
@[simp] theorem State.writeFprW_tlb (s : State) (r : RegNum) (v : Word) : (s.writeFprW r v).tlb = s.tlb := rfl
@[simp] theorem State.writeFprW_hwi (s : State) (r : RegNum) (v : Word) : (s.writeFprW r v).hwi = s.hwi := rfl
@[simp] theorem State.writeFprW_ipi (s : State) (r : RegNum) (v : Word) : (s.writeFprW r v).ipi = s.ipi := rfl
@[simp] theorem State.writeFprW_waiting (s : State) (r : RegNum) (v : Word) : (s.writeFprW r v).waiting = s.waiting := rfl
@[simp] theorem State.writeFprW_mem (s : State) (r : RegNum) (v : Word) : (s.writeFprW r v).mem = s.mem := rfl
@[simp] theorem State.writeFprW_stale (s : State) (r : RegNum) (v : Word) : (s.writeFprW r v).stale = s.stale := rfl
@[simp] theorem State.writeFprW_draws (s : State) (r : RegNum) (v : Word) : (s.writeFprW r v).draws = s.draws := rfl
@[simp] theorem State.writeFprW_agenda (s : State) (r : RegNum) (v : Word) : (s.writeFprW r v).agenda = s.agenda := rfl

@[simp] theorem State.enterException_cfg (e : Exc) (s : State) : (enterException e s).cfg = s.cfg := rfl
@[simp] theorem State.enterException_gpr (e : Exc) (s : State) : (enterException e s).gpr = s.gpr := rfl
@[simp] theorem State.enterException_pc (e : Exc) (s : State) : (enterException e s).pc = e.entry s.csr := rfl
@[simp] theorem State.enterException_fpr (e : Exc) (s : State) : (enterException e s).fpr = s.fpr := rfl
@[simp] theorem State.enterException_fcc0 (e : Exc) (s : State) : (enterException e s).fcc0 = s.fcc0 := rfl
@[simp] theorem State.enterException_fcsr0 (e : Exc) (s : State) : (enterException e s).fcsr0 = s.fcsr0 := rfl
@[simp] theorem State.enterException_llbit (e : Exc) (s : State) : (enterException e s).llbit = s.llbit := rfl
@[simp] theorem State.enterException_llAddr (e : Exc) (s : State) : (enterException e s).llAddr = s.llAddr := rfl
@[simp] theorem State.enterException_stableCounter (e : Exc) (s : State) : (enterException e s).stableCounter = s.stableCounter := rfl
@[simp] theorem State.enterException_timerVal (e : Exc) (s : State) : (enterException e s).timerVal = s.timerVal := rfl
@[simp] theorem State.enterException_timerRun (e : Exc) (s : State) : (enterException e s).timerRun = s.timerRun := rfl
@[simp] theorem State.enterException_tiFlag (e : Exc) (s : State) : (enterException e s).tiFlag = s.tiFlag := rfl
@[simp] theorem State.enterException_tlb (e : Exc) (s : State) : (enterException e s).tlb = s.tlb := rfl
@[simp] theorem State.enterException_hwi (e : Exc) (s : State) : (enterException e s).hwi = s.hwi := rfl
@[simp] theorem State.enterException_ipi (e : Exc) (s : State) : (enterException e s).ipi = s.ipi := rfl
@[simp] theorem State.enterException_waiting (e : Exc) (s : State) : (enterException e s).waiting = s.waiting := rfl
@[simp] theorem State.enterException_mem (e : Exc) (s : State) : (enterException e s).mem = s.mem := rfl
@[simp] theorem State.enterException_stale (e : Exc) (s : State) : (enterException e s).stale = s.stale := rfl
@[simp] theorem State.enterException_draws (e : Exc) (s : State) : (enterException e s).draws = s.draws := rfl
@[simp] theorem State.enterException_agenda (e : Exc) (s : State) : (enterException e s).agenda = s.agenda := rfl

@[simp] theorem State.returnFromException_cfg (s : State) : (returnFromException s).cfg = s.cfg := rfl
@[simp] theorem State.returnFromException_gpr (s : State) : (returnFromException s).gpr = s.gpr := rfl
@[simp] theorem State.returnFromException_pc (s : State) : (returnFromException s).pc = s.csr.era := rfl
@[simp] theorem State.returnFromException_fpr (s : State) : (returnFromException s).fpr = s.fpr := rfl
@[simp] theorem State.returnFromException_fcc0 (s : State) : (returnFromException s).fcc0 = s.fcc0 := rfl
@[simp] theorem State.returnFromException_fcsr0 (s : State) : (returnFromException s).fcsr0 = s.fcsr0 := rfl
@[simp] theorem State.returnFromException_llAddr (s : State) : (returnFromException s).llAddr = s.llAddr := rfl
@[simp] theorem State.returnFromException_stableCounter (s : State) : (returnFromException s).stableCounter = s.stableCounter := rfl
@[simp] theorem State.returnFromException_timerVal (s : State) : (returnFromException s).timerVal = s.timerVal := rfl
@[simp] theorem State.returnFromException_timerRun (s : State) : (returnFromException s).timerRun = s.timerRun := rfl
@[simp] theorem State.returnFromException_tiFlag (s : State) : (returnFromException s).tiFlag = s.tiFlag := rfl
@[simp] theorem State.returnFromException_tlb (s : State) : (returnFromException s).tlb = s.tlb := rfl
@[simp] theorem State.returnFromException_hwi (s : State) : (returnFromException s).hwi = s.hwi := rfl
@[simp] theorem State.returnFromException_ipi (s : State) : (returnFromException s).ipi = s.ipi := rfl
@[simp] theorem State.returnFromException_waiting (s : State) : (returnFromException s).waiting = s.waiting := rfl
@[simp] theorem State.returnFromException_mem (s : State) : (returnFromException s).mem = s.mem := rfl
@[simp] theorem State.returnFromException_stale (s : State) : (returnFromException s).stale = s.stale := rfl
@[simp] theorem State.returnFromException_draws (s : State) : (returnFromException s).draws = s.draws := rfl
@[simp] theorem State.returnFromException_agenda (s : State) : (returnFromException s).agenda = s.agenda := rfl

@[simp] theorem State.storeMem_cfg (s : State) (pa n : Nat) (v : DWord) : (s.storeMem pa n v).cfg = s.cfg := rfl
@[simp] theorem State.storeMem_gpr (s : State) (pa n : Nat) (v : DWord) : (s.storeMem pa n v).gpr = s.gpr := rfl
@[simp] theorem State.storeMem_pc (s : State) (pa n : Nat) (v : DWord) : (s.storeMem pa n v).pc = s.pc := rfl
@[simp] theorem State.storeMem_fpr (s : State) (pa n : Nat) (v : DWord) : (s.storeMem pa n v).fpr = s.fpr := rfl
@[simp] theorem State.storeMem_fcc0 (s : State) (pa n : Nat) (v : DWord) : (s.storeMem pa n v).fcc0 = s.fcc0 := rfl
@[simp] theorem State.storeMem_fcsr0 (s : State) (pa n : Nat) (v : DWord) : (s.storeMem pa n v).fcsr0 = s.fcsr0 := rfl
@[simp] theorem State.storeMem_csr (s : State) (pa n : Nat) (v : DWord) : (s.storeMem pa n v).csr = s.csr := rfl
@[simp] theorem State.storeMem_llbit (s : State) (pa n : Nat) (v : DWord) : (s.storeMem pa n v).llbit = s.llbit := rfl
@[simp] theorem State.storeMem_llAddr (s : State) (pa n : Nat) (v : DWord) : (s.storeMem pa n v).llAddr = s.llAddr := rfl
@[simp] theorem State.storeMem_stableCounter (s : State) (pa n : Nat) (v : DWord) : (s.storeMem pa n v).stableCounter = s.stableCounter := rfl
@[simp] theorem State.storeMem_timerVal (s : State) (pa n : Nat) (v : DWord) : (s.storeMem pa n v).timerVal = s.timerVal := rfl
@[simp] theorem State.storeMem_timerRun (s : State) (pa n : Nat) (v : DWord) : (s.storeMem pa n v).timerRun = s.timerRun := rfl
@[simp] theorem State.storeMem_tiFlag (s : State) (pa n : Nat) (v : DWord) : (s.storeMem pa n v).tiFlag = s.tiFlag := rfl
@[simp] theorem State.storeMem_tlb (s : State) (pa n : Nat) (v : DWord) : (s.storeMem pa n v).tlb = s.tlb := rfl
@[simp] theorem State.storeMem_hwi (s : State) (pa n : Nat) (v : DWord) : (s.storeMem pa n v).hwi = s.hwi := rfl
@[simp] theorem State.storeMem_ipi (s : State) (pa n : Nat) (v : DWord) : (s.storeMem pa n v).ipi = s.ipi := rfl
@[simp] theorem State.storeMem_waiting (s : State) (pa n : Nat) (v : DWord) : (s.storeMem pa n v).waiting = s.waiting := rfl
@[simp] theorem State.storeMem_mem (s : State) (pa n : Nat) (v : DWord) : (s.storeMem pa n v).mem = s.mem.storeLE pa n v := rfl
@[simp] theorem State.storeMem_stale (s : State) (pa n : Nat) (v : DWord) : (s.storeMem pa n v).stale = recordOlds s.mem s.stale (pa / 4 * 4) ((n + 3) / 4) := rfl
@[simp] theorem State.storeMem_draws (s : State) (pa n : Nat) (v : DWord) : (s.storeMem pa n v).draws = s.draws := rfl
@[simp] theorem State.storeMem_agenda (s : State) (pa n : Nat) (v : DWord) : (s.storeMem pa n v).agenda = s.agenda := rfl

@[simp] theorem State.cacheHit_cfg (s : State) (obj : BitVec 3) (pa : Nat) : (s.cacheHit obj pa).cfg = s.cfg := rfl
@[simp] theorem State.cacheHit_gpr (s : State) (obj : BitVec 3) (pa : Nat) : (s.cacheHit obj pa).gpr = s.gpr := rfl
@[simp] theorem State.cacheHit_pc (s : State) (obj : BitVec 3) (pa : Nat) : (s.cacheHit obj pa).pc = s.pc := rfl
@[simp] theorem State.cacheHit_fpr (s : State) (obj : BitVec 3) (pa : Nat) : (s.cacheHit obj pa).fpr = s.fpr := rfl
@[simp] theorem State.cacheHit_fcc0 (s : State) (obj : BitVec 3) (pa : Nat) : (s.cacheHit obj pa).fcc0 = s.fcc0 := rfl
@[simp] theorem State.cacheHit_fcsr0 (s : State) (obj : BitVec 3) (pa : Nat) : (s.cacheHit obj pa).fcsr0 = s.fcsr0 := rfl
@[simp] theorem State.cacheHit_csr (s : State) (obj : BitVec 3) (pa : Nat) : (s.cacheHit obj pa).csr = s.csr := rfl
@[simp] theorem State.cacheHit_llbit (s : State) (obj : BitVec 3) (pa : Nat) : (s.cacheHit obj pa).llbit = s.llbit := rfl
@[simp] theorem State.cacheHit_llAddr (s : State) (obj : BitVec 3) (pa : Nat) : (s.cacheHit obj pa).llAddr = s.llAddr := rfl
@[simp] theorem State.cacheHit_stableCounter (s : State) (obj : BitVec 3) (pa : Nat) : (s.cacheHit obj pa).stableCounter = s.stableCounter := rfl
@[simp] theorem State.cacheHit_timerVal (s : State) (obj : BitVec 3) (pa : Nat) : (s.cacheHit obj pa).timerVal = s.timerVal := rfl
@[simp] theorem State.cacheHit_timerRun (s : State) (obj : BitVec 3) (pa : Nat) : (s.cacheHit obj pa).timerRun = s.timerRun := rfl
@[simp] theorem State.cacheHit_tiFlag (s : State) (obj : BitVec 3) (pa : Nat) : (s.cacheHit obj pa).tiFlag = s.tiFlag := rfl
@[simp] theorem State.cacheHit_tlb (s : State) (obj : BitVec 3) (pa : Nat) : (s.cacheHit obj pa).tlb = s.tlb := rfl
@[simp] theorem State.cacheHit_hwi (s : State) (obj : BitVec 3) (pa : Nat) : (s.cacheHit obj pa).hwi = s.hwi := rfl
@[simp] theorem State.cacheHit_ipi (s : State) (obj : BitVec 3) (pa : Nat) : (s.cacheHit obj pa).ipi = s.ipi := rfl
@[simp] theorem State.cacheHit_waiting (s : State) (obj : BitVec 3) (pa : Nat) : (s.cacheHit obj pa).waiting = s.waiting := rfl
@[simp] theorem State.cacheHit_mem (s : State) (obj : BitVec 3) (pa : Nat) : (s.cacheHit obj pa).mem = s.mem := rfl
@[simp] theorem State.cacheHit_draws (s : State) (obj : BitVec 3) (pa : Nat) : (s.cacheHit obj pa).draws = s.draws := rfl
@[simp] theorem State.cacheHit_agenda (s : State) (obj : BitVec 3) (pa : Nat) : (s.cacheHit obj pa).agenda = s.agenda := rfl

@[simp] theorem State.snoop_cfg (s : State) (pa : Nat) (b : Byte) : (s.snoop pa b).cfg = s.cfg := rfl
@[simp] theorem State.snoop_gpr (s : State) (pa : Nat) (b : Byte) : (s.snoop pa b).gpr = s.gpr := rfl
@[simp] theorem State.snoop_pc (s : State) (pa : Nat) (b : Byte) : (s.snoop pa b).pc = s.pc := rfl
@[simp] theorem State.snoop_fpr (s : State) (pa : Nat) (b : Byte) : (s.snoop pa b).fpr = s.fpr := rfl
@[simp] theorem State.snoop_fcc0 (s : State) (pa : Nat) (b : Byte) : (s.snoop pa b).fcc0 = s.fcc0 := rfl
@[simp] theorem State.snoop_fcsr0 (s : State) (pa : Nat) (b : Byte) : (s.snoop pa b).fcsr0 = s.fcsr0 := rfl
@[simp] theorem State.snoop_csr (s : State) (pa : Nat) (b : Byte) : (s.snoop pa b).csr = s.csr := rfl
@[simp] theorem State.snoop_llbit (s : State) (pa : Nat) (b : Byte) : (s.snoop pa b).llbit = s.llbit := rfl
@[simp] theorem State.snoop_llAddr (s : State) (pa : Nat) (b : Byte) : (s.snoop pa b).llAddr = s.llAddr := rfl
@[simp] theorem State.snoop_stableCounter (s : State) (pa : Nat) (b : Byte) : (s.snoop pa b).stableCounter = s.stableCounter := rfl
@[simp] theorem State.snoop_timerVal (s : State) (pa : Nat) (b : Byte) : (s.snoop pa b).timerVal = s.timerVal := rfl
@[simp] theorem State.snoop_timerRun (s : State) (pa : Nat) (b : Byte) : (s.snoop pa b).timerRun = s.timerRun := rfl
@[simp] theorem State.snoop_tiFlag (s : State) (pa : Nat) (b : Byte) : (s.snoop pa b).tiFlag = s.tiFlag := rfl
@[simp] theorem State.snoop_tlb (s : State) (pa : Nat) (b : Byte) : (s.snoop pa b).tlb = s.tlb := rfl
@[simp] theorem State.snoop_hwi (s : State) (pa : Nat) (b : Byte) : (s.snoop pa b).hwi = s.hwi := rfl
@[simp] theorem State.snoop_ipi (s : State) (pa : Nat) (b : Byte) : (s.snoop pa b).ipi = s.ipi := rfl
@[simp] theorem State.snoop_waiting (s : State) (pa : Nat) (b : Byte) : (s.snoop pa b).waiting = s.waiting := rfl
@[simp] theorem State.snoop_mem (s : State) (pa : Nat) (b : Byte) : (s.snoop pa b).mem = s.mem := rfl
@[simp] theorem State.snoop_draws (s : State) (pa : Nat) (b : Byte) : (s.snoop pa b).draws = s.draws := rfl
@[simp] theorem State.snoop_agenda (s : State) (pa : Nat) (b : Byte) : (s.snoop pa b).agenda = s.agenda := rfl

@[simp] theorem State.fetchBarrier_cfg (s : State) : s.fetchBarrier.cfg = s.cfg := rfl
@[simp] theorem State.fetchBarrier_gpr (s : State) : s.fetchBarrier.gpr = s.gpr := rfl
@[simp] theorem State.fetchBarrier_pc (s : State) : s.fetchBarrier.pc = s.pc := rfl
@[simp] theorem State.fetchBarrier_fpr (s : State) : s.fetchBarrier.fpr = s.fpr := rfl
@[simp] theorem State.fetchBarrier_fcc0 (s : State) : s.fetchBarrier.fcc0 = s.fcc0 := rfl
@[simp] theorem State.fetchBarrier_fcsr0 (s : State) : s.fetchBarrier.fcsr0 = s.fcsr0 := rfl
@[simp] theorem State.fetchBarrier_csr (s : State) : s.fetchBarrier.csr = s.csr := rfl
@[simp] theorem State.fetchBarrier_llbit (s : State) : s.fetchBarrier.llbit = s.llbit := rfl
@[simp] theorem State.fetchBarrier_llAddr (s : State) : s.fetchBarrier.llAddr = s.llAddr := rfl
@[simp] theorem State.fetchBarrier_stableCounter (s : State) : s.fetchBarrier.stableCounter = s.stableCounter := rfl
@[simp] theorem State.fetchBarrier_timerVal (s : State) : s.fetchBarrier.timerVal = s.timerVal := rfl
@[simp] theorem State.fetchBarrier_timerRun (s : State) : s.fetchBarrier.timerRun = s.timerRun := rfl
@[simp] theorem State.fetchBarrier_tiFlag (s : State) : s.fetchBarrier.tiFlag = s.tiFlag := rfl
@[simp] theorem State.fetchBarrier_tlb (s : State) : s.fetchBarrier.tlb = s.tlb := rfl
@[simp] theorem State.fetchBarrier_hwi (s : State) : s.fetchBarrier.hwi = s.hwi := rfl
@[simp] theorem State.fetchBarrier_ipi (s : State) : s.fetchBarrier.ipi = s.ipi := rfl
@[simp] theorem State.fetchBarrier_waiting (s : State) : s.fetchBarrier.waiting = s.waiting := rfl
@[simp] theorem State.fetchBarrier_mem (s : State) : s.fetchBarrier.mem = s.mem := rfl
@[simp] theorem State.fetchBarrier_stale (s : State) : s.fetchBarrier.stale = s.stale.filter (·.stage != .invalidated) := rfl
@[simp] theorem State.fetchBarrier_draws (s : State) : s.fetchBarrier.draws = s.draws := rfl
@[simp] theorem State.fetchBarrier_agenda (s : State) : s.fetchBarrier.agenda = s.agenda := rfl

@[simp] theorem State.fetched_cfg (s : State) (pa : Nat) : (s.fetched pa).cfg = s.cfg := by unfold State.fetched; split <;> rfl
@[simp] theorem State.fetched_gpr (s : State) (pa : Nat) : (s.fetched pa).gpr = s.gpr := by unfold State.fetched; split <;> rfl
@[simp] theorem State.fetched_pc (s : State) (pa : Nat) : (s.fetched pa).pc = s.pc := by unfold State.fetched; split <;> rfl
@[simp] theorem State.fetched_fpr (s : State) (pa : Nat) : (s.fetched pa).fpr = s.fpr := by unfold State.fetched; split <;> rfl
@[simp] theorem State.fetched_fcc0 (s : State) (pa : Nat) : (s.fetched pa).fcc0 = s.fcc0 := by unfold State.fetched; split <;> rfl
@[simp] theorem State.fetched_fcsr0 (s : State) (pa : Nat) : (s.fetched pa).fcsr0 = s.fcsr0 := by unfold State.fetched; split <;> rfl
@[simp] theorem State.fetched_csr (s : State) (pa : Nat) : (s.fetched pa).csr = s.csr := by unfold State.fetched; split <;> rfl
@[simp] theorem State.fetched_llbit (s : State) (pa : Nat) : (s.fetched pa).llbit = s.llbit := by unfold State.fetched; split <;> rfl
@[simp] theorem State.fetched_llAddr (s : State) (pa : Nat) : (s.fetched pa).llAddr = s.llAddr := by unfold State.fetched; split <;> rfl
@[simp] theorem State.fetched_stableCounter (s : State) (pa : Nat) : (s.fetched pa).stableCounter = s.stableCounter := by unfold State.fetched; split <;> rfl
@[simp] theorem State.fetched_timerVal (s : State) (pa : Nat) : (s.fetched pa).timerVal = s.timerVal := by unfold State.fetched; split <;> rfl
@[simp] theorem State.fetched_timerRun (s : State) (pa : Nat) : (s.fetched pa).timerRun = s.timerRun := by unfold State.fetched; split <;> rfl
@[simp] theorem State.fetched_tiFlag (s : State) (pa : Nat) : (s.fetched pa).tiFlag = s.tiFlag := by unfold State.fetched; split <;> rfl
@[simp] theorem State.fetched_tlb (s : State) (pa : Nat) : (s.fetched pa).tlb = s.tlb := by unfold State.fetched; split <;> rfl
@[simp] theorem State.fetched_hwi (s : State) (pa : Nat) : (s.fetched pa).hwi = s.hwi := by unfold State.fetched; split <;> rfl
@[simp] theorem State.fetched_ipi (s : State) (pa : Nat) : (s.fetched pa).ipi = s.ipi := by unfold State.fetched; split <;> rfl
@[simp] theorem State.fetched_waiting (s : State) (pa : Nat) : (s.fetched pa).waiting = s.waiting := by unfold State.fetched; split <;> rfl
@[simp] theorem State.fetched_mem (s : State) (pa : Nat) : (s.fetched pa).mem = s.mem := by unfold State.fetched; split <;> rfl
@[simp] theorem State.fetched_stale (s : State) (pa : Nat) : (s.fetched pa).stale = s.stale := by unfold State.fetched; split <;> rfl
@[simp] theorem State.fetched_agenda (s : State) (pa : Nat) : (s.fetched pa).agenda = s.agenda := by unfold State.fetched; split <;> rfl

@[simp] theorem State.tlbSet_cfg (s : State) (i : Nat) (e : TlbEntry) : (s.tlbSet i e).cfg = s.cfg := rfl
@[simp] theorem State.tlbSet_gpr (s : State) (i : Nat) (e : TlbEntry) : (s.tlbSet i e).gpr = s.gpr := rfl
@[simp] theorem State.tlbSet_pc (s : State) (i : Nat) (e : TlbEntry) : (s.tlbSet i e).pc = s.pc := rfl
@[simp] theorem State.tlbSet_fpr (s : State) (i : Nat) (e : TlbEntry) : (s.tlbSet i e).fpr = s.fpr := rfl
@[simp] theorem State.tlbSet_fcc0 (s : State) (i : Nat) (e : TlbEntry) : (s.tlbSet i e).fcc0 = s.fcc0 := rfl
@[simp] theorem State.tlbSet_fcsr0 (s : State) (i : Nat) (e : TlbEntry) : (s.tlbSet i e).fcsr0 = s.fcsr0 := rfl
@[simp] theorem State.tlbSet_csr (s : State) (i : Nat) (e : TlbEntry) : (s.tlbSet i e).csr = s.csr := rfl
@[simp] theorem State.tlbSet_llbit (s : State) (i : Nat) (e : TlbEntry) : (s.tlbSet i e).llbit = s.llbit := rfl
@[simp] theorem State.tlbSet_llAddr (s : State) (i : Nat) (e : TlbEntry) : (s.tlbSet i e).llAddr = s.llAddr := rfl
@[simp] theorem State.tlbSet_stableCounter (s : State) (i : Nat) (e : TlbEntry) : (s.tlbSet i e).stableCounter = s.stableCounter := rfl
@[simp] theorem State.tlbSet_timerVal (s : State) (i : Nat) (e : TlbEntry) : (s.tlbSet i e).timerVal = s.timerVal := rfl
@[simp] theorem State.tlbSet_timerRun (s : State) (i : Nat) (e : TlbEntry) : (s.tlbSet i e).timerRun = s.timerRun := rfl
@[simp] theorem State.tlbSet_tiFlag (s : State) (i : Nat) (e : TlbEntry) : (s.tlbSet i e).tiFlag = s.tiFlag := rfl
@[simp] theorem State.tlbSet_tlb (s : State) (i : Nat) (e : TlbEntry) : (s.tlbSet i e).tlb = s.tlb.set i e := rfl
@[simp] theorem State.tlbSet_hwi (s : State) (i : Nat) (e : TlbEntry) : (s.tlbSet i e).hwi = s.hwi := rfl
@[simp] theorem State.tlbSet_ipi (s : State) (i : Nat) (e : TlbEntry) : (s.tlbSet i e).ipi = s.ipi := rfl
@[simp] theorem State.tlbSet_waiting (s : State) (i : Nat) (e : TlbEntry) : (s.tlbSet i e).waiting = s.waiting := rfl
@[simp] theorem State.tlbSet_mem (s : State) (i : Nat) (e : TlbEntry) : (s.tlbSet i e).mem = s.mem := rfl
@[simp] theorem State.tlbSet_stale (s : State) (i : Nat) (e : TlbEntry) : (s.tlbSet i e).stale = s.stale := rfl
@[simp] theorem State.tlbSet_draws (s : State) (i : Nat) (e : TlbEntry) : (s.tlbSet i e).draws = s.draws := rfl
@[simp] theorem State.tlbSet_agenda (s : State) (i : Nat) (e : TlbEntry) : (s.tlbSet i e).agenda = s.agenda := rfl

@[simp] theorem State.tlbSearchDone_cfg (s : State) (h : Option (TlbEntry × Nat)) : (s.tlbSearchDone h).cfg = s.cfg := rfl
@[simp] theorem State.tlbSearchDone_gpr (s : State) (h : Option (TlbEntry × Nat)) : (s.tlbSearchDone h).gpr = s.gpr := rfl
@[simp] theorem State.tlbSearchDone_pc (s : State) (h : Option (TlbEntry × Nat)) : (s.tlbSearchDone h).pc = s.pc := rfl
@[simp] theorem State.tlbSearchDone_fpr (s : State) (h : Option (TlbEntry × Nat)) : (s.tlbSearchDone h).fpr = s.fpr := rfl
@[simp] theorem State.tlbSearchDone_fcc0 (s : State) (h : Option (TlbEntry × Nat)) : (s.tlbSearchDone h).fcc0 = s.fcc0 := rfl
@[simp] theorem State.tlbSearchDone_fcsr0 (s : State) (h : Option (TlbEntry × Nat)) : (s.tlbSearchDone h).fcsr0 = s.fcsr0 := rfl
@[simp] theorem State.tlbSearchDone_llbit (s : State) (h : Option (TlbEntry × Nat)) : (s.tlbSearchDone h).llbit = s.llbit := rfl
@[simp] theorem State.tlbSearchDone_llAddr (s : State) (h : Option (TlbEntry × Nat)) : (s.tlbSearchDone h).llAddr = s.llAddr := rfl
@[simp] theorem State.tlbSearchDone_stableCounter (s : State) (h : Option (TlbEntry × Nat)) : (s.tlbSearchDone h).stableCounter = s.stableCounter := rfl
@[simp] theorem State.tlbSearchDone_timerVal (s : State) (h : Option (TlbEntry × Nat)) : (s.tlbSearchDone h).timerVal = s.timerVal := rfl
@[simp] theorem State.tlbSearchDone_timerRun (s : State) (h : Option (TlbEntry × Nat)) : (s.tlbSearchDone h).timerRun = s.timerRun := rfl
@[simp] theorem State.tlbSearchDone_tiFlag (s : State) (h : Option (TlbEntry × Nat)) : (s.tlbSearchDone h).tiFlag = s.tiFlag := rfl
@[simp] theorem State.tlbSearchDone_tlb (s : State) (h : Option (TlbEntry × Nat)) : (s.tlbSearchDone h).tlb = s.tlb := rfl
@[simp] theorem State.tlbSearchDone_hwi (s : State) (h : Option (TlbEntry × Nat)) : (s.tlbSearchDone h).hwi = s.hwi := rfl
@[simp] theorem State.tlbSearchDone_ipi (s : State) (h : Option (TlbEntry × Nat)) : (s.tlbSearchDone h).ipi = s.ipi := rfl
@[simp] theorem State.tlbSearchDone_waiting (s : State) (h : Option (TlbEntry × Nat)) : (s.tlbSearchDone h).waiting = s.waiting := rfl
@[simp] theorem State.tlbSearchDone_mem (s : State) (h : Option (TlbEntry × Nat)) : (s.tlbSearchDone h).mem = s.mem := rfl
@[simp] theorem State.tlbSearchDone_stale (s : State) (h : Option (TlbEntry × Nat)) : (s.tlbSearchDone h).stale = s.stale := rfl
@[simp] theorem State.tlbSearchDone_draws (s : State) (h : Option (TlbEntry × Nat)) : (s.tlbSearchDone h).draws = s.draws := rfl
@[simp] theorem State.tlbSearchDone_agenda (s : State) (h : Option (TlbEntry × Nat)) : (s.tlbSearchDone h).agenda = s.agenda := rfl

@[simp] theorem State.tlbReadInto_cfg (s : State) (e : TlbEntry) : (s.tlbReadInto e).cfg = s.cfg := by unfold State.tlbReadInto; split <;> rfl
@[simp] theorem State.tlbReadInto_gpr (s : State) (e : TlbEntry) : (s.tlbReadInto e).gpr = s.gpr := by unfold State.tlbReadInto; split <;> rfl
@[simp] theorem State.tlbReadInto_pc (s : State) (e : TlbEntry) : (s.tlbReadInto e).pc = s.pc := by unfold State.tlbReadInto; split <;> rfl
@[simp] theorem State.tlbReadInto_fpr (s : State) (e : TlbEntry) : (s.tlbReadInto e).fpr = s.fpr := by unfold State.tlbReadInto; split <;> rfl
@[simp] theorem State.tlbReadInto_fcc0 (s : State) (e : TlbEntry) : (s.tlbReadInto e).fcc0 = s.fcc0 := by unfold State.tlbReadInto; split <;> rfl
@[simp] theorem State.tlbReadInto_fcsr0 (s : State) (e : TlbEntry) : (s.tlbReadInto e).fcsr0 = s.fcsr0 := by unfold State.tlbReadInto; split <;> rfl
@[simp] theorem State.tlbReadInto_llbit (s : State) (e : TlbEntry) : (s.tlbReadInto e).llbit = s.llbit := by unfold State.tlbReadInto; split <;> rfl
@[simp] theorem State.tlbReadInto_llAddr (s : State) (e : TlbEntry) : (s.tlbReadInto e).llAddr = s.llAddr := by unfold State.tlbReadInto; split <;> rfl
@[simp] theorem State.tlbReadInto_stableCounter (s : State) (e : TlbEntry) : (s.tlbReadInto e).stableCounter = s.stableCounter := by unfold State.tlbReadInto; split <;> rfl
@[simp] theorem State.tlbReadInto_timerVal (s : State) (e : TlbEntry) : (s.tlbReadInto e).timerVal = s.timerVal := by unfold State.tlbReadInto; split <;> rfl
@[simp] theorem State.tlbReadInto_timerRun (s : State) (e : TlbEntry) : (s.tlbReadInto e).timerRun = s.timerRun := by unfold State.tlbReadInto; split <;> rfl
@[simp] theorem State.tlbReadInto_tiFlag (s : State) (e : TlbEntry) : (s.tlbReadInto e).tiFlag = s.tiFlag := by unfold State.tlbReadInto; split <;> rfl
@[simp] theorem State.tlbReadInto_tlb (s : State) (e : TlbEntry) : (s.tlbReadInto e).tlb = s.tlb := by unfold State.tlbReadInto; split <;> rfl
@[simp] theorem State.tlbReadInto_hwi (s : State) (e : TlbEntry) : (s.tlbReadInto e).hwi = s.hwi := by unfold State.tlbReadInto; split <;> rfl
@[simp] theorem State.tlbReadInto_ipi (s : State) (e : TlbEntry) : (s.tlbReadInto e).ipi = s.ipi := by unfold State.tlbReadInto; split <;> rfl
@[simp] theorem State.tlbReadInto_waiting (s : State) (e : TlbEntry) : (s.tlbReadInto e).waiting = s.waiting := by unfold State.tlbReadInto; split <;> rfl
@[simp] theorem State.tlbReadInto_mem (s : State) (e : TlbEntry) : (s.tlbReadInto e).mem = s.mem := by unfold State.tlbReadInto; split <;> rfl
@[simp] theorem State.tlbReadInto_stale (s : State) (e : TlbEntry) : (s.tlbReadInto e).stale = s.stale := by unfold State.tlbReadInto; split <;> rfl
@[simp] theorem State.tlbReadInto_draws (s : State) (e : TlbEntry) : (s.tlbReadInto e).draws = s.draws := by unfold State.tlbReadInto; split <;> rfl
@[simp] theorem State.tlbReadInto_agenda (s : State) (e : TlbEntry) : (s.tlbReadInto e).agenda = s.agenda := by unfold State.tlbReadInto; split <;> rfl

@[simp] theorem State.csrReadDone_cfg (s : State) (k : CsrName) : (s.csrReadDone k).cfg = s.cfg := by cases k <;> rfl
@[simp] theorem State.csrReadDone_gpr (s : State) (k : CsrName) : (s.csrReadDone k).gpr = s.gpr := by cases k <;> rfl
@[simp] theorem State.csrReadDone_pc (s : State) (k : CsrName) : (s.csrReadDone k).pc = s.pc := by cases k <;> rfl
@[simp] theorem State.csrReadDone_fpr (s : State) (k : CsrName) : (s.csrReadDone k).fpr = s.fpr := by cases k <;> rfl
@[simp] theorem State.csrReadDone_fcc0 (s : State) (k : CsrName) : (s.csrReadDone k).fcc0 = s.fcc0 := by cases k <;> rfl
@[simp] theorem State.csrReadDone_fcsr0 (s : State) (k : CsrName) : (s.csrReadDone k).fcsr0 = s.fcsr0 := by cases k <;> rfl
@[simp] theorem State.csrReadDone_csr (s : State) (k : CsrName) : (s.csrReadDone k).csr = s.csr := by cases k <;> rfl
@[simp] theorem State.csrReadDone_llbit (s : State) (k : CsrName) : (s.csrReadDone k).llbit = s.llbit := by cases k <;> rfl
@[simp] theorem State.csrReadDone_llAddr (s : State) (k : CsrName) : (s.csrReadDone k).llAddr = s.llAddr := by cases k <;> rfl
@[simp] theorem State.csrReadDone_stableCounter (s : State) (k : CsrName) : (s.csrReadDone k).stableCounter = s.stableCounter := by cases k <;> rfl
@[simp] theorem State.csrReadDone_timerVal (s : State) (k : CsrName) : (s.csrReadDone k).timerVal = s.timerVal := by cases k <;> rfl
@[simp] theorem State.csrReadDone_timerRun (s : State) (k : CsrName) : (s.csrReadDone k).timerRun = s.timerRun := by cases k <;> rfl
@[simp] theorem State.csrReadDone_tiFlag (s : State) (k : CsrName) : (s.csrReadDone k).tiFlag = s.tiFlag := by cases k <;> rfl
@[simp] theorem State.csrReadDone_tlb (s : State) (k : CsrName) : (s.csrReadDone k).tlb = s.tlb := by cases k <;> rfl
@[simp] theorem State.csrReadDone_hwi (s : State) (k : CsrName) : (s.csrReadDone k).hwi = s.hwi := by cases k <;> rfl
@[simp] theorem State.csrReadDone_ipi (s : State) (k : CsrName) : (s.csrReadDone k).ipi = s.ipi := by cases k <;> rfl
@[simp] theorem State.csrReadDone_waiting (s : State) (k : CsrName) : (s.csrReadDone k).waiting = s.waiting := by cases k <;> rfl
@[simp] theorem State.csrReadDone_mem (s : State) (k : CsrName) : (s.csrReadDone k).mem = s.mem := by cases k <;> rfl
@[simp] theorem State.csrReadDone_stale (s : State) (k : CsrName) : (s.csrReadDone k).stale = s.stale := by cases k <;> rfl
@[simp] theorem State.csrReadDone_agenda (s : State) (k : CsrName) : (s.csrReadDone k).agenda = s.agenda := by cases k <;> rfl

@[simp] theorem State.csrAction_cfg (s : State) (k : CsrName) (v m : Word) : (s.csrAction k v m).cfg = s.cfg := by unfold State.csrAction; (repeat' split) <;> rfl
@[simp] theorem State.csrAction_gpr (s : State) (k : CsrName) (v m : Word) : (s.csrAction k v m).gpr = s.gpr := by unfold State.csrAction; (repeat' split) <;> rfl
@[simp] theorem State.csrAction_pc (s : State) (k : CsrName) (v m : Word) : (s.csrAction k v m).pc = s.pc := by unfold State.csrAction; (repeat' split) <;> rfl
@[simp] theorem State.csrAction_fpr (s : State) (k : CsrName) (v m : Word) : (s.csrAction k v m).fpr = s.fpr := by unfold State.csrAction; (repeat' split) <;> rfl
@[simp] theorem State.csrAction_fcc0 (s : State) (k : CsrName) (v m : Word) : (s.csrAction k v m).fcc0 = s.fcc0 := by unfold State.csrAction; (repeat' split) <;> rfl
@[simp] theorem State.csrAction_fcsr0 (s : State) (k : CsrName) (v m : Word) : (s.csrAction k v m).fcsr0 = s.fcsr0 := by unfold State.csrAction; (repeat' split) <;> rfl
@[simp] theorem State.csrAction_csr (s : State) (k : CsrName) (v m : Word) : (s.csrAction k v m).csr = s.csr := by unfold State.csrAction; (repeat' split) <;> rfl
@[simp] theorem State.csrAction_llAddr (s : State) (k : CsrName) (v m : Word) : (s.csrAction k v m).llAddr = s.llAddr := by unfold State.csrAction; (repeat' split) <;> rfl
@[simp] theorem State.csrAction_stableCounter (s : State) (k : CsrName) (v m : Word) : (s.csrAction k v m).stableCounter = s.stableCounter := by unfold State.csrAction; (repeat' split) <;> rfl
@[simp] theorem State.csrAction_tlb (s : State) (k : CsrName) (v m : Word) : (s.csrAction k v m).tlb = s.tlb := by unfold State.csrAction; (repeat' split) <;> rfl
@[simp] theorem State.csrAction_hwi (s : State) (k : CsrName) (v m : Word) : (s.csrAction k v m).hwi = s.hwi := by unfold State.csrAction; (repeat' split) <;> rfl
@[simp] theorem State.csrAction_ipi (s : State) (k : CsrName) (v m : Word) : (s.csrAction k v m).ipi = s.ipi := by unfold State.csrAction; (repeat' split) <;> rfl
@[simp] theorem State.csrAction_waiting (s : State) (k : CsrName) (v m : Word) : (s.csrAction k v m).waiting = s.waiting := by unfold State.csrAction; (repeat' split) <;> rfl
@[simp] theorem State.csrAction_mem (s : State) (k : CsrName) (v m : Word) : (s.csrAction k v m).mem = s.mem := by unfold State.csrAction; (repeat' split) <;> rfl
@[simp] theorem State.csrAction_stale (s : State) (k : CsrName) (v m : Word) : (s.csrAction k v m).stale = s.stale := by unfold State.csrAction; (repeat' split) <;> rfl
@[simp] theorem State.csrAction_draws (s : State) (k : CsrName) (v m : Word) : (s.csrAction k v m).draws = s.draws := by unfold State.csrAction; (repeat' split) <;> rfl
@[simp] theorem State.csrAction_agenda (s : State) (k : CsrName) (v m : Word) : (s.csrAction k v m).agenda = s.agenda := by unfold State.csrAction; (repeat' split) <;> rfl

@[simp] theorem State.csrWrite_cfg (s : State) (k : CsrName) (v m : Word) : (s.csrWrite k v m).cfg = s.cfg := by simp [State.csrWrite]
@[simp] theorem State.csrWrite_gpr (s : State) (k : CsrName) (v m : Word) : (s.csrWrite k v m).gpr = s.gpr := by simp [State.csrWrite]
@[simp] theorem State.csrWrite_pc (s : State) (k : CsrName) (v m : Word) : (s.csrWrite k v m).pc = s.pc := by simp [State.csrWrite]
@[simp] theorem State.csrWrite_fpr (s : State) (k : CsrName) (v m : Word) : (s.csrWrite k v m).fpr = s.fpr := by simp [State.csrWrite]
@[simp] theorem State.csrWrite_fcc0 (s : State) (k : CsrName) (v m : Word) : (s.csrWrite k v m).fcc0 = s.fcc0 := by simp [State.csrWrite]
@[simp] theorem State.csrWrite_fcsr0 (s : State) (k : CsrName) (v m : Word) : (s.csrWrite k v m).fcsr0 = s.fcsr0 := by simp [State.csrWrite]
@[simp] theorem State.csrWrite_llAddr (s : State) (k : CsrName) (v m : Word) : (s.csrWrite k v m).llAddr = s.llAddr := by simp [State.csrWrite]
@[simp] theorem State.csrWrite_stableCounter (s : State) (k : CsrName) (v m : Word) : (s.csrWrite k v m).stableCounter = s.stableCounter := by simp [State.csrWrite]
@[simp] theorem State.csrWrite_tlb (s : State) (k : CsrName) (v m : Word) : (s.csrWrite k v m).tlb = s.tlb := by simp [State.csrWrite]
@[simp] theorem State.csrWrite_hwi (s : State) (k : CsrName) (v m : Word) : (s.csrWrite k v m).hwi = s.hwi := by simp [State.csrWrite]
@[simp] theorem State.csrWrite_ipi (s : State) (k : CsrName) (v m : Word) : (s.csrWrite k v m).ipi = s.ipi := by simp [State.csrWrite]
@[simp] theorem State.csrWrite_waiting (s : State) (k : CsrName) (v m : Word) : (s.csrWrite k v m).waiting = s.waiting := by simp [State.csrWrite]
@[simp] theorem State.csrWrite_mem (s : State) (k : CsrName) (v m : Word) : (s.csrWrite k v m).mem = s.mem := by simp [State.csrWrite]
@[simp] theorem State.csrWrite_stale (s : State) (k : CsrName) (v m : Word) : (s.csrWrite k v m).stale = s.stale := by simp [State.csrWrite]
@[simp] theorem State.csrWrite_draws (s : State) (k : CsrName) (v m : Word) : (s.csrWrite k v m).draws = s.draws := by simp [State.csrWrite]
@[simp] theorem State.csrWrite_agenda (s : State) (k : CsrName) (v m : Word) : (s.csrWrite k v m).agenda = s.agenda := by simp [State.csrWrite]
@[simp] theorem State.csrWrite_csr (s : State) (k : CsrName) (v m : Word) :
    (s.csrWrite k v m).csr = s.csr.set k (setBits (s.csr.get k) (m &&& k.writeMask s.cfg) v) := by simp [State.csrWrite]

@[simp] theorem State.timerTick_cfg (s : State) : s.timerTick.cfg = s.cfg := by unfold State.timerTick; (repeat' split) <;> rfl
@[simp] theorem State.timerTick_gpr (s : State) : s.timerTick.gpr = s.gpr := by unfold State.timerTick; (repeat' split) <;> rfl
@[simp] theorem State.timerTick_pc (s : State) : s.timerTick.pc = s.pc := by unfold State.timerTick; (repeat' split) <;> rfl
@[simp] theorem State.timerTick_fpr (s : State) : s.timerTick.fpr = s.fpr := by unfold State.timerTick; (repeat' split) <;> rfl
@[simp] theorem State.timerTick_fcc0 (s : State) : s.timerTick.fcc0 = s.fcc0 := by unfold State.timerTick; (repeat' split) <;> rfl
@[simp] theorem State.timerTick_fcsr0 (s : State) : s.timerTick.fcsr0 = s.fcsr0 := by unfold State.timerTick; (repeat' split) <;> rfl
@[simp] theorem State.timerTick_csr (s : State) : s.timerTick.csr = s.csr := by unfold State.timerTick; (repeat' split) <;> rfl
@[simp] theorem State.timerTick_llbit (s : State) : s.timerTick.llbit = s.llbit := by unfold State.timerTick; (repeat' split) <;> rfl
@[simp] theorem State.timerTick_llAddr (s : State) : s.timerTick.llAddr = s.llAddr := by unfold State.timerTick; (repeat' split) <;> rfl
@[simp] theorem State.timerTick_stableCounter (s : State) : s.timerTick.stableCounter = s.stableCounter := by unfold State.timerTick; (repeat' split) <;> rfl
@[simp] theorem State.timerTick_tlb (s : State) : s.timerTick.tlb = s.tlb := by unfold State.timerTick; (repeat' split) <;> rfl
@[simp] theorem State.timerTick_hwi (s : State) : s.timerTick.hwi = s.hwi := by unfold State.timerTick; (repeat' split) <;> rfl
@[simp] theorem State.timerTick_ipi (s : State) : s.timerTick.ipi = s.ipi := by unfold State.timerTick; (repeat' split) <;> rfl
@[simp] theorem State.timerTick_waiting (s : State) : s.timerTick.waiting = s.waiting := by unfold State.timerTick; (repeat' split) <;> rfl
@[simp] theorem State.timerTick_mem (s : State) : s.timerTick.mem = s.mem := by unfold State.timerTick; (repeat' split) <;> rfl
@[simp] theorem State.timerTick_stale (s : State) : s.timerTick.stale = s.stale := by unfold State.timerTick; (repeat' split) <;> rfl
@[simp] theorem State.timerTick_draws (s : State) : s.timerTick.draws = s.draws := by unfold State.timerTick; (repeat' split) <;> rfl
@[simp] theorem State.timerTick_agenda (s : State) : s.timerTick.agenda = s.agenda := by unfold State.timerTick; (repeat' split) <;> rfl

@[simp] theorem State.tick_cfg (s : State) : s.tick.cfg = s.cfg := by simp [State.tick]
@[simp] theorem State.tick_gpr (s : State) : s.tick.gpr = s.gpr := by simp [State.tick]
@[simp] theorem State.tick_pc (s : State) : s.tick.pc = s.pc := by simp [State.tick]
@[simp] theorem State.tick_fpr (s : State) : s.tick.fpr = s.fpr := by simp [State.tick]
@[simp] theorem State.tick_fcc0 (s : State) : s.tick.fcc0 = s.fcc0 := by simp [State.tick]
@[simp] theorem State.tick_fcsr0 (s : State) : s.tick.fcsr0 = s.fcsr0 := by simp [State.tick]
@[simp] theorem State.tick_csr (s : State) : s.tick.csr = s.csr := by simp [State.tick]
@[simp] theorem State.tick_llbit (s : State) : s.tick.llbit = s.llbit := by simp [State.tick]
@[simp] theorem State.tick_llAddr (s : State) : s.tick.llAddr = s.llAddr := by simp [State.tick]
@[simp] theorem State.tick_tlb (s : State) : s.tick.tlb = s.tlb := by simp [State.tick]
@[simp] theorem State.tick_hwi (s : State) : s.tick.hwi = s.hwi := by simp [State.tick]
@[simp] theorem State.tick_ipi (s : State) : s.tick.ipi = s.ipi := by simp [State.tick]
@[simp] theorem State.tick_waiting (s : State) : s.tick.waiting = s.waiting := by simp [State.tick]
@[simp] theorem State.tick_mem (s : State) : s.tick.mem = s.mem := by simp [State.tick]
@[simp] theorem State.tick_stale (s : State) : s.tick.stale = s.stale := by simp [State.tick]
@[simp] theorem State.tick_draws (s : State) : s.tick.draws = s.draws := by simp [State.tick]
@[simp] theorem State.tick_agenda (s : State) : s.tick.agenda = s.agenda := by simp [State.tick]
@[simp] theorem State.tick_stableCounter (s : State) : s.tick.stableCounter = s.stableCounter + 1 := by simp [State.tick]

@[simp] theorem State.externalStore_cfg (s : State) (pa : Nat) (b : Byte) : (s.externalStore pa b).cfg = s.cfg := by unfold State.externalStore; split <;> rfl
@[simp] theorem State.externalStore_gpr (s : State) (pa : Nat) (b : Byte) : (s.externalStore pa b).gpr = s.gpr := by unfold State.externalStore; split <;> rfl
@[simp] theorem State.externalStore_pc (s : State) (pa : Nat) (b : Byte) : (s.externalStore pa b).pc = s.pc := by unfold State.externalStore; split <;> rfl
@[simp] theorem State.externalStore_fpr (s : State) (pa : Nat) (b : Byte) : (s.externalStore pa b).fpr = s.fpr := by unfold State.externalStore; split <;> rfl
@[simp] theorem State.externalStore_fcc0 (s : State) (pa : Nat) (b : Byte) : (s.externalStore pa b).fcc0 = s.fcc0 := by unfold State.externalStore; split <;> rfl
@[simp] theorem State.externalStore_fcsr0 (s : State) (pa : Nat) (b : Byte) : (s.externalStore pa b).fcsr0 = s.fcsr0 := by unfold State.externalStore; split <;> rfl
@[simp] theorem State.externalStore_csr (s : State) (pa : Nat) (b : Byte) : (s.externalStore pa b).csr = s.csr := by unfold State.externalStore; split <;> rfl
@[simp] theorem State.externalStore_llAddr (s : State) (pa : Nat) (b : Byte) : (s.externalStore pa b).llAddr = s.llAddr := by unfold State.externalStore; split <;> rfl
@[simp] theorem State.externalStore_stableCounter (s : State) (pa : Nat) (b : Byte) : (s.externalStore pa b).stableCounter = s.stableCounter := by unfold State.externalStore; split <;> rfl
@[simp] theorem State.externalStore_timerVal (s : State) (pa : Nat) (b : Byte) : (s.externalStore pa b).timerVal = s.timerVal := by unfold State.externalStore; split <;> rfl
@[simp] theorem State.externalStore_timerRun (s : State) (pa : Nat) (b : Byte) : (s.externalStore pa b).timerRun = s.timerRun := by unfold State.externalStore; split <;> rfl
@[simp] theorem State.externalStore_tiFlag (s : State) (pa : Nat) (b : Byte) : (s.externalStore pa b).tiFlag = s.tiFlag := by unfold State.externalStore; split <;> rfl
@[simp] theorem State.externalStore_tlb (s : State) (pa : Nat) (b : Byte) : (s.externalStore pa b).tlb = s.tlb := by unfold State.externalStore; split <;> rfl
@[simp] theorem State.externalStore_hwi (s : State) (pa : Nat) (b : Byte) : (s.externalStore pa b).hwi = s.hwi := by unfold State.externalStore; split <;> rfl
@[simp] theorem State.externalStore_ipi (s : State) (pa : Nat) (b : Byte) : (s.externalStore pa b).ipi = s.ipi := by unfold State.externalStore; split <;> rfl
@[simp] theorem State.externalStore_waiting (s : State) (pa : Nat) (b : Byte) : (s.externalStore pa b).waiting = s.waiting := by unfold State.externalStore; split <;> rfl
@[simp] theorem State.externalStore_draws (s : State) (pa : Nat) (b : Byte) : (s.externalStore pa b).draws = s.draws := by unfold State.externalStore; split <;> rfl
@[simp] theorem State.externalStore_agenda (s : State) (pa : Nat) (b : Byte) : (s.externalStore pa b).agenda = s.agenda := by unfold State.externalStore; split <;> rfl

@[simp] theorem State.scStore_cfg (rd : RegNum) (pa : Nat) (s : State) : (scStore rd pa s).cfg = s.cfg := by unfold scStore; split <;> simp
@[simp] theorem State.scStore_pc (rd : RegNum) (pa : Nat) (s : State) : (scStore rd pa s).pc = s.pc := by unfold scStore; split <;> simp
@[simp] theorem State.scStore_fpr (rd : RegNum) (pa : Nat) (s : State) : (scStore rd pa s).fpr = s.fpr := by unfold scStore; split <;> simp
@[simp] theorem State.scStore_fcc0 (rd : RegNum) (pa : Nat) (s : State) : (scStore rd pa s).fcc0 = s.fcc0 := by unfold scStore; split <;> simp
@[simp] theorem State.scStore_fcsr0 (rd : RegNum) (pa : Nat) (s : State) : (scStore rd pa s).fcsr0 = s.fcsr0 := by unfold scStore; split <;> simp
@[simp] theorem State.scStore_csr (rd : RegNum) (pa : Nat) (s : State) : (scStore rd pa s).csr = s.csr := by unfold scStore; split <;> simp
@[simp] theorem State.scStore_llAddr (rd : RegNum) (pa : Nat) (s : State) : (scStore rd pa s).llAddr = s.llAddr := by unfold scStore; split <;> simp
@[simp] theorem State.scStore_stableCounter (rd : RegNum) (pa : Nat) (s : State) : (scStore rd pa s).stableCounter = s.stableCounter := by unfold scStore; split <;> simp
@[simp] theorem State.scStore_timerVal (rd : RegNum) (pa : Nat) (s : State) : (scStore rd pa s).timerVal = s.timerVal := by unfold scStore; split <;> simp
@[simp] theorem State.scStore_timerRun (rd : RegNum) (pa : Nat) (s : State) : (scStore rd pa s).timerRun = s.timerRun := by unfold scStore; split <;> simp
@[simp] theorem State.scStore_tiFlag (rd : RegNum) (pa : Nat) (s : State) : (scStore rd pa s).tiFlag = s.tiFlag := by unfold scStore; split <;> simp
@[simp] theorem State.scStore_tlb (rd : RegNum) (pa : Nat) (s : State) : (scStore rd pa s).tlb = s.tlb := by unfold scStore; split <;> simp
@[simp] theorem State.scStore_hwi (rd : RegNum) (pa : Nat) (s : State) : (scStore rd pa s).hwi = s.hwi := by unfold scStore; split <;> simp
@[simp] theorem State.scStore_ipi (rd : RegNum) (pa : Nat) (s : State) : (scStore rd pa s).ipi = s.ipi := by unfold scStore; split <;> simp
@[simp] theorem State.scStore_waiting (rd : RegNum) (pa : Nat) (s : State) : (scStore rd pa s).waiting = s.waiting := by unfold scStore; split <;> simp
@[simp] theorem State.scStore_draws (rd : RegNum) (pa : Nat) (s : State) : (scStore rd pa s).draws = s.draws := by unfold scStore; split <;> simp
@[simp] theorem State.scStore_agenda (rd : RegNum) (pa : Nat) (s : State) : (scStore rd pa s).agenda = s.agenda := by unfold scStore; split <;> simp

@[simp] theorem State.scStoreUndefined_cfg (rd : RegNum) (pa : Nat) (s : State) : (scStoreUndefined rd pa s).cfg = s.cfg := by simp [scStoreUndefined]
@[simp] theorem State.scStoreUndefined_pc (rd : RegNum) (pa : Nat) (s : State) : (scStoreUndefined rd pa s).pc = s.pc := by simp [scStoreUndefined]
@[simp] theorem State.scStoreUndefined_fpr (rd : RegNum) (pa : Nat) (s : State) : (scStoreUndefined rd pa s).fpr = s.fpr := by simp [scStoreUndefined]
@[simp] theorem State.scStoreUndefined_fcc0 (rd : RegNum) (pa : Nat) (s : State) : (scStoreUndefined rd pa s).fcc0 = s.fcc0 := by simp [scStoreUndefined]
@[simp] theorem State.scStoreUndefined_fcsr0 (rd : RegNum) (pa : Nat) (s : State) : (scStoreUndefined rd pa s).fcsr0 = s.fcsr0 := by simp [scStoreUndefined]
@[simp] theorem State.scStoreUndefined_csr (rd : RegNum) (pa : Nat) (s : State) : (scStoreUndefined rd pa s).csr = s.csr := by simp [scStoreUndefined]
@[simp] theorem State.scStoreUndefined_llAddr (rd : RegNum) (pa : Nat) (s : State) : (scStoreUndefined rd pa s).llAddr = s.llAddr := by simp [scStoreUndefined]
@[simp] theorem State.scStoreUndefined_stableCounter (rd : RegNum) (pa : Nat) (s : State) : (scStoreUndefined rd pa s).stableCounter = s.stableCounter := by simp [scStoreUndefined]
@[simp] theorem State.scStoreUndefined_timerVal (rd : RegNum) (pa : Nat) (s : State) : (scStoreUndefined rd pa s).timerVal = s.timerVal := by simp [scStoreUndefined]
@[simp] theorem State.scStoreUndefined_timerRun (rd : RegNum) (pa : Nat) (s : State) : (scStoreUndefined rd pa s).timerRun = s.timerRun := by simp [scStoreUndefined]
@[simp] theorem State.scStoreUndefined_tiFlag (rd : RegNum) (pa : Nat) (s : State) : (scStoreUndefined rd pa s).tiFlag = s.tiFlag := by simp [scStoreUndefined]
@[simp] theorem State.scStoreUndefined_tlb (rd : RegNum) (pa : Nat) (s : State) : (scStoreUndefined rd pa s).tlb = s.tlb := by simp [scStoreUndefined]
@[simp] theorem State.scStoreUndefined_hwi (rd : RegNum) (pa : Nat) (s : State) : (scStoreUndefined rd pa s).hwi = s.hwi := by simp [scStoreUndefined]
@[simp] theorem State.scStoreUndefined_ipi (rd : RegNum) (pa : Nat) (s : State) : (scStoreUndefined rd pa s).ipi = s.ipi := by simp [scStoreUndefined]
@[simp] theorem State.scStoreUndefined_waiting (rd : RegNum) (pa : Nat) (s : State) : (scStoreUndefined rd pa s).waiting = s.waiting := by simp [scStoreUndefined]
@[simp] theorem State.scStoreUndefined_draws (rd : RegNum) (pa : Nat) (s : State) : (scStoreUndefined rd pa s).draws = s.draws := by simp [scStoreUndefined]
@[simp] theorem State.scStoreUndefined_agenda (rd : RegNum) (pa : Nat) (s : State) : (scStoreUndefined rd pa s).agenda = s.agenda := by simp [scStoreUndefined]

@[simp] theorem State.resetCore_cfg (s : State) : s.resetCore.cfg = s.cfg := by rw [State.resetCore]
@[simp] theorem State.resetCore_hwi (s : State) : s.resetCore.hwi = s.hwi := by rw [State.resetCore]
@[simp] theorem State.resetCore_ipi (s : State) : s.resetCore.ipi = s.ipi := by rw [State.resetCore]
@[simp] theorem State.resetCore_mem (s : State) : s.resetCore.mem = s.mem := by rw [State.resetCore]
@[simp] theorem State.resetCore_stale (s : State) : s.resetCore.stale = s.stale := by rw [State.resetCore]
@[simp] theorem State.resetCore_agenda (s : State) : s.resetCore.agenda = s.agenda := by rw [State.resetCore]
@[simp] theorem TlbEntry.afterReset_e (c : Config) (e : TlbEntry) : (e.afterReset c).e = (!c.tlbClearedByReset && e.e) := by
  unfold TlbEntry.afterReset; cases c.tlbClearedByReset <;> rfl
@[simp] theorem TlbEntry.afterReset_asid (c : Config) (e : TlbEntry) : (e.afterReset c).asid = e.asid := by
  unfold TlbEntry.afterReset; split <;> rfl
@[simp] theorem TlbEntry.afterReset_g (c : Config) (e : TlbEntry) : (e.afterReset c).g = e.g := by
  unfold TlbEntry.afterReset; split <;> rfl
@[simp] theorem TlbEntry.afterReset_ps (c : Config) (e : TlbEntry) : (e.afterReset c).ps = e.ps := by
  unfold TlbEntry.afterReset; split <;> rfl
@[simp] theorem TlbEntry.afterReset_vppn (c : Config) (e : TlbEntry) : (e.afterReset c).vppn = e.vppn := by
  unfold TlbEntry.afterReset; split <;> rfl
@[simp] theorem TlbEntry.afterReset_page0 (c : Config) (e : TlbEntry) : (e.afterReset c).page0 = e.page0 := by
  unfold TlbEntry.afterReset; split <;> rfl
@[simp] theorem TlbEntry.afterReset_page1 (c : Config) (e : TlbEntry) : (e.afterReset c).page1 = e.page1 := by
  unfold TlbEntry.afterReset; split <;> rfl

/-! ## Registers -/

@[simp] theorem State.readGpr_zero (s : State) : s.readGpr 0 = 0 := rfl

theorem State.readGpr_writeGpr_self (s : State) (r : RegNum) (v : Word) :
    (s.writeGpr r v).readGpr r = if r = 0 then 0 else v := by
  by_cases h : r = 0
  · simp only [State.readGpr, if_pos h]
  · simp only [State.readGpr, State.writeGpr, if_neg h, Vector.getElem_set_self]

theorem State.readGpr_writeGpr_of_ne (s : State) {r k : RegNum} (v : Word) (h : k ≠ r) :
    (s.writeGpr r v).readGpr k = s.readGpr k := by
  have h' : r.toNat ≠ k.toNat := fun e => h (BitVec.eq_of_toNat_eq e.symm)
  by_cases h0 : r = 0
  · simp only [State.writeGpr, if_pos h0]
  · simp only [State.readGpr, State.writeGpr, if_neg h0, Vector.getElem_set_ne r.isLt k.isLt h']

theorem State.readFpr_writeFpr_self (s : State) (r : RegNum) (v : FReg) : (s.writeFpr r v).readFpr r = v := by
  simp [State.readFpr]

theorem State.readFpr_writeFpr_of_ne (s : State) {r k : RegNum} (v : FReg) (h : k ≠ r) :
    (s.writeFpr r v).readFpr k = s.readFpr k := by
  have h' : r.toNat ≠ k.toNat := fun e => h (BitVec.eq_of_toNat_eq e.symm)
  simp only [State.readFpr, State.writeFpr_fpr]
  exact Vector.getElem_set_ne r.isLt k.isLt h'

theorem State.readFprW_writeFprW_self (s : State) (r : RegNum) (v : Word) : (s.writeFprW r v).readFprW r = v := by
  simp [State.readFprW, State.writeFprW, State.readFpr_writeFpr_self]

theorem State.readFprD_writeFprD_self (s : State) (r : RegNum) (v : DWord) : (s.writeFprD r v).readFprD r = v := by
  simp only [State.readFprD, State.writeFprD, State.readFpr_writeFpr_self]
  apply BitVec.eq_of_getLsbD_eq
  intro i hi
  simp only [BitVec.getLsbD_append, BitVec.getLsbD_extractLsb']
  split
  · simp [*]
  · simp only [show i - 32 < 32 by omega, show 32 + (i - 32) = i by omega, decide_true, Bool.true_and]

theorem State.readFpr_writeFprW_of_ne (s : State) {r k : RegNum} (v : Word) (h : k ≠ r) :
    (s.writeFprW r v).readFpr k = s.readFpr k := s.readFpr_writeFpr_of_ne _ h

theorem State.readFpr_writeFprD_of_ne (s : State) {r k : RegNum} (v : DWord) (h : k ≠ r) :
    (s.writeFprD r v).readFpr k = s.readFpr k := s.readFpr_writeFpr_of_ne _ h

/-- A register read depends on the register file only. -/
theorem State.readGpr_congr {s t : State} (h : t.gpr = s.gpr) (r : RegNum) : t.readGpr r = s.readGpr r := by
  simp only [State.readGpr, h]

theorem State.readFpr_congr {s t : State} (h : t.fpr = s.fpr) (r : RegNum) : t.readFpr r = s.readFpr r := by
  simp only [State.readFpr, h]

/-- A CSR other than the one set keeps its word. -/
theorem Csrs.get_set_of_ne (r : Csrs) {k j : CsrName} (v : Word) (h : j ≠ k) : (r.set k v).get j = r.get j := by
  cases k <;> cases j <;> first | rfl | exact absurd rfl h

end Sys2Proof.Machine
end

