-- ==== Sys2Proof/Laws/Ops.lean ====
section
/-! SUPPORT. For each shared operation, once, everything it can do: what it needs to answer a value, and what holds of the next
state it answers. The proofs about instructions cite these and do not unfold the operations. -/

namespace Sys2Proof.Machine

/-! ## Parts of an instruction -/

theorem Res.bind_ok {α β : Type} {r : Res α} {k : α → Res β} {b : β} :
    r.bind k = .ok b ↔ ∃ a, r = .ok a ∧ k a = .ok b := by
  cases r <;> simp [Res.bind]

theorem Res.bind_trap {α β : Type} {r : Res α} {k : α → Res β} {e : Exc} :
    r.bind k = .trap e ↔ r = .trap e ∨ ∃ a, r = .ok a ∧ k a = .trap e := by
  cases r <;> simp [Res.bind]

/-- An instruction goes on with the value of a part of it, or takes the exception the part raises in the state before it. -/
theorem Res.run_next {α : Type} {r : Res α} {s t : State} {k : α → Result} :
    r.run s k = .next t ↔ (∃ a, r = .ok a ∧ k a = .next t) ∨ ∃ e, r = .trap e ∧ t = enterException e s := by
  cases r <;> simp [Res.run, eq_comm]

@[simp] theorem Res.run_ok {α : Type} (a : α) (s : State) (k : α → Result) : (Res.ok a).run s k = k a := rfl

@[simp] theorem Res.run_trap {α : Type} (e : Exc) (s : State) (k : α → Result) :
    (Res.trap e : Res α).run s k = .next (enterException e s) := rfl

/-- A privileged instruction has its effect at PLV0 and takes IPE elsewhere (R533). -/
theorem privileged_next {s t : State} {k : Result} :
    privileged s k = .next t ↔ (s.plv = 0 ∧ k = .next t) ∨ (s.plv ≠ 0 ∧ t = enterException .ipe s) := by
  unfold privileged raise
  split <;> simp_all [eq_comm]

theorem privileged_zero {s : State} {k : Result} (h : s.plv = 0) : privileged s k = k := if_pos h

theorem privileged_user {s : State} {k : Result} (h : s.plv ≠ 0) : privileged s k = .next (enterException .ipe s) := if_neg h

theorem fpInstr_ready {n : FpNeed} {s : State} {k : Result} (h : FpReady n s) : fpInstr n s k = k := by
  simp [fpInstr, h.1, h.2]

/-- A floating-point instruction has its effect when present and enabled, and takes INE or FPD else (R411). -/
theorem fpInstr_next {n : FpNeed} {s t : State} {k : Result} :
    fpInstr n s k = .next t ↔ (FpReady n s ∧ k = .next t) ∨
      (n.present s.cfg.fpLevel = false ∧ t = enterException .ine s) ∨
      (n.present s.cfg.fpLevel = true ∧ s.fpe = false ∧ t = enterException .fpd s) := by
  unfold fpInstr raise FpReady
  cases n.present s.cfg.fpLevel <;> cases s.fpe <;> simp [eq_comm]

theorem withFlagField_next {c : BitVec 3} {t : State} {k : Result} :
    withFlagField c k = .next t ↔ c = 0 ∧ k = .next t := by
  unfold withFlagField
  split <;> simp_all

@[simp] theorem withFlagField_zero (k : Result) : withFlagField 0 k = k := rfl

theorem withFlagField_ne {c : BitVec 3} {k : Result} (h : c ≠ 0) : withFlagField c k = .refused .noSuchConditionFlag := if_neg h

/-! ## Bits -/

/-- One bit of a word with some bits replaced. -/
theorem getLsbD_setBits (old mask v : Word) (i : Nat) :
    (setBits old mask v).getLsbD i = if mask.getLsbD i then v.getLsbD i else old.getLsbD i := by
  unfold setBits
  by_cases hi : i < 32
  · simp only [BitVec.getLsbD_or, BitVec.getLsbD_and, BitVec.getLsbD_not, hi, decide_true, Bool.true_and]
    cases mask.getLsbD i <;> simp
  · simp [BitVec.getLsbD_of_ge _ _ (show 32 ≤ i by omega)]

/-- What is 0 outside a mask stays so when bits inside the mask are replaced. -/
theorem setBits_held {old m h v : Word} (ho : old &&& ~~~h = 0) (hm : m &&& ~~~h = 0) : setBits old m v &&& ~~~h = 0 := by
  apply BitVec.eq_of_getLsbD_eq
  intro i hi
  have h1 := congrArg (fun x : Word => x.getLsbD i) ho
  have h2 := congrArg (fun x : Word => x.getLsbD i) hm
  simp only [BitVec.getLsbD_and, BitVec.getLsbD_not, hi, decide_true, Bool.true_and, getLsbD_setBits] at *
  cases hh : h.getLsbD i <;> cases hmi : m.getLsbD i <;> simp_all

/-! ## Reading bytes -/

/-- A load of up to eight bytes is the number they spell, least significant first (R153). -/
theorem State.toNat_loadLE (s : State) (pa n : Nat) (h : n ≤ 8) : (s.mem.loadLE pa n).toNat = s.natAt pa n := by
  have key : ∀ n, n ≤ 8 → ∀ pa, (s.mem.loadLE pa n).toNat = s.natAt pa n ∧ s.natAt pa n < 256 ^ n := by
    intro n
    induction n with
    | zero => intro _ pa; simp [Memory.loadLE, State.natAt]
    | succ n ih =>
      intro hn pa
      obtain ⟨h1, h2⟩ := ih (by omega) (pa + 1)
      have hb := (s.mem.read pa).isLt
      have h3 : 256 ^ n ≤ 256 ^ 7 := Nat.pow_le_pow_right (by omega) (by omega)
      have h4 : (s.mem.loadLE (pa + 1) n <<< 8).toNat = 256 * s.natAt (pa + 1) n := by
        rw [BitVec.toNat_shiftLeft, h1, Nat.shiftLeft_eq, Nat.mod_eq_of_lt (by omega)]; omega
      have h5 : ((s.mem.read pa).setWidth 64).toNat = (s.mem.read pa).toNat := by
        rw [BitVec.toNat_setWidth, Nat.mod_eq_of_lt (by omega)]
      have h6 : (s.mem.loadLE pa (n + 1)).toNat = s.natAt pa (n + 1) := by
        rw [Memory.loadLE, BitVec.toNat_or, h4, h5, State.natAt, Nat.or_comm,
          show 256 * s.natAt (pa + 1) n = s.natAt (pa + 1) n <<< 8 by rw [Nat.shiftLeft_eq]; omega,
          ← Nat.shiftLeft_add_eq_or_of_lt hb, Nat.add_comm]
        rfl
      refine ⟨h6, ?_⟩
      rw [State.natAt, State.byteAt, Nat.pow_succ]
      omega
  exact (key n h pa).1

theorem State.natAt_congr {s t : State} (h : t.mem = s.mem) (pa n : Nat) : t.natAt pa n = s.natAt pa n := by
  induction n generalizing pa with
  | zero => rfl
  | succ n ih => rw [State.natAt, State.natAt, ih, State.byteAt, State.byteAt, h]

theorem State.natAt_lt (s : State) (pa n : Nat) : s.natAt pa n < 256 ^ n := by
  induction n generalizing pa with
  | zero => simp [State.natAt]
  | succ n ih =>
    have := ih (pa + 1)
    have hb := (s.byteAt pa).isLt
    rw [State.natAt, Nat.pow_succ]
    omega

/-- A store leaves the low bytes of the value, the least significant first, and every other byte as it was (R153). -/
theorem storedBytes_storeLE {s t : State} (hs : s.mem.wf = true) (pa n : Nat) (v : DWord)
    (ht : t.mem = s.mem.storeLE pa n v) : StoredBytes s t pa n v.toNat := by
  refine ⟨fun j hj => ?_, fun a ha => ?_⟩
  · rw [State.byteAt, ht, Memory.read_storeLE hs pa n v j hj, BitVec.extractLsb'_toNat, Nat.shiftRight_eq_div_pow,
      show (256 : Nat) ^ j = 2 ^ (8 * j) by rw [Nat.pow_mul]]
  · rw [State.byteAt, ht, Memory.read_storeLE_of_out hs _ _ _ _ ha]; rfl

/-! ## Checked accesses -/

theorem behind_contains {cfg : Config} {pa n : Nat} {o : Option RegionKind} :
    (behind cfg pa n).contains o = true ↔ ∃ j, j < n ∧ cfg.regionAt (pa + j) = o := by
  simp [behind]

/-- The platform's checks pass exactly when the type is defined and there is memory behind every byte. -/
theorem checkAccess_ok {cfg : Config} {t : Translated} {n : Nat} {u : Unit} :
    checkAccess cfg t n = .ok u ↔ t.mat.toNat < 2 ∧ ∀ j, j < n → cfg.regionAt (t.pa + j) = some .ram := by
  unfold checkAccess
  split
  · simp; omega
  split
  · rename_i h2
    obtain ⟨j, hj, hr⟩ := behind_contains.1 h2
    simp only [reduceCtorEq, false_iff, not_and, not_forall]
    exact fun _ => ⟨j, hj, by simp [hr]⟩
  split
  · rename_i h2
    obtain ⟨j, hj, hr⟩ := behind_contains.1 h2
    simp only [reduceCtorEq, false_iff, not_and, not_forall]
    exact fun _ => ⟨j, hj, by simp [hr]⟩
  · rename_i h1 h2 h3
    simp only [true_iff]
    refine ⟨by omega, fun j hj => ?_⟩
    cases hr : cfg.regionAt (t.pa + j) with
    | none => exact absurd (behind_contains.2 ⟨j, hj, hr⟩) h2
    | some k =>
      cases k with
      | ram => rfl
      | device => exact absurd (behind_contains.2 ⟨j, hj, hr⟩) h3

theorem checkAccess_ne_trap (cfg : Config) (t : Translated) (n : Nat) (e : Exc) : checkAccess cfg t n ≠ .trap e := by
  unfold checkAccess
  split
  · simp
  split
  · simp
  split <;> simp

theorem aligned_iff {va : Word} {n : Nat} : aligned va n = true ↔ va.toNat % n = 0 := by simp [aligned]

/-- An access gives an address exactly when it is AccessOk. -/
theorem accessAddr_ok {s : State} {va : Word} {n : Nat} {k : Access} {t : Translated} :
    accessAddr s va n k = .ok t ↔ AccessOk s va n k t := by
  unfold accessAddr AccessOk
  split
  · rename_i h
    simp only [Res.bind_ok, checkAccess_ok, aligned_iff.1 h, true_and]
    constructor
    · rintro ⟨t', h1, _, h2, h3⟩
      cases h3; exact ⟨h1, h2⟩
    · rintro ⟨h1, h2⟩
      exact ⟨t, h1, (), h2, rfl⟩
  · rename_i h
    simp only [reduceCtorEq, false_iff, not_and]
    exact fun h' => absurd (aligned_iff.2 h') h

/-- An access raises ALE with its address when it is misaligned, and else what its translation raises (R160, R630). -/
theorem accessAddr_trap {s : State} {va : Word} {n : Nat} {k : Access} {e : Exc} :
    accessAddr s va n k = .trap e ↔
      (va.toNat % n ≠ 0 ∧ e = .ale va) ∨ (va.toNat % n = 0 ∧ translate s va k = .trap e) := by
  unfold accessAddr
  split
  · rename_i h
    simp only [Res.bind_trap, aligned_iff.1 h, ne_eq, not_true_eq_false, false_and, false_or, true_and]
    constructor
    · rintro (h | ⟨t, _, h | ⟨_, _, h⟩⟩)
      · exact h
      · exact absurd h (checkAccess_ne_trap _ _ _ _)
      · cases h
    · exact .inl
  · rename_i h
    have h' : va.toNat % n ≠ 0 := fun h' => h (aligned_iff.2 h')
    simp [h', eq_comm]

theorem memRead_ok {s : State} {va : Word} {n : Nat} {v : DWord} :
    memRead s va n = .ok v ↔ ∃ t, AccessOk s va n .load t ∧ v = s.mem.loadLE t.pa n := by
  simp only [memRead, Res.bind_ok, accessAddr_ok, Res.ok.injEq, @eq_comm _ v]

theorem memRead_trap {s : State} {va : Word} {n : Nat} {e : Exc} :
    memRead s va n = .trap e ↔ accessAddr s va n .load = .trap e := by
  simp [memRead, Res.bind_trap]

theorem memWrite_ok {s u : State} {va : Word} {n : Nat} {v : DWord} :
    memWrite s va n v = .ok u ↔ ∃ t, AccessOk s va n .store t ∧ u = s.storeMem t.pa n v := by
  simp only [memWrite, Res.bind_ok, accessAddr_ok, Res.ok.injEq, @eq_comm _ u]

theorem memWrite_trap {s : State} {va : Word} {n : Nat} {v : DWord} {e : Exc} :
    memWrite s va n v = .trap e ↔ accessAddr s va n .store = .trap e := by
  simp [memWrite, Res.bind_trap]

/-- SC.W's checks: an aligned address that translates as a store and, but for a coherent cached type with LLbit 0, may be accessed
(R381). -/
theorem scTarget_ok {s : State} {va : Word} {t : Translated} :
    scTarget s va = .ok t ↔
      (va.toNat % 4 = 0 ∧ translate s va .store = .ok t ∧ t.mat = 1 ∧ s.llbit = false) ∨
        (AccessOk s va 4 .store t ∧ ¬ (t.mat = 1 ∧ s.llbit = false)) := by
  unfold scTarget AccessOk
  split
  · rename_i h
    simp only [Res.bind_ok, aligned_iff.1 h, true_and]
    constructor
    · rintro ⟨t', h1, h2⟩
      split at h2
      · rename_i hm; cases h2; exact .inl ⟨h1, hm⟩
      · rename_i hm
        obtain ⟨_, h3, h4⟩ := Res.bind_ok.1 h2
        cases h4; exact .inr ⟨⟨h1, checkAccess_ok.1 h3⟩, hm⟩
    · rintro (⟨h1, hm⟩ | ⟨⟨h1, h2⟩, hm⟩)
      · exact ⟨t, h1, if_pos hm⟩
      · exact ⟨t, h1, by rw [if_neg hm]; exact Res.bind_ok.2 ⟨(), checkAccess_ok.2 h2, rfl⟩⟩
  · rename_i h
    have h' : va.toNat % 4 ≠ 0 := fun h' => h (aligned_iff.2 h')
    simp [h']

/-- SC.W's checks raise ALE when the address is misaligned, and else what its translation as a store raises, whatever LLbit is. -/
theorem scTarget_trap {s : State} {va : Word} {e : Exc} : scTarget s va = .trap e ↔ accessAddr s va 4 .store = .trap e := by
  rw [accessAddr_trap]
  unfold scTarget
  split
  · rename_i h
    simp only [Res.bind_trap, aligned_iff.1 h, ne_eq, not_true_eq_false, false_and, false_or, true_and]
    refine ⟨?_, .inl⟩
    rintro (h | ⟨t, _, h⟩)
    · exact h
    · split at h
      · cases h
      · rcases Res.bind_trap.1 h with h | ⟨_, _, h⟩
        · exact absurd h (checkAccess_ne_trap _ _ _ _)
        · cases h
  · rename_i h
    have h' : va.toNat % 4 ≠ 0 := fun h' => h (aligned_iff.2 h')
    simp [h', eq_comm]

/-! ## What a fetch sees -/

/-- A fetch may be made exactly where the pc is AccessOk (R211). -/
theorem fetchAddr_ok {s : State} {t : Translated} : fetchAddr s = .ok t ↔ AccessOk s s.pc 4 .fetch t := by
  unfold fetchAddr AccessOk
  split
  · rename_i h
    simp only [Res.bind_ok, checkAccess_ok, aligned_iff.1 h, true_and]
    constructor
    · rintro ⟨t', h1, _, h2, h3⟩; cases h3; exact ⟨h1, h2⟩
    · rintro ⟨h1, h2⟩; exact ⟨t, h1, (), h2, rfl⟩
  · rename_i h
    simp only [reduceCtorEq, false_iff, not_and]
    exact fun h' => absurd (aligned_iff.2 h') h

/-- A fetch raises ADEF when the pc is misaligned, and else what its translation raises (R211). -/
theorem fetchAddr_trap {s : State} {e : Exc} :
    fetchAddr s = .trap e ↔
      (s.pc.toNat % 4 ≠ 0 ∧ e = .adef s.pc) ∨ (s.pc.toNat % 4 = 0 ∧ translate s s.pc .fetch = .trap e) := by
  unfold fetchAddr
  split
  · rename_i h
    simp only [Res.bind_trap, aligned_iff.1 h, ne_eq, not_true_eq_false, false_and, false_or, true_and]
    refine ⟨?_, .inl⟩
    rintro (h | ⟨t, _, h | ⟨_, _, h⟩⟩)
    · exact h
    · exact absurd h (checkAccess_ne_trap _ _ _ _)
    · cases h
  · rename_i h
    have h' : s.pc.toNat % 4 ≠ 0 := fun h' => h (aligned_iff.2 h')
    simp [h', eq_comm]

/-- The aligned word as a number. -/
theorem State.toNat_word (s : State) (pa : Nat) : (s.mem.word pa).toNat = s.natAt pa 4 := by
  rw [Memory.word, BitVec.extractLsb'_toNat, State.toNat_loadLE s pa 4 (by omega), Nat.shiftRight_zero,
    Nat.mod_eq_of_lt (show _ < 2 ^ 32 from s.natAt_lt pa 4)]

/-- A fetched word is the one in memory or an old one (R201, U12). -/
theorem State.fetchWord_cases (s : State) (pa : Nat) : (s.fetchWord pa).toNat = s.natAt pa 4 ∨ s.fetchWord pa ∈ s.oldWords pa := by
  unfold State.fetchWord
  generalize (s.free .fetched).toNat % ((s.oldWords pa).length + 1) = k
  by_cases h : k < (s.oldWords pa).length
  · exact .inr (by simp [List.getD, h])
  · exact .inl (by simp [List.getD, Nat.le_of_not_lt h, State.toNat_word])

/-- A fetch of a word with no old value sees memory. -/
theorem State.fetchWord_fresh {s : State} {pa : Nat} (h : s.fresh pa) : s.fetchWord pa = BitVec.ofNat 32 (s.natAt pa 4) := by
  rw [State.fetchWord, h, List.getD_nil, ← s.toNat_word pa, BitVec.ofNat_toNat, BitVec.setWidth_eq]

/-- Such a fetch uses no draw. -/
theorem State.fetched_fresh {s : State} {pa : Nat} (h : s.fresh pa) : s.fetched pa = s := by
  rw [State.fetched, h]; rfl

/-- What a fetch may still see of a word depends on `stale` only. -/
theorem State.oldWords_congr {s t : State} (h : t.stale = s.stale) (a : Nat) : t.oldWords a = s.oldWords a := by
  simp only [State.oldWords, h]

/-- The old values after one more is recorded. -/
theorem oldWordsIn_recordOld (stale : List StaleWord) (pa : Nat) (old : Word) (a : Nat) :
    oldWordsIn (recordOld stale pa old) a = if a = pa then (oldWordsIn stale pa).insert old else oldWordsIn stale a := by
  unfold recordOld
  by_cases h : a = pa
  · subst h; simp [oldWordsIn]
  · have h' : (pa == a) = false := by simp [Ne.symm h]
    rw [if_neg h, oldWordsIn, List.find?_cons_of_neg (by simp [h']), List.find?_filter, oldWordsIn]
    congr 3
    funext b
    by_cases hb : b.pa = a
    · simp [hb, h]
    · simp [hb]

/-- A store records the words it lies in, each beside what could be fetched of it before. -/
theorem recordsOld_storeMem (s : State) (pa n : Nat) (v : DWord) : RecordsOld s (s.storeMem pa n v) pa n := by
  have out : ∀ k (l : List StaleWord) b a, (∀ j, j < k → a ≠ b + 4 * j) →
      oldWordsIn (recordOlds s.mem l b k) a = oldWordsIn l a := by
    intro k
    induction k with
    | zero => intro l b a _; rfl
    | succ k ih =>
      intro l b a h
      rw [recordOlds, ih _ _ _ fun j hj => by have := h (j + 1) (by omega); omega, oldWordsIn_recordOld,
        if_neg (by have := h 0 (by omega); omega)]
  have key : ∀ k (l : List StaleWord) b j, j < k → ∀ w, w ∈ oldWordsIn (recordOlds s.mem l b k) (b + 4 * j) ↔
      w.toNat = s.natAt (b + 4 * j) 4 ∨ w ∈ oldWordsIn l (b + 4 * j) := by
    intro k
    induction k with
    | zero => intro l b j hj; omega
    | succ k ih =>
      intro l b j hj w
      cases j with
      | zero =>
        rw [recordOlds, out _ _ _ _ fun j hj => by omega, oldWordsIn_recordOld, if_pos (by omega), List.mem_insert_iff,
          ← s.toNat_word, ← BitVec.toNat_inj]
        rfl
      | succ j =>
        have h := ih (recordOld l b (s.mem.word b)) (b + 4) j (by omega) w
        rw [oldWordsIn_recordOld, if_neg (by omega)] at h
        rw [recordOlds, show b + 4 * (j + 1) = b + 4 + 4 * j by omega]
        exact h
  exact ⟨fun j hj w => key _ _ _ j hj w, fun a ha => out _ _ _ _ ha⟩

/-- After another master's store every old value of the word is one it had with the new byte in it, and other words keep theirs
(R200). -/
theorem oldWords_snoop (s : State) (pa : Nat) (b : Byte) (a : Nat) :
    (s.snoop pa b).oldWords a = if a = pa / 4 * 4 then (s.oldWords a).map (replaceByte · (pa % 4) b) else s.oldWords a := by
  unfold State.oldWords State.snoop oldWordsIn
  dsimp only
  induction s.stale with
  | nil => simp
  | cons w l ih =>
    have hpa : (if w.pa = pa / 4 * 4 then { w with olds := w.olds.map (replaceByte · (pa % 4) b) } else w).pa = w.pa := by
      split <;> rfl
    by_cases hw : w.pa = a
    · subst hw
      rw [List.map_cons, List.find?_cons_of_pos (by rw [hpa]; simp), List.find?_cons_of_pos (by simp)]
      split <;> rfl
    · rw [List.map_cons, List.find?_cons_of_neg (by rw [hpa]; simp [hw]), List.find?_cons_of_neg (by simp [hw])]
      exact ih

/-! ## Translation -/

/-- What a translation can raise: TLBR, or the page exceptions, each with the address (R170). -/
theorem translate_trap {s : State} {va : Word} {k : Access} {e : Exc} (h : translate s va k = .trap e) :
    s.da = false ∧ s.pg = true ∧
      (e = .tlbr va ∨ e = .pif va ∨ e = .pil va ∨ e = .pis va ∨ e = .ppi va ∨ e = .pme va) := by
  unfold translate at h
  split at h
  · cases h
  · rename_i h1 h2
    refine ⟨h1, h2, ?_⟩
    split at h
    · cases h
    split at h
    · cases h
    rcases Res.bind_trap.1 h with h | ⟨hit, _, h⟩
    · unfold tlbLookup at h
      split at h
      · cases h
      · split at h <;> cases h
    · cases hit with
      | none => cases h; exact .inl rfl
      | some p =>
        obtain ⟨e', j⟩ := p
        simp only [pageTranslate] at h
        split at h
        · cases k <;> cases h <;> simp [Access.invalidPage]
        split at h
        · cases h; simp
        split at h <;> cases h
        simp
  · cases h

/-- Translation does not depend on anything but the translation registers, the TLB and the parameters. -/
theorem translate_congr {s t : State} (va : Word) (k : Access) (h1 : t.csr = s.csr) (h2 : t.tlb = s.tlb) (h3 : t.cfg = s.cfg) :
    translate t va k = translate s va k := by
  unfold translate tlbTranslate tlbLookup pageTranslate dmwHit dmwTranslate directTranslate State.da State.pg State.plv
    State.datf State.datm State.asidField
  rw [h1, h2, h3]

/-! ## What an instruction's end does -/

theorem writesGpr_retireGpr (s : State) (rd : RegNum) (v : Word) : WritesGpr s rd v (s.retireGpr rd v) := by
  refine ⟨(s.writeGpr rd v).advance, rfl, ⟨?_, fun r hr => ?_⟩, by simp, fun _ => by simp [State.byteAt], ?_⟩
  · exact State.readGpr_writeGpr_self s rd v
  · exact State.readGpr_writeGpr_of_ne s v hr
  · unfold State.advance State.writeGpr
    split <;> rfl

theorem movesTo_branch (s : State) (taken : Bool) (offset : Word) :
    MovesTo s (s.pc + if taken then offset else 4) (s.branch taken offset) := by
  cases taken
  · exact ⟨s.advance, rfl, rfl, fun _ => rfl, fun _ => rfl, rfl⟩
  · exact ⟨_, rfl, rfl, fun _ => rfl, fun _ => rfl, rfl⟩

theorem movesTo_retire (s : State) : MovesTo s (s.pc + 4) s.retire := ⟨s.advance, rfl, rfl, fun _ => rfl, fun _ => rfl, rfl⟩

/-- A division: by zero it leaves a free value in x[rd] and uses a draw, else it writes the operation's value. -/
theorem divide_next {rd rj rk : RegNum} {op : Word → Word → Word} {s t : State} :
    divide rd rj rk op s = .next t ↔
      (s.readGpr rk = 0 ∧ t = (s.writeGpr rd (s.freeWord .quotient)).drawn.advance) ∨
      (s.readGpr rk ≠ 0 ∧ t = (s.writeGpr rd (op (s.readGpr rj) (s.readGpr rk))).advance) := by
  unfold divide
  split <;> simp_all [State.retire, State.retireGpr, eq_comm]

/-- A load into a general register completes with the bytes at its address, or takes the access's exception. -/
theorem loadGpr_next {rd rj : RegNum} {si12 : BitVec 12} {n : Nat} {ext : DWord → Word} {s t : State} :
    loadGpr rd rj si12 n ext s = .next t ↔
      (∃ tr, AccessOk s (s.addr12 rj si12) n .load tr ∧ t = (s.writeGpr rd (ext (s.mem.loadLE tr.pa n))).advance) ∨
      ∃ e, accessAddr s (s.addr12 rj si12) n .load = .trap e ∧ t = enterException e s := by
  unfold loadGpr
  simp only [Res.run_next, memRead_ok, memRead_trap, State.retireGpr, State.retire, Host.Outcome.next.injEq]
  constructor
  · rintro (⟨v, ⟨tr, h, rfl⟩, rfl⟩ | h)
    · exact .inl ⟨tr, h, rfl⟩
    · exact .inr h
  · rintro (⟨tr, h, rfl⟩ | h)
    · exact .inl ⟨_, ⟨tr, h, rfl⟩, rfl⟩
    · exact .inr h

/-- A store completes with its bytes at its address, or takes the access's exception. -/
theorem storeBytes_next {rj : RegNum} {si12 : BitVec 12} {n : Nat} {v : DWord} {s t : State} :
    storeBytes rj si12 n v s = .next t ↔
      (∃ tr, AccessOk s (s.addr12 rj si12) n .store tr ∧ t = (s.storeMem tr.pa n v).advance) ∨
      ∃ e, accessAddr s (s.addr12 rj si12) n .store = .trap e ∧ t = enterException e s := by
  unfold storeBytes
  simp only [Res.run_next, memWrite_ok, memWrite_trap, State.retire, Host.Outcome.next.injEq]
  constructor
  · rintro (⟨v, ⟨tr, h, rfl⟩, rfl⟩ | h)
    · exact .inl ⟨tr, h, rfl⟩
    · exact .inr h
  · rintro (⟨tr, h, rfl⟩ | h)
    · exact .inl ⟨_, ⟨tr, h, rfl⟩, rfl⟩
    · exact .inr h

/-- A store's completion in the words of the statements. -/
theorem stores_of_memWrite {s : State} {tr : Translated} {n : Nat} {v : DWord} (hs : s.mem.wf = true) :
    Stores s tr.pa n v.toNat (.next (s.storeMem tr.pa n v).advance) :=
  ⟨_, rfl, storedBytes_storeLE hs _ _ _ rfl, recordsOld_storeMem s tr.pa n v, rfl, fun _ => rfl, rfl⟩

/-! ## Floating-point exceptions -/

/-- The end of an arithmetic instruction: the trap, with nothing but fcsr0 and the draws changed before it, or the destination
written, fcsr0 updated and a draw used (R412). -/
theorem fpFinish_next {s t : State} {e : BitVec 5} {write : State → State} :
    fpFinish s e write = .next t ↔
      (¬ NoTrap s e ∧ ∃ set : BitVec 5, set = (e &&& ~~~s.enables &&& (s.free .trapFlags).extractLsb' 0 5) ∧
        t = enterException .fpe { s with fcsr0 := fcsrRaise s.fcsr0 e set }.drawn) ∨
      (NoTrap s e ∧ t = (write { s with fcsr0 := fcsrRaise s.fcsr0 e e }).drawn.advance) := by
  unfold fpFinish NoTrap raise State.retire
  split <;> simp_all [eq_comm]

/-- fcsr0 with Cause set and Flags accumulated, field by field. -/
theorem fcsrRaise_fields (c : Word) (e set : BitVec 5) :
    (fcsrRaise c e set).extractLsb' 24 5 = e ∧
      (fcsrRaise c e set).extractLsb' 16 5 = c.extractLsb' 16 5 ||| set ∧
      fcsrRaise c e set &&& 0xE0E0FFFF = c &&& 0xE0E0FFFF := by
  refine ⟨?_, ?_, ?_⟩ <;> apply BitVec.eq_of_getLsbD_eq <;> intro i hi <;> interval_cases i <;>
    simp [fcsrRaise, setBits]

theorem fcsrAfter_raise {s t : State} {e : BitVec 5} (h : t.fcsr0 = fcsrRaise s.fcsr0 e e) : FcsrAfter s t e := by
  unfold FcsrAfter
  rw [h]
  exact fcsrRaise_fields s.fcsr0 e e

/-- An arithmetic instruction with a single or word result that does not trap. -/
theorem fpWritesW_fpRetireW (s : State) (fd : RegNum) (v : FpResult) (h : NoTrap s v.flags) :
    FpWritesW s fd v (fpRetireW s fd v) :=
  ⟨_, fpFinish_next.2 (.inr ⟨h, rfl⟩), State.readFprW_writeFprW_self _ fd _,
    fun _ hk => State.readFpr_writeFprW_of_ne _ _ hk, fcsrAfter_raise rfl, rfl, fun _ => rfl, rfl⟩

/-- An arithmetic instruction with a double result that does not trap. -/
theorem fpWritesD_fpRetireD (s : State) (fd : RegNum) (v : FpResult) (h : NoTrap s v.flags) :
    FpWritesD s fd v (fpRetireD s fd v) :=
  ⟨_, fpFinish_next.2 (.inr ⟨h, rfl⟩), State.readFprD_writeFprD_self _ fd _,
    fun _ hk => State.readFpr_writeFprD_of_ne _ _ hk, fcsrAfter_raise rfl, rfl, fun _ => rfl, rfl⟩

/-- A move of a single or word into a floating-point register. -/
theorem movesFprW_writeFprW (s : State) (fd : RegNum) (v : Word) : MovesFprW s fd v (s.writeFprW fd v).drawn.retire :=
  ⟨_, rfl, State.readFprW_writeFprW_self s fd v, fun _ hk => State.readFpr_writeFprW_of_ne s v hk, rfl, fun _ => rfl, rfl⟩

/-- A move of 64 bits into a floating-point register. -/
theorem movesFprD_writeFprD (s : State) (fd : RegNum) (v : DWord) : MovesFprD s fd v (s.writeFprD fd v).retire :=
  ⟨_, rfl, State.readFprD_writeFprD_self s fd v, fun _ hk => State.readFpr_writeFprD_of_ne s v hk, rfl, fun _ => rfl, rfl⟩

/-- The same, with the value as the two words of a register. -/
theorem movesFprD_writeFpr (s : State) (fd : RegNum) (v : FReg) : MovesFprD s fd (v.hi ++ v.lo) (s.writeFpr fd v).retire :=
  ⟨_, rfl, congrArg (fun r : FReg => r.hi ++ r.lo) (State.readFpr_writeFpr_self s fd v),
    fun _ hk => State.readFpr_writeFpr_of_ne s v hk, rfl, fun _ => rfl, rfl⟩

/-! ## The index of TLBRD and TLBWR, and the other agents' turn -/

/-- TLBIDX.Index is the low TLB_INDEX_BITS of the register (R71). -/
theorem State.tlbIndex_eq (s : State) : s.tlbIndex = s.csr.tlbidx.toNat % 2 ^ s.cfg.tlbIndexBits := by
  unfold State.tlbIndex lowMask
  rw [BitVec.toNat_and, BitVec.toNat_ofNat]
  generalize s.cfg.tlbIndexBits = n
  rcases Nat.lt_or_ge n 32 with h | h
  · have : 2 ^ n < 2 ^ 32 := Nat.pow_lt_pow_right (by decide) h
    rw [Nat.mod_eq_of_lt (by omega), Nat.and_two_pow_sub_one_eq_mod]
  · obtain ⟨k, rfl⟩ := Nat.exists_eq_add_of_le h
    have hk : 0 < 2 ^ k := Nat.two_pow_pos k
    have hw : s.csr.tlbidx.toNat < 2 ^ (32 + k) :=
      Nat.lt_of_lt_of_le s.csr.tlbidx.isLt (Nat.pow_le_pow_right (by decide) (Nat.le_add_right 32 k))
    have e : 2 ^ (32 + k) - 1 = (2 ^ 32 - 1) + 2 ^ 32 * (2 ^ k - 1) := by rw [Nat.pow_add, Nat.mul_sub]; omega
    rw [e, Nat.add_mul_mod_self_left, Nat.mod_eq_of_lt (by decide), Nat.and_two_pow_sub_one_eq_mod,
      Nat.mod_eq_of_lt s.csr.tlbidx.isLt, Nat.mod_eq_of_lt hw]

/-- A tick neither reads nor changes the agenda. -/
theorem State.tick_withAgenda (s : State) (r : List (List EnvEvent)) :
    ({ s with agenda := r } : State).tick = { s.tick with agenda := r } := by
  unfold State.tick State.timerTick State.timerNext State.timerInit
  dsimp only
  by_cases h1 : (s.csr.tcfg.getLsbD 0 && s.timerRun) = true <;> by_cases h2 : s.timerVal - 1 &&& lowMask s.cfg.timerBits = 0 <;>
    by_cases h3 : s.csr.tcfg.getLsbD 1 = true <;> simp only [h1, h2, h3, ↓reduceIte, Bool.false_eq_true]

/-- A reset of the core neither reads nor changes the agenda. -/
theorem State.resetCore_withAgenda (s : State) (r : List (List EnvEvent)) :
    ({ s with agenda := r } : State).resetCore = { s.resetCore with agenda := r } := by
  have hw : ∀ n, State.resetWord { s with agenda := r } n = s.resetWord n := fun _ => rfl
  have hf : ∀ n, State.free { s with agenda := r } n = s.free n := fun _ => rfl
  have ht : ∀ n, State.resetTlbEntry { s with agenda := r } n = s.resetTlbEntry n := fun _ => rfl
  have hc : State.resetCsrs { s with agenda := r } = s.resetCsrs := rfl
  simp only [State.resetCore, hw, hf, ht, hc]

/-- No event of the other agents reads or changes the agenda. -/
theorem State.applyEvent_withAgenda (e : EnvEvent) (s : State) (r : List (List EnvEvent)) :
    ({ s with agenda := r } : State).applyEvent e = { s.applyEvent e with agenda := r } := by
  cases e <;> simp only [State.applyEvent]
  · exact s.tick_withAgenda r
  · simp only [State.externalStore, State.llLine, State.snoop]; split <;> rfl
  · exact s.resetCore_withAgenda r

end Sys2Proof.Machine
end

