-- ==== Sys2Proof/Laws/Inv.lean ====
section
/-! SUPPORT. Each shared operation keeps the invariant of Sys2Proof/Safety.lean; the proofs about steps cite these. -/

namespace Sys2Proof.Machine

/-- The invariant speaks of seven fields only. -/
theorem State.Inv.congr {s t : State} (h : s.Inv) (hm : t.mem = s.mem) (hc : t.csr = s.csr) (hf : t.fcsr0 = s.fcsr0)
    (hv : t.timerVal = s.timerVal) (ht : t.tlb = s.tlb) (hg : t.cfg = s.cfg) (hs : t.stale = s.stale) : t.Inv where
  mem := hm ▸ h.mem
  stale := hs ▸ h.stale
  csr := by rw [State.csrHeld, hc, hg]; exact h.csr
  fcsr := hf ▸ h.fcsr
  timer := by rw [hv, hg]; exact h.timer
  tlbLength := by rw [ht, hg]; exact h.tlbLength
  tlbPpn := by rw [ht, hg]; exact h.tlbPpn

/-- Changing memory to a canonical one, with what a fetch may see old listed once an address, keeps it. -/
theorem State.Inv.withMem {s t : State} (h : s.Inv) (hm : t.mem.wf = true) (hs : (t.stale.map (·.pa)).Nodup) (hc : t.csr = s.csr) (hf : t.fcsr0 = s.fcsr0)
    (hv : t.timerVal = s.timerVal) (ht : t.tlb = s.tlb) (hg : t.cfg = s.cfg) : t.Inv where
  mem := hm
  stale := hs
  csr := by rw [State.csrHeld, hc, hg]; exact h.csr
  fcsr := hf ▸ h.fcsr
  timer := by rw [hv, hg]; exact h.timer
  tlbLength := by rw [ht, hg]; exact h.tlbLength
  tlbPpn := by rw [ht, hg]; exact h.tlbPpn

/-- Changing fcsr0 within its writable bits keeps it. -/
theorem State.Inv.withFcsr {s t : State} (h : s.Inv) (hm : t.mem = s.mem) (hc : t.csr = s.csr) (hf : t.fcsr0 &&& ~~~fcsrMask = 0)
    (hv : t.timerVal = s.timerVal) (ht : t.tlb = s.tlb) (hg : t.cfg = s.cfg) (hs : t.stale = s.stale) : t.Inv where
  mem := hm ▸ h.mem
  stale := hs ▸ h.stale
  csr := by rw [State.csrHeld, hc, hg]; exact h.csr
  fcsr := hf
  timer := by rw [hv, hg]; exact h.timer
  tlbLength := by rw [ht, hg]; exact h.tlbLength
  tlbPpn := by rw [ht, hg]; exact h.tlbPpn

/-- Changing the CSRs within the bits they hold keeps it. -/
theorem State.Inv.withCsr {s t : State} (h : s.Inv) (hm : t.mem = s.mem)
    (hc : ∀ k : CsrName, t.csr.get k &&& ~~~(k.heldMask s.cfg) = 0) (hf : t.fcsr0 = s.fcsr0)
    (hv : t.timerVal = s.timerVal) (ht : t.tlb = s.tlb) (hg : t.cfg = s.cfg) (hs : t.stale = s.stale) : t.Inv where
  mem := hm ▸ h.mem
  stale := hs ▸ h.stale
  csr := by rw [State.csrHeld, hg]; exact hc
  fcsr := hf ▸ h.fcsr
  timer := by rw [hv, hg]; exact h.timer
  tlbLength := by rw [ht, hg]; exact h.tlbLength
  tlbPpn := by rw [ht, hg]; exact h.tlbPpn

/-- What passes through a mask is 0 outside it. -/
theorem and_held (v m : Word) : v &&& m &&& ~~~m = 0 := by
  rw [BitVec.and_assoc, BitVec.and_not_self]; exact BitVec.and_zero

theorem and_sub_held (v : Word) {m h : Word} (hm : m &&& ~~~h = 0) : v &&& m &&& ~~~h = 0 := by
  rw [BitVec.and_assoc, hm]; exact BitVec.and_zero

theorem writeMask_held (c : Config) (k : CsrName) : k.writeMask c &&& ~~~(k.heldMask c) = 0 := by
  cases k <;> first | exact BitVec.and_not_self _ | simp [CsrName.heldMask, CsrName.writeMask]

/-- Exception entry keeps the invariant. -/
theorem State.Inv.enterException {s : State} (h : s.Inv) (e : Exc) : (enterException e s).Inv := by
  refine h.withCsr rfl (fun k => ?_) rfl rfl rfl rfl rfl
  have hk := h.csr k
  cases k <;> try exact hk
  case crmd => unfold Machine.enterException Exc.crmdAfter; dsimp only [Csrs.get]; split <;> exact setBits_held hk (by simp [CsrName.heldMask, CsrName.writeMask])
  case prmd => exact setBits_held hk (by simp [CsrName.heldMask, CsrName.writeMask])
  case estat => exact setBits_held hk (by simp [CsrName.heldMask])
  case era => simp [CsrName.heldMask, CsrName.writeMask]
  case badv => simp [CsrName.heldMask, CsrName.writeMask]
  case tlbehi =>
    show e.tlbehiAfter s.csr.tlbehi &&& _ = 0
    unfold Exc.tlbehiAfter
    split
    · exact and_held _ _
    · exact hk

/-- Exception return keeps the invariant. -/
theorem State.Inv.returnFromException {s : State} (h : s.Inv) : (returnFromException s).Inv := by
  refine h.withCsr rfl (fun k => ?_) rfl rfl rfl rfl rfl
  have hk := h.csr k
  cases k <;> try exact hk
  case crmd =>
    show crmdAfterReturn s.csr &&& _ = 0
    unfold crmdAfterReturn
    have h1 : setBits s.csr.crmd 0x07 s.csr.prmd &&& ~~~(CsrName.heldMask s.cfg .crmd) = 0 := setBits_held hk (by simp [CsrName.heldMask, CsrName.writeMask])
    dsimp only
    split
    · exact setBits_held h1 (by simp [CsrName.heldMask, CsrName.writeMask])
    · exact h1
  case llbctl => exact setBits_held hk (by simp [CsrName.heldMask, CsrName.writeMask])

theorem State.Inv.advance {s : State} (h : s.Inv) : s.advance.Inv := h.congr rfl rfl rfl rfl rfl rfl rfl
theorem State.Inv.drawn {s : State} (h : s.Inv) : s.drawn.Inv := h.congr rfl rfl rfl rfl rfl rfl rfl
theorem State.Inv.awake {s : State} (h : s.Inv) : s.awake.Inv := h.congr rfl rfl rfl rfl rfl rfl rfl
theorem State.Inv.writeGpr {s : State} (h : s.Inv) (r : RegNum) (v : Word) : (s.writeGpr r v).Inv :=
  h.congr (by simp) (by simp) (by simp) (by simp) (by simp) (by simp) (by simp)
theorem State.Inv.writeFpr {s : State} (h : s.Inv) (r : RegNum) (v : FReg) : (s.writeFpr r v).Inv :=
  h.congr rfl rfl rfl rfl rfl rfl rfl
theorem State.Inv.writeFprW {s : State} (h : s.Inv) (r : RegNum) (v : Word) : (s.writeFprW r v).Inv := h.writeFpr _ _
theorem State.Inv.writeFprD {s : State} (h : s.Inv) (r : RegNum) (v : DWord) : (s.writeFprD r v).Inv := h.writeFpr _ _

/-- Recording what a word was keeps one entry an address. -/
theorem recordOld_nodup {l : List StaleWord} (h : (l.map (·.pa)).Nodup) (pa : Nat) (old : Word) :
    ((recordOld l pa old).map (·.pa)).Nodup := by
  rw [recordOld, List.map_cons, List.nodup_cons]
  refine ⟨fun hm => ?_, h.sublist (List.filter_sublist.map _)⟩
  obtain ⟨b, hb, hp⟩ := List.mem_map.1 hm
  simpa [hp] using (List.mem_filter.1 hb).2

theorem recordOlds_nodup (m : Memory) {l : List StaleWord} (h : (l.map (·.pa)).Nodup) (pa k : Nat) :
    ((recordOlds m l pa k).map (·.pa)).Nodup := by
  induction k generalizing l pa with
  | zero => exact h
  | succ k ih => exact ih (recordOld_nodup h _ _) _

/-- A store keeps the invariant. -/
theorem State.Inv.storeMem {s : State} (h : s.Inv) (pa n : Nat) (v : DWord) : (s.storeMem pa n v).Inv :=
  h.withMem (Memory.wf_storeLE _ _ _ h.mem) (recordOlds_nodup _ h.stale _ _) rfl rfl rfl rfl rfl

/-- A Hit-class CACOP keeps the invariant. -/
theorem State.Inv.cacheHit {s : State} (h : s.Inv) (obj : BitVec 3) (pa : Nat) : (s.cacheHit obj pa).Inv := by
  refine h.withMem h.mem ?_ rfl rfl rfl rfl rfl
  have : (s.cacheHit obj pa).stale.map (·.pa) = s.stale.map (·.pa) := by
    unfold State.cacheHit
    rw [List.map_map]
    refine List.map_congr_left fun b _ => ?_
    dsimp only [Function.comp]
    split <;> rfl
  rw [this]; exact h.stale

/-- IBAR keeps the invariant. -/
theorem State.Inv.fetchBarrier {s : State} (h : s.Inv) : s.fetchBarrier.Inv :=
  h.withMem h.mem (h.stale.sublist (List.filter_sublist.map _)) rfl rfl rfl rfl rfl

/-- A fetch keeps the invariant. -/
theorem State.Inv.fetched {s : State} (h : s.Inv) (pa : Nat) : (s.fetched pa).Inv := by
  unfold State.fetched
  split
  · exact h
  · exact h.drawn

/-- SC.W's effect keeps the invariant. -/
theorem State.Inv.scStore {s : State} (h : s.Inv) (rd : RegNum) (pa : Nat) : (scStore rd pa s).Inv := by
  unfold Machine.scStore
  refine State.Inv.writeGpr ?_ _ _
  split
  · exact (h.storeMem _ _ _).congr rfl rfl rfl rfl rfl rfl rfl
  · exact h.congr rfl rfl rfl rfl rfl rfl rfl

theorem State.Inv.scStoreUndefined {s : State} (h : s.Inv) (rd : RegNum) (pa : Nat) : (scStoreUndefined rd pa s).Inv := by
  unfold Machine.scStoreUndefined
  refine State.Inv.writeGpr ?_ _ _
  exact (h.storeMem pa 4 (s.free .scStore)).congr rfl rfl rfl rfl rfl rfl rfl

/-- Raising floating-point exceptions changes Cause and Flags only. -/
theorem fcsrRaise_held {c : Word} (h : c &&& ~~~fcsrMask = 0) (e set : BitVec 5) : fcsrRaise c e set &&& ~~~fcsrMask = 0 := by
  have h1 : setBits c 0x1F000000 (e.setWidth 32 <<< 24) &&& ~~~fcsrMask = 0 := setBits_held h (by decide)
  apply BitVec.eq_of_getLsbD_eq
  intro i hi
  have h2 := congrArg (fun x : Word => x.getLsbD i) h1
  simp only [BitVec.getLsbD_and, fcsrRaise, BitVec.getLsbD_or] at h2 ⊢
  rw [Bool.and_or_distrib_right, h2]
  interval_cases i <;> simp [fcsrMask]

theorem State.Inv.fcsrRaise {s : State} (h : s.Inv) (e set : BitVec 5) :
    { s with fcsr0 := Machine.fcsrRaise s.fcsr0 e set }.Inv :=
  h.withFcsr rfl rfl (fcsrRaise_held h.fcsr e set) rfl rfl rfl rfl

/-- An arithmetic instruction's end keeps the invariant, when writing its destination does. -/
theorem State.Inv.fpFinish {s t : State} (h : s.Inv) {e : BitVec 5} {write : State → State}
    (hw : ∀ u : State, u.Inv → (write u).Inv) (ht : fpFinish s e write = .next t) : t.Inv := by
  rcases fpFinish_next.1 ht with ⟨_, set, _, rfl⟩ | ⟨_, rfl⟩
  · exact State.Inv.enterException (h.fcsrRaise _ _).drawn _
  · exact (hw _ (h.fcsrRaise _ _)).drawn.advance

/-- Setting a register's word to one inside the bits it holds. -/
theorem Csrs.held_set {cfg : Config} {r : Csrs} (h : ∀ k : CsrName, r.get k &&& ~~~(k.heldMask cfg) = 0) (k : CsrName) (v : Word)
    (hv : v &&& ~~~(k.heldMask cfg) = 0) (j : CsrName) : (r.set k v).get j &&& ~~~(j.heldMask cfg) = 0 := by
  by_cases hj : j = k
  · subst hj; cases j <;> first | exact hv | exact h _
  · rw [Csrs.get_set_of_ne _ _ hj]; exact h j

theorem timerInit_held (s : State) : s.timerInit &&& ~~~(lowMask s.cfg.timerBits) = 0 := by
  unfold State.timerInit
  rw [BitVec.and_assoc, BitVec.and_assoc, BitVec.and_comm (lowMask _), BitVec.and_assoc, BitVec.and_comm (~~~_),
    BitVec.and_not_self]
  simp

/-- A CSR write keeps the invariant. -/
theorem State.Inv.csrWrite {s : State} (h : s.Inv) (k : CsrName) (v m : Word) : (s.csrWrite k v m).Inv := by
  have h1 : { s with csr := s.csr.set k (setBits (s.csr.get k) (m &&& k.writeMask s.cfg) v) }.Inv := by
    refine h.withCsr rfl (fun j => Csrs.held_set h.csr k _ (setBits_held (h.csr k) ?_) j) rfl rfl rfl rfl rfl
    rw [BitVec.and_assoc, writeMask_held]; exact BitVec.and_zero
  unfold State.csrWrite State.csrAction
  split
  · exact { h1 with timer := timerInit_held _ }
  · exact h1.congr rfl rfl rfl rfl rfl rfl rfl
  · exact h1.congr rfl rfl rfl rfl rfl rfl rfl
  · exact h1

theorem State.Inv.csrReadDone {s : State} (h : s.Inv) (k : CsrName) : (s.csrReadDone k).Inv :=
  h.congr (by simp) (by simp) (by simp) (by simp) (by simp) (by simp) (by simp)

/-- A CSR swap keeps the invariant. -/
theorem State.Inv.csrSwap {s t : State} (h : s.Inv) {rd : RegNum} {num : BitVec 14} {v m : Word}
    (ht : s.csrSwap rd num v m = .next t) : t.Inv := by
  unfold State.csrSwap at ht
  split at ht <;> cases ht
  · exact (h.writeGpr _ _).advance
  · exact (((h.csrWrite _ _ _).csrReadDone _).writeGpr _ _).advance

/-! ## The TLB -/

theorem pageOfTlbelo_fits (cfg : Config) (lo : Word) : (pageOfTlbelo cfg lo).fits cfg := by
  unfold TlbPage.fits pageOfTlbelo lowMask
  simp only [BitVec.extractLsb'_toNat, BitVec.toNat_and, BitVec.toNat_ofNat, Nat.shiftRight_zero]
  have h1 : (lo >>> 8).toNat &&& (2 ^ (cfg.palen - 12) - 1) % 2 ^ 32 ≤ 2 ^ (cfg.palen - 12) - 1 :=
    Nat.le_trans Nat.and_le_right (Nat.mod_le _ _)
  have h2 := Nat.mod_le ((lo >>> 8).toNat &&& (2 ^ (cfg.palen - 12) - 1) % 2 ^ 32) (2 ^ 24)
  have h3 := Nat.two_pow_pos (cfg.palen - 12)
  omega

/-- Replacing a TLB entry by one of fitting pages keeps the invariant. -/
theorem State.Inv.tlbSet {s : State} (h : s.Inv) (i : Nat) (e : TlbEntry) (h0 : e.page0.fits s.cfg) (h1 : e.page1.fits s.cfg) :
    (s.tlbSet i e).Inv where
  mem := h.mem
  stale := h.stale
  csr := h.csr
  fcsr := h.fcsr
  timer := h.timer
  tlbLength := (List.length_set ..).trans h.tlbLength
  tlbPpn := by
    intro d hd
    rcases List.mem_or_eq_of_mem_set hd with hd | rfl
    · exact h.tlbPpn d hd
    · exact ⟨h0, h1⟩

/-- INVTLB clears E of some entries. -/
theorem State.Inv.invtlb {s : State} (h : s.Inv) (op : BitVec 5) (asid : BitVec 10) (va : Word) :
    { s with tlb := invtlbApply op asid va s.tlb }.Inv where
  mem := h.mem
  stale := h.stale
  csr := h.csr
  fcsr := h.fcsr
  timer := h.timer
  tlbLength := (List.length_map ..).trans h.tlbLength
  tlbPpn := by
    intro d hd
    obtain ⟨e, he, rfl⟩ := List.mem_map.1 hd
    have := h.tlbPpn e he
    split <;> exact this

/-- TLBSRCH keeps the invariant. -/
theorem State.Inv.tlbSearchDone {s : State} (h : s.Inv) (hit : Option (TlbEntry × Nat)) : (s.tlbSearchDone hit).Inv := by
  refine h.withCsr rfl (fun k => ?_) rfl rfl rfl rfl rfl
  have hk := h.csr k
  cases k <;> try exact hk
  case tlbidx =>
    unfold State.tlbSearchDone
    dsimp only [Csrs.get]
    split <;> refine setBits_held hk ?_
    · apply BitVec.eq_of_getLsbD_eq
      intro i hi
      simp only [CsrName.heldMask, CsrName.writeMask, BitVec.getLsbD_and, BitVec.getLsbD_or, BitVec.getLsbD_not, hi, decide_true,
        Bool.true_and]
      cases (lowMask s.cfg.tlbIndexBits).getLsbD i <;> interval_cases i <;> simp
    · apply BitVec.eq_of_getLsbD_eq
      intro i hi
      simp only [CsrName.heldMask, CsrName.writeMask, BitVec.getLsbD_and, BitVec.getLsbD_or, BitVec.getLsbD_not, hi, decide_true,
        Bool.true_and]
      cases (lowMask s.cfg.tlbIndexBits).getLsbD i <;> interval_cases i <;> simp

theorem tlbidxWith_held {c : Config} {v : Word} (h : v &&& ~~~(CsrName.heldMask c .tlbidx) = 0) (ne : Bool) (ps : BitVec 6) :
    tlbidxWith v ne ps &&& ~~~(CsrName.heldMask c .tlbidx) = 0 := by
  refine setBits_held h ?_
  apply BitVec.eq_of_getLsbD_eq
  intro i hi
  simp only [CsrName.heldMask, CsrName.writeMask, BitVec.getLsbD_and, BitVec.getLsbD_or, BitVec.getLsbD_not, hi, decide_true,
    Bool.true_and]
  cases (lowMask c.tlbIndexBits).getLsbD i <;> interval_cases i <;> simp

theorem vppn_held (c : Config) (vppn : BitVec 19) : (vppn ++ 0#13 : Word) &&& ~~~(CsrName.heldMask c .tlbehi) = 0 := by
  have hb : ∀ i, i < 13 → BitVec.getLsbD (vppn ++ 0#13 : BitVec (19 + 13)) i = false := by
    intro i hi
    rw [BitVec.getLsbD_append, if_pos hi, BitVec.getLsbD_zero]
  have hm : ∀ i, i < 32 → 13 ≤ i → (~~~(0xFFFFE000 : Word)).getLsbD i = false := by decide
  apply BitVec.eq_of_getLsbD_eq
  intro i hi
  simp only [CsrName.heldMask, CsrName.writeMask]
  rw [BitVec.getLsbD_and]
  by_cases h13 : i < 13
  · rw [Bool.and_eq_false_iff.2 (.inl (hb i h13))]; exact BitVec.getLsbD_zero.symm
  · rw [Bool.and_eq_false_iff.2 (.inr (hm i hi (by omega)))]; exact BitVec.getLsbD_zero.symm

theorem asid_held (c : Config) (asid : BitVec 10) : asid.setWidth 32 &&& ~~~(CsrName.heldMask c .asid) = 0 := by
  have hm : ∀ i, i < 10 → (~~~(0x3FF : Word)).getLsbD i = false := by decide
  apply BitVec.eq_of_getLsbD_eq
  intro i hi
  simp only [CsrName.heldMask, CsrName.writeMask]
  rw [BitVec.getLsbD_and]
  by_cases h : i < 10
  · rw [Bool.and_eq_false_iff.2 (.inr (hm i h))]
    exact BitVec.getLsbD_zero.symm
  · rw [Bool.and_eq_false_iff.2 (.inl (by simp [BitVec.getLsbD_of_ge asid i (by omega)]))]
    exact BitVec.getLsbD_zero.symm

/-- TLBRD keeps the invariant. -/
theorem State.Inv.tlbReadInto {s : State} (h : s.Inv) (e : TlbEntry) : (s.tlbReadInto e).Inv := by
  refine h.withCsr (by simp) ?_ (by simp) (by simp) (by simp) (by simp) (by simp)
  have hi : s.csr.tlbidx &&& ~~~(CsrName.heldMask s.cfg .tlbidx) = 0 := h.csr .tlbidx
  have hz : ∀ m : Word, (0 : Word) &&& ~~~m = 0 := fun m => BitVec.zero_and
  intro k
  have hk := h.csr k
  cases he : e.e
  · rw [State.tlbReadInto, he]
    cases k
    case tlbidx => exact tlbidxWith_held hi _ _
    case tlbehi => exact hz _
    case tlbelo0 => exact hz _
    case tlbelo1 => exact hz _
    case asid => exact hz _
    all_goals exact hk
  · rw [State.tlbReadInto, he]
    cases k
    case tlbidx => exact tlbidxWith_held hi _ _
    case tlbehi => exact vppn_held _ _
    case tlbelo0 => exact and_held _ _
    case tlbelo1 => exact and_held _ _
    case asid => exact asid_held _ _
    all_goals exact hk

/-! ## The other agents -/

/-- A tick keeps the invariant. -/
theorem State.Inv.tick {s : State} (h : s.Inv) : s.tick.Inv := by
  unfold State.tick State.timerTick
  have h0 : { s with stableCounter := s.stableCounter + 1 }.Inv := h.congr rfl rfl rfl rfl rfl rfl rfl
  split
  · split
    · split
      · exact { h0 with timer := timerInit_held _ }
      · exact { h0 with timer := BitVec.zero_and }
    · exact { h0 with timer := and_held _ _ }
  · exact h0

/-- Seeing another master's store keeps one entry an address. -/
theorem snoop_nodup {s : State} (h : (s.stale.map (·.pa)).Nodup) (pa : Nat) (b : Byte) :
    ((s.snoop pa b).stale.map (·.pa)).Nodup := by
  have : (s.snoop pa b).stale.map (·.pa) = s.stale.map (·.pa) := by
    unfold State.snoop
    rw [List.map_map]
    refine List.map_congr_left fun w _ => ?_
    dsimp only [Function.comp]
    split <;> rfl
  rw [this]; exact h

/-- Another agent's store keeps the invariant. -/
theorem State.Inv.externalStore {s : State} (h : s.Inv) (pa : Nat) (b : Byte) : (s.externalStore pa b).Inv := by
  unfold State.externalStore
  split
  · exact h.withMem (Memory.wf_write _ _ h.mem) (snoop_nodup h.stale pa b) rfl rfl rfl rfl rfl
  · exact h.congr rfl rfl rfl rfl rfl rfl rfl

theorem resetCsrs_held (s : State) (k : CsrName) : s.resetCsrs.get k &&& ~~~(k.heldMask s.cfg) = 0 := by
  cases k
  case tcfg =>
    show _ &&& CsrName.heldMask s.cfg .tcfg &&& 0xFFFFFFFE &&& ~~~(CsrName.heldMask s.cfg .tcfg) = 0
    rw [BitVec.and_assoc, BitVec.and_assoc, BitVec.and_comm (CsrName.heldMask _ _), BitVec.and_assoc,
      BitVec.and_comm (~~~_), BitVec.and_not_self]
    simp
  case estat => exact and_sub_held _ (by rw [CsrName.heldMask]; decide)
  case dmw0 => exact and_sub_held _ (by simp only [CsrName.heldMask, CsrName.writeMask]; decide)
  case dmw1 => exact and_sub_held _ (by simp only [CsrName.heldMask, CsrName.writeMask]; decide)
  case prmd => exact and_held _ _
  case eentry => exact and_held _ _
  case tlbidx => exact and_held _ _
  case tlbehi => exact and_held _ _
  case tlbelo0 => exact and_held _ _
  case tlbelo1 => exact and_held _ _
  case asid => exact and_held _ _
  case pgdl => exact and_held _ _
  case pgdh => exact and_held _ _
  case tlbrentry => exact and_held _ _
  case euen => exact BitVec.zero_and
  case ecfg => exact BitVec.zero_and
  case llbctl => exact BitVec.zero_and
  case pgd => exact BitVec.zero_and
  case cpuid => exact BitVec.zero_and
  case tval => exact BitVec.zero_and
  case ticlr => exact BitVec.zero_and
  case ctag => exact BitVec.zero_and
  all_goals simp [State.resetCsrs, Csrs.get, CsrName.heldMask, CsrName.writeMask]

/-- A reset of the running core keeps, of the invariant, what it needs and makes the rest true. -/
theorem State.Inv.resetCore {s : State} (h : s.Inv) : s.resetCore.Inv := by
  refine ⟨?_, ?_, ?_, ?_, ?_, ?_, ?_⟩
  · rw [State.resetCore_mem]; exact h.mem
  · rw [State.resetCore_stale]; exact h.stale
  · intro k
    rw [show s.resetCore.csr = s.resetCsrs by rw [State.resetCore], State.resetCore_cfg]
    exact resetCsrs_held s k
  · rw [show s.resetCore.fcsr0 = s.resetWord 91 &&& fcsrMask by rw [State.resetCore]; rfl]; exact and_held _ _
  · rw [show s.resetCore.timerVal = s.resetWord 94 &&& lowMask s.cfg.timerBits by rw [State.resetCore], State.resetCore_cfg]
    exact and_held _ _
  · simp [State.resetCore]
  · intro e he
    rw [State.resetCore_cfg]
    rw [show s.resetCore.tlb = (List.range s.cfg.tlbEntries).map fun i => (s.resetTlbEntry (200 + 4 * i)).afterReset s.cfg by
      rw [State.resetCore]] at he
    obtain ⟨i, _, rfl⟩ := List.mem_map.1 he
    rw [TlbEntry.afterReset_page0, TlbEntry.afterReset_page1]
    exact ⟨pageOfTlbelo_fits _ _, pageOfTlbelo_fits _ _⟩

end Sys2Proof.Machine
end

