-- ==== Sys2Proof/Tests/Slice0.lean ====
section
/-! SUPPORT. Tests: each check of WellFormed refuses an ill-formed term; one word of the spec's encoding vectors per constructor;
worked examples of the spec, one step each (V numbers are those of spec/95_test_vectors.md and spec/96_test_programs.md); and,
for each obligation with hypotheses, a concrete state that meets them. -/

namespace Sys2Proof.Tests

open Sys2Proof.Machine

set_option Elab.async false

/-! ## WellFormed (R242) -/

theorem test_csrxchg_rj_zero_refused : (Instr.csrxchg 4 0 0x181).wellFormed = false := by decide

theorem test_csrxchg_rj_one_refused : (Instr.csrxchg 4 1 0x181).wellFormed = false := by decide

theorem test_csrxchg_rj_two_accepted : (Instr.csrxchg 4 2 0x181).wellFormed = true := by decide

theorem test_rdcntvlW_zero_refused : (Instr.rdcntvlW 0).wellFormed = false := by decide

theorem test_rdcntvlW_four_accepted : (Instr.rdcntvlW 4).wellFormed = true := by decide

/-! ## Decoding: V1 to V140, one word per constructor -/

/-- Each word decodes to its instruction, and the instruction encodes to the word. -/
def reads (l : List (Word × Instr)) : Bool := l.all fun p => decode p.1 == some p.2 && encode p.2 == p.1

theorem test_decode_int_arith : reads [
    (0x001018A4, .addW 4 5 6), (0x001118A4, .subW 4 5 6), (0x001218A4, .slt 4 5 6),
    (0x001298A4, .sltu 4 5 6), (0x001418A4, .nor 4 5 6), (0x001498A4, .and 4 5 6),
    (0x001518A4, .or 4 5 6), (0x001598A4, .xor 4 5 6), (0x001C18A4, .mulW 4 5 6),
    (0x001C98A4, .mulhW 4 5 6), (0x001D18A4, .mulhWU 4 5 6), (0x002018A4, .divW 4 5 6),
    (0x002098A4, .modW 4 5 6), (0x002118A4, .divWU 4 5 6), (0x002198A4, .modWU 4 5 6),
    (0x023FF4A4, .slti 4 5 0xFFD), (0x027FF4A4, .sltui 4 5 0xFFD), (0x02BFF4A4, .addiW 4 5 0xFFD),
    (0x036AF0A4, .andi 4 5 0xABC), (0x03AAF0A4, .ori 4 5 0xABC), (0x03EAF0A4, .xori 4 5 0xABC),
    (0x142468A4, .lu12iW 4 0x12345), (0x1C2468A4, .pcaddu12i 4 0x12345)] = true := by decide

theorem test_decode_int_shift : reads [
    (0x001718A4, .sllW 4 5 6), (0x001798A4, .srlW 4 5 6), (0x001818A4, .sraW 4 5 6),
    (0x0040C4A4, .slliW 4 5 0x11), (0x0044C4A4, .srliW 4 5 0x11), (0x0048C4A4, .sraiW 4 5 0x11)] = true := by decide

theorem test_decode_branch : reads [
    (0x4FFFE0A4, .jirl 4 5 0xFFF8), (0x50001100, .b 0x1000004), (0x54001100, .bl 0x1000004),
    (0x5BFFE0A4, .beq 5 4 0xFFF8), (0x5FFFE0A4, .bne 5 4 0xFFF8), (0x63FFE0A4, .blt 5 4 0xFFF8),
    (0x67FFE0A4, .bge 5 4 0xFFF8), (0x6BFFE0A4, .bltu 5 4 0xFFF8), (0x6FFFE0A4, .bgeu 5 4 0xFFF8)] = true := by decide

theorem test_decode_int_mem : reads [
    (0x20FFF0A4, .llW 4 5 0x3FFC), (0x21FFF0A4, .scW 4 5 0x3FFC), (0x283FF4A4, .ldB 4 5 0xFFD),
    (0x287FF4A4, .ldH 4 5 0xFFD), (0x28BFF4A4, .ldW 4 5 0xFFD), (0x293FF4A4, .stB 4 5 0xFFD),
    (0x297FF4A4, .stH 4 5 0xFFD), (0x29BFF4A4, .stW 4 5 0xFFD), (0x2A3FF4A4, .ldBU 4 5 0xFFD),
    (0x2A7FF4A4, .ldHU 4 5 0xFFD), (0x2AFFF4A8, .preld 8 5 0xFFD), (0x38720001, .dbar 1),
    (0x38728001, .ibar 1)] = true := by decide

theorem test_decode_misc : reads [
    (0x000060A0, .rdcntid 5), (0x00006004, .rdcntvlW 4), (0x00006404, .rdcntvhW 4),
    (0x002A1234, .brk 0x1234), (0x002B1234, .syscall 0x1234)] = true := by decide

theorem test_decode_fp_arith : reads [
    (0x01008C41, .faddS 1 2 3), (0x01010C41, .faddD 1 2 3), (0x01028C41, .fsubS 1 2 3),
    (0x01030C41, .fsubD 1 2 3), (0x01048C41, .fmulS 1 2 3), (0x01050C41, .fmulD 1 2 3),
    (0x01068C41, .fdivS 1 2 3), (0x01070C41, .fdivD 1 2 3), (0x01088C41, .fmaxS 1 2 3),
    (0x01090C41, .fmaxD 1 2 3), (0x010A8C41, .fminS 1 2 3), (0x010B0C41, .fminD 1 2 3),
    (0x010C8C41, .fmaxaS 1 2 3), (0x010D0C41, .fmaxaD 1 2 3), (0x010E8C41, .fminaS 1 2 3),
    (0x010F0C41, .fminaD 1 2 3), (0x01128C41, .fcopysignS 1 2 3), (0x01130C41, .fcopysignD 1 2 3),
    (0x01140441, .fabsS 1 2), (0x01140841, .fabsD 1 2), (0x01141441, .fnegS 1 2),
    (0x01141841, .fnegD 1 2), (0x01143441, .fclassS 1 2), (0x01143841, .fclassD 1 2),
    (0x01144441, .fsqrtS 1 2), (0x01144841, .fsqrtD 1 2), (0x01145441, .frecipS 1 2),
    (0x01145841, .frecipD 1 2), (0x01146441, .frsqrtS 1 2), (0x01146841, .frsqrtD 1 2),
    (0x08120C41, .fmaddS 1 2 3 4), (0x08220C41, .fmaddD 1 2 3 4), (0x08520C41, .fmsubS 1 2 3 4),
    (0x08620C41, .fmsubD 1 2 3 4), (0x08920C41, .fnmaddS 1 2 3 4), (0x08A20C41, .fnmaddD 1 2 3 4),
    (0x08D20C41, .fnmsubS 1 2 3 4), (0x08E20C41, .fnmsubD 1 2 3 4)] = true := by decide

theorem test_decode_fp_cmp_cvt : reads [
    (0x01191841, .fcvtSD 1 2), (0x01192441, .fcvtDS 1 2), (0x011A0441, .ftintrmWS 1 2),
    (0x011A0841, .ftintrmWD 1 2), (0x011A4441, .ftintrpWS 1 2), (0x011A4841, .ftintrpWD 1 2),
    (0x011A8441, .ftintrzWS 1 2), (0x011A8841, .ftintrzWD 1 2), (0x011AC441, .ftintrneWS 1 2),
    (0x011AC841, .ftintrneWD 1 2), (0x011B0441, .ftintWS 1 2), (0x011B0841, .ftintWD 1 2),
    (0x011D1041, .ffintSW 1 2), (0x011D2041, .ffintDW 1 2), (0x0C110C40, .fcmpS 2 0 2 3),
    (0x0C210C40, .fcmpD 2 0 2 3)] = true := by decide

theorem test_decode_fp_move_branch_mem : reads [
    (0x01149441, .fmovS 1 2), (0x01149841, .fmovD 1 2), (0x0114A4A1, .movgr2frW 1 5),
    (0x0114ACA1, .movgr2frhW 1 5), (0x0114B444, .movfr2grS 4 2), (0x0114BC44, .movfrh2grS 4 2),
    (0x0114C0A3, .movgr2fcsr 3 5), (0x0114C864, .movfcsr2gr 4 3), (0x0114D040, .movfr2cf 0 2),
    (0x0114D401, .movcf2fr 1 0), (0x0114D8A0, .movgr2cf 0 5), (0x0114DC04, .movcf2gr 4 0),
    (0x0D000C41, .fsel 1 2 3 0), (0x2B3FF4A1, .fldS 1 5 0xFFD), (0x2B7FF4A1, .fstS 1 5 0xFFD),
    (0x2BBFF4A1, .fldD 1 5 0xFFD), (0x2BFFF4A1, .fstD 1 5 0xFFD), (0x48000808, .bceqz 0 0x80002),
    (0x48000908, .bcnez 0 0x80002)] = true := by decide

theorem test_decode_priv : reads [
    (0x04060404, .csrrd 4 0x181), (0x04060424, .csrwr 4 0x181), (0x040604A4, .csrxchg 4 5 0x181),
    (0x063FF4A9, .cacop 9 5 0xFFD), (0x06482800, .tlbsrch), (0x06482C00, .tlbrd),
    (0x06483000, .tlbwr), (0x06483400, .tlbfill), (0x06483800, .ertn),
    (0x06488005, .idle 5), (0x064998A5, .invtlb 5 5 6)] = true := by decide

/-- Words that match no row (V206 to V263). -/
theorem test_undefined_words : [
    (0x00000000 : Word), 0xFFFFFFFF, 0x00006084, 0x00006424, 0x00006800, 0x00108000, 0x00118000, 0x00130000,
    0x00160000, 0x001B0000, 0x00410000, 0x00400000, 0x00001000, 0x00005C00, 0x002A8000, 0x02C00000,
    0x03000000, 0x05000000, 0x06480000, 0x06482000, 0x06482400, 0x06482801, 0x06483801, 0x0114D808,
    0x0114D500, 0x0C100808, 0x0C300000, 0x01000000, 0x01140000, 0x01142400, 0x011A0C00, 0x011B2400,
    0x011E4400, 0x08000000, 0x08300000, 0x0D040000, 0x10000000, 0x16000000, 0x18000000, 0x1A000000,
    0x1E000000, 0x22000000, 0x24000000, 0x28C00000, 0x29C00000, 0x2A800000, 0x38000000, 0x38600000,
    0x38730000, 0x40000000, 0x44000000, 0x48000200, 0x70000000, 0x80000000].all (fun w => decode w == none) = true := by
  decide

theorem test_truncated : decodeBytes [0xA4, 0x18, 0x10] = .error .truncated := by decide

/-- V4, stored least significant byte first. -/
theorem test_decode_bytes : decodeBytes [0xA4, 0x18, 0x10, 0x00, 0x55] = .ok (.addW 4 5 6, [0x55]) := by decide

/-! ## One step of each instruction -/

/-- State.reset with floating point enabled, the start state of the vectors. -/
def start : State := { State.reset with csr := { State.reset.csr with euen := 1 } }

abbrev Init := State → State
abbrev Check := State → Bool

def x (r : RegNum) (v : Word) : Init := fun s => s.writeGpr r v
def fw (r : RegNum) (v : Word) : Init := fun s => s.writeFpr r ⟨(s.readFpr r).hi, v⟩
def fd (r : RegNum) (v : DWord) : Init := fun s => s.writeFprD r v
def fcc (v : Bool) : Init := fun s => { s with fcc0 := v }
def fcsr (v : Word) : Init := fun s => { s with fcsr0 := v }
def pc (v : Word) : Init := fun s => { s with pc := v }
def csr (k : CsrName) (v : Word) : Init := fun s => { s with csr := s.csr.set k v }
def llbit (v : Bool) : Init := fun s => { s with llbit := v }
def mem (pa n : Nat) (v : DWord) : Init := fun s => { s with mem := s.mem.storeLE pa n v }
def counter (v : DWord) : Init := fun s => { s with stableCounter := v }
def entry (i : Nat) (e : TlbEntry) : Init := fun s => { s with tlb := s.tlb.set i e }

def isX (r : RegNum) (v : Word) : Check := fun t => t.readGpr r == v
def isFw (r : RegNum) (v : Word) : Check := fun t => t.readFprW r == v
def isFd (r : RegNum) (v : DWord) : Check := fun t => t.readFprD r == v
def isFcc (v : Bool) : Check := fun t => t.fcc0 == v
def isFcsr (v : Word) : Check := fun t => t.fcsr0 == v
def isPc (v : Word) : Check := fun t => t.pc == v
def isCsr (k : CsrName) (v : Word) : Check := fun t => t.csrRead k == v
def isLlbit (v : Bool) : Check := fun t => t.llbit == v
def isMem (pa n : Nat) (v : DWord) : Check := fun t => t.mem.loadLE pa n == v
def isEntry (i : Nat) (e : TlbEntry) : Check := fun t => t.tlb[i]? == some e
def isEmpty (i : Nat) : Check := fun t => (t.tlb[i]?.map (·.e)) == some false
def isWaiting : Check := fun t => t.waiting

/-- The instruction of a word, run from `start` as changed, ends in a state that passes the checks. -/
def runs (w : Word) (init : List Init) (checks : List Check) : Bool :=
  match decode w with
  | none => false
  | some i =>
    match exec i (init.foldl (fun s f => f s) start) with
    | .next t => checks.all fun c => c t
    | _ => false

/-- T1 of spec/96_test_programs.md. -/
def t1 : TlbEntry := ⟨true, 0x1, false, 12, 0x00010, ⟨true, true, 3, 1, 0x00100⟩,
  ⟨true, false, 3, 1, 0x00101⟩⟩

/-- T2 of spec/96_test_programs.md. -/
def t2 : TlbEntry := ⟨true, 0x2, true, 12, 0x00020, ⟨true, true, 0, 1, 0x00200⟩,
  ⟨false, false, 0, 0, 0x00000⟩⟩

/-- T3 of spec/96_test_programs.md. -/
def t3 : TlbEntry := ⟨true, 0x1, false, 21, 0x00400, ⟨true, true, 0, 1, 0x00800⟩,
  ⟨true, true, 0, 1, 0x00A00⟩⟩

/-- T4 of spec/96_test_programs.md. -/
def t4 : TlbEntry := ⟨true, 0x2, false, 12, 0x00010, ⟨true, true, 0, 1, 0x00300⟩,
  ⟨true, true, 0, 1, 0x00301⟩⟩

/-- V402: `rdcntid r3`. -/
theorem test_rdcntid : runs 0x00006060 [csr .tid 0xFFFFFFFF, csr .crmd 0x0000000B] [isX 3 0xFFFFFFFF] = true := by decide +kernel

/-- V400: `rdcntvl.w r3`. -/
theorem test_rdcntvlW : runs 0x00006003 [counter 0x0000000100000000, x 3 0x00000009]
    [isX 3 0x00000000] = true := by decide +kernel

/-- R403: `rdcntvh.w r3`. -/
theorem test_rdcntvhW : runs 0x00006403 [counter 0x0000000123456789] [isX 3 0x00000001] = true := by decide +kernel

/-- V264: `add.w r3, r1, r2`. -/
theorem test_addW : runs 0x00100823 [x 1 0xFFFFFFFF, x 2 0x00000001, x 3 0x00000009]
    [isX 3 0x00000000] = true := by decide +kernel

/-- V266: `add.w r1, r1, r1`. -/
theorem test_addW_2 : runs 0x00100421 [x 1 0x40000000] [isX 1 0x80000000] = true := by decide +kernel

/-- V269: `sub.w r3, r0, r1`. -/
theorem test_subW : runs 0x00110403 [x 1 0x80000000] [isX 3 0x80000000] = true := by decide +kernel

/-- V277: `slt r3, r1, r2`. -/
theorem test_slt : runs 0x00120823 [x 1 0x7FFFFFFF, x 2 0x80000000, x 3 0xFFFFFFFF] [isX 3 0x00000000] = true := by decide +kernel

/-- V280: `sltu r3, r0, r2`. -/
theorem test_sltu : runs 0x00128803 [x 2 0x00000007] [isX 3 0x00000001] = true := by decide +kernel

/-- V295: `nor r3, r0, r0`. -/
theorem test_nor : runs 0x00140003 [] [isX 3 0xFFFFFFFF] = true := by decide +kernel

/-- R310: `and r3, r1, r2`. -/
theorem test_and : runs 0x00148823 [x 1 0xF0F0FF00, x 2 0x0FF0F0F0] [isX 3 0x00F0F000] = true := by decide +kernel

/-- R311: `or r3, r1, r2`. -/
theorem test_or : runs 0x00150823 [x 1 0xF0F0FF00, x 2 0x0FF0F0F0] [isX 3 0xFFF0FFF0] = true := by decide +kernel

/-- R313: `xor r3, r1, r2`. -/
theorem test_xor : runs 0x00158823 [x 1 0xF0F0FF00, x 2 0x0FF0F0F0] [isX 3 0xFF000FF0] = true := by decide +kernel

/-- V329: `sll.w r3, r1, r2`. -/
theorem test_sllW : runs 0x00170823 [x 1 0x80000001, x 2 0x00000020] [isX 3 0x80000001] = true := by decide +kernel

/-- V332: `srl.w r3, r1, r2`. -/
theorem test_srlW : runs 0x00178823 [x 1 0xFFFFFFFF, x 2 0x0000003F] [isX 3 0x00000001] = true := by decide +kernel

/-- V334: `sra.w r3, r1, r2`. -/
theorem test_sraW : runs 0x00180823 [x 1 0x80000000, x 2 0x00000001] [isX 3 0xC0000000] = true := by decide +kernel

/-- V304: `mul.w r3, r1, r2`. -/
theorem test_mulW : runs 0x001C0823 [x 1 0x80000000, x 2 0x00000002, x 3 0x00000009]
    [isX 3 0x00000000] = true := by decide +kernel

/-- V307: `mulh.w r3, r1, r2`. -/
theorem test_mulhW : runs 0x001C8823 [x 1 0xFFFFFFFF, x 2 0x00000001] [isX 3 0xFFFFFFFF] = true := by decide +kernel

/-- V311: `mulh.wu r3, r1, r2`. -/
theorem test_mulhWU : runs 0x001D0823 [x 1 0xFFFFFFFF, x 2 0x00000001, x 3 0x00000009]
    [isX 3 0x00000000] = true := by decide +kernel

/-- V315: `div.w r3, r1, r2`. -/
theorem test_divW : runs 0x00200823 [x 1 0xFFFFFFF9, x 2 0xFFFFFFFE] [isX 3 0x00000003] = true := by decide +kernel

/-- V317: `div.w r3, r1, r2`. -/
theorem test_divW_2 : runs 0x00200823 [x 1 0x80000000, x 2 0xFFFFFFFF] [isX 3 0x80000000] = true := by decide +kernel

/-- V316: `mod.w r3, r1, r2`. -/
theorem test_modW : runs 0x00208823 [x 1 0xFFFFFFF9, x 2 0xFFFFFFFE] [isX 3 0xFFFFFFFF] = true := by decide +kernel

/-- V323: `div.wu r3, r1, r2`. -/
theorem test_divWU : runs 0x00210823 [x 1 0xFFFFFFFF, x 2 0xFFFFFFFF] [isX 3 0x00000001] = true := by decide +kernel

/-- V325: `mod.wu r3, r1, r2`. -/
theorem test_modWU : runs 0x00218823 [x 1 0x80000000, x 2 0xFFFFFFFF] [isX 3 0x80000000] = true := by decide +kernel

/-- R401: `break 0`, BRK. -/
theorem test_brk : runs 0x002A0000 [csr .eentry 0x1C001000] [isPc 0x1C001000, isCsr .estat 0x000C0000] = true := by decide +kernel

/-- V396: `syscall 0x7FFF`, SYS. -/
theorem test_syscall : runs 0x002B7FFF [pc 0x00400000, csr .crmd 0x000000B7, csr .eentry 0x1C001000, csr .estat 0x00000003]
    [isPc 0x1C001000, isCsr .estat 0x000B0003] = true := by decide +kernel

/-- V337: `slli.w r3, r1, 0x10`. -/
theorem test_slliW : runs 0x0040C023 [x 1 0x0001FFFF] [isX 3 0xFFFF0000] = true := by decide +kernel

/-- V339: `srli.w r3, r1, 0`. -/
theorem test_srliW : runs 0x00448023 [x 1 0x80000000] [isX 3 0x80000000] = true := by decide +kernel

/-- V341: `srai.w r3, r1, 0x1F`. -/
theorem test_sraiW : runs 0x0048FC23 [x 1 0x7FFFFFFF, x 3 0x00000009] [isX 3 0x00000000] = true := by decide +kernel

/-- V405: `fadd.s f3, f1, f2`. -/
theorem test_faddS : runs 0x01008823 [fw 1 0x3F800000, fw 2 0x33800000, fcsr 0x00000100]
    [isFw 3 0x3F800000, isFcsr 0x01010100] = true := by decide +kernel

/-- V419: `fadd.d f3, f1, f2`. -/
theorem test_faddD : runs 0x01010823 [fd 1 0x7FEFFFFFFFFFFFFF, fd 2 0x7FEFFFFFFFFFFFFF, fcsr 0x00000200]
    [isFd 3 0x7FF0000000000000, isFcsr 0x05050200] = true := by decide +kernel

/-- V423: `fsub.s f3, f1, f2`. -/
theorem test_fsubS : runs 0x01028823 [fw 1 0x3F800000, fw 2 0x3F800000, fcsr 0x00000300]
    [isFw 3 0x80000000] = true := by decide +kernel

/-- R423: `fsub.d f3, f1, f2`. -/
theorem test_fsubD : runs 0x01030823 [fd 1 0x7FF0000000000001, fd 2 0x3FF0000000000000]
    [isFd 3 0x7FF8000000000001, isFcsr 0x10100000] = true := by decide +kernel

/-- V426: `fmul.s f3, f1, f2`. -/
theorem test_fmulS : runs 0x01048823 [fw 1 0xBF800000, fw 2 0x00000000] [isFw 3 0x80000000] = true := by decide +kernel

/-- V432: `fmul.d f3, f1, f2`. -/
theorem test_fmulD : runs 0x01050823 [fd 1 0x0010000000000000, fd 2 0x0010000000000000, fcsr 0x00000200]
    [isFd 3 0x0000000000000001, isFcsr 0x03030200] = true := by decide +kernel

/-- V434: `fdiv.s f3, f1, f2`. -/
theorem test_fdivS : runs 0x01068823 [fw 1 0x7F800000, fw 2 0xFF800000]
    [isFw 3 0x7FC00000, isFcsr 0x10100000] = true := by decide +kernel

/-- V440: `fdiv.d f3, f1, f2`. -/
theorem test_fdivD : runs 0x01070823 [fd 1 0x3FF0000000000000, fd 2 0x4008000000000000]
    [isFd 3 0x3FD5555555555555, isFcsr 0x01010000] = true := by decide +kernel

/-- V456: `fmax.s f3, f1, f2`. -/
theorem test_fmaxS : runs 0x01088823 [fw 1 0xFF800000, fw 2 0xFF7FFFFF] [isFw 3 0xFF7FFFFF] = true := by decide +kernel

/-- R437: `fmax.d f3, f1, f2`. -/
theorem test_fmaxD : runs 0x01090823 [fd 1 0xBFF0000000000000, fd 2 0xC000000000000000]
    [isFd 3 0xBFF0000000000000] = true := by decide +kernel

/-- R438: `fmin.s f3, f1, f2`. -/
theorem test_fminS : runs 0x010A8823 [fw 1 0x7F800001, fw 2 0x3F800000]
    [isFw 3 0x7FC00001, isFcsr 0x10100000] = true := by decide +kernel

/-- R439: `fmin.d f3, f1, f2`. -/
theorem test_fminD : runs 0x010B0823 [fd 1 0x3FF0000000000000, fd 2 0xFFF0000000000000]
    [isFd 3 0xFFF0000000000000] = true := by decide +kernel

/-- V461: `fmaxa.s f3, f1, f2`. -/
theorem test_fmaxaS : runs 0x010C8823 [fw 1 0xFF800000, fw 2 0x7F7FFFFF] [isFw 3 0xFF800000] = true := by decide +kernel

/-- R441: `fmaxa.d f3, f1, f2`. -/
theorem test_fmaxaD : runs 0x010D0823 [fd 1 0xC000000000000000, fd 2 0x4000000000000000]
    [isFd 3 0x4000000000000000] = true := by decide +kernel

/-- R442: `fmina.s f3, f1, f2`. -/
theorem test_fminaS : runs 0x010E8823 [fw 1 0xC0400000, fw 2 0x40000000] [isFw 3 0x40000000] = true := by decide +kernel

/-- R443: `fmina.d f3, f1, f2`. -/
theorem test_fminaD : runs 0x010F0823 [fd 1 0xC000000000000000, fd 2 0x4000000000000000]
    [isFd 3 0xC000000000000000] = true := by decide +kernel

/-- R454: `fcopysign.s f3, f1, f2`. -/
theorem test_fcopysignS : runs 0x01128823 [fw 1 0x3F800000, fw 2 0x80000000] [isFw 3 0xBF800000] = true := by decide +kernel

/-- R455: `fcopysign.d f3, f1, f2`. -/
theorem test_fcopysignD : runs 0x01130823 [fd 1 0xC000000000000000, fd 2 0x7FF0000000000000]
    [isFd 3 0x4000000000000000] = true := by decide +kernel

/-- R444: `fabs.s f3, f1`. -/
theorem test_fabsS : runs 0x01140423 [fw 1 0xBF800000] [isFw 3 0x3F800000] = true := by decide +kernel

/-- R445: `fabs.d f3, f1`. -/
theorem test_fabsD : runs 0x01140823 [fd 1 0xFFF0000000000001] [isFd 3 0x7FF0000000000001] = true := by decide +kernel

/-- R446: `fneg.s f3, f1`. -/
theorem test_fnegS : runs 0x01141423 [fw 1 0x00000000] [isFw 3 0x80000000] = true := by decide +kernel

/-- R447: `fneg.d f3, f1`. -/
theorem test_fnegD : runs 0x01141823 [fd 1 0x3FF0000000000000] [isFd 3 0xBFF0000000000000] = true := by decide +kernel

/-- R456: `fclass.s f3, f1`. -/
theorem test_fclassS : runs 0x01143423 [fw 1 0x3F800000] [isFw 3 0x00000080] = true := by decide +kernel

/-- R457: `fclass.d f3, f1`. -/
theorem test_fclassD : runs 0x01143823 [fd 1 0x8000000000000000] [isFd 3 0x0000000000000020] = true := by decide +kernel

/-- V471: `fsqrt.s f3, f1`. -/
theorem test_fsqrtS : runs 0x01144423 [fw 1 0x7F800000] [isFw 3 0x7F800000] = true := by decide +kernel

/-- V476: `fsqrt.d f3, f1`. -/
theorem test_fsqrtD : runs 0x01144823 [fd 1 0x4000000000000000]
    [isFd 3 0x3FF6A09E667F3BCD, isFcsr 0x01010000] = true := by decide +kernel

/-- V478: `frecip.s f3, f1`. -/
theorem test_frecipS : runs 0x01145423 [fw 1 0x00000001] [isFw 3 0x7F800000, isFcsr 0x05050000] = true := by decide +kernel

/-- V481: `frecip.d f3, f1`. -/
theorem test_frecipD : runs 0x01145823 [fd 1 0x4000000000000000] [isFd 3 0x3FE0000000000000] = true := by decide +kernel

/-- V483: `frsqrt.s f3, f1`. -/
theorem test_frsqrtS : runs 0x01146423 [fw 1 0x7F800000, fw 3 0x40400000] [isFw 3 0x00000000] = true := by decide +kernel

/-- R453: `frsqrt.d f3, f1`. -/
theorem test_frsqrtD : runs 0x01146823 [fd 1 0x0000000000000000]
    [isFd 3 0x7FF0000000000000, isFcsr 0x08080000] = true := by decide +kernel

/-- R500: `fmov.s f3, f1`. -/
theorem test_fmovS : runs 0x01149423 [fw 1 0x7F800001] [isFw 3 0x7F800001] = true := by decide +kernel

/-- R501: `fmov.d f3, f1`. -/
theorem test_fmovD : runs 0x01149823 [fd 1 0x400921FB54442D18] [isFd 3 0x400921FB54442D18] = true := by decide +kernel

/-- R503: `movgr2fr.w f3, r1`. -/
theorem test_movgr2frW : runs 0x0114A423 [x 1 0x3F800000] [isFw 3 0x3F800000] = true := by decide +kernel

/-- R504: `movgr2frh.w f3, r1`. -/
theorem test_movgr2frhW : runs 0x0114AC23 [x 1 0x3FF00000, fd 3 0x0000000000000000]
    [isFd 3 0x3FF0000000000000] = true := by decide +kernel

/-- R505: `movfr2gr.s r3, f1`. -/
theorem test_movfr2grS : runs 0x0114B423 [fd 1 0x400921FB54442D18] [isX 3 0x54442D18] = true := by decide +kernel

/-- R506: `movfrh2gr.s r3, f1`. -/
theorem test_movfrh2grS : runs 0x0114BC23 [fd 1 0x400921FB54442D18] [isX 3 0x400921FB] = true := by decide +kernel

/-- V574: `movgr2fcsr fcsr2, r0`. -/
theorem test_movgr2fcsr : runs 0x0114C002 [fcsr 0x1F1F031F] [isFcsr 0x0000031F] = true := by decide +kernel

/-- V578: `movfcsr2gr r3, fcsr1`. -/
theorem test_movfcsr2gr : runs 0x0114C823 [fcsr 0x1F1F031F] [isX 3 0x0000001F] = true := by decide +kernel

/-- R510: `movfr2cf fcc0, f1`. -/
theorem test_movfr2cf : runs 0x0114D020 [fw 1 0x00000003, fcc false] [isFcc true] = true := by decide +kernel

/-- R511: `movcf2fr f3, fcc0`. -/
theorem test_movcf2fr : runs 0x0114D403 [fcc true] [isFd 3 0x0000000000000001] = true := by decide +kernel

/-- R512: `movgr2cf fcc0, r1`. -/
theorem test_movgr2cf : runs 0x0114D820 [x 1 0x00000002, fcc true] [isFcc false] = true := by decide +kernel

/-- R513: `movcf2gr r3, fcc0`. -/
theorem test_movcf2gr : runs 0x0114DC03 [x 3 0xFFFFFFFF, fcc true] [isX 3 0x00000001] = true := by decide +kernel

/-- V527: `fcvt.s.d f3, f1`. -/
theorem test_fcvtSD : runs 0x01191823 [fd 1 0x7E37E43C8800759C, fcsr 0x00000100]
    [isFw 3 0x7F7FFFFF, isFcsr 0x05050100] = true := by decide +kernel

/-- V536: `fcvt.d.s f3, f1`. -/
theorem test_fcvtDS : runs 0x01192423 [fw 1 0xFFC00001] [isFd 3 0xFFF8000020000000] = true := by decide +kernel

/-- R486: `ftintrm.w.s f3, f1`. -/
theorem test_ftintrmWS : runs 0x011A0423 [fw 1 0xBFC00000] [isFw 3 0xFFFFFFFE, isFcsr 0x01010000] = true := by decide +kernel

/-- R487: `ftintrm.w.d f3, f1`. -/
theorem test_ftintrmWD : runs 0x011A0823 [fd 1 0x3FF8000000000000]
    [isFw 3 0x00000001, isFcsr 0x01010000] = true := by decide +kernel

/-- R488: `ftintrp.w.s f3, f1`. -/
theorem test_ftintrpWS : runs 0x011A4423 [fw 1 0x3FA00000] [isFw 3 0x00000002, isFcsr 0x01010000] = true := by decide +kernel

/-- R489: `ftintrp.w.d f3, f1`. -/
theorem test_ftintrpWD : runs 0x011A4823 [fd 1 0xBFF8000000000000]
    [isFw 3 0xFFFFFFFF, isFcsr 0x01010000] = true := by decide +kernel

/-- R490: `ftintrz.w.s f3, f1`. -/
theorem test_ftintrzWS : runs 0x011A8423 [fw 1 0xBFE00000] [isFw 3 0xFFFFFFFF, isFcsr 0x01010000] = true := by decide +kernel

/-- R491: `ftintrz.w.d f3, f1`. -/
theorem test_ftintrzWD : runs 0x011A8823 [fd 1 0x41DFFFFFFFE00000]
    [isFw 3 0x7FFFFFFF, isFcsr 0x01010000] = true := by decide +kernel

/-- R492: `ftintrne.w.s f3, f1`. -/
theorem test_ftintrneWS : runs 0x011AC423 [fw 1 0x40600000, fcsr 0x00000100]
    [isFw 3 0x00000004, isFcsr 0x01010100] = true := by decide +kernel

/-- V565: `ftintrne.w.d f3, f1`. -/
theorem test_ftintrneWD : runs 0x011AC823 [fd 1 0x4008000000000000] [isFw 3 0x00000003] = true := by decide +kernel

/-- V546: `ftint.w.s f3, f1`. -/
theorem test_ftintWS : runs 0x011B0423 [fw 1 0x3FC00000] [isFw 3 0x00000002, isFcsr 0x01010000] = true := by decide +kernel

/-- V555: `ftint.w.d f3, f1`. -/
theorem test_ftintWD : runs 0x011B0823 [fd 1 0x41DFFFFFFFE00000, fcsr 0x00000100]
    [isFw 3 0x7FFFFFFF, isFcsr 0x01010100] = true := by decide +kernel

/-- V540: `ffint.s.w f3, f1`. -/
theorem test_ffintSW : runs 0x011D1023 [fw 1 0x7FFFFFFF, fcsr 0x00000100]
    [isFw 3 0x4EFFFFFF, isFcsr 0x01010100] = true := by decide +kernel

/-- V544: `ffint.d.w f3, f1`. -/
theorem test_ffintDW : runs 0x011D2023 [fw 1 0x7FFFFFFF] [isFd 3 0x41DFFFFFFFC00000] = true := by decide +kernel

/-- V283: `slti r3, r1, -2048`. -/
theorem test_slti : runs 0x02200023 [x 1 0x80000000] [isX 3 0x00000001] = true := by decide +kernel

/-- V286: `sltui r3, r1, -2048`. -/
theorem test_sltui : runs 0x02600023 [x 1 0xFFFFF800, x 3 0x00000009] [isX 3 0x00000000] = true := by decide +kernel

/-- V271: `addi.w r3, r1, -2048`. -/
theorem test_addiW : runs 0x02A00023 [x 1 0x00000800, x 3 0x00000009] [isX 3 0x00000000] = true := by decide +kernel

/-- V298: `andi r3, r1, 0x800`. -/
theorem test_andi : runs 0x03600023 [x 1 0xFFFFF800] [isX 3 0x00000800] = true := by decide +kernel

/-- V300: `ori r3, r1, 0x678`. -/
theorem test_ori : runs 0x0399E023 [x 1 0x12345000] [isX 3 0x12345678] = true := by decide +kernel

/-- V302: `xori r3, r1, 0`. -/
theorem test_xori : runs 0x03C00023 [x 1 0x80000001] [isX 3 0x80000001] = true := by decide +kernel

/-- V632: `csrrd r3, 0x1B`. -/
theorem test_csrrd : runs 0x04006C03 [csr .pgdl 0x11111000, csr .pgdh 0x22222000, csr .badv 0x80000000]
    [isX 3 0x22222000] = true := by decide +kernel

/-- V607: `csrwr r3, 0x10`. -/
theorem test_csrwr : runs 0x04004023 [x 3 0xFFFFFFFF] [isX 3 0x00000000, isCsr .tlbidx 0xBF00001F] = true := by decide +kernel

/-- V633: `csrwr r3, 0x60`. -/
theorem test_csrwr_2 : runs 0x04018023 [csr .llbctl 0x00000004, llbit true, x 3 0x00000002]
    [isLlbit false] = true := by decide +kernel

/-- V641: `csrxchg r3, r3, 0x31`. -/
theorem test_csrxchg : runs 0x0400C463 [csr .save1 0x12345678, x 3 0x0000FFFF]
    [isX 3 0x12345678, isCsr .save1 0x1234FFFF] = true := by decide +kernel

/-- V642: `csrxchg r3, r2, 0x0`. -/
theorem test_csrxchg_2 : runs 0x04000043 [x 3 0x00000004, x 2 0x00000004]
    [isX 3 0x00000008, isCsr .crmd 0x0000000C] = true := by decide +kernel

/-- V657: `cacop 0x10, r1, 0`. -/
theorem test_cacop : runs 0x06000030 [pc 0x00010000, csr .crmd 0x0000000B, csr .eentry 0x1C001000, x 1 0x00001000]
    [isPc 0x00010004] = true := by decide +kernel

/-- V677: `tlbsrch`. -/
theorem test_tlbsrch : runs 0x06482800 [csr .asid 0x2, csr .tlbehi 0x00020000, entry 10 t1, entry 11 t2, entry 12 t3, entry 13 t4]
    [isCsr .tlbidx 0x0000000D] = true := by decide +kernel

/-- V682: `tlbrd`. -/
theorem test_tlbrd : runs 0x06482C00 [csr .tlbidx 0x0000000C, entry 10 t1, entry 11 t2, entry 12 t3, entry 13 t4]
    [isCsr .tlbidx 0x1500000C, isCsr .tlbehi 0x00800000, isCsr .tlbelo0 0x00080013] = true := by decide +kernel

/-- V685: `tlbwr`. -/
theorem test_tlbwr : runs 0x06483000 [csr .tlbehi 0x00020000, csr .tlbelo0 0x0001005F, csr .tlbelo1 0x0001015D,
      csr .asid 0x1, csr .tlbidx 0x0C000003]
    [isEntry 3 (⟨true, 0x1, true, 12, 0x00010, ⟨true, true, 3, 1, 0x00100⟩, ⟨true, false, 3, 1, 0x00101⟩⟩ : TlbEntry)] = true := by decide +kernel

/-- V650: `tlbfill`, IPE. -/
theorem test_tlbfill : runs 0x06483400 [pc 0x00010000, csr .crmd 0x0000000B, csr .eentry 0x1C001000]
    [isPc 0x1C001000, isCsr .estat 0x000E0000] = true := by decide +kernel

/-- V690: `ertn`. -/
theorem test_ertn : runs 0x06483800 [pc 0x1C001010, csr .crmd 0x00000008, csr .prmd 0x00000007, csr .era 0x00010000,
      csr .estat 0x000B0000, csr .llbctl 0x00000004, llbit true]
    [isPc 0x00010000, isCsr .crmd 0x0000000F] = true := by decide +kernel

/-- V691: `ertn`. -/
theorem test_ertn_2 : runs 0x06483800 [pc 0x1C002010, csr .crmd 0x00000008, csr .prmd 0x00000004,
      csr .era 0x40002000, csr .estat 0x003F0000, llbit true]
    [isPc 0x40002000, isCsr .crmd 0x00000014, isLlbit false] = true := by decide +kernel

/-- R552: `idle 0`. -/
theorem test_idle : runs 0x06488000 [] [isWaiting] = true := by decide +kernel

/-- V664: `invtlb 3, r0, r0`. -/
theorem test_invtlb : runs 0x06498003 [entry 10 t1, entry 11 t2, entry 12 t3, entry 13 t4]
    [isEmpty 10, isEmpty 12, isEmpty 13] = true := by decide +kernel

/-- V667: `invtlb 5, r1, r2`. -/
theorem test_invtlb_2 : runs 0x06498825 [entry 10 t1, entry 11 t2, entry 12 t3, entry 13 t4, x 1 0x00000001, x 2 0x00021FFF]
    [isEmpty 10] = true := by decide +kernel

/-- V442: `fmadd.s f3, f1, f2, f4`. -/
theorem test_fmaddS : runs 0x08120823 [fw 1 0x7F800000, fw 2 0x3F800000, fw 4 0xFF800000]
    [isFw 3 0x7FC00000, isFcsr 0x10100000] = true := by decide +kernel

/-- R429: `fmadd.d f3, f1, f2, f4`. -/
theorem test_fmaddD : runs 0x08220823 [fd 1 0x4000000000000000, fd 2 0x4008000000000000, fd 4 0x3FF0000000000000]
    [isFd 3 0x401C000000000000] = true := by decide +kernel

/-- V449: `fmsub.s f3, f1, f2, f4`. -/
theorem test_fmsubS : runs 0x08520823 [fw 1 0x3F800000, fw 2 0x3F800000, fw 4 0x3F800000, fcsr 0x00000300]
    [isFw 3 0x80000000] = true := by decide +kernel

/-- R431: `fmsub.d f3, f1, f2, f4`. -/
theorem test_fmsubD : runs 0x08620823 [fd 1 0x4000000000000000, fd 2 0x4008000000000000, fd 4 0x7FF0000000000000]
    [isFd 3 0xFFF0000000000000] = true := by decide +kernel

/-- R432: `fnmadd.s f3, f1, f2, f4`. -/
theorem test_fnmaddS : runs 0x08920823 [fw 1 0x40000000, fw 2 0x40400000, fw 4 0x3F800000]
    [isFw 3 0xC0E00000] = true := by decide +kernel

/-- R433: `fnmadd.d f3, f1, f2, f4`. -/
theorem test_fnmaddD : runs 0x08A20823 [fd 1 0x3FF8000000000000, fd 2 0x4000000000000000, fd 4 0x3FE0000000000000]
    [isFd 3 0xC00C000000000000] = true := by decide +kernel

/-- R434: `fnmsub.s f3, f1, f2, f4`. -/
theorem test_fnmsubS : runs 0x08D20823 [fw 1 0x40000000, fw 2 0x40400000, fw 4 0x3F800000]
    [isFw 3 0xC0A00000] = true := by decide +kernel

/-- R435: `fnmsub.d f3, f1, f2, f4`. -/
theorem test_fnmsubD : runs 0x08E20823 [fd 1 0x3FF0000000000000, fd 2 0x3FF0000000000000, fd 4 0x3FF0000000000000]
    [isFd 3 0x8000000000000000] = true := by decide +kernel

/-- V521: `fcmp.clt.s fcc0, f1, f2`. -/
theorem test_fcmpS : runs 0x0C110820 [fw 1 0xFF800000, fw 2 0x7F800000, fcc false] [isFcc true] = true := by decide +kernel

/-- R473: `fcmp.seq.d fcc0, f1, f2`. -/
theorem test_fcmpD : runs 0x0C228820 [fd 1 0x3FF0000000000000, fd 2 0x7FF8000000000000, fcc true]
    [isFcc false, isFcsr 0x10100000] = true := by decide +kernel

/-- R502: `fsel f3, f1, f2, fcc0`. -/
theorem test_fsel : runs 0x0D000823 [fd 1 0x3FF0000000000000, fd 2 0x4000000000000000, fcc true]
    [isFd 3 0x4000000000000000] = true := by decide +kernel

/-- V274: `lu12i.w r3, -524288`. -/
theorem test_lu12iW : runs 0x15000003 [] [isX 3 0x80000000] = true := by decide +kernel

/-- V290: `pcaddu12i r3, 524287`. -/
theorem test_pcaddu12i : runs 0x1CFFFFE3 [pc 0x1C000040] [isX 3 0x9BFFF040] = true := by decide +kernel

/-- V388: `ll.w r3, r1, -4`. -/
theorem test_llW : runs 0x20FFFC23 [mem 0x1000 8 0x7F6E5D4C8091A2B3, csr .crmd 0x00000088, llbit true, x 1 0x00001008]
    [isX 3 0x7F6E5D4C] = true := by decide +kernel

/-- V390: `sc.w r3, r1, 4`. -/
theorem test_scW : runs 0x21000423 [csr .crmd 0x00000088, llbit false, x 1 0x00001000, x 3 0xAABBCCDD]
    [isX 3 0x00000000] = true := by decide +kernel

/-- V392: `sc.w r0, r1, 0`. -/
theorem test_scW_2 : runs 0x21000020 [csr .crmd 0x00000088, llbit true, x 1 0x00001000]
    [isMem 0x00001000 4 0x00000000] = true := by decide +kernel

/-- V367: `ld.b r3, r1, 4`. -/
theorem test_ldB : runs 0x28001023 [mem 0x1000 8 0x7F6E5D4C8091A2B3, x 1 0x00001000]
    [isX 3 0x0000004C] = true := by decide +kernel

/-- V371: `ld.h r3, r1, 6`. -/
theorem test_ldH : runs 0x28401823 [mem 0x1000 8 0x7F6E5D4C8091A2B3, x 1 0x00001000]
    [isX 3 0x00007F6E] = true := by decide +kernel

/-- V375: `ld.w r1, r1, 0`. -/
theorem test_ldW : runs 0x28800021 [mem 0x1000 8 0x7F6E5D4C8091A2B3, x 1 0x00001000]
    [isX 1 0x8091A2B3] = true := by decide +kernel

/-- V378: `ld.w r3, r1, 2`, ALE. -/
theorem test_ldW_2 : runs 0x28800823 [mem 0x1000 8 0x7F6E5D4C8091A2B3, x 1 0x00001000, x 3 0x00000009]
    [isPc 0x00000000, isCsr .estat 0x00090000] = true := by decide +kernel

/-- R376: `st.b r3, r1, 1`. -/
theorem test_stB : runs 0x29000423 [x 1 0x00001000, x 3 0x11223344, mem 0x00001000 4 0x00000000]
    [isMem 0x00001001 1 0x44] = true := by decide +kernel

/-- R377: `st.h r3, r1, 2`. -/
theorem test_stH : runs 0x29400823 [x 1 0x00001000, x 3 0x11223344, mem 0x00001000 4 0x00000000]
    [isMem 0x00001002 2 0x3344] = true := by decide +kernel

/-- V385: `st.w r1, r1, 0`. -/
theorem test_stW : runs 0x29800021 [x 1 0x00001000] [isMem 0x00001000 4 0x00001000] = true := by decide +kernel

/-- R374: `ld.bu r3, r1, 3`. -/
theorem test_ldBU : runs 0x2A000C23 [x 1 0x00001000, mem 0x00001000 4 0x8091A2B3] [isX 3 0x00000080] = true := by decide +kernel

/-- R375: `ld.hu r3, r1, 2`. -/
theorem test_ldHU : runs 0x2A400823 [x 1 0x00001000, mem 0x00001000 4 0x8091A2B3] [isX 3 0x00008091] = true := by decide +kernel

/-- V387: `preld 0x1F, r0, -1`. -/
theorem test_preld : runs 0x2AFFFC1F [] [isPc 0x1C000004] = true := by decide +kernel

/-- R520: `fld.s f3, r1, 4`. -/
theorem test_fldS : runs 0x2B001023 [x 1 0x00001000, mem 0x00001004 4 0x3F800000] [isFw 3 0x3F800000] = true := by decide +kernel

/-- R522: `fst.s f1, r2, -4`. -/
theorem test_fstS : runs 0x2B7FF041 [x 2 0x00001008, fw 1 0xC0400000, mem 0x00001004 4 0x00000000]
    [isMem 0x00001004 4 0xC0400000] = true := by decide +kernel

/-- V720: `fld.d f3, r1, 0`. -/
theorem test_fldD : runs 0x2B800023 [mem 0x1000 8 0x7F6E5D4C8091A2B3, csr .crmd 0x00000010,
      entry 5 (⟨true, 0x0, false, 12, 0x20001, ⟨true, true, 0, 1, 0x00001⟩, ⟨true, true, 0, 1, 0x00001⟩⟩ : TlbEntry), x 1 0x40002000]
    [isFd 3 0x7F6E5D4C8091A2B3] = true := by decide +kernel

/-- V589: `fst.d f1, r2, 8`. -/
theorem test_fstD : runs 0x2BC02041 [x 2 0x00001000, fd 1 0x0102030405060708]
    [isMem 0x00001008 8 0x0102030405060708] = true := by decide +kernel

/-- R390: `dbar 0`. -/
theorem test_dbar : runs 0x38720000 [] [isPc 0x1C000004] = true := by decide +kernel

/-- R391: `ibar 0`. -/
theorem test_ibar : runs 0x38728000 [] [isPc 0x1C000004] = true := by decide +kernel

/-- V584: `bceqz fcc0, 4194300`. -/
theorem test_bceqz : runs 0x4BFFFC0F [pc 0x1C000100, fcc false] [isPc 0x1C4000FC] = true := by decide +kernel

/-- V586: `bcnez fcc0, -4194304`. -/
theorem test_bcnez : runs 0x48000110 [pc 0x1C400100, fcc true] [isPc 0x1C000100] = true := by decide +kernel

/-- V363: `jirl r1, r4, -8`. -/
theorem test_jirl : runs 0x4FFFF881 [pc 0x1C000100, x 4 0x1C000808]
    [isX 1 0x1C000104, isPc 0x1C000800] = true := by decide +kernel

/-- V358: `b 0`. -/
theorem test_b : runs 0x50000000 [pc 0x1C000100] [isPc 0x1C000100] = true := by decide +kernel

/-- V361: `bl 8`. -/
theorem test_bl : runs 0x54000800 [pc 0xFFFFFFFC, x 1 0x00000009] [isX 1 0x00000000, isPc 0x00000004] = true := by decide +kernel

/-- V345: `beq r1, r2, 131068`. -/
theorem test_beq : runs 0x59FFFC22 [pc 0x1C000100, x 1 0x00000005, x 2 0x00000005] [isPc 0x1C0200FC] = true := by decide +kernel

/-- V348: `bne r1, r0, -4`. -/
theorem test_bne : runs 0x5FFFFC20 [pc 0x1C000100, x 1 0x00000005] [isPc 0x1C0000FC] = true := by decide +kernel

/-- V350: `blt r1, r2, 8`. -/
theorem test_blt : runs 0x60000822 [pc 0x1C000100, x 1 0x80000000, x 2 0x7FFFFFFF] [isPc 0x1C000108] = true := by decide +kernel

/-- V352: `bge r1, r2, 8`. -/
theorem test_bge : runs 0x64000822 [pc 0x1C000100, x 1 0x7FFFFFFF, x 2 0x80000000] [isPc 0x1C000108] = true := by decide +kernel

/-- V353: `bltu r1, r2, 8`. -/
theorem test_bltu : runs 0x68000822 [pc 0x1C000100, x 1 0x7FFFFFFF, x 2 0x80000000] [isPc 0x1C000108] = true := by decide +kernel

/-- V356: `bgeu r1, r0, 8`. -/
theorem test_bgeu : runs 0x6C000820 [pc 0x1C000100, x 1 0x00000000] [isPc 0x1C000108] = true := by decide +kernel

/-! ## Steps of the whole machine -/

def isNext (r : Result) (checks : List Check) : Bool :=
  match r with
  | .next t => checks.all fun c => c t
  | _ => false

/-- V4 placed by withFetchWord: the next step runs it and one tick passes. -/
theorem test_step_runs : isNext (step ((x 5 2 start |> x 6 3).withFetchWord 32 0x001018A4))
    [isX 4 5, isPc 0x1C000004, fun t => t.stableCounter == 1] = true := by decide +kernel

theorem test_decodeTableWord : decodeTableWord 32 0x001018A4 = some (.addW 4 5 6) := by decide

/-- R543: TLBFILL at PLV0 completes; which entry it puts in is open. -/
theorem test_tlbfill_completes : runs 0x06483400 [csr .tlbehi 0x20000] [isPc 0x1C000004] = true := by decide +kernel

/-- R620: SYSCALL at PLV3 with IE = 1. -/
theorem test_exception_entry : runs 0x002B0000 [csr .crmd 0x0F, csr .eentry 0x1C008000]
    [isPc 0x1C008000, isCsr .crmd 0x08, fun t => t.csr.prmd == 7 && t.csr.era == 0x1C000000 && t.ecode == 0xB] = true := by
  decide +kernel

/-- R651: the countdown reaches 0 and, not periodic, stops. -/
theorem test_timer_one_shot : (let t := (csr .tcfg 5 { start with timerVal := 1, timerRun := true }).tick
    t.tiFlag && t.timerVal == 0 && !t.timerRun) = true := by decide +kernel

/-- R386: a store of another agent to the linked line clears LLbit; one to the next line does not. -/
theorem test_external_store : (let s := { start with llbit := true, llAddr := 0x1000 }
    !(s.externalStore 0x103F 1).llbit && (s.externalStore 0x1040 1).llbit) = true := by decide +kernel

/-- R652: a CSRXCHG to TCFG with mask 0 loads and arms the timer too. -/
theorem test_timer_reload : (match exec (.csrxchg 4 5 0x41) (csr .tcfg 0x1235 start) with
    | .next t => t.timerVal == 0x1234 && t.timerRun && t.csr.tcfg == 0x1235
    | _ => false) = true := by decide +kernel

/-- A machine whose memory ends at 0x1000, coherent cached data accesses. -/
def small : State := let s := csr .crmd 0x88 start; { s with cfg := { s.cfg with memMap := [⟨0, 0x1000, .ram⟩] } }

/-- R381: with LLbit 0 SC.W answers 0 where there is no memory; with LLbit 1 it stops. -/
theorem test_scW_no_access : (isNext (exec (.scW 4 5 0) (x 5 0x2000 small)) [isX 4 0, isPc 0x1C000004] &&
    !isNext (exec (.scW 4 5 0) (x 5 0x2000 { small with llbit := true })) []) = true := by decide +kernel

/-- The state a run of instructions leaves. -/
def after (l : List Instr) (s : State) : State :=
  l.foldl (fun s i => match exec i s with | .next t => t | _ => s) s

/-- R722: without the whole sequence, in its order, a fetch may see a word as it was before a store; after it, only memory. -/
theorem test_code_sequence :
    (let st : Instr := .stB 5 4 1
     let wb : Instr := .cacop 0x11 4 0
     let inv : Instr := .cacop 0x10 4 0
     let s := x 4 0x1234 (x 5 0xAB start)
     let olds := fun l => (after l s).oldWords 0x1234
     olds [st] == [0] && olds [st, .ibar 0] == [0] && olds [st, inv, wb, .ibar 0] == [0] &&
       olds [st, wb, inv, st, .ibar 0] == [0xAB00, 0] && olds [st, wb, inv, .ibar 0] == []) = true := by decide +kernel

/-- U12: the word a fetch sees is the new one or the old one, whole: FST.D leaves two words, each with its own old value. -/
theorem test_old_words :
    (let s := (mem 0x2000 8 0x1111111122222222 start).storeMem 0x2000 8 0x3333333344444444
     s.oldWords 0x2000 == [0x22222222] && s.oldWords 0x2004 == [0x11111111] && s.oldWords 0x2001 == [] &&
       s.mem.word 0x2000 == 0x44444444) = true := by decide +kernel

/-- R200: another master's store shows in every value a fetch may see. -/
theorem test_store_of_master_is_fetched :
    (let s := ((mem 0x2000 4 0x11223344 start).storeMem 0x2000 4 0x55667788).externalStore 0x2002 0xEE
     s.oldWords 0x2000 == [0x11EE3344] && s.mem.word 0x2000 == 0x55EE7788) = true := by decide +kernel

/-! ## Witnesses: for each obligation with hypotheses, states and operands that meet them -/

/-- AccessOk, as a test. -/
def accessOk (s : State) (va : Word) (n : Nat) (k : Access) (t : Translated) : Bool :=
  decide (va.toNat % n = 0) && (match translate s va k with | .ok u => u == t | _ => false) && decide (t.mat.toNat < 2) &&
    (List.range n).all fun j => s.cfg.regionAt (t.pa + j) == some .ram

theorem accessOk_sound {s : State} {va : Word} {n : Nat} {k : Access} {t : Translated} (h : accessOk s va n k t = true) :
    AccessOk s va n k t := by
  simp only [accessOk, Bool.and_eq_true, decide_eq_true_eq, List.all_eq_true, List.mem_range, beq_iff_eq] at h
  obtain ⟨⟨⟨h1, h2⟩, h3⟩, h4⟩ := h
  refine ⟨h1, ?_, h3, h4⟩
  split at h2
  · next u hu => rw [hu, beq_iff_eq.mp h2]
  · cases h2

/-- The translation raises this exception. -/
def trapsWith (s : State) (va : Word) (k : Access) (e : Exc) : Bool :=
  match translate s va k with
  | .trap e' => e' == e
  | _ => false

theorem trapsWith_sound {s : State} {va : Word} {k : Access} {e : Exc} (h : trapsWith s va k e = true) :
    translate s va k = .trap e := by
  unfold trapsWith at h
  split at h
  · next e' he => rw [he, beq_iff_eq.mp h]
  · cases h

/-- Mapped mode at PLV0 with an empty TLB and floating point enabled. -/
def mapped : State := csr .crmd 0x10 start

/-- PLV3 in direct mode. -/
def user : State := csr .crmd 0x0B start

/-- Single precision only. -/
def singleOnly : State := { start with cfg := { start.cfg with fpLevel := .single } }

/-- No floating point. -/
def noFp : State := { start with cfg := { start.cfg with fpLevel := .none } }

/-- An entry for the pair of 4 KiB pages at 0: the even page for any level and written to, the odd one for PLV0, clean. -/
def pair4K : TlbEntry := ⟨true, 0, false, 12, 0, ⟨true, true, 3, 1, 0x100⟩, ⟨true, false, 0, 1, 0x101⟩⟩

/-- A global entry for the pair of 2 MiB pages at 0x00400000, the odd one not valid. -/
def pair2M : TlbEntry := ⟨true, 5, true, 21, 0x200, ⟨true, true, 3, 0, 0x400⟩, ⟨false, false, 0, 0, 0⟩⟩

theorem start_inv : start.Inv := by
  refine ⟨by decide, by decide, fun k => ?_, by decide, by decide, by decide, fun e he => ?_⟩
  · cases k <;> decide
  · have h : ∀ e ∈ start.tlb, e.page0.ppn = 0 ∧ e.page1.ppn = 0 := by decide +kernel
    unfold TlbPage.fits
    rw [(h e he).1, (h e he).2]
    decide

theorem test_witness_DecodeOfEncode : (Instr.csrxchg 31 2 0x3FFF).wellFormed = true ∧ ([0, 0, 0] : List Byte).length < 4 := by
  decide

theorem test_witness_EncodeOfDecode : decode 0x6FFFFFFF = some (.bgeu 31 31 0xFFFF) := by decide

theorem test_witness_StepRunsDecodedInstruction :
    let s := mem 0x1C000000 4 0x001018A4 start
    s.asleep = false ∧ s.awake.interruptDue = false ∧ AccessOk s s.pc 4 .fetch ⟨0x1C000000, 0⟩ ∧
      s.fresh 0x1C000000 ∧ decode (BitVec.ofNat 32 (s.natAt 0x1C000000 4)) = some (.addW 4 5 6) :=
  ⟨by decide +kernel, by decide +kernel, accessOk_sound (by decide +kernel), by unfold State.fresh; decide +kernel, by decide +kernel⟩

/-- The word at the pc stored to without the sequence of R722: a branch and a word that matches no row. -/
theorem test_witness_StepRunsDecodedInstruction_old :
    let s := { start with stale := [⟨0x1C000000, [0x50000000, 0xFF000000], .writtenBack⟩] }
    s.asleep = false ∧ s.awake.interruptDue = false ∧ AccessOk s s.pc 4 .fetch ⟨0x1C000000, 0⟩ ∧
      s.oldWords 0x1C000000 = [0x50000000, 0xFF000000] ∧ decode 0x50000000 = some (.b 0) ∧ decode 0xFF000000 = none :=
  ⟨by decide +kernel, by decide +kernel, accessOk_sound (by decide +kernel), by decide +kernel, by decide +kernel, by decide +kernel⟩

theorem test_witness_FetchExceptions_adef : let s := pc 0x1C000003 start
    s.asleep = false ∧ s.awake.interruptDue = false ∧ s.pc.toNat % 4 ≠ 0 := by decide +kernel

theorem test_witness_FetchExceptions_translation :
    mapped.asleep = false ∧ mapped.awake.interruptDue = false ∧ mapped.pc.toNat % 4 = 0 ∧
      translate mapped mapped.pc .fetch = .trap (.tlbr 0x1C000000) :=
  ⟨by decide +kernel, by decide +kernel, by decide +kernel, trapsWith_sound (by decide +kernel)⟩

theorem test_witness_FetchExceptions_ine :
    start.asleep = false ∧ start.awake.interruptDue = false ∧ AccessOk start start.pc 4 .fetch ⟨0x1C000000, 0⟩ ∧
      start.fresh 0x1C000000 ∧ decode (BitVec.ofNat 32 (start.natAt 0x1C000000 4)) = none :=
  ⟨by decide +kernel, by decide +kernel, accessOk_sound (by decide +kernel), by unfold State.fresh; decide +kernel, by decide +kernel⟩

/-- A stored word of the line and one of another line; memory under the word. -/
theorem test_witness_CodeSynchronisation :
    let s := x 4 0x1000 { start with stale := [⟨0x103C, [1], .stored⟩, ⟨0x1040, [2], .invalidated⟩] }
    (s.stale.map (·.pa)).Nodup ∧ translate s (s.addr12 4 0) .load = .ok ⟨0x1000, 0⟩ ∧
      0x103C / 2 ^ s.cfg.lineBits = 0x1000 / 2 ^ s.cfg.lineBits ∧ 0x1040 / 2 ^ s.cfg.lineBits ≠ 0x1000 / 2 ^ s.cfg.lineBits ∧
      s.cfg.regionAt 0x103E = some .ram ∧ s.oldWords (0x103E / 4 * 4) = [1] :=
  ⟨by decide +kernel, (accessOk_sound (n := 1) (by decide +kernel)).2.1, by decide +kernel, by decide +kernel, by decide +kernel,
    by decide +kernel⟩

/-- Interrupts 0 and 12. -/
theorem test_witness_InterruptsAndWaking_due :
    (csr .crmd 0x0C (csr .ecfg 1 (csr .estat 1 start))).interruptDue = true ∧
      (csr .crmd 0x0C (csr .ecfg 0x1000 { start with ipi := true })).interruptDue = true := by decide +kernel

theorem test_witness_InterruptsAndWaking :
    let s := { start with waiting := true }
    let t := csr .ecfg 0x1001 { s with ipi := true }
    s.waiting = true ∧ (¬ ∃ k, k < 13 ∧ (s.csrRead .estat).getLsbD k = true ∧ s.csr.ecfg.getLsbD k = true) ∧
      t.waiting = true ∧ (t.csrRead .estat).getLsbD 12 = true ∧ t.csr.ecfg.getLsbD 12 = true := by decide +kernel

/-- After a refill with KLO, and after another exception without. -/
theorem test_witness_ErtnReturns :
    let s := csr .estat 0x003F0000 (csr .llbctl 4 start)
    s.plv = 0 ∧ s.csr.estat.extractLsb' 16 6 = 0x3F#6 ∧ s.csr.llbctl.getLsbD 2 = true ∧
      start.plv = 0 ∧ start.csr.estat.extractLsb' 16 6 ≠ 0x3F#6 ∧ start.csr.llbctl.getLsbD 2 = false := by decide +kernel

theorem test_witness_EntryThenReturn : ∀ va, Exc.tlbr 0 = .tlbr va → mapped.da = false ∧ mapped.pg = true :=
  fun _ _ => by decide +kernel

theorem test_witness_PrivilegedRaisesIpe :
    isPrivileged (.idle 0) = true ∧ user.plv ≠ 0 ∧ (csr .crmd 9 start).plv = 1 ∧
      isPrivileged (.cacop 0x12 4 0) = false ∧ isPrivileged (.invtlb 7 4 5) = false ∧ user.ecode ≠ 0xE ∧
      isNext (exec (.cacop 0x12 4 0) user) [] = true ∧ isNext (exec (.idle 0) start) [] = true := by decide +kernel

theorem test_witness_InstructionExceptions :
    fpNeeds (.faddD 1 2 3) = some .double ∧ FpNeed.double.present singleOnly.cfg.fpLevel = false ∧
      fpNeeds (.faddS 1 2 3) = some .single ∧ FpNeed.single.present noFp.cfg.fpLevel = false ∧
      FpNeed.single.present State.reset.cfg.fpLevel = true ∧ State.reset.csr.euen.getLsbD 0 = false ∧ fcmpDefined 0x19 = true := by
  decide +kernel

theorem test_witness_InstructionExceptions_operand : 6 < (7 : BitVec 5).toNat ∧ 6 < (31 : BitVec 5).toNat := by decide

theorem test_witness_DataAccessExceptions_ale :
    (x 4 0xFFFFFFFF start).addr12 4 0 = 0xFFFFFFFF ∧ (0xFFFFFFFF : Word).toNat % 2 ≠ 0 ∧
      (x 4 1 start).addr14 4 0 = 1 ∧ (1 : Word).toNat % 4 ≠ 0 ∧ (x 4 4 start).addr12 4 0 = 4 ∧ (4 : Word).toNat % 8 ≠ 0 ∧
      FpReady .single start ∧ FpReady .double start := by
  refine ⟨?_, ?_, ?_, ?_, ?_, ?_, ⟨?_, ?_⟩, ?_, ?_⟩ <;> decide +kernel

theorem test_witness_DataAccessExceptions_translation :
    mapped.addr12 0 0 = 0 ∧ translate mapped 0 .load = .trap (.tlbr 0) ∧ translate mapped 0 .store = .trap (.tlbr 0) ∧
      FpReady .single mapped ∧ FpReady .double mapped :=
  ⟨by decide +kernel, trapsWith_sound (by decide +kernel), trapsWith_sound (by decide +kernel),
    ⟨by decide +kernel, by decide +kernel⟩, by decide +kernel, by decide +kernel⟩

/-- Direct mode, and DMW0 at PLV0 and DMW1 at PLV3 in mapped mode. -/
theorem test_witness_DirectAndWindowTranslation :
    start.da = true ∧ start.pg = false ∧
      (let s := csr .dmw0 0xA0000011 mapped
       s.da = false ∧ s.pg = true ∧ s.plv = 0 ∧ s.csr.dmw0.getLsbD 0 = true ∧
         (0xBFFFFFFF : Word).toNat / 2 ^ 29 = s.csr.dmw0.toNat / 2 ^ 29) ∧
      (let s := csr .crmd 0x13 (csr .dmw1 0xA0000018 start)
       s.da = false ∧ s.pg = true ∧ s.plv = 3 ∧ s.csr.dmw1.getLsbD 3 = true ∧
         (0xA0000000 : Word).toNat / 2 ^ 29 = s.csr.dmw1.toNat / 2 ^ 29 ∧
         (0xA0000000 : Word).toNat / 2 ^ 29 ≠ s.csr.dmw0.toNat / 2 ^ 29) := by decide +kernel

/-- Mapped mode with the two entries. -/
def paged : State := entry 0 pair4K (entry 31 pair2M mapped)

/-- The premises of TlbTranslation and TlbSearch about `va`, with entry j the only one that matches. -/
def onlyHit (s : State) (va : Word) (j : Nat) : Bool :=
  s.da == false && s.pg && !dmwHit s s.csr.dmw0 va && !dmwHit s s.csr.dmw1 va &&
    (s.tlb.all fun e => !e.e || e.ps == 12 || e.ps == 21) &&
    (List.range s.tlb.length).all fun i => (match s.tlb[i]? with
      | some e => decide (e.e = true ∧ (e.g = true ∨ e.asid = s.csr.asid.extractLsb' 0 10) ∧
          e.vppn.toNat * 2 ^ 13 / 2 ^ (e.ps.toNat + 1) = va.toNat / 2 ^ (e.ps.toNat + 1))
      | none => false) == (i == j)

/-- No entry for 0x00002000; the 4 KiB pages up to 0x1FFF are entry 0's and the 2 MiB pages from 0x00400000 entry 31's. -/
theorem test_witness_TlbTranslation :
    onlyHit paged 0x00002000 32 = true ∧ onlyHit paged 0x00000FFF 0 = true ∧ onlyHit paged 0x00001000 0 = true ∧
      onlyHit paged 0x00400000 31 = true ∧ onlyHit paged 0x007FFFFF 31 = true := by decide +kernel

/-- The odd 4 KiB page is above PLV3's reach and clean, the odd 2 MiB page is not valid; the even pages translate. -/
theorem test_witness_TlbTranslation_pages :
    onlyHit (csr .crmd 0x13 paged) 0x00001000 0 = true ∧ pair4K.page1.plv.toNat < (csr .crmd 0x13 paged).plv.toNat ∧
      paged.plv.toNat ≤ pair4K.page1.plv.toNat ∧ pair4K.page1.d = false ∧ pair2M.page1.v = false ∧
      pair4K.page0.v = true ∧ pair4K.page0.d = true ∧ pair4K.page0.fits paged.cfg ∧ pair4K.ps.toNat ≤ paged.cfg.palen ∧
      (0x00001000 : Word).toNat / 2 ^ pair4K.ps.toNat % 2 = 1 ∧ (0x007FFFFF : Word).toNat / 2 ^ pair2M.ps.toNat % 2 = 1 := by
  unfold TlbPage.fits; decide +kernel

theorem test_witness_Division : (x 6 0xFFFFFFFF start).readGpr 6 ≠ 0 ∧ start.readGpr 6 = 0 := by decide +kernel

/-- The last byte, halfword and word of memory, and the first. -/
theorem test_witness_Loads :
    AccessOk start (start.addr12 0 0xFFF) 1 .load ⟨0xFFFFFFFF, 0⟩ ∧ AccessOk start (start.addr12 0 0xFFE) 2 .load ⟨0xFFFFFFFE, 0⟩ ∧
      AccessOk start (start.addr12 0 0xFFC) 4 .load ⟨0xFFFFFFFC, 0⟩ ∧ AccessOk start (start.addr12 0 0) 4 .load ⟨0, 0⟩ := by
  refine ⟨?_, ?_, ?_, ?_⟩ <;> exact accessOk_sound (by decide +kernel)

theorem test_witness_Stores : start.mem.wf = true ∧
    AccessOk start (start.addr12 0 0xFFF) 1 .store ⟨0xFFFFFFFF, 0⟩ ∧ AccessOk start (start.addr12 0 0xFFE) 2 .store ⟨0xFFFFFFFE, 0⟩ ∧
      AccessOk start (start.addr12 0 0xFFC) 4 .store ⟨0xFFFFFFFC, 0⟩ ∧ AccessOk start (start.addr12 0 0) 4 .store ⟨0, 0⟩ := by
  refine ⟨by decide, ?_, ?_, ?_, ?_⟩ <;> exact accessOk_sound (by decide +kernel)

/-- Data accesses of type coherent cached: CRMD.DATM = 1. -/
theorem test_witness_LinkedAccess : let s := csr .crmd 0x88 start
    s.mem.wf = true ∧ AccessOk s (s.addr14 0 0x3FFF) 4 .load ⟨0xFFFFFFFC, 1⟩ ∧ AccessOk s (s.addr14 0 0) 4 .store ⟨0, 1⟩ ∧
      s.llbit = false ∧ AccessOk { s with llbit := true } (s.addr14 0 0) 4 .store ⟨0, 1⟩ :=
  ⟨by decide, accessOk_sound (by decide +kernel), accessOk_sound (by decide +kernel), by decide, accessOk_sound (by decide +kernel)⟩

/-- With LLbit 0 also where there is no memory; and a store of another master to memory and beyond it. -/
theorem test_witness_LinkedAccess_no_memory : let s := x 5 0x2000 small
    (s.addr14 5 0).toNat % 4 = 0 ∧ translate s (s.addr14 5 0) .store = .ok ⟨0x2000, 1⟩ ∧ (1 : BitVec 2) = 1 ∧ s.llbit = false ∧
      s.mem.wf = true ∧ s.cfg.regionAt 0x2000 = none ∧ s.cfg.regionAt 0xFFF = some .ram :=
  ⟨by decide +kernel, rfl, rfl, by decide, by decide, by decide +kernel, by decide +kernel⟩

theorem test_witness_LinkedAccess_uncached : start.mem.wf = true ∧
    AccessOk start (start.addr14 0 0x3FFF) 4 .store ⟨0xFFFFFFFC, 0⟩ ∧ (⟨0xFFFFFFFC, 0⟩ : Translated).mat ≠ 1 :=
  ⟨by decide, accessOk_sound (by decide +kernel), by decide⟩

/-- An illegal DA, PG pair; in mapped mode an entry of size 13, and two entries for the same page. -/
theorem test_witness_UndefinedAccessesStop :
    (let s := csr .crmd 0 start
     s.da = s.pg ∧ FpReady .single s ∧ FpReady .double s) ∧
    (let s := entry 3 { pair4K with ps := 13 } mapped
     s.da = false ∧ s.pg = true ∧ s.plv = 0 ∧ dmwHit s s.csr.dmw0 0 = false ∧ dmwHit s s.csr.dmw1 0 = false ∧
       ∃ e ∈ s.tlb, (e.e = true ∧ (e.g = true ∨ e.asid = s.csr.asid.extractLsb' 0 10)) ∧ e.ps ≠ 12 ∧ e.ps ≠ 21) ∧
    (let s := entry 3 pair4K (entry 31 pair4K mapped)
     s.da = false ∧ s.pg = true ∧ s.tlb[3]? = some pair4K ∧ s.tlb[31]? = some pair4K ∧
       ∀ e ∈ s.tlb, e.e = true → e.ps = 12 ∨ e.ps = 21) := by
  refine ⟨⟨by decide +kernel, ⟨by decide +kernel, by decide +kernel⟩, by decide +kernel, by decide +kernel⟩, ?_, by decide +kernel⟩
  decide +kernel

/-- The same for a fetch at 0x1C000000, a CACOP of the Hit class and INVTLB 5 and 6. -/
theorem test_witness_UndefinedAccessesStop_more :
    (let s := csr .crmd 0 start
     s.asleep = false ∧ s.awake.interruptDue = false ∧ s.pc.toNat % 4 = 0 ∧ s.da = s.pg ∧ (0x10 : BitVec 5).toNat / 8 = 2 ∧
       (0x17 : BitVec 5).toNat / 8 = 2) ∧
    (let s := entry 3 { pair4K with ps := 13 } mapped
     s.asleep = false ∧ s.awake.interruptDue = false ∧ dmwHit s s.csr.dmw0 s.pc = false ∧ dmwHit s s.csr.dmw1 s.pc = false) ∧
    (let s := entry 3 { pair4K with ps := 63, g := false, asid := 5 } (x 4 5 start)
     s.plv = 0 ∧ ∃ e ∈ s.tlb, e.e = true ∧ e.ps ≠ 12 ∧ e.ps ≠ 21 ∧ e.g = false ∧ e.asid = (s.readGpr 4).extractLsb' 0 10) ∧
    translate (csr .crmd 0x48 start) 0x1C000000 .fetch = .ok ⟨0x1C000000, 2⟩ := by
  refine ⟨by decide +kernel, by decide +kernel, by decide +kernel, rfl⟩

/-- A reserved access type, an address beyond the map, and a device. -/
theorem test_witness_UndefinedAccessesStop_platform :
    translate (csr .crmd 0x108 start) 0 .load = .ok ⟨0, 2⟩ ∧ translate start 0x1000 .store = .ok ⟨0x1000, 0⟩ ∧
      (let c := { start.cfg with memMap := [⟨0, 0x1000, .ram⟩, ⟨0x2000, 4, .device⟩] }
       c.regionAt 0x1000 = none ∧ c.regionAt 0x2000 = some .device ∧ c.regionAt 0x2003 = some .device ∧ c.regionAt 0 = some .ram) :=
  ⟨rfl, rfl, by decide +kernel⟩

theorem test_witness_HintsCacopIdle : start.plv = 0 ∧ (0x0F : BitVec 5).toNat / 8 ≠ 2 ∧ (0x18 : BitVec 5).toNat / 8 ≠ 2 ∧
    (0x10 : BitVec 5).toNat / 8 = 2 ∧ translate start (start.addr12 0 0xFFF) .load = .ok ⟨0xFFFFFFFF, 0⟩ ∧
    translate mapped (mapped.addr12 0 0) .load = .trap (.tlbr 0) :=
  ⟨by decide +kernel, by decide, by decide, by decide, (accessOk_sound (n := 1) (by decide +kernel)).2.1,
    trapsWith_sound (by decide +kernel)⟩

theorem start_single : FpReady .single start := ⟨by decide +kernel, by decide +kernel⟩

theorem start_double : FpReady .double start := ⟨by decide +kernel, by decide +kernel⟩

/-- 1 / 0 raises Z, which no enable bit stops. -/
theorem test_witness_FpTwoOperand : FpReady .single start ∧ FpReady .double start ∧
    (fp32.div start.fpEnv 0x3F800000 0).flags = 0x08 ∧ NoTrap start (fp32.div start.fpEnv 0x3F800000 0).flags ∧
    NoTrap start (fp64.div start.fpEnv 0x3FF0000000000000 0).flags :=
  ⟨start_single, start_double, by decide +kernel, by unfold NoTrap; decide +kernel, by unfold NoTrap; decide +kernel⟩

theorem test_witness_FpFused : FpReady .single start ∧ FpReady .double start ∧
    NoTrap start (fp32.fma start.fpEnv 0x3F800000 0x3F800000 0x3F800000).flags ∧
    NoTrap start (fp64.fmaNeg start.fpEnv true true true 0x3FF0000000000000 0x3FF0000000000000 0).flags :=
  ⟨start_single, start_double, by unfold NoTrap; decide +kernel, by unfold NoTrap; decide +kernel⟩

theorem test_witness_FpOneOperand : FpReady .single start ∧ FpReady .double start ∧
    NoTrap start (fp32.sqrt start.fpEnv 0x40000000).flags ∧ NoTrap start (fp64.rsqrt start.fpEnv 0x4000000000000000).flags :=
  ⟨start_single, start_double, by unfold NoTrap; decide +kernel, by unfold NoTrap; decide +kernel⟩

theorem test_witness_FpBitOperations : FpReady .single start ∧ FpReady .double start := ⟨start_single, start_double⟩

/-- The greatest word and an infinity, which is invalid. -/
theorem test_witness_FpConvert : FpReady .single start ∧ FpReady .double start ∧
    NoTrap start (fp32.ofInt start.fpEnv 0x7FFFFFFF).flags ∧ NoTrap start (fp64.toSint32 .rz 7 0x7FF0000000000000).flags :=
  ⟨start_single, start_double, by unfold NoTrap; decide +kernel, by unfold NoTrap; decide +kernel⟩

theorem test_witness_FpCompare : FpReady .single start ∧ FpReady .double start ∧ NoTrap start 0x10 ∧ NoTrap start 0 :=
  ⟨start_single, start_double, by unfold NoTrap; decide +kernel, by unfold NoTrap; decide +kernel⟩

theorem test_witness_FpMoves : FpReady .single start ∧ FpReady .double start := ⟨start_single, start_double⟩

theorem test_witness_FpMemory : start.mem.wf = true ∧ FpReady .single start ∧ FpReady .double start ∧
    AccessOk start (start.addr12 0 0xFF8) 8 .load ⟨0xFFFFFFF8, 0⟩ ∧ AccessOk start (start.addr12 0 0xFF8) 8 .store ⟨0xFFFFFFF8, 0⟩ ∧
      AccessOk start (start.addr12 0 0xFFC) 4 .load ⟨0xFFFFFFFC, 0⟩ ∧ AccessOk start (start.addr12 0 0xFFC) 4 .store ⟨0xFFFFFFFC, 0⟩ := by
  refine ⟨by decide, start_single, start_double, ?_, ?_, ?_, ?_⟩ <;> exact accessOk_sound (by decide +kernel)

/-- Each rounding mode, and the enables V and U alone. -/
theorem test_witness_FpMoves_mode : ((fcsr 0x300 start).fcsr0.toNat / 2 ^ 8 % 4 = 3 ∧ (fcsr 0x300 start).roundMode = .rm) ∧
    (fcsr 0x200 start).roundMode = .rp ∧ (fcsr 0x100 start).roundMode = .rz ∧ (fcsr 0x0FF start).roundMode = .rne ∧
    (fcsr 0x312 start).enables = 0x12 ∧ (fcsr 0x02 start).fpEnv.trapU = true ∧ (fcsr 0x1D start).fpEnv.trapU = false := by
  decide +kernel

theorem test_witness_FpMoves_fcsr : FpReady .single start ∧ 4 ≤ (4 : BitVec 5).toNat ∧ 4 ≤ (31 : BitVec 5).toNat :=
  ⟨start_single, by decide, by decide⟩

theorem test_witness_FpBranches : FpReady .single start ∧ FpReady .double start ∧ (1 : BitVec 3) ≠ 0 ∧ (7 : BitVec 3) ≠ 0 ∧
    fcmpDefined 0 = true ∧ fcmpDefined 0x19 = true :=
  ⟨start_single, start_double, by decide, by decide, by decide, by decide⟩

/-- With V and Z enabled: 0 / 0, the reciprocal root of 0, a compare of 0 with a NaN under cond 0x19 and a conversion of the NaN. -/
theorem test_witness_FpTraps :
    let s := fcsr 0x18 start
    let t := fd 2 0x7FF8000000000000 s
    FpReady .single s ∧ FpReady .double t ∧ fpRaised s (.fdivS 3 1 1) = some (.single, 0x10) ∧ ¬ NoTrap s 0x10 ∧
      fpRaised s (.frsqrtD 3 1) = some (.double, 0x08) ∧ ¬ NoTrap s 0x08 ∧
      fpRaised t (.fcmpD 0x19 0 1 2) = some (.double, 0x10) ∧ fpRaised t (.ftintrzWD 3 2) = some (.double, 0x10) ∧
      ¬ NoTrap t 0x10 := by
  refine ⟨⟨?_, ?_⟩, ⟨?_, ?_⟩, ?_, ?_, ?_, ?_, ?_, ?_, ?_⟩ <;> first | decide +kernel | (unfold NoTrap; decide +kernel)

/-- -3 / 4, and 2 ^ 53 and a half, which lies above 2 ^ 53 by less than 1. -/
theorem test_witness_FpRounding :
    ((3 : Nat) ≠ 0 ∧ (true = true ↔ (-3 / 4 : ℝ) < 0) ∧ |(-3 / 4 : ℝ)| = (3 : Nat) * (2 : ℝ) ^ (-2 : ℤ)) ∧
      ((2 ^ 53 : Nat) ≠ 0 ∧ (false = true ↔ (2 ^ 53 + 1 / 2 : ℝ) < 0) ∧ 2 ^ fp64.prec ≤ 2 ^ 53 ∧
        ((2 ^ 53 : Nat) : ℝ) * (2 : ℝ) ^ (0 : ℤ) < |(2 ^ 53 + 1 / 2 : ℝ)| ∧
        |(2 ^ 53 + 1 / 2 : ℝ)| < (((2 ^ 53 : Nat) : ℝ) + 1) * (2 : ℝ) ^ (0 : ℤ)) := by
  refine ⟨⟨by decide, ?_, ?_⟩, by decide, ?_, by decide, ?_, ?_⟩
  · norm_num
  · rw [abs_of_neg (by norm_num)]; norm_num
  · norm_num
  · rw [abs_of_pos (by norm_num)]; norm_num
  · rw [abs_of_pos (by norm_num)]; norm_num

/-- The least subnormal and the greatest finite number of each format. -/
theorem test_witness_FpExactResults :
    (1 < 2 ^ (fp32.signPos + 1) ∧ fp32.expField 1 ≠ fp32.expMax ∧ fp32.magnitude 1 ≠ 0) ∧
      (0xFF7FFFFF < 2 ^ (fp32.signPos + 1) ∧ fp32.expField 0xFF7FFFFF ≠ fp32.expMax ∧ fp32.magnitude 0xFF7FFFFF ≠ 0) ∧
      0xFFEFFFFFFFFFFFFF < 2 ^ (fp64.signPos + 1) ∧ fp64.expField 0xFFEFFFFFFFFFFFFF ≠ fp64.expMax ∧
      fp64.magnitude 0xFFEFFFFFFFFFFFFF ≠ 0 := by decide +kernel

/-- A NaN, infinities and numbers, zeros of opposite sign and numbers of equal magnitude. -/
theorem test_witness_FpOrder : fp32.isNaN 0x7F800001 = true ∧ fp32.isSNaN 0x7F800001 = true ∧ fp32.isSNaN 0x7FC00000 = false ∧
    fp32.isNaN 0x7FC00000 = true ∧ fp32.isInf 0x7F800000 = true ∧ fp32.isNaN 0x7F800000 = false ∧
    fp32.relate 0xFF800000 0xFF7FFFFF = .lt ∧ fp32.relate 0x7F800000 0x7F800000 = .eq ∧ fp32.expField 0 ≠ fp32.expMax ∧ fp32.expField 0xFF7FFFFF ≠ fp32.expMax ∧
    fp32.pattern 0xFFFFFFFF ∧ fp32.relate 0 0x80000000 = .eq ∧ fp32.isNaN 0 = false ∧ fp32.isNaN 0x80000000 = false ∧
    fp32.magnitude 0x3F800000 = fp32.magnitude 0xBF800000 ∧ fp32.relate 0x3F800000 0xBF800000 = .gt := by
  unfold FpFmt.pattern; decide +kernel

theorem test_witness_FpNaNResults : fp32.isSNaN 0x7F800001 = true ∧ fp32.isSNaN 0xFFFFFFFF = false ∧
    fp32.isNaN 0xFFFFFFFF = true ∧ fp32.isNaN 0x7F800000 = false ∧ fp32.isSNaN 0x7F800000 = false := by decide +kernel

/-- 1, -1 and 3; zeros of opposite sign; infinities of each sign; a NaN: every case of the three value statements. -/
theorem test_witness_FpArithmeticValues :
    (∀ x ∈ [0, 0x80000000, 0x3F800000, 0xBF800000, 0x40400000], fp32.finite x) ∧
      fp32.value 0x3F800000 + fp32.value 0x40400000 ≠ 0 ∧ fp32.value 0x3F800000 + fp32.value 0xBF800000 = 0 ∧
      fp32.value 0x3F800000 * fp32.value 0x40400000 ≠ 0 ∧ fp32.value 0x80000000 * fp32.value 0x40400000 = 0 ∧
      fp32.IsInf false 0x7F800000 ∧ fp32.IsInf true 0xFF800000 ∧ fp32.isInf 0x7F800000 = true ∧ fp32.isZero 0x80000000 = true ∧
      fp32.isZero 0xBF800000 = false ∧ fp32.isNaN 0xBF800000 = false ∧ fp32.isNaN 0x7FC00000 = true ∧
      fp32.isNaN (fp32.fma ⟨.rne, false⟩ 0 0x7F800000 0).bits = true := by
  unfold FpFmt.finite FpFmt.IsInf FpFmt.pattern; decide +kernel

theorem test_witness_FpQuotientsAndRoots :
    fp64.finite 0x3FF0000000000000 ∧ fp64.finite 0 ∧ fp64.value 0x3FF0000000000000 ≠ 0 ∧ fp64.value 0x8000000000000000 = 0 ∧
      0 < fp64.value 0x4008000000000000 ∧ fp64.isInf 0x7FF0000000000000 = true ∧ fp64.IsInf false 0x7FF0000000000000 ∧
      fp64.isZero 0x8000000000000000 = true ∧ fp64.sign 0xBFF0000000000000 = true ∧ fp64.isZero 0xBFF0000000000000 = false ∧
      fp64.isNaN 0xBFF0000000000000 = false ∧ fp64.isSNaN 0x7FF0000000000001 = true ∧ fp64.isSNaN 0x7FF8000000000000 = false ∧
      fp64.isNaN 0x7FF8000000000000 = true := by
  unfold FpFmt.finite FpFmt.IsInf FpFmt.pattern; decide +kernel

/-- 2 ^ 31 does not fit a word, -2 ^ 31 does. -/
theorem test_witness_FpConversionValues :
    fp32.finite 0x4F000000 ∧ fp32.value 0x4F000000 = 2 ^ 31 ∧ fp32.value 0xCF000000 = -2 ^ 31 ∧ fp32.isZero 0x80000000 = true ∧
      fp32.isInf 0xFF800000 = true ∧ fp32.isNaN 0x7F800001 = true ∧ fp64.finite 1 ∧ fp64.value 1 ≠ 0 := by
  unfold FpFmt.finite FpFmt.pattern; decide +kernel

theorem test_witness_CsrRead : start.plv = 0 ∧ csrOfNum 0 = some .crmd ∧ csrOfNum 0x181 = some .dmw1 ∧ csrOfNum 0x3FFF = none ∧
    start.cfg.timerBits ≤ 32 := by decide +kernel

theorem test_witness_CsrWrite : start.cfg.wf = true ∧ start.plv = 0 ∧ csrOfNum 0x41 = some .tcfg ∧ (x 5 4 start).readGpr 5 ≠ 0 ∧
    start.readGpr 5 = 0 ∧ csrOfNum 0x3FFF = none := by decide +kernel

/-- Direct mode: TLBSRCH, TLBRD, TLBWR, TLBFILL and INVTLB with the two entries. -/
def filled : State := entry 0 pair4K (entry 31 pair2M start)

theorem test_witness_TlbSearch : filled.plv = 0 ∧ (∀ e ∈ filled.tlb, e.e = true → e.ps = 12 ∨ e.ps = 21) ∧
    onlyHit (csr .tlbehi 0x007FE000 paged) 0x007FE000 31 = true ∧ onlyHit (csr .tlbehi 0x00002000 paged) 0x00002000 32 = true ∧
    31 < 2 ^ filled.cfg.tlbIndexBits ∧ filled.cfg.tlbIndexBits ≤ 16 := by decide +kernel

theorem test_witness_TlbRead :
    let s := csr .tlbidx 31 filled
    let small := csr .tlbidx 20 { start with cfg := { start.cfg with tlbEntries := 20 }, tlb := start.tlb.take 20 }
    s.plv = 0 ∧ s.tlb[s.csr.tlbidx.toNat % 2 ^ s.cfg.tlbIndexBits]? = some pair2M ∧ pair2M.page0.fits s.cfg ∧
      pair2M.page1.fits s.cfg ∧ small.plv = 0 ∧ small.tlb.length ≤ small.csr.tlbidx.toNat % 2 ^ small.cfg.tlbIndexBits := by unfold TlbPage.fits; decide +kernel

theorem test_witness_TlbWrite :
    let s := csr .tlbidx 31 start
    let small := csr .tlbidx 20 { start with cfg := { start.cfg with tlbEntries := 20 }, tlb := start.tlb.take 20 }
    s.plv = 0 ∧ s.csr.tlbidx.toNat % 2 ^ s.cfg.tlbIndexBits < s.tlb.length ∧ s.cfg.palen ≤ 36 ∧ s.tlb ≠ [] ∧
      small.plv = 0 ∧ small.tlb.length ≤ small.csr.tlbidx.toNat % 2 ^ small.cfg.tlbIndexBits := by decide +kernel

theorem test_witness_TlbInvalidate : filled.plv = 0 ∧ (0 : BitVec 5).toNat ≤ 6 ∧ (6 : BitVec 5).toNat ≤ 6 ∧
    (∀ e ∈ filled.tlb, e.e = true → e.ps = 12 ∨ e.ps = 21) := by decide +kernel

theorem test_witness_TlbWriteThenRead : ∃ t u, start.Inv ∧ start.cfg.wf = true ∧ start.plv = 0 ∧
    start.csr.tlbidx.getLsbD 31 = false ∧ exec .tlbwr start = .next t ∧ exec .tlbrd t = .next u :=
  ⟨_, _, start_inv, by decide, by decide, by decide, rfl, rfl⟩

theorem test_witness_RegisterFrame : (∃ t, exec (.addW 4 5 6) start = .next t) ∧ gprTarget (.addW 4 5 6) ≠ some 5 ∧
    fpNeeds (.addW 4 5 6) = none := ⟨⟨_, rfl⟩, by decide, by decide⟩

theorem test_witness_MemoryFrame : ∃ t, start.mem.wf = true ∧ exec (.stB 4 0 0xFFF) (x 4 1 start) = .next t ∧
    t.byteAt 0xFFFFFFFF ≠ (x 4 1 start).byteAt 0xFFFFFFFF := ⟨_, by decide, rfl, by decide +kernel⟩

theorem test_witness_UserMode : user.plv ≠ 0 ∧ (∃ t, exec (.addW 4 5 6) user = .next t) ∧
    ∃ t, exec (.csrrd 4 0) user = .next t := ⟨by decide, ⟨_, rfl⟩, _, rfl⟩

theorem test_witness_StepKeepsInv : start.Inv ∧ ∃ t, step start = .next t := ⟨start_inv, _, rfl⟩

/-- A machine whose reset clears the TLB and sets TID, with a valid entry before. -/
theorem test_witness_ResetValues :
    let c := { start.cfg with tlbClearedByReset := true, tidResetToCoreId := true, coreId := 5 }
    let s := { entry 0 pair4K start with cfg := c }
    s.applyEvent .reset ∈ [State.reset, State.resetWith c, s.applyEvent .reset] ∧ c.tlbClearedByReset = true ∧
      c.tidResetToCoreId = true ∧ (s.tlb.any (·.e)) = true ∧ ((s.applyEvent .reset).tlb.any (·.e)) = false ∧
      ((s.applyEvent .reset).csrRead .tid).toNat = 5 :=
  ⟨by simp, by decide, by decide, by decide +kernel, by decide +kernel, by decide +kernel⟩

theorem test_witness_Tick : start.cfg.timerBits ≤ 32 ∧ start.timerVal.toNat < 2 ^ start.cfg.timerBits := by decide

theorem test_witness_Tick_timer : let s := csr .tcfg 1 { start with timerVal := 0xFFFFFFFF, timerRun := true }
    s.cfg.timerBits ≤ 32 ∧ s.timerVal.toNat < 2 ^ s.cfg.timerBits ∧ 0 < s.timerVal.toNat ∧ s.csr.tcfg.getLsbD 0 = true ∧
      s.timerRun = true := by decide

/-- Each form of the agenda, and ESTAT after each event of the lines: the lines that are up, in their places. -/
theorem test_witness_Tick_events : start.agenda = [] ∧
    (let s := { start with agenda := [[], [.hwi 0x81, .ipi true], []] }
     let t := s.envTurn
     s.agenda = [] :: [[.hwi 0x81, .ipi true], []] ∧ t.agenda = (.hwi 0x81 :: [.ipi true]) :: [[]] ∧
       (t.envTurn.csrRead .estat).extractLsb' 2 11 = 0x481 ∧ t.envTurn.agenda = [[]]) := by decide +kernel

theorem test_witness_MemoryByteOrder : (start.mem.storeLE 0xFFFFFFFF 8 1).wf = true ∧ 8 ≤ 8 ∧ start.mem.wf = true := by
  decide +kernel

end Sys2Proof.Tests
end

/-! PROOFS. The statements about the state and what every step keeps. -/

namespace Sys2Proof.Machine

/-- The bits a view of fcsr0 shows are bits fcsr0 holds (R40). -/
theorem fcsrViewMask_held {i : BitVec 5} {m : Word} (h : fcsrViewMask i = some m) : m &&& ~~~fcsrMask = 0 := by
  unfold fcsrViewMask at h
  split at h <;> cases h <;> decide

/-! ## What instructions are made of -/

/-- One change an instruction makes, named by the shared operation that makes it. The only general register written is the one `rd`
names, and the floating-point registers, fcc0 and fcsr0 are written only where `fp` holds. -/
inductive Change (rd : Option RegNum) (fp : Prop) : State → State → Prop
  | exception (s : State) (e : Exc) : Change rd fp s (enterException e s)
  | exceptionReturn (s : State) : Change rd fp s (returnFromException s)
  | jump (s : State) (target : Word) : Change rd fp s { s with pc := target }
  | wait (s : State) : Change rd fp s { s with waiting := true }
  | draw (s : State) : Change rd fp s s.drawn
  | gpr (s : State) {r : RegNum} (h : rd = some r) (v : Word) : Change rd fp s (s.writeGpr r v)
  | fpr (s : State) (h : fp) (r : RegNum) (v : FReg) : Change rd fp s (s.writeFpr r v)
  | flag (s : State) (h : fp) (b : Bool) : Change rd fp s { s with fcc0 := b }
  | fcsr (s : State) (h : fp) {c : Word} (hc : s.fcsr0 &&& ~~~fcsrMask = 0 → c &&& ~~~fcsrMask = 0) :
      Change rd fp s { s with fcsr0 := c }
  | link (s : State) (b : Bool) (pa : Nat) : Change rd fp s { s with llbit := b, llAddr := pa }
  | store (s : State) (pa n : Nat) (v : DWord) : Change rd fp s (s.storeMem pa n v)
  | cacheHit (s : State) (obj : BitVec 3) (pa : Nat) : Change rd fp s (s.cacheHit obj pa)
  | fetchBarrier (s : State) : Change rd fp s s.fetchBarrier
  | csrWrite (s : State) (k : CsrName) (v m : Word) : Change rd fp s (s.csrWrite k v m)
  | tlbSearch (s : State) (hit : Option (TlbEntry × Nat)) : Change rd fp s (s.tlbSearchDone hit)
  | tlbRead (s : State) (e : TlbEntry) : Change rd fp s (s.tlbReadInto e)
  | tlbWrite (s : State) (i : Nat) : Change rd fp s (s.tlbSet i s.tlbEntryFromCsrs)
  | tlbInvalidate (s : State) (op : BitVec 5) (asid : BitVec 10) (va : Word) :
      Change rd fp s { s with tlb := invtlbApply op asid va s.tlb }

/-- Some changes, one after the other. -/
abbrev Changes (rd : Option RegNum) (fp : Prop) : State → State → Prop := Relation.ReflTransGen (Change rd fp)

/-- `r` answers no state but one that changes make of `s`. -/
def MadeOf (rd : Option RegNum) (fp : Prop) (s : State) (r : Result) : Prop := ∀ t, r = .next t → Changes rd fp s t

section
variable {rd : Option RegNum} {fp : Prop} {s u : State} {k : Result}

theorem Changes.advance (h : Changes rd fp s u) : Changes rd fp s u.advance := h.tail (.jump u _)

theorem MadeOf.next (h : Changes rd fp s u) : MadeOf rd fp s (.next u) := by
  rintro _ ⟨⟩
  exact h

theorem MadeOf.fault (f : Fault) : MadeOf rd fp s (.fault f) := by
  intro t ht
  cases ht

theorem MadeOf.exception (e : Exc) : MadeOf rd fp s (raise e s) := .next (.single (.exception s e))

theorem MadeOf.retire (h : Changes rd fp s u) : MadeOf rd fp s u.retire := .next h.advance

theorem MadeOf.retireGpr {r : RegNum} {v : Word} (hr : rd = some r) (h : Changes rd fp s u := by exact .refl) :
    MadeOf rd fp s (u.retireGpr r v) := .retire (h.tail (.gpr u hr v))

theorem MadeOf.branch {taken : Bool} {offset : Word} (h : Changes rd fp s u := by exact .refl) :
    MadeOf rd fp s (u.branch taken offset) := by
  cases taken
  · exact .retire h
  · exact .next (h.tail (.jump u _))

theorem MadeOf.privileged (h : MadeOf rd fp s k) : MadeOf rd fp s (privileged s k) := by
  intro t ht
  rcases privileged_next.1 ht with ⟨-, hk⟩ | ⟨-, rfl⟩
  · exact h t hk
  · exact .single (.exception s _)

theorem MadeOf.fpInstr {need : FpNeed} (h : MadeOf rd fp s k) : MadeOf rd fp s (fpInstr need s k) := by
  intro t ht
  rcases fpInstr_next.1 ht with ⟨-, hk⟩ | ⟨-, rfl⟩ | ⟨-, -, rfl⟩
  · exact h t hk
  · exact .single (.exception s _)
  · exact .single (.exception s _)

theorem MadeOf.withFlagField {c : BitVec 3} (h : MadeOf rd fp s k) : MadeOf rd fp s (withFlagField c k) :=
  fun t ht => h t (withFlagField_next.1 ht).2

theorem MadeOf.run {α : Type} {r : Res α} {k : α → Result} (h : ∀ a, r = .ok a → MadeOf rd fp s (k a)) :
    MadeOf rd fp s (r.run s k) := by
  intro t ht
  rcases Res.run_next.1 ht with ⟨a, ha, hk⟩ | ⟨e, -, rfl⟩
  · exact h a ha t hk
  · exact .single (.exception s e)

theorem MadeOf.memWrite {va : Word} {n : Nat} {v : DWord} : MadeOf rd fp s ((memWrite s va n v).run s fun t => t.retire) := by
  refine .run fun u hu => .retire ?_
  obtain ⟨tr, -, rfl⟩ := memWrite_ok.1 hu
  exact .single (.store s _ _ _)

/-! ## The families of instructions -/

theorem MadeOf.divide {r rj rk : RegNum} {op : Word → Word → Word} (hr : rd = some r) : MadeOf rd fp s (divide r rj rk op s) := by
  intro t ht
  rcases divide_next.1 ht with ⟨-, rfl⟩ | ⟨-, rfl⟩
  · exact Changes.advance (.tail (.single (.gpr s hr _)) (.draw _))
  · exact Changes.advance (.single (.gpr s hr _))

theorem MadeOf.load {r rj : RegNum} {si12 : BitVec 12} {n : Nat} {ext : DWord → Word} (hr : rd = some r) :
    MadeOf rd fp s (loadGpr r rj si12 n ext s) := .run fun _ _ => .retireGpr hr

theorem MadeOf.fpFinish {e : BitVec 5} {write : State → State} (h : fp) (hw : ∀ u, Changes rd fp u (write u)) :
    MadeOf rd fp s (fpFinish s e write) := by
  have hraise (set : BitVec 5) : Change rd fp s { s with fcsr0 := fcsrRaise s.fcsr0 e set } := .fcsr s h (fcsrRaise_held · e set)
  intro t ht
  rcases fpFinish_next.1 ht with ⟨-, set, -, rfl⟩ | ⟨-, rfl⟩
  · exact .tail (.tail (.single (hraise set)) (.draw _)) (.exception _ _)
  · exact Changes.advance (.tail (.head (hraise e) (hw _)) (.draw _))

theorem MadeOf.fpRetireW {need : FpNeed} {fd : RegNum} {v : FpResult} (h : fp) :
    MadeOf rd fp s (Machine.fpInstr need s (fpRetireW s fd v)) := .fpInstr (.fpFinish h fun u => .single (.fpr u h fd _))

theorem MadeOf.fpRetireD {need : FpNeed} {fd : RegNum} {v : FpResult} (h : fp) :
    MadeOf rd fp s (Machine.fpInstr need s (fpRetireD s fd v)) := .fpInstr (.fpFinish h fun u => .single (.fpr u h fd _))

/-- A floating-point instruction that writes fd and uses a draw, its upper half being open. -/
theorem MadeOf.fpMoveW {need : FpNeed} {fd : RegNum} {v : Word} (h : fp) :
    MadeOf rd fp s (Machine.fpInstr need s (s.writeFprW fd v).drawn.retire) :=
  .fpInstr (.retire (.tail (.single (.fpr s h fd _)) (.draw _)))

theorem MadeOf.fpMove {fd : RegNum} {v : FReg} (h : fp) : MadeOf rd fp s (s.writeFpr fd v).retire :=
  .retire (.single (.fpr s h fd v))

theorem MadeOf.fcmp {need : FpNeed} {defined : Bool} {cd : BitVec 3} {e : BitVec 5} {b : Bool} (h : fp) :
    MadeOf rd fp s (if defined then
        Machine.fpInstr need s <| Machine.withFlagField cd <| Machine.fpFinish s e fun t => { t with fcc0 := b }
      else raise .ine s) := by
  cases defined
  · exact .exception _
  · exact .fpInstr (.withFlagField (.fpFinish h fun u => .single (.flag u h b)))

theorem MadeOf.movfcsr2gr {r : RegNum} {fcsr : BitVec 5} (hr : rd = some r) : MadeOf rd fp s (execMovfcsr2gr r fcsr s) := by
  refine .fpInstr ?_
  cases fcsrViewMask fcsr with
  | none => exact .retireGpr hr (.single (.draw s))
  | some m => exact .retireGpr hr

theorem MadeOf.movgr2fcsr {fcsr : BitVec 5} {rj : RegNum} (h : fp) : MadeOf rd fp s (execMovgr2fcsr fcsr rj s) := by
  refine .fpInstr ?_
  cases hm : fcsrViewMask fcsr with
  | none => exact .retire (.tail (.single (.fcsr s h (setBits_held · (BitVec.and_not_self _)))) (.draw _))
  | some m => exact .retire (.single (.fcsr s h (setBits_held · (fcsrViewMask_held hm))))

theorem Changes.csrReadDone (k : CsrName) : Changes rd fp s (s.csrReadDone k) := by
  unfold State.csrReadDone
  split
  · exact .single (.draw s)
  · exact .single (.draw s)
  · exact .refl

theorem MadeOf.csrrd {r : RegNum} {num : BitVec 14} (hr : rd = some r) : MadeOf rd fp s (execCsrrd r num s) := by
  refine .privileged ?_
  cases csrOfNum num with
  | none => exact .retireGpr hr
  | some k => exact .retireGpr hr (Changes.csrReadDone k)

theorem MadeOf.csrSwap {r : RegNum} {num : BitVec 14} {v m : Word} (hr : rd = some r) :
    MadeOf rd fp s (s.csrSwap r num v m) := by
  unfold State.csrSwap
  cases csrOfNum num with
  | none => exact .retireGpr hr
  | some k => exact .retireGpr hr (.head (.csrWrite s k v m) (Changes.csrReadDone k))

theorem MadeOf.cacop {code : BitVec 5} {rj : RegNum} {si12 : BitVec 12} : MadeOf rd fp s (execCacop code rj si12 s) := by
  unfold execCacop
  split
  · exact .run fun _ _ => .retire (.single (.cacheHit s _ _))
  · exact .privileged (.retire .refl)

theorem MadeOf.scW {r rj : RegNum} {si14 : BitVec 14} (hr : rd = some r) : MadeOf rd fp s (execScW r rj si14 s) := by
  refine .run fun tr _ => .retire (.tail ?_ (.draw _))
  have setBit (u : State) (b : Bool) : Change rd fp u { u with llbit := b } := .link u b u.llAddr
  split
  · refine .tail (.tail ?_ (setBit _ _)) (.gpr _ hr _)
    split
    · exact .single (.store s _ _ _)
    · exact .refl
  · exact .tail (.tail (.single (.store s _ _ _)) (setBit _ _)) (.gpr _ hr _)

theorem MadeOf.tlbrd : MadeOf rd fp s (execTlbrd s) := by
  refine .privileged ?_
  cases s.tlb[s.tlbIndex]? with
  | none => exact .fault _
  | some e => exact .retire (.single (.tlbRead s e))

theorem MadeOf.tlbwr : MadeOf rd fp s (execTlbwr s) := by
  refine .privileged ?_
  split
  · exact .retire (.single (.tlbWrite s _))
  · exact .fault _

theorem MadeOf.invtlb {op : BitVec 5} {rj rk : RegNum} : MadeOf rd fp s (execInvtlb op rj rk s) := by
  unfold execInvtlb
  split
  · exact .exception _
  · refine .privileged ?_
    dsimp only
    split
    · exact .fault _
    · exact .retire (.single (.tlbInvalidate s op _ _))

end

/-- Every instruction is made of changes that write no general register but its destination and touch floating-point state in the
instructions of manual §3.2 only. -/
theorem exec_madeOf (i : Instr) (s : State) : MadeOf (gprTarget i) (fpNeeds i ≠ none) s (exec i s) := by
  cases i with
  | rdcntid | rdcntvlW | rdcntvhW => exact .retireGpr rfl
  | addW | subW | slt | sltu | nor | and | or | xor => exact .retireGpr rfl
  | sllW | srlW | sraW | slliW | srliW | sraiW => exact .retireGpr rfl
  | mulW | mulhW | mulhWU => exact .retireGpr rfl
  | slti | sltui | addiW | andi | ori | xori => exact .retireGpr rfl
  | lu12iW | pcaddu12i => exact .retireGpr rfl
  | divW | modW | divWU | modWU => exact .divide rfl
  | brk | syscall => exact .exception _
  | beq | bne | blt | bge | bltu | bgeu => exact .branch
  | b offs => exact .branch (u := s) (taken := true) (offset := sext26x4 offs)
  | bl offs =>
    exact .branch (u := s.writeGpr 1 (s.pc + 4)) (taken := true) (offset := sext26x4 offs) (.single (.gpr s rfl _))
  | jirl => exact .next (.tail (.single (.gpr s rfl _)) (.jump _ _))
  | ldB | ldH | ldW | ldBU | ldHU => exact .load rfl
  | stB | stH | stW => exact .memWrite
  | llW => exact .run fun t _ => .retireGpr rfl (.single (.link s true t.pa))
  | scW => exact .scW rfl
  | preld | dbar => exact .retire .refl
  | ibar => exact .retire (.single (.fetchBarrier s))
  | cacop => exact .cacop
  | csrrd => exact .csrrd rfl
  | csrwr | csrxchg => exact .privileged (.csrSwap rfl)
  | tlbsrch => exact .privileged (.run fun hit _ => .retire (.single (.tlbSearch s hit)))
  | tlbrd => exact .tlbrd
  | tlbwr => exact .tlbwr
  | tlbfill => exact .privileged (.retire (.tail (.single (.tlbWrite s _)) (.draw _)))
  | invtlb => exact .invtlb
  | ertn => exact .privileged (.next (.single (.exceptionReturn s)))
  | idle => exact .privileged (.next (.tail (.single (.jump s _)) (.wait _)))
  | faddS | fsubS | fmulS | fdivS | fmaxS | fminS | fmaxaS | fminaS => exact .fpRetireW nofun
  | faddD | fsubD | fmulD | fdivD | fmaxD | fminD | fmaxaD | fminaD => exact .fpRetireD nofun
  | fmaddS | fmsubS | fnmaddS | fnmsubS | fsqrtS | frecipS | frsqrtS => exact .fpRetireW nofun
  | fmaddD | fmsubD | fnmaddD | fnmsubD | fsqrtD | frecipD | frsqrtD => exact .fpRetireD nofun
  | fcvtSD | ffintSW => exact .fpRetireW nofun
  | fcvtDS | ffintDW => exact .fpRetireD nofun
  | ftintWS | ftintrmWS | ftintrpWS | ftintrzWS | ftintrneWS => exact .fpRetireW nofun
  | ftintWD | ftintrmWD | ftintrpWD | ftintrzWD | ftintrneWD => exact .fpRetireW nofun
  | fcmpS | fcmpD => exact .fcmp nofun
  | fcopysignS | fabsS | fnegS | fclassS | fmovS | movgr2frW => exact .fpMoveW nofun
  | fcopysignD | fabsD | fnegD | fclassD | fmovD | movgr2frhW => exact .fpInstr (.fpMove nofun)
  | fsel | movcf2fr => exact .fpInstr (.withFlagField (.fpMove nofun))
  | movfr2cf | movgr2cf => exact .fpInstr (.withFlagField (.retire (.single (.flag s nofun _))))
  | movfr2grS | movfrh2grS => exact .fpInstr (.retireGpr rfl)
  | movcf2gr => exact .fpInstr (.withFlagField (.retireGpr rfl))
  | movgr2fcsr => exact .movgr2fcsr nofun
  | movfcsr2gr => exact .movfcsr2gr rfl
  | bceqz | bcnez => exact .fpInstr (.withFlagField .branch)
  | fldS fd => exact .fpInstr (.run fun v _ => .retire (.tail (.single (.fpr s nofun fd _)) (.draw _)))
  | fldD => exact .fpInstr (.run fun v _ => .fpMove nofun)
  | fstS | fstD => exact .fpInstr .memWrite

/-! ## What no instruction changes -/

/-- Between `s` and `t` no general register but the one `rd` names has changed, no floating-point state unless `fp` holds, and
nothing that only the other agents or the implementer set. -/
structure Frame (rd : Option RegNum) (fp : Prop) (s t : State) : Prop where
  gpr : ∀ r, rd ≠ some r → t.readGpr r = s.readGpr r
  float : ¬fp → t.fpr = s.fpr ∧ t.fcc0 = s.fcc0 ∧ t.fcsr0 = s.fcsr0
  environment : t.stableCounter = s.stableCounter ∧ t.hwi = s.hwi ∧ t.ipi = s.ipi ∧ t.cfg = s.cfg ∧ t.agenda = s.agenda

section
variable {rd : Option RegNum} {fp : Prop} {s t u : State}

theorem Frame.refl : Frame rd fp s s := ⟨fun _ _ => rfl, fun _ => ⟨rfl, rfl, rfl⟩, rfl, rfl, rfl, rfl, rfl⟩

theorem Frame.trans (h : Frame rd fp s t) (k : Frame rd fp t u) : Frame rd fp s u where
  gpr r hr := (k.gpr r hr).trans (h.gpr r hr)
  float hfp := by
    obtain ⟨h1, h2, h3⟩ := h.float hfp
    obtain ⟨k1, k2, k3⟩ := k.float hfp
    exact ⟨k1.trans h1, k2.trans h2, k3.trans h3⟩
  environment := by
    obtain ⟨h1, h2, h3, h4, h5⟩ := h.environment
    obtain ⟨k1, k2, k3, k4, k5⟩ := k.environment
    exact ⟨k1.trans h1, k2.trans h2, k3.trans h3, k4.trans h4, k5.trans h5⟩

theorem Frame.of_gpr_eq (hg : t.gpr = s.gpr) (hf : ¬fp → t.fpr = s.fpr ∧ t.fcc0 = s.fcc0 ∧ t.fcsr0 = s.fcsr0)
    (he : t.stableCounter = s.stableCounter ∧ t.hwi = s.hwi ∧ t.ipi = s.ipi ∧ t.cfg = s.cfg ∧ t.agenda = s.agenda) :
    Frame rd fp s t := ⟨fun r _ => State.readGpr_congr hg r, hf, he⟩

theorem Change.frame (h : Change rd fp s t) : Frame rd fp s t := by
  cases h with
  | gpr h v => exact ⟨fun r hr => s.readGpr_writeGpr_of_ne v fun e => hr (h.trans (congrArg some e.symm)), by simp, by simp⟩
  | fpr h | flag h | fcsr h => exact .of_gpr_eq rfl (absurd h) ⟨rfl, rfl, rfl, rfl, rfl⟩
  | csrWrite | tlbRead => exact .of_gpr_eq (by simp) (by simp) (by simp)
  | _ => exact .of_gpr_eq rfl (fun _ => ⟨rfl, rfl, rfl⟩) ⟨rfl, rfl, rfl, rfl, rfl⟩

theorem Changes.frame (h : Changes rd fp s t) : Frame rd fp s t := by
  induction h with
  | refl => exact .refl
  | tail _ hc ih => exact ih.trans hc.frame

/-! ## The invariant -/

theorem Change.inv (h : Change rd fp s t) (hs : s.Inv) : t.Inv := by
  cases h with
  | exception e => exact hs.enterException e
  | exceptionReturn => exact hs.returnFromException
  | draw => exact hs.drawn
  | gpr _ v => exact hs.writeGpr _ v
  | fpr _ r v => exact hs.writeFpr r v
  | fcsr _ hc => exact hs.withFcsr rfl rfl (hc hs.fcsr) rfl rfl rfl rfl
  | store pa n v => exact hs.storeMem pa n v
  | cacheHit obj pa => exact hs.cacheHit obj pa
  | fetchBarrier => exact hs.fetchBarrier
  | csrWrite k v m => exact hs.csrWrite k v m
  | tlbSearch hit => exact hs.tlbSearchDone hit
  | tlbRead e => exact hs.tlbReadInto e
  | tlbWrite i => exact hs.tlbSet i _ (pageOfTlbelo_fits _ _) (pageOfTlbelo_fits _ _)
  | tlbInvalidate op asid va => exact hs.invtlb op asid va
  | jump | wait | flag | link => exact hs.congr rfl rfl rfl rfl rfl rfl rfl

theorem Changes.inv (h : Changes rd fp s t) (hs : s.Inv) : t.Inv := by
  induction h with
  | refl => exact hs
  | tail _ hc ih => exact hc.inv ih

end

theorem exec_frame {i : Instr} {s t : State} (h : exec i s = .next t) : Frame (gprTarget i) (fpNeeds i ≠ none) s t :=
  (exec_madeOf i s t h).frame

theorem exec_inv {i : Instr} {s t : State} (hs : s.Inv) (h : exec i s = .next t) : t.Inv := (exec_madeOf i s t h).inv hs

theorem exec_cfg {i : Instr} {s t : State} (h : exec i s = .next t) : t.cfg = s.cfg := by
  obtain ⟨-, -, -, hcfg, -⟩ := (exec_frame h).environment
  exact hcfg

/-- Settles O53, by induction over the changes the instruction is made of. -/
theorem registerFrame : Obligations.RegisterFrame := by
  intro i s t h
  have hf := exec_frame h
  exact ⟨hf.gpr, fun hn => hf.float (· hn), hf.environment⟩

/-! ## A step -/

/-- An instruction's turn: an exception of the fetch, INE for a word that matches no row, or an instruction (R600, R250). -/
theorem runInstr_next {s t : State} (h : runInstr s = .next t) :
    (∃ e, t = enterException e s) ∨ ∃ pa, t = enterException .ine (s.fetched pa) ∨ ∃ i, exec i (s.fetched pa) = .next t := by
  rcases Res.run_next.1 h with ⟨tr, -, hk⟩ | ⟨e, -, rfl⟩
  · refine .inr ⟨tr.pa, ?_⟩
    cases hd : decode (s.fetchWord tr.pa) with
    | none =>
      rw [hd] at hk
      cases hk
      exact .inl rfl
    | some i =>
      rw [hd] at hk
      exact .inr ⟨i, hk⟩
  · exact .inl ⟨e, rfl⟩

/-- The core's step: asleep, an interrupt, or an instruction's turn (R600). -/
theorem coreStep_next {s t : State} (h : coreStep s = .next t) :
    t = s ∨ t = enterException .int s.awake ∨ runInstr s.awake = .next t := by
  unfold coreStep raise at h
  split at h
  · cases h; exact .inl rfl
  · split at h
    · cases h; exact .inr (.inl rfl)
    · exact .inr (.inr h)

theorem step_next {s t : State} : step s = .next t ↔ ∃ u, coreStep s = .next u ∧ t = u.envTurn := by
  unfold step
  cases coreStep s <;> simp [eq_comm]

/-- What every part of a step keeps: the invariant, and the parameters. -/
def Keeps (s t : State) : Prop := (s.Inv → t.Inv) ∧ t.cfg = s.cfg

theorem Keeps.trans {s t u : State} (h : Keeps s t) (k : Keeps t u) : Keeps s u :=
  ⟨fun hs => k.1 (h.1 hs), k.2.trans h.2⟩

theorem keeps_runInstr {s t : State} (h : runInstr s = .next t) : Keeps s t := by
  have hfetched (pa : Nat) : Keeps s (s.fetched pa) := ⟨fun hs => hs.fetched pa, State.fetched_cfg s pa⟩
  rcases runInstr_next h with ⟨e, rfl⟩ | ⟨pa, rfl | ⟨i, hi⟩⟩
  · exact ⟨fun hs => hs.enterException e, rfl⟩
  · exact (hfetched pa).trans ⟨fun hs => hs.enterException .ine, rfl⟩
  · exact (hfetched pa).trans ⟨fun hs => exec_inv hs hi, exec_cfg hi⟩

theorem keeps_coreStep {s t : State} (h : coreStep s = .next t) : Keeps s t := by
  have hawake : Keeps s s.awake := ⟨State.Inv.awake, rfl⟩
  rcases coreStep_next h with rfl | rfl | hr
  · exact ⟨id, rfl⟩
  · exact hawake.trans ⟨fun hs => hs.enterException .int, rfl⟩
  · exact hawake.trans (keeps_runInstr hr)

theorem keeps_applyEvent (s : State) (event : EnvEvent) : Keeps s (s.applyEvent event) := by
  cases event with
  | tick => exact ⟨State.Inv.tick, State.tick_cfg s⟩
  | store pa b => exact ⟨fun hs => hs.externalStore pa b, State.externalStore_cfg s pa b⟩
  | reset => exact ⟨State.Inv.resetCore, State.resetCore_cfg s⟩
  | hwi | ipi | clearLLbit => exact ⟨fun hs => hs.congr rfl rfl rfl rfl rfl rfl rfl, rfl⟩

theorem keeps_events (s : State) (batch : List EnvEvent) : Keeps s (batch.foldl State.applyEvent s) := by
  induction batch generalizing s with
  | nil => exact ⟨id, rfl⟩
  | cons event batch ih => exact (keeps_applyEvent s event).trans (ih _)

theorem keeps_envTurn (s : State) : Keeps s s.envTurn := by
  unfold State.envTurn
  split
  · exact keeps_applyEvent s .tick
  · next batch rest _ =>
    have hagenda : Keeps s { s with agenda := rest } := ⟨fun hs => hs.congr rfl rfl rfl rfl rfl rfl rfl, rfl⟩
    exact hagenda.trans (keeps_events _ batch)

/-- Settles O56: each turn of a step keeps the invariant, the instruction's by induction over the changes it is made of and the
other agents' by induction over the batch of events. -/
theorem stepKeepsInv : Obligations.StepKeepsInv := by
  intro s t hs h
  obtain ⟨u, hu, rfl⟩ := step_next.1 h
  have hk : Keeps s u.envTurn := (keeps_coreStep hu).trans (keeps_envTurn u)
  exact ⟨hk.1 hs, hk.2⟩

/-! ## Reset -/

theorem State.Inv.resetWith (c : Config) : (State.resetWith c).Inv where
  mem := rfl
  stale := List.nodup_nil
  csr k := by
    cases k with
    | crmd => exact show (0x8 : Word) &&& ~~~0x1FF = 0 by decide
    | tid =>
      show c.coreId.setWidth 32 &&& ~~~(0xFFFFFFFF : Word) = 0
      rw [show ~~~(0xFFFFFFFF : Word) = 0 by decide]
      exact BitVec.and_zero
    | _ => exact BitVec.zero_and
  fcsr := BitVec.zero_and
  timer := BitVec.zero_and
  tlbLength := List.length_replicate
  tlbPpn e he := by
    have hfits : (0 : BitVec 24).toNat < 2 ^ (c.palen - 12) := Nat.two_pow_pos _
    rw [List.eq_of_mem_replicate he, TlbEntry.afterReset_page0, TlbEntry.afterReset_page1]
    exact ⟨hfits, hfits⟩

/-- Settles O57. -/
theorem resetHasInv : Obligations.ResetHasInv := ⟨.resetWith _, .resetWith⟩

/-- An entry after a reset that clears the TLB is not valid. -/
theorem TlbEntry.afterReset_not_valid {c : Config} (hc : c.tlbClearedByReset = true) (e : TlbEntry) : (e.afterReset c).e = false := by
  rw [TlbEntry.afterReset_e, hc]
  rfl

/-- CRMD reads R90's value after a reset. -/
theorem csrRead_crmd {s : State} (h : s.csr.crmd = 0x00000008) : s.csrRead .crmd = 0x00000008 := by
  show s.csr.crmd &&& 0x000001FF = _
  rw [h]
  decide

/-- ASIDBITS reads 10 (R74). -/
theorem csrRead_asidbits (s : State) : (s.csrRead .asid).extractLsb' 16 8 = 10 := by
  show (0x000A0000 ||| (s.csr.asid &&& 0x3FF) : Word).extractLsb' 16 8 = 10
  apply BitVec.eq_of_getLsbD_eq
  intro i hi
  interval_cases i <;> simp

theorem csrRead_cpuid (s : State) : (s.csrRead .cpuid).toNat = s.cfg.coreId.toNat := by
  show (s.cfg.coreId.setWidth 32).toNat = _
  rw [BitVec.toNat_setWidth, Nat.mod_eq_of_lt (by omega)]

theorem csrRead_tid (s : State) : s.csrRead .tid = s.csr.tid := BitVec.and_allOnes

theorem csrRead_tid_of_coreId {s : State} (h : s.csr.tid = s.cfg.coreId.setWidth 32) :
    (s.csrRead .tid).toNat = s.cfg.coreId.toNat := by
  rw [csrRead_tid, h]
  exact csrRead_cpuid s

/-- A bit a mask leaves out is 0. -/
theorem getLsbD_and_clear (w : Word) {m : Word} {i : Nat} (h : m.getLsbD i = false) : (w &&& m).getLsbD i = false := by
  rw [BitVec.getLsbD_and, h, Bool.and_false]

/-- IS[1:0] after a reset of a running core (R90). -/
theorem resetCore_softwareInterrupts (s : State) : s.resetCore.csr.estat.extractLsb' 0 2 = 0 := by
  show (s.resetWord 65 &&& 0x7FFF0000).extractLsb' 0 2 = 0
  apply BitVec.eq_of_getLsbD_eq
  intro i hi
  interval_cases i <;> simp

/-- TCFG.En after a reset of a running core (R90). -/
theorem resetCore_timerDisabled (s : State) : s.resetCore.csr.tcfg.getLsbD 0 = false := by
  show (s.resetWord 81 &&& CsrName.heldMask s.cfg .tcfg &&& 0xFFFFFFFE).getLsbD 0 = false
  exact getLsbD_and_clear _ (by decide)

/-- The windows hit at no level after a reset of a running core (R90). -/
theorem resetCore_windowPlv (s : State) : s.resetCore.csr.dmw0.getLsbD 0 = false ∧ s.resetCore.csr.dmw0.getLsbD 3 = false ∧
    s.resetCore.csr.dmw1.getLsbD 0 = false ∧ s.resetCore.csr.dmw1.getLsbD 3 = false := by
  rw [show s.resetCore.csr.dmw0 = s.resetWord 83 &&& 0xEE000030 by rw [State.resetCore]; rfl,
    show s.resetCore.csr.dmw1 = s.resetWord 84 &&& 0xEE000030 by rw [State.resetCore]; rfl]
  exact ⟨getLsbD_and_clear _ (by decide), getLsbD_and_clear _ (by decide), getLsbD_and_clear _ (by decide),
    getLsbD_and_clear _ (by decide)⟩

theorem resetCore_tid (s : State) (h : s.cfg.tidResetToCoreId = true) : s.resetCore.csr.tid = s.cfg.coreId.setWidth 32 := if_pos h

theorem resetCore_tlb_length (s : State) : s.resetCore.tlb.length = s.cfg.tlbEntries := by
  rw [State.resetCore, List.length_map, List.length_range]

theorem resetCore_tlb_not_valid (s : State) (h : s.cfg.tlbClearedByReset = true) : ∀ e ∈ s.resetCore.tlb, e.e = false := by
  intro e he
  rw [State.resetCore] at he
  obtain ⟨i, -, rfl⟩ := List.mem_map.1 he
  exact TlbEntry.afterReset_not_valid h _

/-- Settles O58: the state right after reset, and the one a reset of a running core leaves, field by field. -/
theorem resetValues : Obligations.ResetValues := by
  intro s c t ht
  have hcases : (∃ d, t = State.resetWith d) ∨ t = s.resetCore := by
    simp only [List.mem_cons, List.not_mem_nil, or_false] at ht
    rcases ht with rfl | rfl | rfl
    · exact .inl ⟨_, rfl⟩
    · exact .inl ⟨c, rfl⟩
    · exact .inr rfl
  have hzero (m : Word) : 0 &&& m = 0 := BitVec.zero_and
  have hclear (i : Nat) : (0 : Word).getLsbD i = false := BitVec.getLsbD_zero
  rcases hcases with ⟨d, rfl⟩ | rfl
  · refine ⟨rfl, csrRead_crmd rfl, hzero _, hzero _, rfl, hclear 0, hclear 2, hclear 0, hclear 3, hclear 0, hclear 3, rfl, rfl, rfl,
      csrRead_asidbits _, csrRead_cpuid _, List.length_replicate, fun hd e he => ?_, fun _ => csrRead_tid_of_coreId rfl⟩
    rw [List.eq_of_mem_replicate he]
    exact TlbEntry.afterReset_not_valid hd _
  · obtain ⟨hdmw00, hdmw03, hdmw10, hdmw13⟩ := resetCore_windowPlv s
    exact ⟨rfl, csrRead_crmd rfl, hzero _, hzero _, resetCore_softwareInterrupts s, resetCore_timerDisabled s, hclear 2,
      hdmw00, hdmw03, hdmw10, hdmw13, rfl, rfl, rfl, csrRead_asidbits _, csrRead_cpuid _, resetCore_tlb_length s, resetCore_tlb_not_valid s,
      fun h => csrRead_tid_of_coreId (resetCore_tid s h)⟩

/-! ## Numbers in the low bits of a word -/

theorem toNat_lowMask {n : Nat} (h : n ≤ 32) : (lowMask n).toNat = 2 ^ n - 1 := by
  have h1 : 2 ^ n ≤ 2 ^ 32 := Nat.pow_le_pow_right (by decide) h
  have h2 := Nat.two_pow_pos n
  rw [lowMask, BitVec.toNat_ofNat, Nat.mod_eq_of_lt (by omega)]

theorem toNat_and_lowMask (w : Word) {n : Nat} (h : n ≤ 32) : (w &&& lowMask n).toNat = w.toNat % 2 ^ n := by
  rw [BitVec.toNat_and, toNat_lowMask h, Nat.and_two_pow_sub_one_eq_mod]

theorem toNat_clearLowTwo (w : Word) : (w &&& (0xFFFFFFFC : Word)).toNat = w.toNat / 4 * 4 := by
  have h : w &&& (0xFFFFFFFC : Word) = (w >>> 2) <<< 2 := by
    apply BitVec.eq_of_getLsbD_eq
    intro i hi
    interval_cases i <;> simp
  have hw := w.isLt
  rw [h, BitVec.toNat_shiftLeft, BitVec.toNat_ushiftRight, Nat.shiftRight_eq_div_pow, Nat.shiftLeft_eq,
    Nat.mod_eq_of_lt (by omega)]

/-- `{InitVal, 00}` is TCFG's low TIMER_BITS bits, down to a multiple of 4 (R81). -/
theorem toNat_timerInit {s : State} (h : s.cfg.timerBits ≤ 32) :
    s.timerInit.toNat = s.csr.tcfg.toNat % 2 ^ s.cfg.timerBits / 4 * 4 := by
  rw [State.timerInit, toNat_clearLowTwo, toNat_and_lowMask _ h]

/-- The count goes down by one modulo 2^TIMER_BITS (R651). -/
theorem toNat_timerNext {s : State} (h : s.cfg.timerBits ≤ 32) :
    s.timerNext.toNat = (s.timerVal.toNat + 2 ^ s.cfg.timerBits - 1) % 2 ^ s.cfg.timerBits := by
  obtain ⟨k, hk⟩ := Nat.pow_dvd_pow 2 h
  have hpos := Nat.two_pow_pos s.cfg.timerBits
  have hsum : 2 ^ 32 - 1 + s.timerVal.toNat = s.timerVal.toNat + 2 ^ s.cfg.timerBits - 1 + 2 ^ s.cfg.timerBits * (k - 1) := by
    have hk0 : 0 < k := Nat.pos_of_ne_zero fun h0 => by simp [h0] at hk
    have := Nat.le_mul_of_pos_right (2 ^ s.cfg.timerBits) hk0
    rw [Nat.mul_sub, Nat.mul_one, ← hk] at *
    omega
  calc s.timerNext.toNat
    _ = (2 ^ 32 - 1 + s.timerVal.toNat) % 2 ^ 32 % 2 ^ s.cfg.timerBits := by
      rw [State.timerNext, toNat_and_lowMask _ h, BitVec.toNat_sub]
      rfl
    _ = (2 ^ 32 - 1 + s.timerVal.toNat) % 2 ^ s.cfg.timerBits := Nat.mod_mod_of_dvd _ (Nat.pow_dvd_pow 2 h)
    _ = (s.timerVal.toNat + 2 ^ s.cfg.timerBits - 1) % 2 ^ s.cfg.timerBits := by rw [hsum, Nat.add_mul_mod_self_left]

/-! ## The timer -/

/-- A stopped or disabled timer keeps its value, its flag and its state (R651). -/
theorem timerTick_idle {s : State} (h : (s.csr.tcfg.getLsbD 0 && s.timerRun) = false) : s.timerTick = s :=
  if_neg fun hr => Bool.false_ne_true (h.symm.trans hr)

/-- A running timer whose next count is not 0 counts down (R651). -/
theorem timerTick_counts {s : State} (h : (s.csr.tcfg.getLsbD 0 && s.timerRun) = true) (hn : s.timerNext ≠ 0) :
    s.timerTick = { s with timerVal := s.timerNext } := by
  rw [State.timerTick, if_pos h, if_neg hn]

/-- A running timer whose next count is 0 raises its flag, and reloads or stops (R651). -/
theorem timerTick_fires {s : State} (h : (s.csr.tcfg.getLsbD 0 && s.timerRun) = true) (hn : s.timerNext = 0) :
    s.timerTick = if s.csr.tcfg.getLsbD 1 then { s with timerVal := s.timerInit, tiFlag := true }
      else { s with timerVal := 0, tiFlag := true, timerRun := false } := by
  rw [State.timerTick, if_pos h, if_pos hn]

/-- The state a tick's timer acts on: the counter has gone up. -/
def State.counted (s : State) : State := { s with stableCounter := s.stableCounter + 1 }

theorem tick_eq_timerTick (s : State) : s.tick = s.counted.timerTick := rfl

/-- A tick changes the counter and the timer only. -/
theorem tick_eq (s : State) :
    s.tick = { s with stableCounter := s.tick.stableCounter, timerVal := s.tick.timerVal, timerRun := s.tick.timerRun,
                      tiFlag := s.tick.tiFlag } := by
  unfold State.tick State.timerTick
  (repeat' split) <;> rfl

/-- A running, enabled timer with `v` counts left to its interrupt, of TIMER_BITS bits. -/
structure TimerRuns (s : State) (v : Nat) : Prop where
  bits : s.cfg.timerBits ≤ 32
  val : s.timerVal.toNat = v
  lt : v < 2 ^ s.cfg.timerBits
  enabled : s.csr.tcfg.getLsbD 0 = true
  run : s.timerRun = true

theorem TimerRuns.running {s : State} {v : Nat} (h : TimerRuns s v) : (s.csr.tcfg.getLsbD 0 && s.timerRun) = true := by
  rw [h.enabled, h.run]
  rfl

theorem TimerRuns.toNat_next {s : State} {v : Nat} (h : TimerRuns s (v + 1)) : s.timerNext.toNat = v := by
  have hlt := h.lt
  rw [toNat_timerNext h.bits, h.val, show v + 1 + 2 ^ s.cfg.timerBits - 1 = v + 2 ^ s.cfg.timerBits by omega,
    Nat.add_mod_right, Nat.mod_eq_of_lt (by omega)]

/-- A tick with more than one count left takes one of them, and raises nothing. -/
theorem TimerRuns.tick {s : State} {v : Nat} (h : TimerRuns s (v + 2)) : TimerRuns s.tick (v + 1) ∧ s.tick.tiFlag = s.tiFlag := by
  have hnext := h.toNat_next
  have hlt := h.lt
  have hne : s.timerNext ≠ 0 := fun h0 => by simp [h0] at hnext
  rw [tick_eq_timerTick, timerTick_counts (s := s.counted) h.running hne]
  exact ⟨⟨h.bits, hnext, show v + 1 < 2 ^ s.cfg.timerBits by omega, h.enabled, h.run⟩, rfl⟩

/-- The tick that takes the last count raises the flag. -/
theorem TimerRuns.tick_fires {s : State} (h : TimerRuns s 1) : s.tick.tiFlag = true := by
  rw [tick_eq_timerTick, timerTick_fires (s := s.counted) h.running (BitVec.eq_of_toNat_eq h.toNat_next)]
  split <;> rfl

/-- After `n` ticks, fewer than the counts left, `v` of them are left and nothing has been raised. -/
theorem TimerRuns.iterate {s : State} {v n : Nat} (h : TimerRuns s (v + 1 + n)) :
    TimerRuns (State.tick^[n] s) (v + 1) ∧ (State.tick^[n] s).tiFlag = s.tiFlag := by
  induction n generalizing s with
  | zero => exact ⟨h, rfl⟩
  | succ n ih =>
    obtain ⟨hrun, hflag⟩ := TimerRuns.tick (v := v + n) (by rwa [show v + n + 2 = v + 1 + (n + 1) by omega])
    obtain ⟨hruns, hflags⟩ := ih (s := s.tick) (by rwa [show v + 1 + n = v + n + 1 by omega])
    rw [Function.iterate_succ_apply]
    exact ⟨hruns, hflags.trans hflag⟩

/-! ## The other agents -/

/-- The first event of a batch, then the turn with the rest of the batch (R600). -/
theorem envTurn_cons {s : State} {event : EnvEvent} {batch : List EnvEvent} {rest : List (List EnvEvent)}
    (h : s.agenda = (event :: batch) :: rest) :
    s.envTurn = State.envTurn { s.applyEvent event with agenda := batch :: rest } := by
  unfold State.envTurn
  rw [h]
  show batch.foldl State.applyEvent (State.applyEvent { s with agenda := rest } event) = _
  rw [State.applyEvent_withAgenda]

/-- ESTAT.IS[9:2] reads the lines HWI[7:0] (R641). -/
theorem csrRead_estat_hwi (s : State) : (s.csrRead .estat).extractLsb' 2 8 = s.hwi := by
  show ((s.csr.estat &&& 0x7FFF0000) ||| s.interruptStatus).extractLsb' 2 8 = s.hwi
  apply BitVec.eq_of_getLsbD_eq
  intro i hi
  unfold State.interruptStatus wordOfBool
  interval_cases i <;> cases s.tiFlag <;> cases s.ipi <;> simp

/-- ESTAT.IS[12] reads the line IPI (R641). -/
theorem csrRead_estat_ipi (s : State) : (s.csrRead .estat).getLsbD 12 = s.ipi := by
  show ((s.csr.estat &&& 0x7FFF0000) ||| s.interruptStatus).getLsbD 12 = s.ipi
  unfold State.interruptStatus wordOfBool
  cases s.tiFlag <;> cases s.ipi <;> simp

/-- Settles O59: one tick by the cases of the timer, its ticks up to the interrupt by induction on their number, and the other agents'
turn by its definition. -/
theorem tick : Obligations.Tick := by
  refine ⟨fun s hbits _ => ?_, fun s hbits hv hpos hen hrun => ?_, fun s => ?_⟩
  · refine ⟨by rw [State.tick_stableCounter, BitVec.toNat_add]; rfl, tick_eq s, ?_⟩
    rw [← toNat_timerNext hbits, tick_eq_timerTick]
    cases hr : s.csr.tcfg.getLsbD 0 && s.timerRun with
    | false =>
      rw [timerTick_idle (s := s.counted) hr]
      exact ⟨rfl, rfl, rfl⟩
    | true =>
      have hrun : s.timerRun = true := (Bool.and_eq_true_iff.1 hr).2
      by_cases hn : s.timerNext = 0
      · rw [timerTick_fires (s := s.counted) hr hn, hn]
        cases hp : s.csr.tcfg.getLsbD 1 with
        | false =>
          rw [show s.counted.csr.tcfg.getLsbD 1 = false from hp]
          exact ⟨rfl, rfl, rfl⟩
        | true =>
          rw [show s.counted.csr.tcfg.getLsbD 1 = true from hp]
          exact ⟨rfl, toNat_timerInit hbits, hrun⟩
      · have hne : s.timerNext.toNat ≠ 0 := fun h0 => hn (BitVec.eq_of_toNat_eq h0)
        rw [timerTick_counts (s := s.counted) hr hn, if_pos rfl, if_pos hne]
        exact ⟨rfl, rfl, hrun⟩
  · have hruns {v n : Nat} (hvn : v + 1 + n = s.timerVal.toNat) : TimerRuns s (v + 1 + n) :=
      ⟨hbits, hvn.symm, hvn ▸ hv, hen, hrun⟩
    refine ⟨fun n hn => ?_, ?_⟩
    · obtain ⟨hleft, hflag⟩ := TimerRuns.iterate (hruns (v := s.timerVal.toNat - n - 1) (n := n) (by omega))
      exact ⟨by rw [hleft.val]; omega, hflag⟩
    · obtain ⟨hleft, -⟩ := TimerRuns.iterate (hruns (v := 0) (n := s.timerVal.toNat - 1) (by omega))
      rw [show s.timerVal.toNat = (s.timerVal.toNat - 1) + 1 by omega, Function.iterate_succ_apply']
      exact hleft.tick_fires
  · refine ⟨fun h => ?_, fun rest h => ?_, fun event batch rest h => envTurn_cons h, rfl,
      fun lines => ⟨csrRead_estat_hwi _, rfl⟩, fun line => ⟨csrRead_estat_ipi _, rfl⟩, rfl, rfl, rfl, csrRead_crmd rfl, rfl, ?_⟩
    · rw [State.envTurn, h]
    · rw [State.envTurn, h]; rfl
    · simp [State.applyEvent]

/-! ## CSRWR and CSRXCHG -/

/-- A mask of bits from `n` up, together with one of bits below `n`. -/
theorem toNat_or_low {high low : Word} {a n : Nat} (hh : high.toNat = 2 ^ n * a) (hl : low.toNat < 2 ^ n) :
    (high ||| low).toNat = high.toNat + low.toNat := by
  rw [BitVec.toNat_or, hh, Nat.two_pow_add_eq_or_of_lt hl]

/-- The RW bits of TLBIDX (R71). -/
theorem toNat_tlbidxMask {c : Config} (h : c.tlbIndexBits ≤ 16) :
    (CsrName.writeMask c .tlbidx).toNat = 0xBF000000 + (2 ^ c.tlbIndexBits - 1) := by
  have hlow := toNat_lowMask (n := c.tlbIndexBits) (by omega)
  have hlt : 2 ^ c.tlbIndexBits ≤ 2 ^ 16 := Nat.pow_le_pow_right (by decide) h
  show ((0xBF000000 : Word) ||| lowMask c.tlbIndexBits).toNat = _
  rw [toNat_or_low (a := 0xBF) (n := 24) (by decide) (by omega), hlow]
  rfl

/-- The RW bits of TLBELO0 and TLBELO1 (R73). -/
theorem toNat_tlbeloMask {c : Config} (h : c.palen ≤ 36) :
    ((0x0000007F : Word) ||| lowMask (c.palen - 12) <<< 8).toNat = 0x0000007F + (2 ^ (c.palen - 12) - 1) * 2 ^ 8 := by
  have hlow := toNat_lowMask (n := c.palen - 12) (by omega)
  have hlt : 2 ^ (c.palen - 12) ≤ 2 ^ 24 := Nat.pow_le_pow_right (by decide) (by omega)
  have hshift : (lowMask (c.palen - 12) <<< 8).toNat = 2 ^ 8 * (2 ^ (c.palen - 12) - 1) := by
    rw [BitVec.toNat_shiftLeft, hlow, Nat.shiftLeft_eq, Nat.mod_eq_of_lt (by omega), Nat.mul_comm]
  rw [BitVec.or_comm, toNat_or_low hshift (by decide), hshift]
  rw [show (0x0000007F : Word).toNat = 0x7F from rfl]
  omega

/-- What `wf` says of the three widths. -/
theorem Config.wf_widths {c : Config} (h : c.wf = true) : c.palen ≤ 36 ∧ c.tlbIndexBits ≤ 16 ∧ c.timerBits ≤ 32 := by
  simp only [Config.wf, Bool.and_eq_true, decide_eq_true_eq] at h
  omega

/-- A register reads back what the write procedure leaves in it; one that holds none has no RW bit. -/
theorem get_set_writeMask (c : Config) (r : Csrs) (k : CsrName) (v m : Word) :
    (r.set k (setBits (r.get k) (m &&& k.writeMask c) v)).get k = setBits (r.get k) (m &&& k.writeMask c) v := by
  cases k with
  | pgd | cpuid | tval | ticlr | ctag =>
    have hnone : m &&& (0 : Word) = 0 := BitVec.and_zero
    show (0 : Word) = setBits 0 (m &&& 0) v
    rw [hnone]
    simp [setBits]
  | _ => rfl

theorem csrWrite_tiFlag (s : State) (k : CsrName) (v m : Word) :
    (s.csrWrite k v m).tiFlag = (s.tiFlag && !(k == .ticlr && m.getLsbD 0 && v.getLsbD 0)) := by
  cases k with
  | ticlr =>
    show (s.tiFlag && !(m &&& v).getLsbD 0) = (s.tiFlag && !(true && m.getLsbD 0 && v.getLsbD 0))
    rw [BitVec.getLsbD_and, Bool.true_and]
  | _ => exact (Bool.and_true _).symm

theorem csrWrite_llbit (s : State) (k : CsrName) (v m : Word) :
    (s.csrWrite k v m).llbit = (s.llbit && !(k == .llbctl && m.getLsbD 1 && v.getLsbD 1)) := by
  cases k with
  | llbctl =>
    show (s.llbit && !(m &&& v).getLsbD 1) = (s.llbit && !(true && m.getLsbD 1 && v.getLsbD 1))
    rw [BitVec.getLsbD_and, Bool.true_and]
  | _ => exact (Bool.and_true _).symm

/-- A write to TCFG, and no other, loads and arms the timer (R652). -/
theorem csrWrite_timer (s : State) (k : CsrName) (v m : Word) : let t := s.csrWrite k v m
    if k = .tcfg then t.timerRun = true ∧
      (s.cfg.timerBits ≤ 32 → t.timerVal.toNat = t.csr.tcfg.toNat % 2 ^ s.cfg.timerBits / 4 * 4)
    else t.timerRun = s.timerRun ∧ t.timerVal = s.timerVal := by
  cases k with
  | tcfg => exact ⟨rfl, fun h => toNat_timerInit (s := { s with csr := s.csr.set .tcfg _ }) h⟩
  | _ => exact ⟨rfl, rfl⟩

theorem csrWrite_eq (s : State) (k : CsrName) (v m : Word) : let t := s.csrWrite k v m
    t = { s with csr := t.csr, tiFlag := t.tiFlag, llbit := t.llbit, timerRun := t.timerRun, timerVal := t.timerVal } := by
  cases k <;> rfl

theorem csrReadDone_eq (s : State) (k : CsrName) : s.csrReadDone k = { s with draws := (s.csrReadDone k).draws } := by
  cases k <;> rfl

theorem writeGpr_eq (s : State) (r : RegNum) (v : Word) : s.writeGpr r v = { s with gpr := (s.writeGpr r v).gpr } := by
  unfold State.writeGpr
  split <;> rfl

/-- The state after CSRWR or CSRXCHG with a number that names a register (R56). -/
def State.csrSwapped (s : State) (rd : RegNum) (k : CsrName) (v m : Word) : State :=
  (((s.csrWrite k v m).csrReadDone k).writeGpr rd (s.csrRead k)).advance

theorem csrSwap_some {s : State} {rd : RegNum} {num : BitVec 14} {k : CsrName} {v m : Word} (h : csrOfNum num = some k) :
    s.csrSwap rd num v m = .next (s.csrSwapped rd k v m) := by
  rw [State.csrSwap, h]
  rfl

theorem csrSwap_none {s : State} {rd : RegNum} {num : BitVec 14} {v m : Word} (h : csrOfNum num = none) :
    s.csrSwap rd num v m = s.retireGpr rd 0 := by
  rw [State.csrSwap, h]

section
variable (s : State) (rd : RegNum) (k : CsrName) (v m : Word)

theorem csrSwapped_gprIs : GprIs s (s.csrSwapped rd k v m) rd (s.csrRead k) := by
  have hold : ((s.csrWrite k v m).csrReadDone k).gpr = s.gpr := by simp
  exact ⟨State.readGpr_writeGpr_self _ rd _, fun r hr =>
    (State.readGpr_writeGpr_of_ne _ _ hr).trans (State.readGpr_congr hold r)⟩

theorem csrSwapped_csr : (s.csrSwapped rd k v m).csr = s.csr.set k (setBits (s.csr.get k) (m &&& k.writeMask s.cfg) v) := by
  simp [State.csrSwapped]

theorem csrSwapped_written (b : Nat) : ((s.csrSwapped rd k v m).csr.get k).getLsbD b =
    if m.getLsbD b && (k.writeMask s.cfg).getLsbD b then v.getLsbD b else (s.csr.get k).getLsbD b := by
  rw [csrSwapped_csr, get_set_writeMask, getLsbD_setBits, BitVec.getLsbD_and]

/-- What the swap does beyond the register and x[rd] is what the write does. -/
theorem csrSwapped_actions : let t := s.csrSwapped rd k v m
    t.tiFlag = (s.csrWrite k v m).tiFlag ∧ t.llbit = (s.csrWrite k v m).llbit ∧ t.timerRun = (s.csrWrite k v m).timerRun ∧
      t.timerVal = (s.csrWrite k v m).timerVal ∧ t.csr = (s.csrWrite k v m).csr ∧ t.pc = s.pc + 4 ∧ t.mem = s.mem := by
  simp [State.csrSwapped]

theorem csrSwapped_eq : let t := s.csrSwapped rd k v m
    t = { s with gpr := t.gpr, csr := t.csr, tiFlag := t.tiFlag, llbit := t.llbit, timerRun := t.timerRun,
                 timerVal := t.timerVal, pc := t.pc, draws := t.draws } := by
  have hwrite := csrWrite_eq s k v m
  have hread := csrReadDone_eq (s.csrWrite k v m) k
  have hgpr := writeGpr_eq ((s.csrWrite k v m).csrReadDone k) rd (s.csrRead k)
  unfold State.csrSwapped
  generalize ((s.csrWrite k v m).csrReadDone k).writeGpr rd (s.csrRead k) = c at *
  generalize (s.csrWrite k v m).csrReadDone k = b at *
  generalize s.csrWrite k v m = a at *
  rw [hgpr, hread, hwrite]
  rfl

end

/-- Settles O47: the masks one by one; the two instructions are one swap, whose effect is the write's with x[rd] written. -/
theorem csrWrite : Obligations.CsrWrite := by
  refine ⟨fun c hc => ?_, fun _ => rfl, fun s rd rj num h0 p hp => ?_⟩
  · obtain ⟨hpalen, hindex, htimer⟩ := Config.wf_widths hc
    simp only [List.forall_mem_cons]
    exact ⟨rfl, rfl, rfl, rfl, rfl, rfl, rfl, rfl, toNat_tlbidxMask hindex, rfl, toNat_tlbeloMask hpalen, toNat_tlbeloMask hpalen,
      rfl, rfl, rfl, rfl, rfl, rfl, rfl, rfl, rfl, rfl, toNat_lowMask htimer, rfl, rfl, rfl, rfl, rfl, rfl, nofun⟩
  · have hexec : exec p.1 s = s.csrSwap rd num (s.readGpr rd) p.2 := by
      simp only [List.mem_cons, List.not_mem_nil, or_false] at hp
      rcases hp with rfl | rfl
      · exact privileged_zero h0
      · exact privileged_zero h0
    rw [hexec]
    dsimp only
    cases hk : csrOfNum num with
    | none =>
      rw [csrSwap_none hk]
      exact writesGpr_retireGpr s rd 0
    | some k =>
      obtain ⟨htiFlag, hllbit, hrun, hval, hcsr, hpc, hmem⟩ := csrSwapped_actions s rd k (s.readGpr rd) p.2
      refine ⟨_, csrSwap_some hk, csrSwapped_gprIs s rd k _ _, fun b _ => csrSwapped_written s rd k _ _ b, fun j hj => ?_,
        htiFlag.trans (csrWrite_tiFlag s k _ _), hllbit.trans (csrWrite_llbit s k _ _), ?_, hpc, fun a => ?_,
        csrSwapped_eq s rd k _ _⟩
      · rw [csrSwapped_csr]
        exact Csrs.get_set_of_ne _ _ hj
      · rw [hrun, hval, hcsr]
        exact csrWrite_timer s k _ _
      · rw [State.byteAt, hmem]
        rfl

end Sys2Proof.Machine

/-! PROOFS. Memory, address translation, and where an access ends: the statements of spec/20_memory.md. -/

namespace Sys2Proof.Machine

/-! ## Memory: bytes and canonical form (R150, R153) -/

/-- Bytes that spell `v`, least significant first, load as `v` modulo the width of the load. -/
theorem State.natAt_of_bytes {s : State} {pa n v : Nat} (h : ∀ j, j < n → (s.byteAt (pa + j)).toNat = v / 256 ^ j % 256) :
    s.natAt pa n = v % 256 ^ n := by
  induction n generalizing pa v with
  | zero => simp [State.natAt, Nat.mod_one]
  | succ n ih =>
    have hfirst : (s.byteAt pa).toNat = v % 256 := by simpa using h 0 (by omega)
    have hrest : s.natAt (pa + 1) n = v / 256 % 256 ^ n := ih fun j hj => by
      rw [Nat.add_assoc, Nat.add_comm 1 j, h (j + 1) (by omega), Nat.div_div_eq_div_mul, Nat.pow_succ']
    rw [State.natAt, hfirst, hrest, Nat.pow_succ', Nat.mod_mul]

theorem Memory.toNat_loadLE_of_bytes {m : Memory} {pa n v : Nat} (hn : n ≤ 8)
    (h : ∀ j, j < n → (m.read (pa + j)).toNat = v / 256 ^ j % 256) : (m.loadLE pa n).toNat = v % 256 ^ n :=
  (State.toNat_loadLE { State.reset with mem := m } pa n hn).trans (State.natAt_of_bytes h)

/-- In a canonical memory the first byte listed is not what the same address reads as where only higher ones are listed. -/
theorem Memory.read_head_ne {a : Nat} {b : Byte} {m k : Memory} (hm : Memory.wf ((a, b) :: m) = true) (hk : ∀ c ∈ k, a < c.1) :
    Memory.read ((a, b) :: m) a ≠ k.read a := by
  obtain ⟨hb, -, -⟩ := Memory.wf_cons.1 hm
  rwa [Memory.read, if_pos rfl, Memory.read_below hk]

/-- What a canonical memory reads as with its first byte gone. -/
theorem Memory.read_tail {a : Nat} {b : Byte} {m : Memory} (hm : Memory.wf ((a, b) :: m) = true) (x : Nat) :
    m.read x = if x = a then Memory.unlisted a else Memory.read ((a, b) :: m) x := by
  obtain ⟨-, habove, -⟩ := Memory.wf_cons.1 hm
  split
  · next hx => rw [hx, Memory.read_below habove]
  · next hx => rw [Memory.read, if_neg (Ne.symm hx)]

/-- In canonical form equal bytes are equal data (log 6). -/
theorem Memory.eq_of_read_eq {m k : Memory} (hm : m.wf = true) (hk : k.wf = true) (h : ∀ a, k.read a = m.read a) : k = m := by
  induction m generalizing k with
  | nil =>
    cases k with
    | nil => rfl
    | cons d k => exact absurd (h d.1) (Memory.read_head_ne hk nofun)
  | cons c m ih =>
    cases k with
    | nil => exact absurd (h c.1).symm (Memory.read_head_ne hm nofun)
    | cons d k =>
      obtain ⟨a, b⟩ := c
      obtain ⟨x, y⟩ := d
      obtain ⟨-, habove, hmtail⟩ := Memory.wf_cons.1 hm
      obtain ⟨-, hxabove, hktail⟩ := Memory.wf_cons.1 hk
      have hax : ¬ a < x := fun hlt => absurd (h a).symm <| Memory.read_head_ne hm <|
        List.forall_mem_cons.2 ⟨hlt, fun d hd => Nat.lt_trans hlt (hxabove d hd)⟩
      have hxa : ¬ x < a := fun hlt => absurd (h x) <| Memory.read_head_ne hk <|
        List.forall_mem_cons.2 ⟨hlt, fun c hc => Nat.lt_trans hlt (habove c hc)⟩
      obtain rfl : x = a := by omega
      have hby : y = b := by simpa [Memory.read] using h x
      rw [hby, ih hmtail hktail fun z => by rw [Memory.read_tail hk, Memory.read_tail hm, h z]]

/-- Settles O60, from the laws of Laws/Memory.lean; the load back is the number the stored bytes spell. -/
theorem memoryByteOrder : Obligations.MemoryByteOrder := by
  intro m pa n v hm hn
  have hbytes (j : Nat) (hj : j < n) : ((m.storeLE pa n v).read (pa + j)).toNat = v.toNat / 256 ^ j % 256 := by
    rw [Memory.read_storeLE hm pa n v j hj, BitVec.extractLsb'_toNat, Nat.shiftRight_eq_div_pow, Nat.pow_mul]
  exact ⟨hbytes, Memory.read_storeLE_of_out hm pa n v, Memory.toNat_loadLE_of_bytes hn hbytes,
    Memory.wf_storeLE pa n v hm, fun k hk h => Memory.eq_of_read_eq hm hk h⟩

/-! ## The modes and the windows (R170 to R173, R179) -/

section
variable {s : State} {va : Word} {k : Access}

theorem translate_direct (hda : s.da = true) (hpg : s.pg = false) : translate s va k = .ok (directTranslate s va k) := by
  simp only [translate, hda, hpg]

theorem translate_illegal (h : s.da = s.pg) : translate s va k = .fault .illegalTranslationMode := by
  unfold translate
  rw [h]
  cases s.pg <;> rfl

theorem translate_mapped (hda : s.da = false) (hpg : s.pg = true) : translate s va k =
    if dmwHit s s.csr.dmw0 va then .ok (dmwTranslate s s.csr.dmw0 va)
    else if dmwHit s s.csr.dmw1 va then .ok (dmwTranslate s s.csr.dmw1 va)
    else tlbTranslate s va k := by
  simp only [translate, hda, hpg]

theorem translate_tlb (hda : s.da = false) (hpg : s.pg = true) (h0 : dmwHit s s.csr.dmw0 va = false)
    (h1 : dmwHit s s.csr.dmw1 va = false) : translate s va k = tlbTranslate s va k := by
  simp [translate_mapped hda hpg, h0, h1]

/-- A window hits where its VSEG is va[31:29] and it is enabled at the current level (R173). -/
theorem dmwHit_iff {dmw : Word} : dmwHit s dmw va = true ↔ va.toNat / 2 ^ 29 = dmw.toNat / 2 ^ 29 ∧
    (s.plv = 0 ∧ dmw.getLsbD 0 = true ∨ s.plv = 3 ∧ dmw.getLsbD 3 = true) := by
  have hseg : va.extractLsb' 29 3 = dmw.extractLsb' 29 3 ↔ va.toNat / 2 ^ 29 = dmw.toNat / 2 ^ 29 := by
    have h1 := va.isLt
    have h2 := dmw.isLt
    rw [← BitVec.toNat_inj, BitVec.extractLsb'_toNat, BitVec.extractLsb'_toNat, Nat.shiftRight_eq_div_pow, Nat.shiftRight_eq_div_pow]
    omega
  simp [dmwHit, hseg]

/-- A window maps to `{PSEG, va[28:0]}` with its own type (R173). -/
theorem dmwTranslate_eq {dmw : Word} : dmwTranslate s dmw va =
    ⟨(dmw.toNat / 2 ^ 25 % 8 * 2 ^ 29 + va.toNat % 2 ^ 29) % 2 ^ s.cfg.palen, dmw.extractLsb' 4 2⟩ := by
  have hcat : (dmw.extractLsb' 25 3 ++ va.extractLsb' 0 29).toNat = dmw.toNat / 2 ^ 25 % 8 * 2 ^ 29 + va.toNat % 2 ^ 29 := by
    rw [BitVec.toNat_append, BitVec.extractLsb'_toNat, BitVec.extractLsb'_toNat, Nat.shiftRight_zero, Nat.shiftRight_eq_div_pow,
      ← Nat.shiftLeft_add_eq_or_of_lt (Nat.mod_lt _ (Nat.two_pow_pos 29)), Nat.shiftLeft_eq]
  rw [dmwTranslate, hcat]

end

/-- Settles O15: direct mode, DMW0 where it hits, else DMW1 where it hits. -/
theorem directAndWindowTranslation : Obligations.DirectAndWindowTranslation := by
  intro s va k
  refine ⟨fun hda hpg => ?_, fun hda hpg h0 => ?_, fun hda hpg h0 h1 => ?_⟩
  · rw [translate_direct hda hpg]
    cases k <;> rfl
  · rw [translate_mapped hda hpg, if_pos (dmwHit_iff.2 h0), dmwTranslate_eq]
  · rw [translate_mapped hda hpg, if_neg (mt dmwHit_iff.1 h0), if_pos (dmwHit_iff.2 h1), dmwTranslate_eq]

/-! ## The TLB (R175 to R178) -/

theorem TlbEntry.psSupported_iff {e : TlbEntry} : e.psSupported = true ↔ e.ps = 12 ∨ e.ps = 21 := by simp [TlbEntry.psSupported]

theorem TlbEntry.asidMatch_iff {e : TlbEntry} {asid : BitVec 10} : e.asidMatch asid = true ↔ e.g = true ∨ e.asid = asid := by
  simp [TlbEntry.asidMatch]

theorem TlbEntry.vaMatch_iff {e : TlbEntry} {va : Word} :
    e.vaMatch va = true ↔ e.vppn.toNat * 2 ^ 13 / 2 ^ (e.ps.toNat + 1) = va.toNat / 2 ^ (e.ps.toNat + 1) := by
  have hvppn : (e.vppn ++ 0#13).toNat = e.vppn.toNat * 2 ^ 13 := by
    rw [BitVec.toNat_append, Nat.shiftLeft_eq]
    exact Nat.or_zero _
  simp only [TlbEntry.vaMatch, hvppn, Nat.shiftRight_eq_div_pow, beq_iff_eq]

/-- A valid entry of the current address space (R175). -/
def TlbEntry.InSpace (s : State) (e : TlbEntry) : Prop := e.e = true ∧ (e.g = true ∨ e.asid = s.csr.asid.extractLsb' 0 10)

/-- An entry that matches an address (R175). -/
def TlbEntry.Hits (s : State) (va : Nat) (e : TlbEntry) : Prop :=
  e.InSpace s ∧ e.vppn.toNat * 2 ^ 13 / 2 ^ (e.ps.toNat + 1) = va / 2 ^ (e.ps.toNat + 1)

/-- The TLB holds a valid entry of the current address space with an unsupported page size (R178). -/
def State.BadSize (s : State) : Prop := ∃ e ∈ s.tlb, e.InSpace s ∧ e.ps ≠ 12 ∧ e.ps ≠ 21

/-- Two entries match an address (R177). -/
def State.HitTwice (s : State) (va : Nat) : Prop :=
  ∃ (j k : Nat) (e e' : TlbEntry), j < k ∧ s.tlb[j]? = some e ∧ s.tlb[k]? = some e' ∧ e.Hits s va ∧ e'.Hits s va

section
variable {s : State} {va : Word}

theorem mem_tlbMatches {e : TlbEntry} {j : Nat} :
    (e, j) ∈ tlbMatches s.tlb s.asidField va ↔ s.tlb[j]? = some e ∧ e.Hits s va.toNat := by
  simp [tlbMatches, List.mem_zipIdx_iff_getElem?, TlbEntry.asidMatch_iff, TlbEntry.vaMatch_iff, TlbEntry.Hits, TlbEntry.InSpace,
    State.asidField]

theorem tlbMatches_nodup : (tlbMatches s.tlb s.asidField va).Nodup := by
  refine List.Nodup.filter _ (List.Nodup.of_map Prod.snd ?_)
  rw [List.zipIdx_map_snd]
  exact List.nodup_range'

theorem badSize_iff : s.BadSize ↔ (s.tlb.any fun e => e.e && e.asidMatch s.asidField && !e.psSupported) = true := by
  simp [State.BadSize, TlbEntry.InSpace, List.any_eq_true, TlbEntry.asidMatch_iff, TlbEntry.psSupported, State.asidField]

theorem tlbLookup_badSize (h : s.BadSize) : tlbLookup s va = .fault .unsupportedPageSize := if_pos (badSize_iff.1 h)

theorem tlbLookup_miss (hs : ¬ s.BadSize) (h : ∀ e ∈ s.tlb, ¬ e.Hits s va.toNat) : tlbLookup s va = .ok none := by
  have hnil : tlbMatches s.tlb s.asidField va = [] := List.eq_nil_iff_forall_not_mem.2 fun p hp =>
    have ⟨hget, hhits⟩ := mem_tlbMatches.1 hp
    h p.1 (List.mem_of_getElem? hget) hhits
  rw [tlbLookup, if_neg (mt badSize_iff.2 hs), hnil]

theorem tlbLookup_hit (hs : ¬ s.BadSize) {j : Nat} {e : TlbEntry} (hj : s.tlb[j]? = some e) (he : e.Hits s va.toNat)
    (honly : ∀ j' e', s.tlb[j']? = some e' → e'.Hits s va.toNat → j' = j) : tlbLookup s va = .ok (some (e, j)) := by
  have hall (p : TlbEntry × Nat) (hp : p ∈ tlbMatches s.tlb s.asidField va) : p = (e, j) := by
    obtain ⟨hget, hhits⟩ := mem_tlbMatches.1 hp
    obtain rfl := honly _ _ hget hhits
    exact Prod.ext (Option.some.inj (hget.symm.trans hj)) rfl
  have hone : tlbMatches s.tlb s.asidField va = [(e, j)] :=
    List.perm_singleton.1 <| (List.perm_ext_iff_of_nodup tlbMatches_nodup (List.nodup_singleton _)).2 fun p =>
      ⟨fun hp => List.mem_singleton.2 (hall p hp), fun hp => List.mem_singleton.1 hp ▸ mem_tlbMatches.2 ⟨hj, he⟩⟩
  rw [tlbLookup, if_neg (mt badSize_iff.2 hs), hone]

theorem tlbLookup_twice (hs : ¬ s.BadSize) (h : s.HitTwice va.toNat) : tlbLookup s va = .fault .multipleTlbHits := by
  obtain ⟨j, k, e, e', hjk, hj, hk, he, he'⟩ := h
  have h1 := mem_tlbMatches.2 ⟨hj, he⟩
  have h2 := mem_tlbMatches.2 ⟨hk, he'⟩
  rw [tlbLookup, if_neg (mt badSize_iff.2 hs)]
  split
  · next hnil => rw [hnil] at h1; cases h1
  · next p hone =>
    rw [hone, List.mem_singleton] at h1 h2
    have hsame : (e, j) = (e', k) := h1.trans h2.symm
    exact absurd (congrArg Prod.snd hsame) (Nat.ne_of_lt hjk)
  · rfl

/-- The page of the pair is the one bit PS of the address picks (R175). -/
theorem TlbEntry.page_eq (e : TlbEntry) (va : Word) :
    e.page va = if va.toNat / 2 ^ e.ps.toNat % 2 = 0 then e.page0 else e.page1 := by
  have hbit : va.getLsbD e.ps.toNat = true ↔ ¬ va.toNat / 2 ^ e.ps.toNat % 2 = 0 := by
    simp [BitVec.getLsbD, Nat.testBit_eq_decide_div_mod_eq]
  unfold TlbEntry.page
  by_cases h : va.toNat / 2 ^ e.ps.toNat % 2 = 0
  · rw [if_neg (hbit.not_left.2 h), if_pos h]
  · rw [if_pos (hbit.2 h), if_neg h]

/-- The address of a page of at least 4 KB that lies in the physical space: its frame, and the offset (R175). -/
theorem pagePhysical_eq {palen ps : Nat} {ppn : BitVec 24} (hppn : ppn.toNat < 2 ^ (palen - 12)) (h12 : 12 ≤ ps) (hps : ps ≤ palen) :
    pagePhysical palen ps ppn va = ppn.toNat * 2 ^ 12 / 2 ^ ps * 2 ^ ps + va.toNat % 2 ^ ps := by
  obtain ⟨d, rfl⟩ := Nat.exists_eq_add_of_le h12
  obtain ⟨c, rfl⟩ := Nat.exists_eq_add_of_le hps
  have hframe : ppn.toNat * 2 ^ 12 / 2 ^ (12 + d) = ppn.toNat / 2 ^ d := by
    rw [Nat.pow_add, Nat.mul_comm, Nat.mul_div_mul_left _ _ (Nat.two_pow_pos 12)]
  have hlt : ppn.toNat / 2 ^ d < 2 ^ c := by
    rw [Nat.div_lt_iff_lt_mul (Nat.two_pow_pos d), ← Nat.pow_add]
    exact lt_of_lt_of_eq hppn (congrArg _ (by omega))
  have hsum : ppn.toNat / 2 ^ d * 2 ^ (12 + d) + va.toNat % 2 ^ (12 + d) < 2 ^ (12 + d + c) := by
    rw [Nat.pow_add 2 (12 + d) c, Nat.mul_comm (ppn.toNat / 2 ^ d), Nat.mul_comm (2 ^ (12 + d)) (2 ^ c)]
    exact Nat.mul_add_lt_mul_of_lt_of_lt hlt (Nat.mod_lt _ (Nat.two_pow_pos _))
  rw [pagePhysical, Nat.mod_eq_of_lt hppn, Nat.add_sub_cancel_left, Nat.mod_eq_of_lt hsum, hframe]

end

/-! ### The checks on the page found -/

section
variable {s : State} {e : TlbEntry} {va : Word} {k : Access}

theorem pageTranslate_invalid (hv : (e.page va).v = false) : pageTranslate s e va k = .trap (k.invalidPage va) := by
  simp [pageTranslate, hv]

theorem pageTranslate_privilege (hv : (e.page va).v = true) (hplv : (e.page va).plv.toNat < s.plv.toNat) :
    pageTranslate s e va k = .trap (.ppi va) := by
  simp [pageTranslate, hv, BitVec.lt_def, hplv]

theorem pageTranslate_clean (hv : (e.page va).v = true) (hplv : s.plv.toNat ≤ (e.page va).plv.toNat)
    (hd : (e.page va).d = false) : pageTranslate s e va .store = .trap (.pme va) := by
  simp [pageTranslate, hv, BitVec.lt_def, Nat.not_lt.2 hplv, hd]

theorem pageTranslate_ok (hv : (e.page va).v = true) (hplv : s.plv.toNat ≤ (e.page va).plv.toNat)
    (hd : k = .store → (e.page va).d = true) :
    pageTranslate s e va k = .ok ⟨pagePhysical s.cfg.palen e.ps.toNat (e.page va).ppn va, (e.page va).mat⟩ := by
  simpa [pageTranslate, hv, BitVec.lt_def, Nat.not_lt.2 hplv] using hd

end

/-- Settles O16: what the lookup finds, then the checks on the page in the order of R175. -/
theorem tlbTranslation : Obligations.TlbTranslation := by
  intro s va k hda hpg h0 h1 hsizes
  have hsize : ¬ s.BadSize := fun ⟨e, he, hspace, h12, h21⟩ => (hsizes e he hspace.1).elim h12 h21
  have htlb := translate_tlb (k := k) hda hpg h0 h1
  have hhits (e : TlbEntry) : e.Hits s va.toNat ↔ e.e = true ∧ (e.g = true ∨ e.asid = s.csr.asid.extractLsb' 0 10) ∧
      e.vppn.toNat * 2 ^ 13 / 2 ^ (e.ps.toNat + 1) = va.toNat / 2 ^ (e.ps.toNat + 1) := and_assoc
  refine ⟨fun hmiss => ?_, fun j e hj he honly => ?_⟩
  · rw [htlb, tlbTranslate, tlbLookup_miss hsize fun e he hh => hmiss e he ((hhits e).1 hh)]
    rfl
  · have hfound : translate s va k = pageTranslate s e va k := by
      rw [htlb, tlbTranslate, tlbLookup_hit hsize hj ((hhits e).2 he) fun j' e' hj' he' => honly j' e' hj' ((hhits e').1 he')]
      rfl
    rw [hfound, ← TlbEntry.page_eq e va]
    refine ⟨fun hv => ?_, fun hv hplv => pageTranslate_privilege hv hplv, fun hv hplv hk hd => ?_, fun hv hplv hd hfits hps => ?_⟩
    · rw [pageTranslate_invalid hv]
      cases k <;> rfl
    · rw [hk]
      exact pageTranslate_clean hv hplv hd
    · have h12 : 12 ≤ e.ps.toNat := by
        rcases hsizes e (List.mem_of_getElem? hj) he.1 with h | h <;> rw [h] <;> decide
      rw [pageTranslate_ok hv hplv hd, pagePhysical_eq hfits h12 hps]

/-! ## How an instruction ends -/

/-- `r` runs the part `x` of an instruction first: it goes on with its value, takes its exception in `s`, or stops as it does. -/
def BeginsWith {α : Type} (x : Res α) (s : State) (r : Result) : Prop := ∃ k, r = x.run s k

/-- `r` stops where the part `x` stops, by the same name. -/
structure StopsAs {α : Type} (x : Res α) (r : Result) : Prop where
  fault : ∀ f, x = .fault f → r = .fault f
  refused : ∀ q, x = .refused q → r = .refused q

section
variable {α β : Type} {x : Res α} {s : State} {r : Result}

theorem BeginsWith.run {k : α → Result} : BeginsWith x s (x.run s k) := ⟨k, rfl⟩

theorem BeginsWith.trap (h : BeginsWith x s r) {e : Exc} (hx : x = .trap e) : r = .next (enterException e s) := by
  obtain ⟨k, rfl⟩ := h
  rw [hx, Res.run_trap]

theorem BeginsWith.stops (h : BeginsWith x s r) : StopsAs x r := by
  obtain ⟨k, rfl⟩ := h
  constructor
  · rintro f rfl; rfl
  · rintro q rfl; rfl

theorem BeginsWith.bind {f : α → Res β} (h : BeginsWith (x.bind f) s r) : BeginsWith x s r := by
  obtain ⟨k, rfl⟩ := h
  exact ⟨fun a => (f a).run s k, by cases x <;> rfl⟩

theorem BeginsWith.bind_ok {f : α → Res β} (h : BeginsWith (x.bind f) s r) {a : α} (hx : x = .ok a) : BeginsWith (f a) s r := by
  rwa [hx] at h

theorem BeginsWith.fpInstr {need : FpNeed} (hready : FpReady need s) (h : BeginsWith x s r) : BeginsWith x s (fpInstr need s r) := by
  rwa [fpInstr_ready hready]

theorem BeginsWith.privileged (hplv : s.plv = 0) (h : BeginsWith x s r) : BeginsWith x s (privileged s r) := by
  rwa [privileged_zero hplv]

end

/-! ## The order of an access's checks: alignment, translation, platform (R160, R170, R180, R215) -/

section
variable {s : State} {va : Word} {n : Nat} {k : Access} {r : Result} {t : Translated}

theorem BeginsWith.translate_of_accessAddr (h : BeginsWith (accessAddr s va n k) s r) (ha : va.toNat % n = 0) :
    BeginsWith (translate s va k) s r := by
  rw [accessAddr, if_pos (aligned_iff.2 ha)] at h
  exact h.bind

theorem BeginsWith.checkAccess_of_accessAddr (h : BeginsWith (accessAddr s va n k) s r) (ha : va.toNat % n = 0)
    (ht : translate s va k = .ok t) : BeginsWith (checkAccess s.cfg t n) s r := by
  rw [accessAddr, if_pos (aligned_iff.2 ha)] at h
  exact (h.bind_ok ht).bind

theorem BeginsWith.translate_of_scTarget (h : BeginsWith (scTarget s va) s r) (ha : va.toNat % 4 = 0) :
    BeginsWith (translate s va .store) s r := by
  rw [scTarget, if_pos (aligned_iff.2 ha)] at h
  exact h.bind

/-- SC.W is checked against the memory map unless it is coherent cached with LLbit 0 (log 14). -/
theorem BeginsWith.checkAccess_of_scTarget (h : BeginsWith (scTarget s va) s r) (ha : va.toNat % 4 = 0)
    (ht : translate s va .store = .ok t) (haccess : s.llbit = true ∨ t.mat ≠ 1) : BeginsWith (checkAccess s.cfg t 4) s r := by
  have hskip : ¬ (t.mat = 1 ∧ s.llbit = false) := by
    rintro ⟨hmat, hll⟩
    rcases haccess with h' | h'
    · rw [hll] at h'; cases h'
    · exact h' hmat
  rw [scTarget, if_pos (aligned_iff.2 ha)] at h
  have h' := h.bind_ok ht
  rw [if_neg hskip] at h'
  exact h'.bind

theorem BeginsWith.translate_of_fetchAddr (h : BeginsWith (fetchAddr s) s r) (ha : s.pc.toNat % 4 = 0) :
    BeginsWith (translate s s.pc .fetch) s r := by
  rw [fetchAddr, if_pos (aligned_iff.2 ha)] at h
  exact h.bind

theorem BeginsWith.checkAccess_of_fetchAddr (h : BeginsWith (fetchAddr s) s r) (ha : s.pc.toNat % 4 = 0)
    (ht : translate s s.pc .fetch = .ok t) : BeginsWith (checkAccess s.cfg t 4) s r := by
  rw [fetchAddr, if_pos (aligned_iff.2 ha)] at h
  exact (h.bind_ok ht).bind

theorem BeginsWith.memRead {g : DWord → Result} : BeginsWith (accessAddr s va n .load) s ((memRead s va n).run s g) :=
  .bind ⟨g, rfl⟩

theorem BeginsWith.memWrite {v : DWord} {g : State → Result} :
    BeginsWith (accessAddr s va n .store) s ((memWrite s va n v).run s g) := .bind ⟨g, rfl⟩

end

/-! ## Loads and stores -/

/-- The loads and stores of the architecture, each with the address, size and kind of its access. -/
inductive DataAccess (s : State) (r rj : RegNum) (i12 : BitVec 12) (i14 : BitVec 14) : Instr → Word → Nat → Access → Prop
  | ldB : DataAccess s r rj i12 i14 (.ldB r rj i12) (s.addr12 rj i12) 1 .load
  | ldBU : DataAccess s r rj i12 i14 (.ldBU r rj i12) (s.addr12 rj i12) 1 .load
  | ldH : DataAccess s r rj i12 i14 (.ldH r rj i12) (s.addr12 rj i12) 2 .load
  | ldHU : DataAccess s r rj i12 i14 (.ldHU r rj i12) (s.addr12 rj i12) 2 .load
  | ldW : DataAccess s r rj i12 i14 (.ldW r rj i12) (s.addr12 rj i12) 4 .load
  | stB : DataAccess s r rj i12 i14 (.stB r rj i12) (s.addr12 rj i12) 1 .store
  | stH : DataAccess s r rj i12 i14 (.stH r rj i12) (s.addr12 rj i12) 2 .store
  | stW : DataAccess s r rj i12 i14 (.stW r rj i12) (s.addr12 rj i12) 4 .store
  | llW : DataAccess s r rj i12 i14 (.llW r rj i14) (s.addr14 rj i14) 4 .load
  | scW : DataAccess s r rj i12 i14 (.scW r rj i14) (s.addr14 rj i14) 4 .store
  | fldS : DataAccess s r rj i12 i14 (.fldS r rj i12) (s.addr12 rj i12) 4 .load
  | fldD : DataAccess s r rj i12 i14 (.fldD r rj i12) (s.addr12 rj i12) 8 .load
  | fstS : DataAccess s r rj i12 i14 (.fstS r rj i12) (s.addr12 rj i12) 4 .store
  | fstD : DataAccess s r rj i12 i14 (.fstD r rj i12) (s.addr12 rj i12) 8 .store

section
variable {s : State} {r rj : RegNum} {i12 : BitVec 12} {i14 : BitVec 14} {i : Instr} {va : Word} {n : Nat} {k : Access}

/-- A load or store begins with the checks of its access; those of SC.W are its own (R381). -/
theorem DataAccess.exec_begins (h : DataAccess s r rj i12 i14 i va n k) (hfp : ∀ need, fpNeeds i = some need → FpReady need s) :
    BeginsWith (accessAddr s va n k) s (exec i s) ∨
      (i = .scW r rj i14 ∧ n = 4 ∧ k = .store ∧ BeginsWith (scTarget s va) s (exec i s)) := by
  cases h with
  | ldB | ldBU | ldH | ldHU | ldW => exact .inl .memRead
  | stB | stH | stW => exact .inl .memWrite
  | llW => exact .inl .run
  | scW => exact .inr ⟨rfl, rfl, rfl, .run⟩
  | fldS | fldD => exact .inl (.fpInstr (hfp _ rfl) .memRead)
  | fstS | fstD => exact .inl (.fpInstr (hfp _ rfl) .memWrite)

theorem DataAccess.exec_misaligned (h : DataAccess s r rj i12 i14 i va n k)
    (hfp : ∀ need, fpNeeds i = some need → FpReady need s) (ha : va.toNat % n ≠ 0) :
    exec i s = .next (enterException (.ale va) s) := by
  rcases h.exec_begins hfp with hb | ⟨-, rfl, rfl, hb⟩
  · exact hb.trap (accessAddr_trap.2 (.inl ⟨ha, rfl⟩))
  · exact hb.trap (scTarget_trap.2 (accessAddr_trap.2 (.inl ⟨ha, rfl⟩)))

theorem DataAccess.exec_begins_translate (h : DataAccess s r rj i12 i14 i va n k)
    (hfp : ∀ need, fpNeeds i = some need → FpReady need s) (ha : va.toNat % n = 0) :
    BeginsWith (translate s va k) s (exec i s) := by
  rcases h.exec_begins hfp with hb | ⟨-, rfl, rfl, hb⟩
  · exact hb.translate_of_accessAddr ha
  · exact hb.translate_of_scTarget ha

theorem DataAccess.exec_begins_checkAccess (h : DataAccess s r rj i12 i14 i va n k)
    (hfp : ∀ need, fpNeeds i = some need → FpReady need s) (ha : va.toNat % n = 0) {t : Translated}
    (ht : translate s va k = .ok t) (hsc : i = .scW r rj i14 → s.llbit = true ∨ t.mat ≠ 1) :
    BeginsWith (checkAccess s.cfg t n) s (exec i s) := by
  rcases h.exec_begins hfp with hb | ⟨hi, rfl, rfl, hb⟩
  · exact hb.checkAccess_of_accessAddr ha ht
  · exact hb.checkAccess_of_scTarget ha ht (hsc hi)

theorem DataAccess.exec_trap (h : DataAccess s r rj i12 i14 i va n k)
    (hfp : ∀ need, fpNeeds i = some need → FpReady need s) {e : Exc} (ha : va.toNat % n = 0) (ht : translate s va k = .trap e) :
    exec i s = .next (enterException e s) := (h.exec_begins_translate hfp ha).trap ht

end

theorem fpReady_of_needs_none {i : Instr} {s : State} (hi : fpNeeds i = none) : ∀ need, fpNeeds i = some need → FpReady need s :=
  fun _ h => nomatch hi.symm.trans h

theorem fpReady_of_needs {i : Instr} {need : FpNeed} {s : State} (hi : fpNeeds i = some need) (h : FpReady need s) :
    ∀ need, fpNeeds i = some need → FpReady need s :=
  fun _ h' => Option.some.inj (hi.symm.trans h') ▸ h

/-- Settles O13: each load and store begins with its alignment, then its translation. -/
theorem dataAccessExceptions : Obligations.DataAccessExceptions := by
  intro s r rj i12 i14 va va14
  simp only [List.forall_mem_cons]
  refine ⟨?_, ?_, fun e => ?_, fun e => ?_, fun e => ?_⟩
  · have ale {i : Instr} {va : Word} {n : Nat} {k : Access} (h : DataAccess s r rj i12 i14 i va n k) (hi : fpNeeds i = none) :=
      h.exec_misaligned (fpReady_of_needs_none hi)
    exact ⟨ale .ldH rfl, ale .ldHU rfl, ale .ldW rfl, ale .stH rfl, ale .stW rfl, ale .llW rfl, ale .scW rfl, List.forall_mem_nil _⟩
  · have ale {i : Instr} {n : Nat} {k : Access} {need : FpNeed} (h : DataAccess s r rj i12 i14 i va n k)
        (hi : fpNeeds i = some need) (hr : FpReady need s) := h.exec_misaligned (fpReady_of_needs hi hr)
    exact ⟨ale .fldS rfl, ale .fstS rfl, ale .fldD rfl, ale .fstD rfl, List.forall_mem_nil _⟩
  · have trap {i : Instr} {va : Word} {n : Nat} (h : DataAccess s r rj i12 i14 i va n .load) (hi : fpNeeds i = none) :=
      h.exec_trap (e := e) (fpReady_of_needs_none hi)
    exact ⟨trap .ldB rfl, trap .ldBU rfl, trap .ldH rfl, trap .ldHU rfl, trap .ldW rfl, trap .llW rfl, List.forall_mem_nil _⟩
  · have trap {i : Instr} {va : Word} {n : Nat} (h : DataAccess s r rj i12 i14 i va n .store) (hi : fpNeeds i = none) :=
      h.exec_trap (e := e) (fpReady_of_needs_none hi)
    exact ⟨trap .stB rfl, trap .stH rfl, trap .stW rfl, trap .scW rfl, List.forall_mem_nil _⟩
  · have trap {i : Instr} {n : Nat} {k : Access} {need : FpNeed} (h : DataAccess s r rj i12 i14 i va n k)
        (hi : fpNeeds i = some need) (hr : FpReady need s) := h.exec_trap (e := e) (fpReady_of_needs hi hr)
    exact ⟨trap .fldS rfl, trap .fstS rfl, trap .fldD rfl, trap .fstD rfl, List.forall_mem_nil _⟩

/-! ## A fetch (R211) -/

theorem coreStep_run {s : State} (hsleep : s.asleep = false) (hint : s.awake.interruptDue = false) :
    coreStep s = runInstr s.awake := by
  simp [coreStep, hsleep, hint]

theorem translate_awake (s : State) (va : Word) (k : Access) : translate s.awake va k = translate s va k :=
  translate_congr va k rfl rfl rfl

section
variable {s : State}

theorem coreStep_begins (hsleep : s.asleep = false) (hint : s.awake.interruptDue = false) :
    BeginsWith (fetchAddr s.awake) s.awake (coreStep s) := by
  rw [coreStep_run hsleep hint]
  exact .run

theorem coreStep_begins_translate (hsleep : s.asleep = false) (hint : s.awake.interruptDue = false) (ha : s.pc.toNat % 4 = 0) :
    BeginsWith (translate s s.pc .fetch) s.awake (coreStep s) := by
  rw [← translate_awake]
  exact (coreStep_begins hsleep hint).translate_of_fetchAddr ha

theorem coreStep_begins_checkAccess (hsleep : s.asleep = false) (hint : s.awake.interruptDue = false) (ha : s.pc.toNat % 4 = 0)
    {t : Translated} (ht : translate s s.pc .fetch = .ok t) : BeginsWith (checkAccess s.cfg t 4) s.awake (coreStep s) :=
  (coreStep_begins hsleep hint).checkAccess_of_fetchAddr ha ((translate_awake s s.pc .fetch).trans ht)

/-- A step stops where the core does. -/
theorem StopsAs.step {α : Type} {x : Res α} (h : StopsAs x (coreStep s)) : StopsAs x (step s) := by
  constructor
  · intro f hf
    rw [Machine.step, h.fault f hf]
  · intro q hq
    rw [Machine.step, h.refused q hq]

/-- A word that memory holds alone and that matches no row raises INE (R250). -/
theorem runInstr_undecoded {t : Translated} (ht : AccessOk s s.pc 4 .fetch t) (hfresh : s.fresh t.pa)
    (hw : decode (BitVec.ofNat 32 (s.natAt t.pa 4)) = none) : runInstr s = .next (enterException .ine s) := by
  rw [runInstr, fetchAddr_ok.2 ht, Res.run_ok, State.fetchWord_fresh hfresh, hw, State.fetched_fresh hfresh]
  rfl

end

/-- Settles O5: a fetch begins with its alignment, then its translation; the word it sees is decoded after them. -/
theorem fetchExceptions : Obligations.FetchExceptions := by
  intro s hsleep hint
  refine ⟨fun ha => ?_, fun e ha ht => ?_, fun t ht hfresh hw => ?_⟩
  · exact (coreStep_begins hsleep hint).trap (fetchAddr_trap.2 (.inl ⟨ha, rfl⟩))
  · exact (coreStep_begins_translate hsleep hint ha).trap ht
  · rw [coreStep_run hsleep hint]
    obtain ⟨ha, htr, haccess⟩ := ht
    refine runInstr_undecoded ⟨ha, (translate_awake s s.pc .fetch).trans htr, haccess⟩ hfresh ?_
    rwa [State.natAt_congr (s := s) (t := s.awake) rfl]

/-! ## Where an access stops (R177 to R180, R215, R668) -/

section
variable {cfg : Config} {t : Translated} {n : Nat}

theorem checkAccess_reserved (h : 2 ≤ t.mat.toNat) : checkAccess cfg t n = .fault .reservedMemoryType := if_pos h

theorem checkAccess_noMemory (hmat : t.mat.toNat < 2) (h : ∃ j, j < n ∧ cfg.regionAt (t.pa + j) = none) :
    checkAccess cfg t n = .fault .noMemory := by
  rw [checkAccess, if_neg (Nat.not_le.2 hmat), if_pos (behind_contains.2 h)]

theorem checkAccess_device (hmat : t.mat.toNat < 2) (hmem : ∀ j, j < n → cfg.regionAt (t.pa + j) ≠ none)
    (h : ∃ j, j < n ∧ cfg.regionAt (t.pa + j) = some .device) : checkAccess cfg t n = .refused .deviceAccess := by
  have hsome : ¬ (behind cfg t.pa n).contains none := fun hc =>
    have ⟨j, hj, hnone⟩ := behind_contains.1 hc
    hmem j hj hnone
  rw [checkAccess, if_neg (Nat.not_le.2 hmat), if_neg hsome, if_pos (behind_contains.2 h)]

end

/-- `r` stops where the translation of `va` is undefined, each case by its name. -/
def StopsUntranslated (s : State) (va : Word) (r : Result) : Prop :=
  (s.da = s.pg → r = .fault .illegalTranslationMode) ∧
    (s.da = false → s.pg = true → dmwHit s s.csr.dmw0 va = false → dmwHit s s.csr.dmw1 va = false →
      (s.BadSize → r = .fault .unsupportedPageSize) ∧ (¬ s.BadSize → s.HitTwice va.toNat → r = .fault .multipleTlbHits))

/-- `r` stops where no memory, or a device, is behind one of `n` bytes of a defined access type. -/
def StopsWithoutMemory (cfg : Config) (t : Translated) (n : Nat) (r : Result) : Prop :=
  (t.mat.toNat < 2 → (∃ j, j < n ∧ cfg.regionAt (t.pa + j) = none) → r = .fault .noMemory) ∧
    (t.mat.toNat < 2 → (∀ j, j < n → cfg.regionAt (t.pa + j) ≠ none) →
      (∃ j, j < n ∧ cfg.regionAt (t.pa + j) = some .device) → r = .refused .deviceAccess)

theorem StopsAs.bind {α β : Type} {x : Res α} {f : α → Res β} {r : Result} (h : StopsAs (x.bind f) r) : StopsAs x r := by
  constructor
  · rintro g rfl
    exact h.fault g rfl
  · rintro q rfl
    exact h.refused q rfl

theorem StopsAs.untranslated {s : State} {va : Word} {k : Access} {r : Result} (h : StopsAs (translate s va k) r) :
    StopsUntranslated s va r := by
  refine ⟨fun hmode => h.fault _ (translate_illegal hmode), fun hda hpg h0 h1 => ?_⟩
  rw [translate_tlb hda hpg h0 h1] at h
  exact ⟨fun hs => h.bind.fault _ (tlbLookup_badSize hs), fun hs ht => h.bind.fault _ (tlbLookup_twice hs ht)⟩

theorem StopsAs.withoutMemory {cfg : Config} {t : Translated} {n : Nat} {r : Result} (h : StopsAs (checkAccess cfg t n) r) :
    StopsWithoutMemory cfg t n r :=
  ⟨fun hmat hnone => h.fault _ (checkAccess_noMemory hmat hnone),
    fun hmat hmem hdevice => h.refused _ (checkAccess_device hmat hmem hdevice)⟩

/-! ## The privileged instructions that compare addresses -/

/-- A CACOP of the Hit class begins with a translation, at any level (R535). -/
theorem exec_cacop_begins {s : State} {code : BitVec 5} {rj : RegNum} {i12 : BitVec 12} (h : code.toNat / 8 = 2) :
    BeginsWith (translate s (s.addr12 rj i12) .load) s (exec (.cacop code rj i12) s) := by
  have hclass : code.extractLsb' 3 2 = 2 := by
    apply BitVec.eq_of_toNat_eq
    rw [BitVec.extractLsb'_toNat, Nat.shiftRight_eq_div_pow, show code.toNat / 2 ^ 3 = 2 from h]
    rfl
  change BeginsWith _ s (execCacop code rj i12 s)
  rw [execCacop, if_pos hclass]
  exact .run

theorem toNat_clearLow13 (w : Word) : (w &&& (0xFFFFE000 : Word)).toNat = w.toNat / 2 ^ 13 * 2 ^ 13 := by
  have h : w &&& (0xFFFFE000 : Word) = (w >>> 13) <<< 13 := by
    apply BitVec.eq_of_getLsbD_eq
    intro i hi
    interval_cases i <;> simp
  have hw := w.isLt
  rw [h, BitVec.toNat_shiftLeft, BitVec.toNat_ushiftRight, Nat.shiftRight_eq_div_pow, Nat.shiftLeft_eq,
    Nat.mod_eq_of_lt (by omega)]

theorem exec_tlbsrch_begins {s : State} (hplv : s.plv = 0) :
    BeginsWith (tlbLookup s (s.csr.tlbehi &&& 0xFFFFE000)) s (exec .tlbsrch s) := .privileged hplv .run

theorem exec_invtlb_badSize {s : State} {op : BitVec 5} {rj rk : RegNum} {e : TlbEntry} (hop : op.toNat ≤ 6) (hplv : s.plv = 0)
    (he : e ∈ s.tlb) (hcompares : invtlbCompares op ((s.readGpr rj).extractLsb' 0 10) e = true) (h12 : e.ps ≠ 12) (h21 : e.ps ≠ 21) :
    exec (.invtlb op rj rk) s = .fault .unsupportedPageSize := by
  have hsize : e.psSupported = false := Bool.eq_false_iff.2 (mt TlbEntry.psSupported_iff.1 (not_or.2 ⟨h12, h21⟩))
  have hany : (s.tlb.any fun e => invtlbCompares op ((s.readGpr rj).extractLsb' 0 10) e && !e.psSupported) = true :=
    List.any_eq_true.2 ⟨e, he, by simp [hcompares, hsize]⟩
  change execInvtlb op rj rk s = _
  rw [execInvtlb, if_neg (Nat.not_lt.2 hop), privileged_zero hplv]
  exact if_pos hany

/-- Settles O14: each instruction begins with the part that stops, and stops as it does. -/
theorem undefinedAccessesStop : Obligations.UndefinedAccessesStop := by
  intro s r rj i12 i14
  refine ⟨fun p hp => ?_, fun hsleep hint hpc => ?_, fun code hcode => (exec_cacop_begins hcode).stops.untranslated,
    fun hplv => ?_, fun rk e hplv he hvalid h12 h21 => ?_⟩
  · have haccess : DataAccess s r rj i12 i14 p.1 p.2.1 p.2.2.1 p.2.2.2 := by
      simp only [List.mem_cons, List.not_mem_nil, or_false] at hp
      rcases hp with rfl | rfl | rfl | rfl | rfl | rfl | rfl | rfl | rfl | rfl | rfl | rfl | rfl | rfl <;> constructor
    intro va n ha hfp
    refine ⟨(haccess.exec_begins_translate hfp ha).stops.untranslated, fun t ht => ⟨fun hmat => ?_, fun hsc => ?_⟩⟩
    · have hne : t.mat ≠ 1 := by
        rintro h1
        rw [h1] at hmat
        exact absurd hmat (by decide)
      exact (haccess.exec_begins_checkAccess hfp ha ht fun _ => .inr hne).stops.fault _ (checkAccess_reserved hmat)
    · exact (haccess.exec_begins_checkAccess hfp ha ht hsc).stops.withoutMemory
  · refine ⟨(coreStep_begins_translate hsleep hint hpc).stops.step.untranslated, fun t ht => ?_⟩
    have hstops := (coreStep_begins_checkAccess hsleep hint hpc ht).stops.step
    exact ⟨fun hmat => hstops.fault _ (checkAccess_reserved hmat), hstops.withoutMemory⟩
  · rw [← toNat_clearLow13]
    have hstops := (exec_tlbsrch_begins hplv).stops
    exact ⟨fun hs => hstops.fault _ (tlbLookup_badSize hs), fun hs ht => hstops.fault _ (tlbLookup_twice hs ht)⟩
  · refine ⟨fun h => exec_invtlb_badSize (by decide) hplv he ?_ h12 h21, fun h => exec_invtlb_badSize (by decide) hplv he ?_ h12 h21⟩
    · simpa [invtlbCompares, hvalid] using h
    · simpa [invtlbCompares, hvalid] using h

end Sys2Proof.Machine

/-! PROOFS. The decoder and the encoder: the statements of spec/30_encoding.md. -/

namespace Sys2Proof

/-! ## Instruction words: an opcode and the fields below it (R231, R234)

Each format of R232 and R233 has one rule: the word of `base` with the fields in their places is `w` exactly when `w` has the opcode
of `base` and those fields. Decoding an encoding reads it from left to right, encoding what was decoded from right to left. -/

section
variable {w : Word} {base : Nat}

/-- A word whose bits from `lo` up are those of `base` has its bits from anywhere higher too: the decoder looks at several (R240). -/
theorem Word.op_above {lo : Nat} (h : w.op lo = base >>> lo) {hi : Nat} (hle : lo ≤ hi) : w.op hi = base >>> hi := by
  have hshift (n : Nat) : n >>> hi = n >>> lo >>> (hi - lo) := by rw [← Nat.shiftRight_add, Nat.add_sub_cancel' hle]
  rw [Word.op, hshift, ← Word.op, h, ← hshift]

theorem Word.ofNat_eq_iff {n : Nat} : BitVec.ofNat 32 n = w ↔ n % 2 ^ 32 = w.toNat := by
  rw [← BitVec.toNat_inj, BitVec.toNat_ofNat]

theorem Word.field_eq_iff {lo n : Nat} {v : BitVec n} : w.extractLsb' lo n = v ↔ w.toNat / 2 ^ lo % 2 ^ n = v.toNat := by
  rw [← BitVec.toNat_inj, BitVec.extractLsb'_toNat, Nat.shiftRight_eq_div_pow]

/-- A split offset is its upper part and its lower part (R232). -/
theorem splitOffset_eq_iff {n m : Nat} {a : BitVec n} {b : BitVec m} {v : BitVec (n + m)} :
    a ++ b = v ↔ b = v.extractLsb' 0 m ∧ a = v.extractLsb' m n := by
  constructor
  · rintro rfl
    simp [BitVec.extractLsb'_append_eq_right, BitVec.extractLsb'_append_eq_left]
  · rintro ⟨rfl, rfl⟩
    rw [BitVec.extractLsb'_append_extractLsb'_eq_extractLsb' (Nat.zero_add m).symm, BitVec.extractLsb'_eq_self]

/-- A condition flag field is a register field whose upper two bits are 0 (R251). -/
theorem fieldAt_flag (c : BitVec 3) (lo : Nat) : fieldAt c lo = fieldAt (c.setWidth 5) lo := by
  rw [fieldAt, fieldAt, BitVec.toNat_setWidth, Nat.mod_eq_of_lt (by omega)]

theorem Word.rd_eq_flag_iff {c : BitVec 3} : w.rd = c.setWidth 5 ↔ w.extractLsb' 3 2 = 0 ∧ w.cd = c := by
  simp only [Word.rd, Word.cd, Word.field_eq_iff, BitVec.toNat_setWidth, BitVec.ofNat_eq_ofNat, BitVec.toNat_ofNat]
  omega

theorem Word.rj_eq_flag_iff {c : BitVec 3} : w.rj = c.setWidth 5 ↔ w.extractLsb' 8 2 = 0 ∧ w.cj = c := by
  simp only [Word.rj, Word.cj, Word.field_eq_iff, BitVec.toNat_setWidth, BitVec.ofNat_eq_ofNat, BitVec.toNat_ofNat]
  omega

/-- The format 2R, and 1R, whose other register field is 0. -/
theorem word2R_iff {a b : BitVec 5} (hb : base % 2 ^ 10 = 0 ∧ base < 2 ^ 32) :
    BitVec.ofNat 32 (base + fieldAt b 5 + fieldAt a 0) = w ↔ w.op 10 = base >>> 10 ∧ w.rd = a ∧ w.rj = b := by
  simp only [Word.ofNat_eq_iff, Word.op, Word.field_eq_iff, fieldAt, Nat.shiftRight_eq_div_pow, Word.rd, Word.rj]
  omega

/-- The formats 3R, 3R-ui5 and 3R-op. -/
theorem word3R_iff {a b c : BitVec 5} (hb : base % 2 ^ 15 = 0 ∧ base < 2 ^ 32) :
    BitVec.ofNat 32 (base + fieldAt c 10 + fieldAt b 5 + fieldAt a 0) = w ↔
      w.op 15 = base >>> 15 ∧ w.rd = a ∧ w.rj = b ∧ w.rk = c := by
  simp only [Word.ofNat_eq_iff, Word.op, Word.field_eq_iff, fieldAt, Nat.shiftRight_eq_div_pow, Word.rd, Word.rj, Word.rk]
  omega

/-- The formats 4R and FCMP, whose condition is in place of the fourth register. -/
theorem word4R_iff {a b c d : BitVec 5} (hb : base % 2 ^ 20 = 0 ∧ base < 2 ^ 32) :
    BitVec.ofNat 32 (base + fieldAt d 15 + fieldAt c 10 + fieldAt b 5 + fieldAt a 0) = w ↔
      w.op 20 = base >>> 20 ∧ w.rd = a ∧ w.rj = b ∧ w.rk = c ∧ w.ra = d := by
  simp only [Word.ofNat_eq_iff, Word.op, Word.field_eq_iff, fieldAt, Nat.shiftRight_eq_div_pow, Word.rd, Word.rj, Word.rk, Word.ra]
  omega

/-- The formats 2RI12 and 2RI12-code. -/
theorem word2RI12_iff {a b : BitVec 5} {v : BitVec 12} (hb : base % 2 ^ 22 = 0 ∧ base < 2 ^ 32) :
    BitVec.ofNat 32 (base + fieldAt v 10 + fieldAt b 5 + fieldAt a 0) = w ↔
      w.op 22 = base >>> 22 ∧ w.rd = a ∧ w.rj = b ∧ w.imm12 = v := by
  simp only [Word.ofNat_eq_iff, Word.op, Word.field_eq_iff, fieldAt, Nat.shiftRight_eq_div_pow, Word.rd, Word.rj, Word.imm12]
  omega

/-- The formats 2RI14 and CSR. -/
theorem word2RI14_iff {a b : BitVec 5} {v : BitVec 14} (hb : base % 2 ^ 24 = 0 ∧ base < 2 ^ 32) :
    BitVec.ofNat 32 (base + fieldAt v 10 + fieldAt b 5 + fieldAt a 0) = w ↔
      w.op 24 = base >>> 24 ∧ w.rd = a ∧ w.rj = b ∧ w.imm14 = v := by
  simp only [Word.ofNat_eq_iff, Word.op, Word.field_eq_iff, fieldAt, Nat.shiftRight_eq_div_pow, Word.rd, Word.rj, Word.imm14]
  omega

/-- The format 2RI16. -/
theorem word2RI16_iff {a b : BitVec 5} {v : BitVec 16} (hb : base % 2 ^ 26 = 0 ∧ base < 2 ^ 32) :
    BitVec.ofNat 32 (base + fieldAt v 10 + fieldAt b 5 + fieldAt a 0) = w ↔
      w.op 26 = base >>> 26 ∧ w.rd = a ∧ w.rj = b ∧ w.imm16 = v := by
  simp only [Word.ofNat_eq_iff, Word.op, Word.field_eq_iff, fieldAt, Nat.shiftRight_eq_div_pow, Word.rd, Word.rj, Word.imm16]
  omega

/-- The format 1RI20. -/
theorem word1RI20_iff {a : BitVec 5} {v : BitVec 20} (hb : base % 2 ^ 25 = 0 ∧ base < 2 ^ 32) :
    BitVec.ofNat 32 (base + fieldAt v 5 + fieldAt a 0) = w ↔ w.op 25 = base >>> 25 ∧ w.rd = a ∧ w.imm20 = v := by
  simp only [Word.ofNat_eq_iff, Word.op, Word.field_eq_iff, fieldAt, Nat.shiftRight_eq_div_pow, Word.rd, Word.imm20]
  omega

/-- The format I15. -/
theorem wordI15_iff {v : BitVec 15} (hb : base % 2 ^ 15 = 0 ∧ base < 2 ^ 32) :
    BitVec.ofNat 32 (base + fieldAt v 0) = w ↔ w.op 15 = base >>> 15 ∧ w.imm15 = v := by
  simp only [Word.ofNat_eq_iff, Word.op, Word.field_eq_iff, fieldAt, Nat.shiftRight_eq_div_pow, Word.imm15]
  omega

/-- The format I26. -/
theorem wordI26_iff {offs : BitVec 26} (hb : base % 2 ^ 26 = 0 ∧ base < 2 ^ 32) :
    BitVec.ofNat 32 (base + fieldAt (offs.extractLsb' 0 16) 10 + fieldAt (offs.extractLsb' 16 10) 0) = w ↔
      w.op 26 = base >>> 26 ∧ w.offs26 = offs := by
  rw [Word.offs26, splitOffset_eq_iff]
  generalize offs.extractLsb' 0 16 = low, offs.extractLsb' 16 10 = high
  simp only [Word.ofNat_eq_iff, Word.op, Word.field_eq_iff, fieldAt, Nat.shiftRight_eq_div_pow]
  omega

/-- The format 1RI21 with a condition flag for rj: `kind` is bits 9:8, which tell BCEQZ and BCNEZ apart (R251). -/
theorem word1RI21_iff {cj : BitVec 3} {offs : BitVec 21} {kind : Nat} (hk : kind < 4)
    (hb : base % 2 ^ 26 = 0 ∧ base < 2 ^ 32) :
    BitVec.ofNat 32 (base + kind * 2 ^ 8 + fieldAt (offs.extractLsb' 0 16) 10 + fieldAt cj 5 + fieldAt (offs.extractLsb' 16 5) 0) = w ↔
      w.op 26 = base >>> 26 ∧ (w.extractLsb' 8 2).toNat = kind ∧ w.cj = cj ∧ w.offs21 = offs := by
  rw [Word.offs21, splitOffset_eq_iff]
  generalize offs.extractLsb' 0 16 = low, offs.extractLsb' 16 5 = high
  simp only [Word.ofNat_eq_iff, Word.op, Word.field_eq_iff, fieldAt, Nat.shiftRight_eq_div_pow, Word.cj,
    BitVec.extractLsb'_toNat]
  omega

/-- The format FSEL. -/
theorem wordFsel_iff {a b c : BitVec 5} {ca : BitVec 3} (hb : base % 2 ^ 18 = 0 ∧ base < 2 ^ 32) :
    BitVec.ofNat 32 (base + fieldAt ca 15 + fieldAt c 10 + fieldAt b 5 + fieldAt a 0) = w ↔
      w.op 18 = base >>> 18 ∧ w.rd = a ∧ w.rj = b ∧ w.rk = c ∧ w.ca = ca := by
  simp only [Word.ofNat_eq_iff, Word.op, Word.field_eq_iff, fieldAt, Nat.shiftRight_eq_div_pow, Word.rd, Word.rj, Word.rk, Word.ca]
  omega

end

/-! ## Instructions whose words leave a register field 0, or fix it (R233, R242) -/

theorem encode_rdcntid (rj : RegNum) : encode (.rdcntid rj) = BitVec.ofNat 32 (0x00006000 + fieldAt rj 5 + fieldAt (0 : RegNum) 0) := rfl

theorem encode_rdcntvlW (rd : RegNum) : encode (.rdcntvlW rd) = BitVec.ofNat 32 (0x00006000 + fieldAt (0 : RegNum) 5 + fieldAt rd 0) := rfl

theorem encode_rdcntvhW (rd : RegNum) : encode (.rdcntvhW rd) = BitVec.ofNat 32 (0x00006400 + fieldAt (0 : RegNum) 5 + fieldAt rd 0) := rfl

theorem encode_csrrd (rd : RegNum) (csr : BitVec 14) : encode (.csrrd rd csr) = encode (.csrxchg rd 0 csr) := rfl

theorem encode_csrwr (rd : RegNum) (csr : BitVec 14) : encode (.csrwr rd csr) = encode (.csrxchg rd 1 csr) := by
  rw [encode, encode, Nat.add_right_comm 0x04000000]
  rfl

/-! ## What is well formed (R242) -/

theorem wellFormed_rdcntvlW_iff {rd : RegNum} : (Instr.rdcntvlW rd).wellFormed = true ↔ rd ≠ 0 := bne_iff_ne

theorem wellFormed_csrxchg_iff {rd rj : RegNum} {csr : BitVec 14} :
    (Instr.csrxchg rd rj csr).wellFormed = true ↔ rj ≠ 0 ∧ rj ≠ 1 := by
  simp [Instr.wellFormed]

/-! ## Decoding an encoding -/

/-- The decoder finds the instruction of a word: from the row's opcode follow the opcodes of every level of the map (R240), and
the fields are the operands. -/
theorem decode_of_encode {w : Word} {i : Instr} (hi : i.wellFormed = true) (h : encode i = w) : decode w = some i := by
  cases i with
  | rdcntid rj =>
    obtain ⟨hop, hrd, rfl⟩ := (word2R_iff (by decide)).1 (encode_rdcntid rj ▸ h)
    simp [decode, decodeMajor0, decodeInt, decodeCounter, Word.op_above hop, hrd]
  | rdcntvlW rd =>
    obtain ⟨hop, rfl, hrj⟩ := (word2R_iff (by decide)).1 (encode_rdcntvlW rd ▸ h)
    have hrd : w.rd ≠ 0#5 := wellFormed_rdcntvlW_iff.1 hi
    simp [decode, decodeMajor0, decodeInt, decodeCounter, Word.op_above hop, hrd, hrj]
  | rdcntvhW rd =>
    obtain ⟨hop, rfl, hrj⟩ := (word2R_iff (by decide)).1 (encode_rdcntvhW rd ▸ h)
    simp [decode, decodeMajor0, decodeInt, decodeCounter, Word.op_above hop, hrj]
  | addW rd rj rk | subW rd rj rk | slt rd rj rk | sltu rd rj rk | nor rd rj rk | and rd rj rk | or rd rj rk | xor rd rj rk
  | sllW rd rj rk | srlW rd rj rk | sraW rd rj rk | mulW rd rj rk | mulhW rd rj rk | mulhWU rd rj rk
  | divW rd rj rk | modW rd rj rk | divWU rd rj rk | modWU rd rj rk | slliW rd rj ui5 | srliW rd rj ui5 | sraiW rd rj ui5 =>
    obtain ⟨hop, rfl, rfl, rfl⟩ := (word3R_iff (by decide)).1 h
    simp [decode, decodeMajor0, decodeInt, Word.op_above hop]
  | brk code | syscall code =>
    obtain ⟨hop, rfl⟩ := (wordI15_iff (by decide)).1 h
    simp [decode, decodeMajor0, decodeInt, Word.op_above hop]
  | faddS fd fj fk | faddD fd fj fk | fsubS fd fj fk | fsubD fd fj fk | fmulS fd fj fk | fmulD fd fj fk | fdivS fd fj fk
  | fdivD fd fj fk | fmaxS fd fj fk | fmaxD fd fj fk | fminS fd fj fk | fminD fd fj fk | fmaxaS fd fj fk | fmaxaD fd fj fk
  | fminaS fd fj fk | fminaD fd fj fk | fcopysignS fd fj fk | fcopysignD fd fj fk =>
    obtain ⟨hop, rfl, rfl, rfl⟩ := (word3R_iff (by decide)).1 h
    simp [decode, decodeMajor0, decodeFp, Word.op_above hop]
  | fabsS fd fj | fabsD fd fj | fnegS fd fj | fnegD fd fj | fclassS fd fj | fclassD fd fj | fsqrtS fd fj | fsqrtD fd fj
  | frecipS fd fj | frecipD fd fj | frsqrtS fd fj | frsqrtD fd fj | fmovS fd fj | fmovD fd fj | movgr2frW fd rj
  | movgr2frhW fd rj | movfr2grS rd fj | movfrh2grS rd fj | movgr2fcsr fcsr rj | movfcsr2gr rd fcsr | fcvtSD fd fj | fcvtDS fd fj
  | ftintrmWS fd fj | ftintrmWD fd fj | ftintrpWS fd fj | ftintrpWD fd fj | ftintrzWS fd fj | ftintrzWD fd fj
  | ftintrneWS fd fj | ftintrneWD fd fj | ftintWS fd fj | ftintWD fd fj | ffintSW fd fj | ffintDW fd fj =>
    obtain ⟨hop, rfl, rfl⟩ := (word2R_iff (by decide)).1 h
    simp [decode, decodeMajor0, decodeFp, decodeFp2, Word.op_above hop]
  | movfr2cf cd fj | movgr2cf cd rj =>
    rw [encode, fieldAt_flag] at h
    obtain ⟨hop, hrd, rfl⟩ := (word2R_iff (by decide)).1 h
    obtain ⟨hzero, rfl⟩ := Word.rd_eq_flag_iff.1 hrd
    simp [decode, decodeMajor0, decodeFp, decodeFp2, Word.op_above hop, hzero]
  | movcf2fr rd cj | movcf2gr rd cj =>
    rw [encode, fieldAt_flag] at h
    obtain ⟨hop, rfl, hrj⟩ := (word2R_iff (by decide)).1 h
    obtain ⟨hzero, rfl⟩ := Word.rj_eq_flag_iff.1 hrj
    simp [decode, decodeMajor0, decodeFp, decodeFp2, Word.op_above hop, hzero]
  | slti rd rj i12 | sltui rd rj i12 | addiW rd rj i12 | andi rd rj i12 | ori rd rj i12 | xori rd rj i12 =>
    obtain ⟨hop, rfl, rfl, rfl⟩ := (word2RI12_iff (by decide)).1 h
    simp [decode, decodeMajor0, Word.op_above hop]
  | csrrd rd csr =>
    obtain ⟨hop, rfl, hrj, rfl⟩ := (word2RI14_iff (by decide)).1 (encode_csrrd rd csr ▸ h)
    simp [decode, decodeMajor1, decodeCsr, Word.op_above hop, hrj]
  | csrwr rd csr =>
    obtain ⟨hop, rfl, hrj, rfl⟩ := (word2RI14_iff (by decide)).1 (encode_csrwr rd csr ▸ h)
    simp [decode, decodeMajor1, decodeCsr, Word.op_above hop, hrj]
  | csrxchg rd rj csr =>
    obtain ⟨hop, rfl, rfl, rfl⟩ := (word2RI14_iff (by decide)).1 h
    have hrj : w.rj ≠ 0#5 ∧ w.rj ≠ 1#5 := wellFormed_csrxchg_iff.1 hi
    simp [decode, decodeMajor1, decodeCsr, Word.op_above hop, hrj]
  | cacop code rj si12 =>
    obtain ⟨hop, rfl, rfl, rfl⟩ := (word2RI12_iff (by decide)).1 h
    simp [decode, decodeMajor1, Word.op_above hop]
  | tlbsrch | tlbrd | tlbwr | tlbfill | ertn =>
    subst h
    rfl
  | idle level =>
    obtain ⟨hop, rfl⟩ := (wordI15_iff (by decide)).1 h
    simp [decode, decodeMajor1, decodePriv, Word.op_above hop]
  | invtlb op rj rk =>
    obtain ⟨hop, rfl, rfl, rfl⟩ := (word3R_iff (by decide)).1 h
    simp [decode, decodeMajor1, decodePriv, Word.op_above hop]
  | fmaddS fd fj fk fa | fmaddD fd fj fk fa | fmsubS fd fj fk fa | fmsubD fd fj fk fa | fnmaddS fd fj fk fa | fnmaddD fd fj fk fa
  | fnmsubS fd fj fk fa | fnmsubD fd fj fk fa =>
    obtain ⟨hop, rfl, rfl, rfl, rfl⟩ := (word4R_iff (by decide)).1 h
    simp [decode, decodeMajor2, Word.op_above hop]
  | fcmpS cond cd fj fk | fcmpD cond cd fj fk =>
    rw [encode, fieldAt_flag] at h
    obtain ⟨hop, hrd, rfl, rfl, rfl⟩ := (word4R_iff (by decide)).1 h
    obtain ⟨hzero, rfl⟩ := Word.rd_eq_flag_iff.1 hrd
    simp [decode, decodeMajor3, Word.op_above hop, hzero]
  | fsel fd fj fk ca =>
    obtain ⟨hop, rfl, rfl, rfl, rfl⟩ := (wordFsel_iff (by decide)).1 h
    simp [decode, decodeMajor3, Word.op_above hop]
  | lu12iW rd si20 | pcaddu12i rd si20 =>
    obtain ⟨hop, rfl, rfl⟩ := (word1RI20_iff (by decide)).1 h
    simp [decode, Word.op_above hop]
  | llW rd rj si14 | scW rd rj si14 =>
    obtain ⟨hop, rfl, rfl, rfl⟩ := (word2RI14_iff (by decide)).1 h
    simp [decode, Word.op_above hop]
  | ldB rd rj i12 | ldH rd rj i12 | ldW rd rj i12 | stB rd rj i12 | stH rd rj i12 | stW rd rj i12 | ldBU rd rj i12 | ldHU rd rj i12
  | preld hint rj i12 | fldS fd rj i12 | fstS fd rj i12 | fldD fd rj i12 | fstD fd rj i12 =>
    obtain ⟨hop, rfl, rfl, rfl⟩ := (word2RI12_iff (by decide)).1 h
    simp [decode, decodeMem, Word.op_above hop]
  | dbar hint | ibar hint =>
    obtain ⟨hop, rfl⟩ := (wordI15_iff (by decide)).1 h
    simp [decode, Word.op_above hop]
  | bceqz cj offs =>
    obtain ⟨hop, hkind, rfl, rfl⟩ := (word1RI21_iff (kind := 0) (by decide) (by decide)).1 h
    simp [decode, decodeCondBranch, Word.op_above hop, hkind]
  | bcnez cj offs =>
    obtain ⟨hop, hkind, rfl, rfl⟩ := (word1RI21_iff (base := 0x48000000) (kind := 1) (by decide) (by decide)).1 h
    simp [decode, decodeCondBranch, Word.op_above hop, hkind]
  | jirl rd rj offs | beq rj rd offs | bne rj rd offs | blt rj rd offs | bge rj rd offs | bltu rj rd offs | bgeu rj rd offs =>
    obtain ⟨hop, rfl, rfl, rfl⟩ := (word2RI16_iff (by decide)).1 h
    simp [decode, Word.op_above hop]
  | b offs | bl offs =>
    obtain ⟨hop, rfl⟩ := (wordI26_iff (by decide)).1 h
    simp [decode, Word.op_above hop]

/-! ## Encoding what was decoded -/

/-- `i` is the instruction whose word is `w`. -/
def Instr.HasWord (i : Instr) (w : Word) : Prop := encode i = w ∧ i.wellFormed = true

section
variable {w : Word} {i : Instr}

theorem hasWord_of_decodeCounter (h : decodeCounter w = some i) : i.HasWord w := by
  unfold decodeCounter at h
  split at h
  next hop =>
    split_ifs at h with hrd hrj <;> cases h
    · exact ⟨(encode_rdcntid _).trans ((word2R_iff (by decide)).2 ⟨hop, hrd, rfl⟩), rfl⟩
    · exact ⟨(encode_rdcntvlW _).trans ((word2R_iff (by decide)).2 ⟨hop, rfl, hrj⟩), wellFormed_rdcntvlW_iff.2 hrd⟩
  next hop =>
    split_ifs at h with hrj
    cases h
    exact ⟨(encode_rdcntvhW _).trans ((word2R_iff (by decide)).2 ⟨hop, rfl, hrj⟩), rfl⟩
  next => cases h

theorem hasWord_of_decodeInt (h : decodeInt w = some i) : i.HasWord w := by
  unfold decodeInt at h
  split at h
  case h_24 => exact hasWord_of_decodeCounter h
  case h_19 hop | h_20 hop => -- BREAK and SYSCALL, the two rows here that are not three registers
    cases h
    exact ⟨(wordI15_iff (by decide)).2 ⟨hop, rfl⟩, rfl⟩
  all_goals
    next hop =>
    cases h
    exact ⟨(word3R_iff (by decide)).2 ⟨hop, rfl, rfl, rfl⟩, rfl⟩

theorem hasWord_of_decodeFp2 (h : decodeFp2 w = some i) : i.HasWord w := by
  unfold decodeFp2 at h
  split at h
  case h_35 hop | h_37 hop => -- cd in place of rd
    split_ifs at h with hzero
    cases h
    rw [Instr.HasWord, encode, fieldAt_flag]
    exact ⟨(word2R_iff (by decide)).2 ⟨hop, Word.rd_eq_flag_iff.2 ⟨hzero, rfl⟩, rfl⟩, rfl⟩
  case h_36 hop | h_38 hop => -- cj in place of rj
    split_ifs at h with hzero
    cases h
    rw [Instr.HasWord, encode, fieldAt_flag]
    exact ⟨(word2R_iff (by decide)).2 ⟨hop, rfl, Word.rj_eq_flag_iff.2 ⟨hzero, rfl⟩⟩, rfl⟩
  case h_39 => cases h
  all_goals
    next hop =>
    cases h
    exact ⟨(word2R_iff (by decide)).2 ⟨hop, rfl, rfl⟩, rfl⟩

theorem hasWord_of_decodeFp (h : decodeFp w = some i) : i.HasWord w := by
  unfold decodeFp at h
  split at h
  case h_19 => exact hasWord_of_decodeFp2 h
  all_goals
    next hop =>
    cases h
    exact ⟨(word3R_iff (by decide)).2 ⟨hop, rfl, rfl, rfl⟩, rfl⟩

theorem hasWord_of_decodeMajor0 (h : decodeMajor0 w = some i) : i.HasWord w := by
  unfold decodeMajor0 at h
  split at h
  case h_1 | h_2 => exact hasWord_of_decodeInt h
  case h_3 => exact hasWord_of_decodeFp h
  case h_10 => cases h
  all_goals
    next hop =>
    cases h
    exact ⟨(word2RI12_iff (by decide)).2 ⟨hop, rfl, rfl, rfl⟩, rfl⟩

theorem hasWord_of_decodeCsr (hop : w.op 24 = 0x4) (h : decodeCsr w = some i) : i.HasWord w := by
  unfold decodeCsr at h
  split_ifs at h with hrj0 hrj1 <;> cases h
  · exact ⟨(encode_csrrd _ _).trans ((word2RI14_iff (by decide)).2 ⟨hop, rfl, hrj0, rfl⟩), rfl⟩
  · exact ⟨(encode_csrwr _ _).trans ((word2RI14_iff (by decide)).2 ⟨hop, rfl, hrj1, rfl⟩), rfl⟩
  · exact ⟨(word2RI14_iff (by decide)).2 ⟨hop, rfl, rfl, rfl⟩, wellFormed_csrxchg_iff.2 ⟨hrj0, hrj1⟩⟩

theorem hasWord_of_decodePriv (h : decodePriv w = some i) : i.HasWord w := by
  unfold decodePriv at h
  split at h
  next hop =>
    cases h
    exact ⟨(wordI15_iff (by decide)).2 ⟨hop, rfl⟩, rfl⟩
  next hop =>
    cases h
    exact ⟨(word3R_iff (by decide)).2 ⟨hop, rfl, rfl, rfl⟩, rfl⟩
  next =>
    split at h
    case h_6 => cases h
    all_goals
      next hw =>
      cases h
      exact ⟨BitVec.eq_of_toNat_eq hw.symm, rfl⟩

theorem hasWord_of_decodeMajor1 (h : decodeMajor1 w = some i) : i.HasWord w := by
  unfold decodeMajor1 at h
  split at h
  next hop => exact hasWord_of_decodeCsr hop h
  next =>
    split at h
    next hop =>
      cases h
      exact ⟨(word2RI12_iff (by decide)).2 ⟨hop, rfl, rfl, rfl⟩, rfl⟩
    next => exact hasWord_of_decodePriv h
    next => cases h

theorem hasWord_of_decodeMajor2 (h : decodeMajor2 w = some i) : i.HasWord w := by
  unfold decodeMajor2 at h
  split at h
  case h_9 => cases h
  all_goals
    next hop =>
    cases h
    exact ⟨(word4R_iff (by decide)).2 ⟨hop, rfl, rfl, rfl, rfl⟩, rfl⟩

theorem hasWord_of_decodeMajor3 (h : decodeMajor3 w = some i) : i.HasWord w := by
  unfold decodeMajor3 at h
  split at h
  case h_1 hop | h_2 hop =>
    split_ifs at h with hzero
    cases h
    rw [Instr.HasWord, encode, fieldAt_flag]
    exact ⟨(word4R_iff (by decide)).2 ⟨hop, Word.rd_eq_flag_iff.2 ⟨hzero, rfl⟩, rfl, rfl, rfl⟩, rfl⟩
  case h_3 =>
    split_ifs at h with hop
    cases h
    exact ⟨(wordFsel_iff (by decide)).2 ⟨hop, rfl, rfl, rfl, rfl⟩, rfl⟩

theorem hasWord_of_decodeMem (h : decodeMem w = some i) : i.HasWord w := by
  unfold decodeMem at h
  split at h
  case h_14 => cases h
  all_goals
    next hop =>
    cases h
    exact ⟨(word2RI12_iff (by decide)).2 ⟨hop, rfl, rfl, rfl⟩, rfl⟩

theorem hasWord_of_decodeCondBranch (hop : w.op 26 = 0x12) (h : decodeCondBranch w = some i) : i.HasWord w := by
  unfold decodeCondBranch at h
  split at h
  next hkind =>
    cases h
    exact ⟨(word1RI21_iff (kind := 0) (by decide) (by decide)).2 ⟨hop, hkind, rfl, rfl⟩, rfl⟩
  next hkind =>
    cases h
    exact ⟨(word1RI21_iff (base := 0x48000000) (kind := 1) (by decide) (by decide)).2 ⟨hop, hkind, rfl, rfl⟩, rfl⟩
  next => cases h

theorem hasWord_of_decode (h : decode w = some i) : i.HasWord w := by
  unfold decode at h
  split at h
  case h_1 => exact hasWord_of_decodeMajor0 h
  case h_2 => exact hasWord_of_decodeMajor1 h
  case h_3 => exact hasWord_of_decodeMajor2 h
  case h_4 => exact hasWord_of_decodeMajor3 h
  case h_5 | h_6 =>
    split_ifs at h with hop
    cases h
    exact ⟨(word1RI20_iff (by decide)).2 ⟨hop, rfl, rfl⟩, rfl⟩
  case h_7 =>
    split at h
    case h_3 => cases h
    all_goals
      next hop =>
      cases h
      exact ⟨(word2RI14_iff (by decide)).2 ⟨hop, rfl, rfl, rfl⟩, rfl⟩
  case h_8 => exact hasWord_of_decodeMem h
  case h_9 =>
    split at h
    case h_3 => cases h
    all_goals
      next hop =>
      cases h
      exact ⟨(wordI15_iff (by decide)).2 ⟨hop, rfl⟩, rfl⟩
  case h_10 hop => exact hasWord_of_decodeCondBranch hop h
  case h_12 hop | h_13 hop => -- B and BL, the two majors here that are not 2RI16
    cases h
    exact ⟨(wordI26_iff (by decide)).2 ⟨hop, rfl⟩, rfl⟩
  case h_20 => cases h
  all_goals
    next hop =>
    cases h
    exact ⟨(word2RI16_iff (by decide)).2 ⟨hop, rfl, rfl, rfl⟩, rfl⟩

end

/-! ## The statements -/

/-- The decoder is the partial inverse of the encoder, in both directions. -/
theorem decode_eq_some_iff {w : Word} {i : Instr} : decode w = some i ↔ i.HasWord w :=
  ⟨hasWord_of_decode, fun ⟨hw, hi⟩ => decode_of_encode hi hw⟩

theorem wordOfBytes_bytesOfWord (w : Word) :
    wordOfBytes (w.extractLsb' 0 8) (w.extractLsb' 8 8) (w.extractLsb' 16 8) (w.extractLsb' 24 8) = w := by
  rw [wordOfBytes, BitVec.extractLsb'_append_extractLsb'_eq_extractLsb' (show 24 = 16 + 8 from rfl),
    BitVec.extractLsb'_append_extractLsb'_eq_extractLsb' (show 16 = 8 + 8 from rfl),
    BitVec.extractLsb'_append_extractLsb'_eq_extractLsb' (show 8 = 0 + 8 from rfl)]
  exact BitVec.extractLsb'_eq_self

theorem decodeBytes_bytesOfWord {w : Word} {i : Instr} (h : decode w = some i) (rest : List Byte) :
    decodeBytes (bytesOfWord w ++ rest) = .ok (i, rest) := by
  simp [bytesOfWord, decodeBytes, wordOfBytes_bytesOfWord, h]

theorem decodeBytes_truncated {bytes : List Byte} (h : bytes.length < 4) : decodeBytes bytes = .error .truncated := by
  match bytes, h with
  | [], _ | [_], _ | [_, _], _ | [_, _, _], _ => rfl

/-- Settles O1: the fields of an encoding are the operands, and the opcodes above them lead the decoder to the instruction's row. -/
theorem decodeOfEncode : Obligations.DecodeOfEncode :=
  ⟨fun _ hi => decode_eq_some_iff.2 ⟨rfl, hi⟩, fun _ rest hi => decodeBytes_bytesOfWord (decode_eq_some_iff.2 ⟨rfl, hi⟩) rest,
    fun _ => decodeBytes_truncated⟩

/-- Settles O2, row by row of the decoder: a word is its opcode with its fields in their places. -/
theorem encodeOfDecode : Obligations.EncodeOfDecode := fun _ _ => decode_eq_some_iff.1

/-- Settles O3: the words that decode are the encodings of their instructions; the last three match no row. -/
theorem specWordsDecode : Obligations.SpecWordsDecode := by
  refine ⟨?_, ?_, ?_, ?_, ?_, ?_, ?_, ?_, ?_, ?_, by decide, by decide, by decide⟩
  all_goals exact decode_eq_some_iff.2 ⟨by decide, rfl⟩

end Sys2Proof

/-! PROOFS. Integer arithmetic, compare, logic, multiplication and division: the statements of spec/40_int_arith.md. -/

namespace Sys2Proof.Machine

/-! ## The operations on words, by the numbers the words stand for -/

section
variable (a b : Word) (i12 : BitVec 12) (i20 : BitVec 20)

theorem eq_ofNat_toNat : a = BitVec.ofNat 32 a.toNat := by rw [BitVec.ofNat_toNat, BitVec.setWidth_eq]

theorem add_eq_ofNat : a + b = BitVec.ofNat 32 (a.toNat + b.toNat) := by
  rw [BitVec.ofNat_add, ← eq_ofNat_toNat, ← eq_ofNat_toNat]

theorem add_eq_ofInt : a + b = BitVec.ofInt 32 (a.toInt + b.toInt) := by
  rw [BitVec.ofInt_add, BitVec.ofInt_toInt, BitVec.ofInt_toInt]

theorem sub_eq_ofInt : a - b = BitVec.ofInt 32 (a.toInt - b.toInt) := by
  apply BitVec.eq_of_toInt_eq
  rw [BitVec.toInt_ofInt, BitVec.toInt_sub]

theorem mul_eq_ofInt : a * b = BitVec.ofInt 32 (a.toInt * b.toInt) := by
  rw [BitVec.ofInt_mul, BitVec.ofInt_toInt, BitVec.ofInt_toInt]

theorem setIf_slt : setIf (a.slt b) = if a.toInt < b.toInt then 1 else 0 := by
  simp only [setIf, BitVec.slt_iff_toInt_lt]

theorem setIf_ult : setIf (a.ult b) = if a.toNat < b.toNat then 1 else 0 := by
  simp only [setIf, BitVec.ult_eq_decide, decide_eq_true_eq]

/-- Bits 63:32 of a number are those of its quotient by 2^32, rounded down: also for a negative product. -/
theorem extractHigh_ofInt (x : Int) : (BitVec.ofInt 64 x).extractLsb' 32 32 = BitVec.ofInt 32 (x / 2 ^ 32) := by
  apply BitVec.eq_of_toNat_eq
  rw [BitVec.extractLsb'_toNat, BitVec.toNat_ofInt, BitVec.toNat_ofInt, Nat.shiftRight_eq_div_pow]
  omega

theorem mulHighSigned_eq : mulHighSigned a b = BitVec.ofInt 32 (a.toInt * b.toInt / 2 ^ 32) := extractHigh_ofInt _

theorem mulHighUnsigned_eq : mulHighUnsigned a b = BitVec.ofNat 32 (a.toNat * b.toNat / 2 ^ 32) := by
  rw [mulHighUnsigned, ← BitVec.ofInt_natCast, extractHigh_ofInt, ← BitVec.ofInt_natCast]
  rfl

/-- The remainder is what the quotient truncated toward zero leaves of the dividend (R322). -/
theorem remSigned_eq : remSigned a b = BitVec.ofInt 32 (a.toInt - b.toInt * a.toInt.tdiv b.toInt) := by
  rw [remSigned, Int.tmod_def]

/-! ### Immediates (R235) -/

theorem toInt_sext12 : (sext12 i12).toInt = i12.toInt := BitVec.toInt_signExtend_of_le (by decide)

theorem toNat_sext12 : (sext12 i12).toNat = (i12.toInt % 2 ^ 32).toNat := BitVec.toNat_ofInt _

theorem zext12_eq_ofNat : zext12 i12 = BitVec.ofNat 32 i12.toNat := (BitVec.ofNat_toNat 32 i12).symm

theorem toNat_upper20 : (upper20 i20).toNat = i20.toNat * 2 ^ 12 := by
  rw [upper20, BitVec.toNat_append, Nat.shiftLeft_eq]
  exact Nat.or_zero _

end

/-! ## Instructions that write one register -/

section
variable {s : State} {rd rj rk : RegNum} {op : Word → Word → Word}

/-- An instruction that ends in the write of a word writes that word's value, however the value is put. -/
theorem writesGpr_retireGpr_of_eq {v w : Word} (h : v = w) : WritesGpr s rd w (s.retireGpr rd v) :=
  h ▸ writesGpr_retireGpr s rd v

theorem writesGpr_divide (h : s.readGpr rk ≠ 0) : WritesGpr s rd (op (s.readGpr rj) (s.readGpr rk)) (divide rd rj rk op s) := by
  rw [divide, if_neg h]
  exact writesGpr_retireGpr s rd _

/-- A division by zero writes a free value, which uses a draw (R325, log 15). -/
theorem divide_by_zero_completes (h : s.readGpr rk = 0) :
    ∃ t v, divide rd rj rk op s = .next t ∧ GprIs s t rd v ∧ t.pc = s.pc + 4 ∧ SameBytes s t ∧
      t = { s with gpr := t.gpr, pc := t.pc, draws := t.draws } := by
  obtain ⟨_, ⟨⟩, hgpr, hpc, hmem, hframe⟩ := writesGpr_retireGpr s rd (s.freeWord .quotient)
  refine ⟨_, _, divide_next.2 (.inl ⟨h, rfl⟩), hgpr, hpc, hmem, ?_⟩
  have hdraws : (s.writeGpr rd (s.freeWord .quotient)).drawn.advance.draws = s.draws + 1 := by simp
  rw [hdraws]
  exact congrArg State.drawn hframe

end

/-! ## The statements -/

/-- Settles O17, instruction by instruction: each writes its operation's value. -/
theorem integerRegister : Obligations.IntegerRegister := by
  intro s rd rj rk
  refine ⟨?addW, ?subW, ?slt, ?sltu, ?and, ?or, ?nor, ?xor, ?mulW, ?mulhW, ?mulhWU⟩
  case addW => exact writesGpr_retireGpr_of_eq (add_eq_ofNat _ _)
  case subW => exact writesGpr_retireGpr_of_eq (sub_eq_ofInt _ _)
  case slt => exact writesGpr_retireGpr_of_eq (setIf_slt _ _)
  case sltu => exact writesGpr_retireGpr_of_eq (setIf_ult _ _)
  case and | or | nor | xor => exact writesGpr_retireGpr s rd _
  case mulW => exact writesGpr_retireGpr_of_eq (mul_eq_ofInt _ _)
  case mulhW => exact writesGpr_retireGpr_of_eq (mulHighSigned_eq _ _)
  case mulhWU => exact writesGpr_retireGpr_of_eq (mulHighUnsigned_eq _ _)

/-- Settles O19: the four divisions share `divide`, which has a case for divisor 0. -/
theorem division : Obligations.Division := by
  intro s rd rj rk
  refine ⟨fun hb => ?nonzero, fun hb i hi => ?zero⟩
  case nonzero =>
    rw [← remSigned_eq]
    exact ⟨writesGpr_divide hb, writesGpr_divide hb, writesGpr_divide hb, writesGpr_divide hb⟩
  case zero =>
    simp only [List.mem_cons, List.not_mem_nil, or_false] at hi
    rcases hi with rfl | rfl | rfl | rfl
    all_goals exact divide_by_zero_completes hb

/-- Settles O20: the immediate, extended to a word, takes the place of the second register. -/
theorem integerImmediate : Obligations.IntegerImmediate := by
  intro s rd rj i12 i20
  rw [← toNat_sext12, ← toInt_sext12, ← zext12_eq_ofNat, ← toNat_upper20]
  refine ⟨?addiW, ?slti, ?sltui, ?andi, ?ori, ?xori, ?lu12iW, ?pcaddu12i⟩
  case addiW => exact writesGpr_retireGpr_of_eq (add_eq_ofInt _ _)
  case slti => exact writesGpr_retireGpr_of_eq (setIf_slt _ _)
  case sltui => exact writesGpr_retireGpr_of_eq (setIf_ult _ _)
  case andi | ori | xori => exact writesGpr_retireGpr s rd _
  case lu12iW => exact writesGpr_retireGpr_of_eq (eq_ofNat_toNat _)
  case pcaddu12i => exact writesGpr_retireGpr_of_eq (add_eq_ofNat _ _)

end Sys2Proof.Machine

/-! PROOFS. Shifts: the statement of spec/41_int_shift.md. -/

namespace Sys2Proof.Machine

/-! ## The shifts of a word, by the numbers the word stands for -/

section
variable (a : Word) (n : Nat)

theorem shiftLeft_eq_ofNat : a <<< n = BitVec.ofNat 32 (a.toNat * 2 ^ n) := by
  apply BitVec.eq_of_toNat_eq
  rw [BitVec.toNat_shiftLeft, BitVec.toNat_ofNat, Nat.shiftLeft_eq]

theorem ushiftRight_eq_ofNat : a >>> n = BitVec.ofNat 32 (a.toNat / 2 ^ n) := by
  rw [eq_ofNat_toNat (a >>> n), BitVec.toNat_ushiftRight, Nat.shiftRight_eq_div_pow]

/-- The quotient is rounded down, also for a negative word: the vacated bits are copies of the sign (R343, R346). -/
theorem sshiftRight_eq_ofInt : a.sshiftRight n = BitVec.ofInt 32 (a.toInt / 2 ^ n) := by
  rw [BitVec.sshiftRight, Int.shiftRight_eq_div_pow, Nat.cast_pow, Nat.cast_ofNat]

end

/-- Bits 4:0 of a register are its value modulo 32 (R340). -/
theorem shiftAmount_eq_mod (s : State) (rk : RegNum) : s.shiftAmount rk = (s.readGpr rk).toNat % 32 :=
  BitVec.extractLsb'_toNat ..

/-! ## The statement -/

/-- Settles O18: the register shifts and the immediate shifts write the same three results, for the amounts x[rk][4:0] and ui5. -/
theorem shifts : Obligations.Shifts := by
  intro s rd rj rk ui5
  rw [← shiftAmount_eq_mod]
  refine ⟨?sllW, ?srlW, ?sraW, ?slliW, ?srliW, ?sraiW⟩
  case sllW | slliW => exact writesGpr_retireGpr_of_eq (shiftLeft_eq_ofNat _ _)
  case srlW | srliW => exact writesGpr_retireGpr_of_eq (ushiftRight_eq_ofNat _ _)
  case sraW | sraiW => exact writesGpr_retireGpr_of_eq (sshiftRight_eq_ofInt _ _)

end Sys2Proof.Machine

/-! PROOFS. Branches and jumps: the statements of spec/42_int_branch.md. -/

namespace Sys2Proof.Machine

/-! ## Branch targets (R235, R350) -/

/-- A signed offset with two zeros below it is four times the offset. -/
theorem signExtend_append_zero_eq_ofInt {n : Nat} (i : BitVec n) : (i ++ 0#2).signExtend 32 = BitVec.ofInt 32 (i.toInt * 4) := by
  rw [BitVec.signExtend, BitVec.toInt_append_zero, Int.mul_comm]
  rfl

theorem sext16x4_eq_ofInt (i : BitVec 16) : sext16x4 i = BitVec.ofInt 32 (i.toInt * 4) := signExtend_append_zero_eq_ofInt i

theorem sext26x4_eq_ofInt (i : BitVec 26) : sext26x4 i = BitVec.ofInt 32 (i.toInt * 4) := signExtend_append_zero_eq_ofInt i

theorem add_ofInt_eq (a : Word) (x : Int) : a + BitVec.ofInt 32 x = BitVec.ofInt 32 (a.toNat + x) := by
  rw [BitVec.ofInt_add, BitVec.ofInt_natCast, ← eq_ofNat_toNat]

/-! ## How branches end -/

/-- A branch moves by its offset as a number, on any condition that says the same as the one it computes. -/
theorem movesTo_branch_of_eq {s : State} {taken cond : Bool} {offset : Word} {x : Int} (hc : taken = cond)
    (ho : offset = BitVec.ofInt 32 x) :
    MovesTo s (BitVec.ofInt 32 (s.pc.toNat + if cond then x else 4)) (s.branch taken offset) := by
  subst hc ho
  cases taken
  case false => exact add_ofInt_eq s.pc 4 ▸ movesTo_branch s false _
  case true => exact add_ofInt_eq s.pc x ▸ movesTo_branch s true _

/-- A jump that links changes the register of the link and the pc. -/
theorem exists_of_linked_jump {s : State} {rd : RegNum} {target w : Word} {r : Result}
    (hr : r = .next { s.writeGpr rd (s.pc + 4) with pc := target }) (ht : target = w) :
    ∃ t, r = .next t ∧ GprIs s t rd (s.pc + 4) ∧ t.pc = w ∧ SameBytes s t ∧ t = { s with gpr := t.gpr, pc := t.pc } := by
  refine ⟨_, hr, ⟨?linked, fun k hk => ?others⟩, ht, fun a => ?bytes, ?frame⟩
  case linked => exact State.readGpr_writeGpr_self s rd _
  case others => exact State.readGpr_writeGpr_of_ne s _ hk
  case bytes => simp [State.byteAt]
  case frame => exact congrArg (fun u : State => { u with pc := target }) (writeGpr_eq s rd _)

/-! ## The statements -/

/-- Settles O22: each comparison of words is one of the numbers they stand for; BGE and BGEU branch where BLT and BLTU do not. -/
theorem branches : Obligations.Branches := by
  intro s r r' o16 o26
  have h16 := sext16x4_eq_ofInt o16
  have h26 := sext26x4_eq_ofInt o26
  refine ⟨?beq, ?bne, ?blt, ?bge, ?bltu, ?bgeu, ?b, ?bl⟩
  case beq => exact movesTo_branch_of_eq (beq_eq_decide _ _) h16
  case bne => exact movesTo_branch_of_eq (by rw [bne, beq_eq_decide, decide_not]) h16
  case blt => exact movesTo_branch_of_eq BitVec.slt_eq_decide h16
  case bge => exact movesTo_branch_of_eq (BitVec.sle_eq_not_slt.symm.trans BitVec.sle_eq_decide) h16
  case bltu => exact movesTo_branch_of_eq BitVec.ult_eq_decide h16
  case bgeu => exact movesTo_branch_of_eq ((BitVec.ule_eq_not_ult _ _).symm.trans BitVec.ule_eq_decide) h16
  case b => exact movesTo_branch_of_eq (cond := true) rfl h26
  case bl =>
    have htarget : (s.writeGpr 1 (s.pc + 4)).pc + sext26x4 o26 = BitVec.ofInt 32 (s.pc.toNat + o26.toInt * 4) := by
      rw [State.writeGpr_pc, h26, add_ofInt_eq]
    exact exists_of_linked_jump rfl htarget

/-- Settles O23: the target is computed from the state before the link, so rd = rj is no case of its own. -/
theorem indirectJump : Obligations.IndirectJump := by
  intro s rd rj o16
  have htarget : s.readGpr rj + sext16x4 o16 = BitVec.ofInt 32 ((s.readGpr rj).toNat + o16.toInt * 4) := by
    rw [sext16x4_eq_ofInt, add_ofInt_eq]
  exact exists_of_linked_jump rfl htarget

end Sys2Proof.Machine

/-! PROOFS. Loads, stores, LL.W, SC.W, hints and barriers: the statements of spec/43_int_mem.md. -/

namespace Sys2Proof.Machine

/-! ## SC.W past its checks (R381, R384) -/

/-- An SC.W that leaves memory as in `m`, `b` in LLbit and the answer `v` in x[rd] is complete. -/
def State.scDone (m : State) (rd : RegNum) (b : Bool) (v : Word) : State :=
  { m with gpr := (m.writeGpr rd v).gpr, pc := m.pc + 4, llbit := b, draws := m.draws + 1 }

theorem retire_writeGpr_eq_scDone (m : State) (rd : RegNum) (b : Bool) (v : Word) :
    ({ m with llbit := b }.writeGpr rd v).drawn.retire = .next (m.scDone rd b v) := by
  unfold State.scDone State.writeGpr
  split <;> rfl

section
variable {s : State} {rd rj : RegNum} {i14 : BitVec 14} {tr : Translated}

theorem exec_scW_of_scTarget (h : scTarget s (s.addr14 rj i14) = .ok tr) :
    exec (.scW rd rj i14) s = (if tr.mat = 1 then scStore rd tr.pa s else scStoreUndefined rd tr.pa s).drawn.retire := by
  change execScW rd rj i14 s = _
  rw [execScW, h, Res.run_ok]

/-- Coherent cached with LLbit 1: the word is stored and the answer is 1 (R381). -/
theorem exec_scW_linked (h : scTarget s (s.addr14 rj i14) = .ok tr) (hmat : tr.mat = 1) (hll : s.llbit = true) :
    exec (.scW rd rj i14) s =
      .next ((s.storeMem tr.pa 4 ((s.readGpr rd).setWidth 64)).scDone rd (s.freeBit .llbit) 1) := by
  rw [exec_scW_of_scTarget h, if_pos hmat, scStore, hll]
  exact retire_writeGpr_eq_scDone ..

/-- Coherent cached with LLbit 0: no access, and the answer is 0 (R381). -/
theorem exec_scW_unlinked (h : scTarget s (s.addr14 rj i14) = .ok tr) (hmat : tr.mat = 1) (hll : s.llbit = false) :
    exec (.scW rd rj i14) s = .next (s.scDone rd (s.freeBit .llbit) 0) := by
  rw [exec_scW_of_scTarget h, if_pos hmat, scStore, hll]
  exact retire_writeGpr_eq_scDone ..

/-- Not coherent cached: the word stored and the answer are free values (R384, log 13). -/
theorem exec_scW_uncached (h : scTarget s (s.addr14 rj i14) = .ok tr) (hmat : tr.mat ≠ 1) :
    exec (.scW rd rj i14) s =
      .next ((s.storeMem tr.pa 4 (s.free .scStore)).scDone rd (s.freeBit .llbit) (s.freeWord .scResult)) := by
  rw [exec_scW_of_scTarget h, if_neg hmat]
  exact retire_writeGpr_eq_scDone ..

end

/-! ## Which bytes of memory an instruction changes (R601, R661) -/

/-- `r` answers no state in which memory is not as in `s`. -/
def KeepsMem (s : State) (r : Result) : Prop := ∀ t, r = .next t → t.mem = s.mem

section
variable {s u : State} {k k' : Result}

theorem KeepsMem.next (h : u.mem = s.mem := by simp) : KeepsMem s (.next u) := by
  rintro _ ⟨⟩
  exact h

theorem KeepsMem.fault (f : Fault) : KeepsMem s (.fault f) := by
  intro t ht
  cases ht

theorem KeepsMem.refused (q : Refusal) : KeepsMem s (.refused q) := by
  intro t ht
  cases ht

theorem KeepsMem.ite {c : Prop} [Decidable c] (h : KeepsMem s k) (h' : KeepsMem s k') : KeepsMem s (if c then k else k') := by
  split
  · exact h
  · exact h'

theorem KeepsMem.run {α : Type} {r : Res α} {k : α → Result} (h : ∀ a, KeepsMem s (k a)) : KeepsMem s (r.run s k) := by
  cases r with
  | ok a => exact h a
  | trap e => exact .next
  | fault f => exact .fault f
  | refused q => exact .refused q

theorem KeepsMem.privileged (h : KeepsMem s k) : KeepsMem s (privileged s k) := .ite h .next

theorem KeepsMem.fpInstr {need : FpNeed} (h : KeepsMem s k) : KeepsMem s (fpInstr need s k) := .ite (.ite h .next) .next

theorem KeepsMem.withFlagField {c : BitVec 3} (h : KeepsMem s k) : KeepsMem s (withFlagField c k) := .ite h (.refused _)

theorem KeepsMem.branch {taken : Bool} {offset : Word} (h : u.mem = s.mem := by simp) : KeepsMem s (u.branch taken offset) :=
  .ite (.next h) (.next h)

theorem KeepsMem.fpFinish {e : BitVec 5} {write : State → State} (hw : ∀ u, (write u).mem = u.mem := by simp) :
    KeepsMem s (fpFinish s e write) := .ite .next (.next (hw _))

theorem KeepsMem.movfcsr2gr {rd : RegNum} {fcsr : BitVec 5} : KeepsMem s (execMovfcsr2gr rd fcsr s) := by
  refine .fpInstr ?_
  cases fcsrViewMask fcsr <;> exact .next

theorem KeepsMem.movgr2fcsr {fcsr : BitVec 5} {rj : RegNum} : KeepsMem s (execMovgr2fcsr fcsr rj s) := by
  refine .fpInstr ?_
  cases fcsrViewMask fcsr <;> exact .next

theorem KeepsMem.csrrd {rd : RegNum} {num : BitVec 14} : KeepsMem s (execCsrrd rd num s) := by
  refine .privileged ?_
  cases csrOfNum num <;> exact .next

theorem KeepsMem.csrSwap {rd : RegNum} {num : BitVec 14} {v m : Word} : KeepsMem s (s.csrSwap rd num v m) := by
  unfold State.csrSwap
  cases csrOfNum num <;> exact .next

theorem KeepsMem.tlbrd : KeepsMem s (execTlbrd s) := by
  refine .privileged ?_
  cases s.tlb[s.tlbIndex]? with
  | none => exact .fault _
  | some e => exact .next

end

/-- An instruction that is no store changes no byte of memory, whether it completes or takes an exception. -/
theorem exec_keepsMem {i : Instr} {s : State} (hi : storeTarget s i = none) : KeepsMem s (exec i s) := by
  cases i with
  | stB | stH | stW | scW | fstS | fstD => cases hi
  | rdcntid | rdcntvlW | rdcntvhW | brk | syscall => exact .next
  | addW | subW | slt | sltu | nor | and | or | xor => exact .next
  | sllW | srlW | sraW | slliW | srliW | sraiW => exact .next
  | mulW | mulhW | mulhWU => exact .next
  | divW | modW | divWU | modWU => exact .ite .next .next
  | slti | sltui | addiW | andi | ori | xori | lu12iW | pcaddu12i => exact .next
  | beq | bne | blt | bge | bltu | bgeu => exact .branch
  | b | bl | jirl => exact .next
  | ldB | ldH | ldW | ldBU | ldHU | llW => exact .run fun _ => .next
  | preld | dbar | ibar => exact .next
  | cacop => exact .ite (.run fun _ => .next) (.privileged .next)
  | csrrd => exact .csrrd
  | csrwr | csrxchg => exact .privileged .csrSwap
  | tlbsrch => exact .privileged (.run fun _ => .next)
  | tlbrd => exact .tlbrd
  | tlbwr => exact .privileged (.ite .next (.fault _))
  | tlbfill => exact .privileged .next
  | invtlb => exact .ite .next (.privileged (.ite (.fault _) .next))
  | ertn | idle => exact .privileged .next
  | faddS | fsubS | fmulS | fdivS | fmaxS | fminS | fmaxaS | fminaS => exact .fpInstr .fpFinish
  | faddD | fsubD | fmulD | fdivD | fmaxD | fminD | fmaxaD | fminaD => exact .fpInstr .fpFinish
  | fmaddS | fmsubS | fnmaddS | fnmsubS | fsqrtS | frecipS | frsqrtS => exact .fpInstr .fpFinish
  | fmaddD | fmsubD | fnmaddD | fnmsubD | fsqrtD | frecipD | frsqrtD => exact .fpInstr .fpFinish
  | fcvtSD | fcvtDS | ffintSW | ffintDW => exact .fpInstr .fpFinish
  | ftintWS | ftintrmWS | ftintrpWS | ftintrzWS | ftintrneWS => exact .fpInstr .fpFinish
  | ftintWD | ftintrmWD | ftintrpWD | ftintrzWD | ftintrneWD => exact .fpInstr .fpFinish
  | fcmpS | fcmpD => exact .ite (.fpInstr (.withFlagField .fpFinish)) .next
  | fcopysignS | fabsS | fnegS | fclassS | fmovS | movgr2frW => exact .fpInstr .next
  | fcopysignD | fabsD | fnegD | fclassD | fmovD | movgr2frhW => exact .fpInstr .next
  | fsel | movcf2fr | movfr2cf | movgr2cf | movcf2gr => exact .fpInstr (.withFlagField .next)
  | movfr2grS | movfrh2grS => exact .fpInstr .next
  | movgr2fcsr => exact .movgr2fcsr
  | movfcsr2gr => exact .movfcsr2gr
  | bceqz | bcnez => exact .fpInstr (.withFlagField .branch)
  | fldS | fldD => exact .fpInstr (.run fun _ => .next)

/-- Memory in `t` is as in `s`, or with `n` bytes written where the store at `va`, aligned, translates to. -/
def StoresOnlyAt (s : State) (va : Word) (n : Nat) (t : State) : Prop :=
  t.mem = s.mem ∨ ∃ tr v, va.toNat % n = 0 ∧ translate s va .store = .ok tr ∧ t.mem = s.mem.storeLE tr.pa n v

section
variable {s t : State} {va : Word} {n : Nat}

theorem memWrite_storesOnlyAt {v : DWord} (h : (memWrite s va n v).run s (fun u => u.retire) = .next t) :
    StoresOnlyAt s va n t := by
  rcases Res.run_next.1 h with ⟨u, hu, hk⟩ | ⟨e, -, rfl⟩
  · obtain ⟨tr, ⟨ha, htr, -⟩, rfl⟩ := memWrite_ok.1 hu
    cases hk
    exact .inr ⟨tr, v, ha, htr, rfl⟩
  · exact .inl rfl

theorem fpInstr_memWrite_storesOnlyAt {need : FpNeed} {v : DWord}
    (h : fpInstr need s ((memWrite s va n v).run s fun u => u.retire) = .next t) : StoresOnlyAt s va n t := by
  rcases fpInstr_next.1 h with ⟨-, hk⟩ | ⟨-, rfl⟩ | ⟨-, -, rfl⟩
  · exact memWrite_storesOnlyAt hk
  · exact .inl rfl
  · exact .inl rfl

theorem scTarget_translates {tr : Translated} (h : scTarget s va = .ok tr) :
    va.toNat % 4 = 0 ∧ translate s va .store = .ok tr := by
  rcases scTarget_ok.1 h with ⟨ha, htr, -⟩ | ⟨⟨ha, htr, -⟩, -⟩
  · exact ⟨ha, htr⟩
  · exact ⟨ha, htr⟩

theorem exec_scW_storesOnlyAt {rd rj : RegNum} {i14 : BitVec 14} (h : exec (.scW rd rj i14) s = .next t) :
    StoresOnlyAt s (s.addr14 rj i14) 4 t := by
  rcases Res.run_next.1 h with ⟨tr, hsc, -⟩ | ⟨e, -, rfl⟩
  · obtain ⟨ha, htr⟩ := scTarget_translates hsc
    by_cases hmat : tr.mat = 1
    · cases hll : s.llbit with
      | true =>
        cases (exec_scW_linked hsc hmat hll).symm.trans h
        exact .inr ⟨tr, _, ha, htr, rfl⟩
      | false =>
        cases (exec_scW_unlinked hsc hmat hll).symm.trans h
        exact .inl rfl
    · cases (exec_scW_uncached hsc hmat).symm.trans h
      exact .inr ⟨tr, _, ha, htr, rfl⟩
  · exact .inl rfl

theorem exec_storesOnlyAt {i : Instr} (hi : storeTarget s i = some (va, n)) (h : exec i s = .next t) :
    StoresOnlyAt s va n t := by
  cases i with
  | stB | stH | stW => cases hi; exact memWrite_storesOnlyAt h
  | scW => cases hi; exact exec_scW_storesOnlyAt h
  | fstS | fstD => cases hi; exact fpInstr_memWrite_storesOnlyAt h
  | _ => cases hi

end

/-- Settles O54: no instruction but a store changes memory, and a store changes its own bytes only. -/
theorem memoryFrame : Obligations.MemoryFrame := by
  intro i s t a hs h hne
  have hchanged : t.mem ≠ s.mem := fun heq => hne (by rw [State.byteAt, State.byteAt, heq])
  cases hi : storeTarget s i with
  | none => exact absurd (exec_keepsMem hi t h) hchanged
  | some target =>
    obtain ⟨va, n⟩ := target
    rcases exec_storesOnlyAt hi h with hsame | ⟨tr, v, ha, htr, hmem⟩
    · exact absurd hsame hchanged
    · have hin : ¬ (a < tr.pa ∨ tr.pa + n ≤ a) := fun hout =>
        hne ((congrArg (Memory.read · a) hmem).trans (Memory.read_storeLE_of_out hs _ _ _ _ hout))
      exact ⟨va, n, tr, rfl, ha, htr, by omega, by omega⟩


/-! ## Loads (R370 to R375) -/

section
variable {s : State} {rd rj : RegNum} {i12 : BitVec 12} {n w : Nat} {t : Translated}

/-- The low bits of what is loaded are those of the number the bytes spell. -/
theorem extractLow_loadLE (s : State) (pa : Nat) (hn : n ≤ 8) (hw : w ≤ 64) :
    (s.mem.loadLE pa n).extractLsb' 0 w = BitVec.ofNat w (s.natAt pa n) := by
  rw [← BitVec.setWidth_eq_extractLsb' hw, ← BitVec.ofNat_toNat, State.toNat_loadLE s pa n hn]

theorem zeroExtend_loadLE (s : State) (pa : Nat) (hn : n ≤ 8) (hw : w ≤ 32) (hnw : 256 ^ n = 2 ^ w) :
    ((s.mem.loadLE pa n).extractLsb' 0 w).setWidth 32 = BitVec.ofNat 32 (s.natAt pa n) := by
  rw [extractLow_loadLE s pa hn (by omega), BitVec.setWidth_ofNat_of_le_of_lt hw (hnw ▸ s.natAt_lt pa n)]

theorem writesGpr_loadGpr {ext : DWord → Word} {v : Word} (h : AccessOk s (s.addr12 rj i12) n .load t)
    (hv : ext (s.mem.loadLE t.pa n) = v) : WritesGpr s rd v (loadGpr rd rj i12 n ext s) := by
  rw [loadGpr, memRead_ok.2 ⟨t, h, rfl⟩, Res.run_ok]
  exact writesGpr_retireGpr_of_eq hv

end

/-- Settles O24: each load writes the number its bytes spell, extended. -/
theorem loads : Obligations.Loads := by
  intro s rd rj i12 t
  refine ⟨fun h => ⟨?ldB, ?ldBU⟩, fun h => ⟨?ldH, ?ldHU⟩, ?ldW⟩
  case ldB | ldH => exact writesGpr_loadGpr h (congrArg _ (extractLow_loadLE s t.pa (by decide) (by decide)))
  case ldBU | ldHU => exact writesGpr_loadGpr h (zeroExtend_loadLE s t.pa (by decide) (by decide) rfl)
  case ldW => exact fun h => writesGpr_loadGpr h (extractLow_loadLE s t.pa (by decide) (by decide))

/-! ## Stores (R376 to R379) -/

/-- A word as the value of a store is the same number. -/
theorem toNat_storeValue (v : Word) : (v.setWidth 64 : DWord).toNat = v.toNat :=
  BitVec.toNat_setWidth_of_le (by decide)

theorem stores_storeBytes {s : State} {rj : RegNum} {i12 : BitVec 12} {n : Nat} {v : Word} {t : Translated} (hs : s.mem.wf = true)
    (h : AccessOk s (s.addr12 rj i12) n .store t) : Stores s t.pa n v.toNat (storeBytes rj i12 n (v.setWidth 64) s) := by
  rw [storeBytes_next.2 (.inl ⟨t, h, rfl⟩), ← toNat_storeValue v]
  exact stores_of_memWrite hs

/-- Settles O25: the three stores differ in their number of bytes only. -/
theorem stores : Obligations.Stores := by
  intro s rd rj i12 t hs
  exact ⟨stores_storeBytes hs, stores_storeBytes hs, stores_storeBytes hs⟩

/-! ## LL.W, SC.W and the stores of other masters (R380 to R385) -/

section
variable {s : State} {rd rj : RegNum} {i14 : BitVec 14} {t : Translated}

theorem gprIs_writeGpr (s : State) (rd : RegNum) (v : Word) : GprIs s (s.writeGpr rd v) rd v :=
  ⟨s.readGpr_writeGpr_self rd v, fun _ hr => s.readGpr_writeGpr_of_ne v hr⟩

theorem gprIs_scDone {m : State} (h : m.gpr = s.gpr) (rd : RegNum) (b : Bool) (v : Word) : GprIs s (m.scDone rd b v) rd v := by
  obtain ⟨hself, hothers⟩ := gprIs_writeGpr m rd v
  exact ⟨hself, fun r hr => (hothers r hr).trans (State.readGpr_congr h r)⟩

/-- LL.W completes with the word, LLbit set and the physical address recorded (R380). -/
theorem exec_llW_linked (h : AccessOk s (s.addr14 rj i14) 4 .load t) :
    exec (.llW rd rj i14) s = .next { s with
      gpr := (s.writeGpr rd (BitVec.ofNat 32 (s.natAt t.pa 4))).gpr, pc := s.pc + 4, llbit := true, llAddr := t.pa } := by
  change execLlW rd rj i14 s = _
  rw [execLlW, accessAddr_ok.2 h, Res.run_ok, extractLow_loadLE s t.pa (by decide) (by decide)]
  unfold State.retireGpr State.writeGpr
  split <;> rfl

theorem scTarget_of_accessOk {va : Word} (h : AccessOk s va 4 .store t) (hstores : s.llbit = true ∨ t.mat ≠ 1) :
    scTarget s va = .ok t := by
  refine scTarget_ok.2 (.inr ⟨h, fun ⟨hmat, hll⟩ => ?_⟩)
  rcases hstores with hlinked | huncached
  · exact absurd (hll.symm.trans hlinked) Bool.false_ne_true
  · exact huncached hmat

end

/-- A store of another master clears LLbit exactly when it is in the line of the recorded address (R385). -/
theorem externalStore_llbit_eq (s : State) (pa : Nat) (b : Byte) :
    (s.externalStore pa b).llbit = if pa / 2 ^ s.cfg.lineBits = s.llAddr / 2 ^ s.cfg.lineBits then false else s.llbit := by
  change (s.llbit && !(pa >>> s.cfg.lineBits == s.llAddr >>> s.cfg.lineBits)) = _
  rw [Nat.shiftRight_eq_div_pow, Nat.shiftRight_eq_div_pow]
  split
  · next hline => rw [hline, beq_self_eq_true, Bool.not_true, Bool.and_false]
  · next hline => rw [beq_false_of_ne hline, Bool.not_false, Bool.and_true]

/-- The byte stored is the only one that changes, and it does where there is memory (log 52). -/
theorem externalStore_byteAt {s : State} (hs : s.mem.wf = true) (pa : Nat) (b : Byte) (a : Nat) :
    (s.externalStore pa b).byteAt a = if a = pa ∧ s.cfg.regionAt pa = some .ram then b else s.byteAt a := by
  unfold State.byteAt State.externalStore
  by_cases hram : s.cfg.regionAt pa = some .ram
  · simp only [hram, ↓reduceIte, and_true]
    exact Memory.read_write hs pa b a
  · simp only [hram, ↓reduceIte, and_false]

theorem externalStore_stale_of_no_ram {s : State} {pa : Nat} (b : Byte) (h : s.cfg.regionAt pa ≠ some .ram) :
    (s.externalStore pa b).stale = s.stale := by
  rw [State.externalStore, if_neg h]

theorem externalStore_eq (s : State) (pa : Nat) (b : Byte) : let u := s.externalStore pa b
    u = { s with mem := u.mem, stale := u.stale, llbit := u.llbit } := by
  unfold State.externalStore
  split <;> rfl

/-- Settles O26: LL.W, then SC.W by the type of its access and LLbit, then the stores of other masters. -/
theorem linkedAccess : Obligations.LinkedAccess := by
  refine ⟨fun s rd rj i14 t hs => ⟨fun h => ?ll, fun h hmat hll => ?linked, fun ha htr hmat hll => ?unlinked,
    fun h hmat => ?uncached⟩, fun s pa b hs => ?otherMaster⟩
  case ll => exact ⟨_, exec_llW_linked h, gprIs_writeGpr s rd _, rfl, rfl, rfl, fun _ => rfl, rfl⟩
  case linked =>
    rw [← toNat_storeValue]
    exact ⟨_, exec_scW_linked (scTarget_of_accessOk h (.inl hll)) hmat hll, gprIs_scDone rfl rd _ 1,
      storedBytes_storeLE hs t.pa 4 _ rfl, recordsOld_storeMem s t.pa 4 ((s.readGpr rd).setWidth 64), rfl, rfl⟩
  case unlinked =>
    have htarget := scTarget_ok.2 (.inl ⟨ha, htr, hmat, hll⟩)
    exact ⟨_, exec_scW_unlinked htarget hmat hll, gprIs_scDone rfl rd _ 0, fun _ => rfl, rfl, rfl⟩
  case uncached =>
    exact ⟨_, exec_scW_uncached (scTarget_of_accessOk h (.inr hmat)) hmat, (gprIs_scDone rfl rd _ _).2,
      fun a ha => Memory.read_storeLE_of_out hs _ _ _ a ha, recordsOld_storeMem s t.pa 4 (s.free .scStore), rfl, rfl⟩
  case otherMaster =>
    exact ⟨externalStore_llbit_eq s pa b, externalStore_byteAt hs pa b, externalStore_stale_of_no_ram b, externalStore_eq s pa b⟩

/-! ## Hints, CACOP and IDLE (R378, R390, R391, R535, R552) -/

/-- The Hit class is that of the codes 0x10 to 0x17. -/
theorem cacop_hitClass_iff (code : BitVec 5) : code.extractLsb' 3 2 = 2 ↔ code.toNat / 8 = 2 := by
  rw [← BitVec.toNat_inj, BitVec.extractLsb'_toNat, Nat.shiftRight_eq_div_pow]
  have := code.isLt
  change code.toNat / 8 % 4 = 2 ↔ _
  omega

/-- Bits 2:0 of the code name the cache. -/
theorem cacop_cache_iff (code : BitVec 5) {k : Nat} (hk : k < 8) : code.extractLsb' 0 3 = BitVec.ofNat 3 k ↔ code.toNat % 8 = k := by
  rw [← BitVec.toNat_inj, BitVec.extractLsb'_toNat, Nat.shiftRight_zero, BitVec.toNat_ofNat, Nat.mod_eq_of_lt hk]

/-- A Hit-class CACOP is complete once its address translates (R203, R535). -/
theorem exec_cacop_hit {s : State} {code : BitVec 5} {rj : RegNum} {i12 : BitVec 12} {tr : Translated} (hc : code.toNat / 8 = 2)
    (htr : translate s (s.addr12 rj i12) .load = .ok tr) :
    exec (.cacop code rj i12) s = .next (s.cacheHit (code.extractLsb' 0 3) tr.pa).advance := by
  change execCacop code rj i12 s = _
  rw [execCacop, if_pos ((cacop_hitClass_iff code).2 hc), htr]
  rfl

theorem exec_cacop_privileged {s : State} {code : BitVec 5} {rj : RegNum} {i12 : BitVec 12} (hplv : s.plv = 0)
    (hc : code.toNat / 8 ≠ 2) : exec (.cacop code rj i12) s = s.retire := by
  change execCacop code rj i12 s = _
  rw [execCacop, if_neg (mt (cacop_hitClass_iff code).1 hc), privileged_zero hplv]

theorem mem_fetchBarrier_stale (s : State) (b : StaleWord) :
    b ∈ s.fetchBarrier.stale ↔ b ∈ s.stale ∧ b.stage ≠ .invalidated := by
  rw [State.fetchBarrier_stale, List.mem_filter, bne_iff_ne]

/-- Settles O27, instruction by instruction. -/
theorem hintsCacopIdle : Obligations.HintsCacopIdle := by
  intro s h c h15 rj i12
  refine ⟨movesTo_retire s, movesTo_retire s, fun hplv hc => ?cacop, fun tr hc htr => ?hit,
    fun e hc htr => (exec_cacop_begins hc).trap htr, ?ibar, fun hplv => ?idle⟩
  case cacop =>
    rw [exec_cacop_privileged hplv hc]
    exact movesTo_retire s
  case hit =>
    refine ⟨_, exec_cacop_hit hc htr, List.map_congr_left fun b _ => ?_, rfl, fun _ => rfl, fun _ => rfl, rfl⟩
    have hdata := cacop_cache_iff c (k := 1) (by decide)
    have hinstr := cacop_cache_iff c (k := 0) (by decide)
    simp only [← hdata, ← hinstr, Config.line, Nat.shiftRight_eq_div_pow]
    cases b.stage <;> rfl
  case ibar => exact ⟨_, rfl, mem_fetchBarrier_stale s, rfl, fun _ => rfl, fun _ => rfl, rfl⟩
  case idle => exact ⟨_, privileged_zero hplv, rfl, rfl, fun _ => rfl, fun _ => rfl, rfl⟩

end Sys2Proof.Machine

/-! PROOFS. The counter reads: the statement of spec/44_int_misc.md. -/

namespace Sys2Proof.Machine

/-! ## The halves of the stable counter -/

/-- RDCNTVL.W reads bits 31:0 (R402). -/
theorem extractLow_eq_ofNat (c : DWord) : c.extractLsb' 0 32 = BitVec.ofNat 32 c.toNat := by
  rw [BitVec.extractLsb', Nat.shiftRight_zero]

/-- RDCNTVH.W reads bits 63:32 (R403). -/
theorem extractHigh_eq_ofNat (c : DWord) : c.extractLsb' 32 32 = BitVec.ofNat 32 (c.toNat / 2 ^ 32) := by
  rw [BitVec.extractLsb', Nat.shiftRight_eq_div_pow]

/-! ## The statement -/

/-- Settles O21: none of the three checks the privilege level; each ends in the write of a half of the counter, or of TID. -/
theorem counterReads : Obligations.CounterReads := by
  intro s r
  refine ⟨?rdcntvlW, ?rdcntvhW, ?rdcntid⟩
  case rdcntvlW => exact writesGpr_retireGpr_of_eq (extractLow_eq_ofNat _)
  case rdcntvhW => exact writesGpr_retireGpr_of_eq (extractHigh_eq_ofNat _)
  case rdcntid => exact writesGpr_retireGpr s r _

end Sys2Proof.Machine

/-! PROOFS. The floating-point arithmetic instructions: their completion, their trap, and the exceptions before anything else
(spec/45_fp_arith.md R411, R412; spec/60_exceptions.md R613, R618, R631). -/

namespace Sys2Proof.Machine

/-! ## The frame of a floating-point instruction (R411) -/

section
variable {s : State} {n : FpNeed} {k : Result}

theorem fpInstr_absent (h : n.present s.cfg.fpLevel = false) : fpInstr n s k = .next (enterException .ine s) :=
  fpInstr_next.2 (.inr (.inl ⟨h, rfl⟩))

theorem fpInstr_disabled (h : n.present s.cfg.fpLevel = true) (hfpe : s.fpe = false) :
    fpInstr n s k = .next (enterException .fpd s) :=
  fpInstr_next.2 (.inr (.inr ⟨h, hfpe, rfl⟩))

end

/-- FCMP with a condition its table does not define. -/
def IsUndefinedFcmp (i : Instr) : Prop :=
  ∃ c cd fj fk, (i = .fcmpS c cd fj fk ∨ i = .fcmpD c cd fj fk) ∧ fcmpDefined c = false

theorem exec_undefinedFcmp {i : Instr} (h : IsUndefinedFcmp i) (s : State) : exec i s = .next (enterException .ine s) := by
  obtain ⟨c, cd, fj, fk, rfl | rfl, hc⟩ := h
  · exact if_neg (Bool.eq_false_iff.1 hc)
  · exact if_neg (Bool.eq_false_iff.1 hc)

/-- A floating-point instruction that is not FCMP with an undefined condition is its effect within the frame. -/
theorem exec_fp {i : Instr} {n : FpNeed} (hi : fpNeeds i = some n) (s : State) :
    IsUndefinedFcmp i ∨ ∃ k, exec i s = fpInstr n s k := by
  cases i with
  | fcmpS c cd fj fk =>
    cases hi
    cases hc : fcmpDefined c with
    | false => exact .inl ⟨c, cd, fj, fk, .inl rfl, hc⟩
    | true => exact .inr ⟨_, if_pos hc⟩
  | fcmpD c cd fj fk =>
    cases hi
    cases hc : fcmpDefined c with
    | false => exact .inl ⟨c, cd, fj, fk, .inr rfl, hc⟩
    | true => exact .inr ⟨_, if_pos hc⟩
  | _ => cases hi <;> exact .inr ⟨_, rfl⟩

/-- Settles O12: absence and disabling by the frame the floating-point instructions share, the rest by the cases of `exec`. -/
theorem instructionExceptions : Obligations.InstructionExceptions := by
  refine ⟨fun i n s hi => ⟨fun habsent => ?absent, Iff.rfl, fun hpresent hdisabled hdefined => ?disabled⟩,
    fun s code op rj rk cd => ⟨rfl, rfl, fun hop => ?invtlb, fun hop => ?fcmp⟩⟩
  case absent =>
    rcases exec_fp hi s with hundef | ⟨k, hk⟩
    · exact exec_undefinedFcmp hundef s
    · exact hk.trans (fpInstr_absent habsent)
  case disabled =>
    rcases exec_fp hi s with ⟨c, cd, fj, fk, hfcmp, hc⟩ | ⟨k, hk⟩
    · exact absurd (hdefined c cd fj fk hfcmp) (Bool.eq_false_iff.1 hc)
    · exact hk.trans (fpInstr_disabled hpresent hdisabled)
  case invtlb => exact if_pos hop
  case fcmp =>
    have hundef : fcmpDefined op = false := by revert op; decide
    exact ⟨exec_undefinedFcmp ⟨op, cd, rj, rk, .inl rfl, hundef⟩ s,
      exec_undefinedFcmp ⟨op, cd, rj, rk, .inr rfl, hundef⟩ s⟩

/-! ## Completion (R412) -/

section
variable {s : State} {n : FpNeed} {fd : RegNum}

theorem fpWritesW_of_ready (hs : FpReady n s) {v : FpResult} (hv : NoTrap s v.flags) :
    FpWritesW s fd v (fpInstr n s (fpRetireW s fd v)) := by
  rw [fpInstr_ready hs]
  exact fpWritesW_fpRetireW s fd v hv

theorem fpWritesD_of_ready (hs : FpReady n s) {v : FpResult} (hv : NoTrap s v.flags) :
    FpWritesD s fd v (fpInstr n s (fpRetireD s fd v)) := by
  rw [fpInstr_ready hs]
  exact fpWritesD_fpRetireD s fd v hv

theorem movesFprW_of_ready (hs : FpReady n s) {v w : Word} (h : v = w) :
    MovesFprW s fd w (fpInstr n s (s.writeFprW fd v).drawn.retire) := by
  rw [fpInstr_ready hs, h]
  exact movesFprW_writeFprW s fd w

theorem movesFprD_of_ready (hs : FpReady n s) {v w : DWord} (h : v = w) :
    MovesFprD s fd w (fpInstr n s (s.writeFprD fd v).retire) := by
  rw [fpInstr_ready hs, h]
  exact movesFprD_writeFprD s fd w

end

/-- Settles O28: each of the sixteen is its operation within the frame; the open sign is the state's free bit (log 38). -/
theorem fpTwoOperand : Obligations.FpTwoOperand := by
  intro s fd fj fk
  refine ⟨s.freeBit .zeroSign, fun hs p hp hv => ?single, fun hs p hp hv => ?double⟩
  case single =>
    simp only [List.mem_cons, List.not_mem_nil, or_false] at hp
    rcases hp with rfl | rfl | rfl | rfl | rfl | rfl | rfl | rfl
    all_goals exact fpWritesW_of_ready hs hv
  case double =>
    simp only [List.mem_cons, List.not_mem_nil, or_false] at hp
    rcases hp with rfl | rfl | rfl | rfl | rfl | rfl | rfl | rfl
    all_goals exact fpWritesD_of_ready hs hv

/-- Settles O29: the open sign of a NaN is the state's free bit (log 38). -/
theorem fpFused : Obligations.FpFused := by
  intro s fd fj fk fa
  refine ⟨s.freeBit .nanSign, fun hs p hp hv => ?single, fun hs p hp hv => ?double⟩
  case single =>
    simp only [List.mem_cons, List.not_mem_nil, or_false] at hp
    rcases hp with rfl | rfl | rfl | rfl
    all_goals exact fpWritesW_of_ready hs hv
  case double =>
    simp only [List.mem_cons, List.not_mem_nil, or_false] at hp
    rcases hp with rfl | rfl | rfl | rfl
    all_goals exact fpWritesD_of_ready hs hv

theorem one_fp32 : fp32.one = 0x3F800000 := rfl

theorem one_fp64 : fp64.one = 0x3FF0000000000000 := rfl

/-- Settles O30: the reciprocal divides the pattern of 1.0. -/
theorem fpOneOperand : Obligations.FpOneOperand := by
  intro s fd fj
  rw [← one_fp32, ← one_fp64]
  refine ⟨fun hs p hp hv => ?single, fun hs p hp hv => ?double⟩
  case single =>
    simp only [List.mem_cons, List.not_mem_nil, or_false] at hp
    rcases hp with rfl | rfl | rfl
    all_goals exact fpWritesW_of_ready hs hv
  case double =>
    simp only [List.mem_cons, List.not_mem_nil, or_false] at hp
    rcases hp with rfl | rfl | rfl
    all_goals exact fpWritesD_of_ready hs hv

/-! ## Operations on the sign bit -/

section
variable {w : Nat}

theorem and_lowMask_eq_ofNat (x : BitVec w) (k : Nat) :
    x &&& BitVec.ofNat w (2 ^ k - 1) = BitVec.ofNat w (x.toNat % 2 ^ k) := by
  rw [← Nat.and_two_pow_sub_one_eq_mod, BitVec.ofNat_and, BitVec.ofNat_toNat, BitVec.setWidth_eq]

theorem toNat_and_topBit (y : BitVec (w + 1)) :
    (y &&& BitVec.ofNat (w + 1) (2 ^ w)).toNat = y.toNat / 2 ^ w * 2 ^ w := by
  have hy : y.toNat / 2 ^ w < 2 := by
    rw [Nat.div_lt_iff_lt_mul (by positivity), ← pow_succ']
    exact y.isLt
  rw [BitVec.toNat_and, BitVec.toNat_ofNat, Nat.mod_eq_of_lt (Nat.pow_lt_pow_right (by decide) (by omega)), Nat.and_two_pow,
    Nat.testBit_eq_decide_div_mod_eq, Nat.mod_eq_of_lt hy]
  generalize y.toNat / 2 ^ w = b at hy
  interval_cases b <;> simp

theorem copySign_eq_ofNat (x y : BitVec (w + 1)) :
    (x &&& BitVec.ofNat (w + 1) (2 ^ w - 1)) ||| (y &&& BitVec.ofNat (w + 1) (2 ^ w)) =
      BitVec.ofNat (w + 1) (x.toNat % 2 ^ w + y.toNat / 2 ^ w * 2 ^ w) := by
  have hlow : x.toNat % 2 ^ w < 2 ^ w := Nat.mod_lt _ (by positivity)
  have hy : y.toNat / 2 ^ w * 2 ^ w = (y &&& BitVec.ofNat (w + 1) (2 ^ w)).toNat := (toNat_and_topBit y).symm
  rw [and_lowMask_eq_ofNat, Nat.add_comm (_ % _), Nat.mul_comm, Nat.two_pow_add_eq_or_of_lt hlow, Nat.mul_comm, hy,
    BitVec.ofNat_or, BitVec.ofNat_toNat, BitVec.setWidth_eq, BitVec.or_comm]

end

/-- Settles O31: the masks of the model are those of the low bits and of the sign bit. -/
theorem fpBitOperations : Obligations.FpBitOperations := by
  intro s fd fj fk
  refine ⟨fun hs => ⟨?absS, ?negS, ?copyS, ?classS⟩, fun hs => ⟨?absD, ?negD, ?copyD, ?classD⟩⟩
  case absS => exact movesFprW_of_ready hs (and_lowMask_eq_ofNat _ 31)
  case copyS => exact movesFprW_of_ready hs (copySign_eq_ofNat (w := 31) _ _)
  case negS | classS => exact movesFprW_of_ready hs rfl
  case absD => exact movesFprD_of_ready hs (and_lowMask_eq_ofNat _ 63)
  case copyD => exact movesFprD_of_ready hs (copySign_eq_ofNat (w := 63) _ _)
  case negD | classD => exact movesFprD_of_ready hs rfl

/-! ## The trap (R412, R618) -/

/-- `r` is the floating-point trap for the exceptions `e`: Cause is `e`, Flags gains only bits of `e` that are not enabled, and
nothing else changes before FPE is entered. -/
def TakesFpTrap (s : State) (e : BitVec 5) (r : Result) : Prop :=
  ∃ u, r = .next (enterException .fpe u) ∧
    u.fcsr0.extractLsb' 24 5 = e ∧ u.fcsr0 &&& 0xE0E0FFFF = s.fcsr0 &&& 0xE0E0FFFF ∧
    s.fcsr0.extractLsb' 16 5 &&& ~~~(u.fcsr0.extractLsb' 16 5) = 0 ∧
    u.fcsr0.extractLsb' 16 5 &&& ~~~(s.fcsr0.extractLsb' 16 5 ||| (e &&& ~~~ s.enables)) = 0 ∧
    u = { s with fcsr0 := u.fcsr0, draws := u.draws }

section
variable {s : State} {n : FpNeed} {e : BitVec 5} {fd : RegNum}

/-- The bits `set` of the raised exceptions that are not enabled are all that Flags can gain. -/
theorem flags_gain (old set : BitVec 5) : old &&& ~~~(old ||| set) = 0 := by
  rw [BitVec.not_or, ← BitVec.and_assoc, BitVec.and_not_self]
  exact BitVec.zero_and

theorem flags_gain_le (old m free : BitVec 5) : (old ||| (m &&& free)) &&& ~~~(old ||| m) = 0 := by
  apply BitVec.eq_of_getLsbD_eq
  intro i hi
  simp only [BitVec.getLsbD_and, BitVec.getLsbD_or, BitVec.getLsbD_not, hi, decide_true, Bool.true_and]
  cases old.getLsbD i <;> cases m.getLsbD i <;> simp

theorem takesFpTrap_fpFinish (h : ¬ NoTrap s e) (write : State → State) : TakesFpTrap s e (fpFinish s e write) := by
  obtain ⟨hcause, hflags, hrest⟩ :=
    fcsrRaise_fields s.fcsr0 e (e &&& ~~~s.enables &&& (s.free .trapFlags).extractLsb' 0 5)
  refine ⟨_, fpFinish_next.2 (.inl ⟨h, _, rfl, rfl⟩), hcause, hrest, ?_, ?_, rfl⟩
  · rw [State.drawn_fcsr0, hflags]
    exact flags_gain _ _
  · rw [State.drawn_fcsr0, hflags]
    exact flags_gain_le _ _ _

theorem takesFpTrap_retireW (hs : FpReady n s) (h : ¬ NoTrap s e) {v : FpResult} (hv : v.flags = e) :
    TakesFpTrap s e (fpInstr n s (fpRetireW s fd v)) := by
  subst hv
  rw [fpInstr_ready hs]
  exact takesFpTrap_fpFinish h _

theorem takesFpTrap_retireD (hs : FpReady n s) (h : ¬ NoTrap s e) {v : FpResult} (hv : v.flags = e) :
    TakesFpTrap s e (fpInstr n s (fpRetireD s fd v)) := by
  subst hv
  rw [fpInstr_ready hs]
  exact takesFpTrap_fpFinish h _

end

/-! ### What the spec leaves open raises nothing (logs 37, 38) -/

section
variable (f : FpFmt) (x y z : Nat)

theorem withNaN_flags_congr {ops : List Nat} {r r' : FpResult} (h : r.flags = r'.flags) :
    (f.withNaN ops r).flags = (f.withNaN ops r').flags := by
  unfold FpFmt.withNaN
  split
  · rfl
  · exact h

theorem pickNaN_flags_congr (p p' : Nat) : (f.pickNaN x y p).flags = (f.pickNaN x y p').flags := by
  unfold FpFmt.pickNaN
  split
  · exact withNaN_flags_congr f rfl
  · repeat' split
    all_goals rfl

theorem maxMin_flags_congr (larger z z' : Bool) : (f.maxMin larger z x y).flags = (f.maxMin larger z' x y).flags :=
  pickNaN_flags_congr f x y _ _

theorem maxMinMag_flags_congr (larger z z' : Bool) : (f.maxMinMag larger z x y).flags = (f.maxMinMag larger z' x y).flags :=
  pickNaN_flags_congr f x y _ _

theorem signNaN_flags (n : Bool) (r : FpResult) : (f.signNaN n r).flags = r.flags := by
  unfold FpFmt.signNaN
  split <;> rfl

theorem fmaNeg_flags_congr (env : FpEnv) (negZ negR n n' : Bool) :
    (f.fmaNeg env negZ negR n x y z).flags = (f.fmaNeg env negZ negR n' x y z).flags := by
  rw [FpFmt.fmaNeg, FpFmt.fmaNeg, signNaN_flags, signNaN_flags]

theorem toSint32_flags_congr (mode : RoundMode) (bad bad' : Word) :
    (f.toSint32 mode bad x).flags = (f.toSint32 mode bad' x).flags := by
  unfold FpFmt.toSint32
  simp only
  split <;> rfl

end

section
variable {s : State} {c : BitVec 5} {fj fk : RegNum}

theorem exec_fcmpS_of_ready (hc : fcmpDefined c = true) (hs : FpReady .single s) :
    ∃ write, exec (.fcmpS c 0 fj fk) s = fpFinish s (fp32.fcmpFlags c (s.single fj) (s.single fk)) write :=
  ⟨_, ((if_pos hc).trans (fpInstr_ready hs)).trans (withFlagField_zero _)⟩

theorem exec_fcmpD_of_ready (hc : fcmpDefined c = true) (hs : FpReady .double s) :
    ∃ write, exec (.fcmpD c 0 fj fk) s = fpFinish s (fp64.fcmpFlags c (s.double fj) (s.double fk)) write :=
  ⟨_, ((if_pos hc).trans (fpInstr_ready hs)).trans (withFlagField_zero _)⟩

end

theorem exec_takesFpTrap {i : Instr} {s : State} {need : FpNeed} {e : BitVec 5} (hi : fpRaised s i = some (need, e))
    (hs : FpReady need s) (he : ¬ NoTrap s e) : TakesFpTrap s e (exec i s) := by
  cases i with
  | faddS | fsubS | fmulS | fdivS | fmaddS | fsqrtS | frecipS | frsqrtS | fcvtSD | ffintSW =>
    cases hi; exact takesFpTrap_retireW hs he rfl
  | faddD | fsubD | fmulD | fdivD | fmaddD | fsqrtD | frecipD | frsqrtD | fcvtDS | ffintDW =>
    cases hi; exact takesFpTrap_retireD hs he rfl
  | fmaxS | fminS => cases hi; exact takesFpTrap_retireW hs he (maxMin_flags_congr ..)
  | fmaxD | fminD => cases hi; exact takesFpTrap_retireD hs he (maxMin_flags_congr ..)
  | fmaxaS | fminaS => cases hi; exact takesFpTrap_retireW hs he (maxMinMag_flags_congr ..)
  | fmaxaD | fminaD => cases hi; exact takesFpTrap_retireD hs he (maxMinMag_flags_congr ..)
  | fmsubS | fnmaddS | fnmsubS => cases hi; exact takesFpTrap_retireW hs he (fmaNeg_flags_congr ..)
  | fmsubD | fnmaddD | fnmsubD => cases hi; exact takesFpTrap_retireD hs he (fmaNeg_flags_congr ..)
  | ftintWS | ftintrmWS | ftintrpWS | ftintrzWS | ftintrneWS | ftintWD | ftintrmWD | ftintrpWD | ftintrzWD | ftintrneWD =>
    cases hi; exact takesFpTrap_retireW hs he (toSint32_flags_congr ..)
  | fcmpS =>
    obtain ⟨⟨hc, rfl⟩, hcase⟩ := Option.ite_none_right_eq_some.1 hi
    obtain ⟨rfl, rfl⟩ := Prod.mk.inj (Option.some.inj hcase)
    obtain ⟨write, hexec⟩ := exec_fcmpS_of_ready hc hs
    exact hexec ▸ takesFpTrap_fpFinish he write
  | fcmpD =>
    obtain ⟨⟨hc, rfl⟩, hcase⟩ := Option.ite_none_right_eq_some.1 hi
    obtain ⟨rfl, rfl⟩ := Prod.mk.inj (Option.some.inj hcase)
    obtain ⟨write, hexec⟩ := exec_fcmpD_of_ready hc hs
    exact hexec ▸ takesFpTrap_fpFinish he write
  | _ => cases hi

/-- Settles O37: what an instruction raises does not depend on what the spec leaves open, and every one ends in `fpFinish`. -/
theorem fpTraps : Obligations.FpTraps := fun _ _ _ _ => exec_takesFpTrap

end Sys2Proof.Machine

/-! PROOFS. The fields of floating-point patterns, NaN operands, classes and the order of numbers: FpNaNResults, FpOrder and
FclassVector (spec/45_fp_arith.md R410, R414, R436 to R443, R459, R460; spec/46_fp_cmp_cvt.md R470). -/

namespace Sys2Proof.Machine

namespace FpFmt

/-! ## What the proofs ask of a format -/

/-- A format with room for subnormals, normal numbers, and quiet and signalling NaNs. -/
structure Wide (f : FpFmt) : Prop where
  exp : 2 ≤ f.expBits
  frac : 2 ≤ f.fracBits

theorem wide_of_mem {f : FpFmt} (h : f ∈ [fp32, fp64]) : f.Wide := by
  simp only [List.mem_cons, List.not_mem_nil, or_false] at h
  rcases h with rfl | rfl
  · exact ⟨by decide, by decide⟩
  · exact ⟨by decide, by decide⟩

section
variable {f : FpFmt}

theorem expMax_add_one (f : FpFmt) : f.expMax + 1 = 2 ^ f.expBits := Nat.sub_add_cancel Nat.one_le_two_pow

theorem Wide.bias_pos (hf : f.Wide) : 1 ≤ f.bias := by
  have h : 2 ^ 1 ≤ 2 ^ (f.expBits - 1) := Nat.pow_le_pow_right (by decide) (by have := hf.exp; omega)
  unfold bias
  omega

theorem Wide.expMax_eq (hf : f.Wide) : f.expMax = 2 * f.bias + 1 := by
  have h : 2 ^ f.expBits = 2 * 2 ^ (f.expBits - 1) := by
    rw [← pow_succ', Nat.sub_add_cancel (by have := hf.exp; omega)]
  have := Nat.one_le_two_pow (n := f.expBits - 1)
  unfold expMax bias
  omega

theorem Wide.two_pow_fracBits (hf : f.Wide) : 2 ^ f.fracBits = 2 * 2 ^ (f.fracBits - 1) := by
  rw [← pow_succ', Nat.sub_add_cancel (by have := hf.frac; omega)]

theorem two_pow_signPos (f : FpFmt) : 2 ^ f.signPos = f.expMax * 2 ^ f.fracBits + 2 ^ f.fracBits := by
  rw [signPos, pow_add, ← expMax_add_one, Nat.add_one_mul]

theorem two_pow_fracBits_pos (f : FpFmt) : 0 < 2 ^ f.fracBits := by positivity

theorem two_pow_prec (f : FpFmt) : 2 ^ f.prec = 2 * 2 ^ f.fracBits := pow_succ' 2 f.fracBits

/-- The default QNaN as the statements spell it. -/
theorem Wide.defaultNaN_eq (hf : f.Wide) : f.defaultNaN = 2 ^ f.signPos - 2 ^ (f.fracBits - 1) := by
  rw [defaultNaN, two_pow_signPos]
  have := hf.two_pow_fracBits
  omega

theorem Wide.invalid_eq (hf : f.Wide) : f.invalid = ⟨2 ^ f.signPos - 2 ^ (f.fracBits - 1), 0x10⟩ := by
  rw [← hf.defaultNaN_eq]
  rfl

end

/-! ## A pattern is a sign and a magnitude -/

section
variable (f : FpFmt) (x : Nat)

theorem magnitude_lt : f.magnitude x < 2 ^ f.signPos := Nat.mod_lt _ (by positivity)

theorem expField_eq : f.expField x = f.magnitude x / 2 ^ f.fracBits := by
  rw [expField, magnitude, signPos, Nat.add_comm, pow_add, Nat.mod_mul_right_div_self]

theorem fracField_eq : f.fracField x = f.magnitude x % 2 ^ f.fracBits := by
  rw [fracField, magnitude, signPos, Nat.mod_mod_of_dvd x (pow_dvd_pow 2 (Nat.le_add_left _ _))]

theorem fracField_lt : f.fracField x < 2 ^ f.fracBits := Nat.mod_lt _ (by positivity)

theorem magnitude_eq : f.magnitude x = 2 ^ f.fracBits * f.expField x + f.fracField x := by
  rw [expField_eq, fracField_eq, Nat.div_add_mod]

theorem expField_le_expMax : f.expField x ≤ f.expMax := by
  have h : f.expField x < 2 ^ f.expBits := Nat.mod_lt _ (by positivity)
  have := f.expMax_add_one
  omega

theorem expField_lt_expMax_iff : f.expField x ≠ f.expMax ↔ f.magnitude x < f.expMax * 2 ^ f.fracBits := by
  rw [← Nat.div_lt_iff_lt_mul f.two_pow_fracBits_pos, ← expField_eq]
  have := f.expField_le_expMax x
  omega

theorem isInf_iff : f.isInf x = true ↔ f.magnitude x = f.expMax * 2 ^ f.fracBits := by
  rw [magnitude_eq, isInf, Bool.and_eq_true, beq_iff_eq, beq_iff_eq]
  constructor
  · rintro ⟨he, hm⟩
    rw [he, hm, Nat.mul_comm, Nat.add_zero]
  · intro h
    have he : f.expField x = f.expMax := by
      rw [expField_eq, magnitude_eq, h, Nat.mul_div_cancel _ f.two_pow_fracBits_pos]
    refine ⟨he, ?_⟩
    rw [he, Nat.mul_comm] at h
    omega

theorem isNaN_iff : f.isNaN x = true ↔ f.expMax * 2 ^ f.fracBits < f.magnitude x := by
  rw [isNaN, Bool.and_eq_true, beq_iff_eq, bne_iff_ne]
  constructor
  · rintro ⟨he, hm⟩
    rw [magnitude_eq, he, Nat.mul_comm]
    omega
  · intro h
    have he : f.expField x = f.expMax := by
      by_contra hne
      have := (f.expField_lt_expMax_iff x).1 hne
      omega
    refine ⟨he, ?_⟩
    rw [magnitude_eq, he, Nat.mul_comm] at h
    omega

theorem isZero_iff : f.isZero x = true ↔ f.magnitude x = 0 := beq_iff_eq

theorem isZero_iff_fields : f.isZero x = true ↔ f.expField x = 0 ∧ f.fracField x = 0 := by
  have := f.two_pow_fracBits_pos
  rw [isZero_iff, magnitude_eq]
  simp only [Nat.add_eq_zero_iff, Nat.mul_eq_zero]
  omega

/-- Every pattern is a NaN, an infinity or finite. -/
theorem magnitude_cases : f.isNaN x = true ∨ f.isInf x = true ∨ f.expField x ≠ f.expMax := by
  rw [isNaN_iff, isInf_iff, expField_lt_expMax_iff]
  omega

end

/-! ## Building a pattern -/

section
variable {f : FpFmt} {neg : Bool} {mag x : Nat}

theorem pattern_withSign (h : mag < 2 ^ f.signPos) : f.pattern (f.withSign neg mag) := by
  unfold pattern withSign
  rw [pow_succ]
  split <;> omega

theorem sign_withSign (h : mag < 2 ^ f.signPos) : f.sign (f.withSign neg mag) = neg := by
  cases neg with
  | false => exact Nat.testBit_lt_two_pow h
  | true =>
    rw [sign, withSign, if_pos rfl, Nat.add_comm, Nat.testBit_two_pow_add_eq, Nat.testBit_lt_two_pow h]
    rfl

theorem magnitude_withSign (h : mag < 2 ^ f.signPos) : f.magnitude (f.withSign neg mag) = mag := by
  unfold magnitude withSign
  split
  · rw [Nat.add_mod_right, Nat.mod_eq_of_lt h]
  · exact Nat.mod_eq_of_lt h

theorem withSign_sign_magnitude (h : f.pattern x) : f.withSign (f.sign x) (f.magnitude x) = x := by
  have hdiv : x / 2 ^ f.signPos < 2 := by
    rw [Nat.div_lt_iff_lt_mul (by positivity), ← pow_succ']
    exact h
  have hx := Nat.mod_add_div x (2 ^ f.signPos)
  rw [withSign, magnitude, sign, Nat.testBit_eq_decide_div_mod_eq, Nat.mod_eq_of_lt hdiv]
  interval_cases hq : x / 2 ^ f.signPos <;> simpa using hx

/-- A pattern is given by its sign and its magnitude. -/
theorem pattern_ext {y : Nat} (hx : f.pattern x) (hy : f.pattern y) (hs : f.sign x = f.sign y)
    (hm : f.magnitude x = f.magnitude y) : x = y := by
  rw [← withSign_sign_magnitude hx, ← withSign_sign_magnitude hy, hs, hm]

theorem inf_lt : f.expMax * 2 ^ f.fracBits < 2 ^ f.signPos := by
  have := f.two_pow_fracBits_pos
  rw [two_pow_signPos]
  omega

theorem isInf_of_IsInf (h : f.IsInf neg x) : f.isInf x = true := by
  obtain ⟨-, -, he, hm⟩ := h
  rw [isInf, he, hm]
  simp

theorem IsInf_of_isInf (hx : f.pattern x) (h : f.isInf x = true) : f.IsInf (f.sign x) x := by
  rw [isInf, Bool.and_eq_true, beq_iff_eq, beq_iff_eq] at h
  exact ⟨hx, rfl, h⟩

theorem IsInf_inf (f : FpFmt) (neg : Bool) : f.IsInf neg (f.inf neg) := by
  have h := IsInf_of_isInf (pattern_withSign inf_lt) ((f.isInf_iff _).2 (magnitude_withSign (neg := neg) inf_lt))
  rwa [sign_withSign inf_lt] at h

theorem IsZero_withSign (f : FpFmt) (neg : Bool) : f.IsZero neg (f.withSign neg 0) := by
  have h0 : 0 < 2 ^ f.signPos := by positivity
  exact ⟨pattern_withSign h0, sign_withSign h0, (f.isZero_iff_fields _).1 ((f.isZero_iff _).2 (magnitude_withSign h0))⟩

theorem IsMaxFinite_maxFinite (hf : f.Wide) (neg : Bool) : f.IsMaxFinite neg (f.maxFinite neg) := by
  have hpos := f.two_pow_fracBits_pos
  have hlt : f.expMax * 2 ^ f.fracBits - 1 < 2 ^ f.signPos := lt_of_le_of_lt (Nat.sub_le _ _) inf_lt
  have hsplit : f.expMax * 2 ^ f.fracBits - 1 = (2 ^ f.fracBits - 1) + 2 ^ f.fracBits * (f.expMax - 1) := by
    rw [hf.expMax_eq, Nat.add_sub_cancel, Nat.add_one_mul, Nat.mul_comm (2 ^ _)]
    omega
  refine ⟨pattern_withSign hlt, sign_withSign hlt, ?_, ?_⟩
  · rw [expField_eq, maxFinite, magnitude_withSign hlt, hsplit, Nat.add_mul_div_left _ _ hpos,
      Nat.div_eq_of_lt (by omega), Nat.zero_add]
  · rw [fracField_eq, maxFinite, magnitude_withSign hlt, hsplit, Nat.add_mul_mod_self_left, Nat.mod_eq_of_lt (by omega)]

/-! ## The sign inverted -/

theorem magnitude_flip (f : FpFmt) (x : Nat) : f.magnitude (x ^^^ 2 ^ f.signPos) = f.magnitude x := by
  rw [magnitude, Nat.xor_mod_two_pow, Nat.mod_self, Nat.xor_zero, magnitude]

theorem sign_flip (f : FpFmt) (x : Nat) : f.sign (x ^^^ 2 ^ f.signPos) = !f.sign x := by
  rw [sign, Nat.testBit_xor, Nat.testBit_two_pow_self, Bool.xor_true, sign]

theorem pattern_flip (h : f.pattern x) : f.pattern (x ^^^ 2 ^ f.signPos) :=
  Nat.xor_lt_two_pow h (Nat.pow_lt_pow_right (by decide) (Nat.lt_succ_self _))

/-- The model's negation, as the statements spell it. -/
theorem negate_eq_flip (h : f.pattern x) : f.negate x = x ^^^ 2 ^ f.signPos := by
  have hm := f.magnitude_lt x
  refine pattern_ext (pattern_withSign hm) (pattern_flip h) ?_ ?_
  · rw [sign_flip, negate, sign_withSign hm]
  · rw [magnitude_flip, negate, magnitude_withSign hm]

end

/-! ## NaN operands (R414) -/

theorem or_two_pow_eq_add {x k : Nat} (h : x.testBit k = false) : x ||| 2 ^ k = x + 2 ^ k := by
  have hlow : x % 2 ^ (k + 1) < 2 ^ k := by
    by_contra hge
    have hbit := Nat.testBit_of_two_pow_le_and_two_pow_add_one_gt (Nat.le_of_not_lt hge) (Nat.mod_lt x (by positivity))
    rw [Nat.testBit_mod_two_pow, h, Bool.and_false] at hbit
    cases hbit
  have hk : 2 ^ k < 2 ^ (k + 1) := Nat.pow_lt_pow_right (by decide) (by omega)
  have hdiv : (x ||| 2 ^ k) / 2 ^ (k + 1) = x / 2 ^ (k + 1) := by
    rw [Nat.or_div_two_pow, Nat.div_eq_of_lt hk, Nat.or_zero]
  have hmod : (x ||| 2 ^ k) % 2 ^ (k + 1) = x % 2 ^ (k + 1) + 2 ^ k := by
    rw [Nat.or_mod_two_pow, Nat.mod_eq_of_lt hk, Nat.or_two_pow_eq_add_of_lt hlow]
  rw [← Nat.div_add_mod (x ||| 2 ^ k) (2 ^ (k + 1)), hdiv, hmod, ← Nat.add_assoc, Nat.div_add_mod]

section
variable {f : FpFmt} {x y z : Nat}

/-- A signalling NaN made quiet has its top fraction bit set. -/
theorem quieten_of_not_quiet (h : f.isQuiet x = false) : f.quieten x = x ||| 2 ^ (f.fracBits - 1) := by
  rw [quieten, h, or_two_pow_eq_add h]
  rfl

theorem isSNaN_of_not_isNaN (h : f.isNaN x = false) : f.isSNaN x = false := by rw [isSNaN, h, Bool.false_and]

theorem isNaN_of_isSNaN (h : f.isSNaN x = true) : f.isNaN x = true := (Bool.and_eq_true_iff.1 h).1

theorem isQuiet_of_isSNaN (h : f.isSNaN x = true) : f.isQuiet x = false := by
  simpa using (Bool.and_eq_true_iff.1 h).2

theorem isQNaN_eq_isNaN (h : f.isSNaN x = false) : f.isQNaN x = f.isNaN x := by
  unfold isSNaN at h
  unfold isQNaN
  cases hn : f.isNaN x <;> simp_all

/-- What an operation answers for NaN operands, in the order of their priority: the first SNaN made quiet, with V; else the first
QNaN, with no exception (R414). -/
theorem withNaN_of_snan {ops : List Nat} (hfirst : ops.find? f.isSNaN = some x) (r : FpResult) :
    f.withNaN ops r = ⟨x ||| 2 ^ (f.fracBits - 1), 0x10⟩ := by
  have hx : f.isSNaN x = true := List.find?_some hfirst
  have hany : ops.any f.isSNaN = true := List.any_eq_true.2 ⟨x, List.mem_of_find?_eq_some hfirst, hx⟩
  rw [withNaN, nanSource, hfirst, snanFlag, hany, ← quieten_of_not_quiet (isQuiet_of_isSNaN hx)]
  rfl

theorem withNaN_of_qnan {ops : List Nat} (hnone : ∀ w ∈ ops, f.isSNaN w = false) (hfirst : ops.find? f.isNaN = some x)
    (r : FpResult) : f.withNaN ops r = ⟨x, 0⟩ := by
  have hs : ops.find? f.isSNaN = none := List.find?_eq_none.2 fun w hw => by simp [hnone w hw]
  have hany : ops.any f.isSNaN = false := List.any_eq_false.2 fun w hw => by simp [hnone w hw]
  have hq : ops.find? f.isQNaN = some x := by
    rw [← hfirst]
    exact List.find?_congr fun w hw => isQNaN_eq_isNaN (hnone w hw)
  have hquiet : f.isQuiet x = true := (Bool.and_eq_true_iff.1 (List.find?_some hq : f.isQNaN x = true)).2
  have hkept : f.quieten x = x := if_pos hquiet
  simp only [withNaN, nanSource, hs, hq, snanFlag, hany, hkept]
  rfl

theorem withNaN_of_numbers {ops : List Nat} (h : ∀ w ∈ ops, f.isNaN w = false) (r : FpResult) : f.withNaN ops r = r := by
  have hs : ops.find? f.isSNaN = none := List.find?_eq_none.2 fun w hw => by simp [isSNaN_of_not_isNaN (h w hw)]
  have hq : ops.find? f.isQNaN = none := List.find?_eq_none.2 fun w hw => by
    simp [isQNaN_eq_isNaN (isSNaN_of_not_isNaN (h w hw)), h w hw]
  rw [withNaN, nanSource, hs, hq]

/-- The NaN result of two operands. -/
theorem withNaN_pair (f : FpFmt) (x y : Nat) (r : FpResult) :
    let quiet := fun w : Nat => w ||| 2 ^ (f.fracBits - 1)
    (f.isSNaN x = true → f.withNaN [x, y] r = ⟨quiet x, 0x10⟩) ∧
    (f.isSNaN x = false → f.isSNaN y = true → f.withNaN [x, y] r = ⟨quiet y, 0x10⟩) ∧
    (f.isSNaN x = false → f.isSNaN y = false → f.isNaN x = true → f.withNaN [x, y] r = ⟨x, 0⟩) ∧
    (f.isNaN x = false → f.isSNaN y = false → f.isNaN y = true → f.withNaN [x, y] r = ⟨y, 0⟩) := by
  refine ⟨fun hx => withNaN_of_snan ?_ r, fun hx hy => withNaN_of_snan ?_ r, fun hx hy hn => withNaN_of_qnan ?_ ?_ r,
    fun hx hy hn => withNaN_of_qnan ?_ ?_ r⟩
  · simp [hx]
  · simp [hx, hy]
  · simp [hx, hy]
  · simp [hn]
  · simp [isSNaN_of_not_isNaN hx, hy]
  · simp [hx, hn]

end

end FpFmt

/-- Settles O41: every operation answers for NaN operands through `withNaN`. -/
theorem fpNaNResults : Obligations.FpNaNResults := by
  intro f _ env x y z
  refine ⟨fun op hop => ?pair, fun hz => ?_, fun hz hx => ?_, fun hz hx hy => ?_, fun hz hx hy =>
    ⟨fun hn => ?_, fun hnz hn => ?_, fun hnz hnx hn => ?_⟩⟩
  case pair =>
    simp only [List.mem_cons, List.not_mem_nil, or_false] at hop
    rcases hop with rfl | rfl | rfl | rfl
    all_goals exact FpFmt.withNaN_pair f x y _
  · exact FpFmt.withNaN_of_snan (by simp [hz]) _
  · exact FpFmt.withNaN_of_snan (by simp [hz, hx]) _
  · exact FpFmt.withNaN_of_snan (by simp [hz, hx, hy]) _
  · exact FpFmt.withNaN_of_qnan (by simp [hz, hx, hy]) (by simp [hn]) _
  · exact FpFmt.withNaN_of_qnan (by simp [hz, hx, hy]) (by simp [hnz, hn]) _
  · exact FpFmt.withNaN_of_qnan (by simp [hz, hx, hy]) (by simp [hnz, hnx, hn]) _

/-! ## Classes (R460) -/

namespace FpFmt

/-- The number of the bit of a pattern's class: SNaN and QNaN, then infinity, normal, subnormal and zero of each sign. -/
def classBit (f : FpFmt) (x : Nat) : Nat :=
  if f.expField x = f.expMax ∧ f.fracField x ≠ 0 then (if x.testBit (f.fracBits - 1) then 1 else 0)
  else (if f.sign x then 2 else 6) +
    (if f.expField x = f.expMax then 0 else if f.expField x ≠ 0 then 1 else if f.fracField x ≠ 0 then 2 else 3)

theorem classify_eq (f : FpFmt) (x : Nat) : f.classify x = 2 ^ f.classBit x := by
  unfold classify classBit isSNaN isQNaN isNaN isInf isQuiet
  by_cases he : f.expField x = f.expMax <;> by_cases hm : f.fracField x = 0
  · simp [he, hm]
  · cases hq : x.testBit (f.fracBits - 1) <;> simp [he, hm]
  · simp [he, hm]
    split <;> rfl
  · simp [he, hm]
    split <;> rfl

theorem classBit_lt (f : FpFmt) (x : Nat) : f.classBit x < 10 := by
  unfold classBit
  repeat' split
  all_goals omega

end FpFmt

/-- Settles O45: the class vector is the power of two of the class's bit. -/
theorem fclassVector : Obligations.FclassVector := by
  intro f hf x
  have hmax : f.expMax ≠ 0 := by
    rw [(FpFmt.wide_of_mem hf).expMax_eq]
    omega
  simp only [FpFmt.classify_eq, Nat.testBit_two_pow, ← and_assoc]
  refine ⟨?bits, _, f.classBit_lt x, rfl⟩
  unfold FpFmt.classBit
  generalize f.expField x = e, f.fracField x = m, f.sign x = neg, x.testBit (f.fracBits - 1) = quiet
  by_cases he : e = f.expMax
  case pos =>
    by_cases hm : m = 0
    case pos => cases neg <;> simp [he, hm, hmax]
    case neg => cases quiet <;> simp [he, hm, hmax]
  case neg =>
    by_cases h0 : e = 0
    case neg => cases neg <;> simp [he, h0]
    case pos =>
      by_cases hm : m = 0
      case pos => cases neg <;> simp [h0, hm, hmax.symm]
      case neg => cases neg <;> simp [h0, hm, hmax.symm]

/-! ## Order (R470) -/

theorem signedInt_lt_iff {s t : Bool} {a b c d : Nat} (hlt : a < b ↔ c < d) (hgt : b < a ↔ d < c) (ha : a = 0 ↔ c = 0)
    (hb : b = 0 ↔ d = 0) : signedInt s a < signedInt t b ↔ signedInt s c < signedInt t d := by
  cases s <;> cases t <;> simp [signedInt] <;> omega

theorem natAbs_signedInt (s : Bool) (a : Nat) : (signedInt s a).natAbs = a := by cases s <;> simp [signedInt]

namespace FpFmt

section
variable (f : FpFmt) (x y : Nat)

/-- The magnitude of a pattern in units of the last place of a subnormal; an infinity's is beyond every finite one's. -/
def scaled : Nat := f.significand x * 2 ^ (max 1 (f.expField x) - 1)

variable {f x y}

theorem significand_lt_two_pow_prec : f.significand x < 2 ^ f.prec := by
  have := f.fracField_lt x
  rw [significand, two_pow_prec]
  split <;> omega

theorem scaled_lt : f.scaled x < 2 ^ f.expField x * 2 ^ f.fracBits := by
  have hm := f.fracField_lt x
  unfold scaled significand
  cases he : f.expField x with
  | zero => simpa using hm
  | succ e =>
    rw [if_neg (by omega), Nat.max_eq_right (by omega), Nat.add_sub_cancel, pow_succ', Nat.mul_right_comm]
    exact Nat.mul_lt_mul_of_pos_right (by omega) (by positivity)

theorem le_scaled (h : f.expField x ≠ 0) : 2 ^ (f.expField x - 1) * 2 ^ f.fracBits ≤ f.scaled x := by
  rw [scaled, significand, if_neg h, Nat.max_eq_right (by omega), Nat.mul_comm]
  exact Nat.mul_le_mul_right _ (by omega)

theorem scaled_congr (h : f.magnitude x = f.magnitude y) : f.scaled x = f.scaled y := by
  simp only [scaled, significand, expField_eq, fracField_eq, h]

theorem scaled_strictMono (h : f.magnitude x < f.magnitude y) : f.scaled x < f.scaled y := by
  rcases Nat.lt_trichotomy (f.expField x) (f.expField y) with he | he | he
  case inl =>
    calc f.scaled x < 2 ^ f.expField x * 2 ^ f.fracBits := scaled_lt
      _ ≤ 2 ^ (f.expField y - 1) * 2 ^ f.fracBits :=
        Nat.mul_le_mul_right _ (Nat.pow_le_pow_right (by decide) (by omega))
      _ ≤ f.scaled y := le_scaled (by omega)
  case inr.inl =>
    have hm : f.fracField x < f.fracField y := by
      rw [magnitude_eq, magnitude_eq, he] at h
      omega
    rw [scaled, scaled, he]
    refine Nat.mul_lt_mul_of_pos_right ?_ (by positivity)
    rw [significand, significand, he]
    split <;> omega
  case inr.inr =>
    have hle : f.magnitude y ≤ f.magnitude x := by
      by_contra hlt
      have := Nat.div_le_div_right (c := 2 ^ f.fracBits) h.le
      rw [← expField_eq, ← expField_eq] at this
      omega
    omega

theorem scaled_lt_iff : f.scaled x < f.scaled y ↔ f.magnitude x < f.magnitude y := by
  rcases Nat.lt_trichotomy (f.magnitude x) (f.magnitude y) with h | h | h
  · exact iff_of_true (scaled_strictMono h) h
  · have := scaled_congr h
    omega
  · have := scaled_strictMono h
    omega

theorem scaled_eq_zero_iff : f.scaled x = 0 ↔ f.magnitude x = 0 := by
  have h0 : f.scaled 0 = 0 := by simp [scaled, significand, expField, fracField]
  have hm0 : f.magnitude 0 = 0 := Nat.zero_mod _
  have h := scaled_lt_iff (f := f) (x := 0) (y := x)
  omega

/-- The order of values is that of the signed magnitudes. -/
theorem signed_scaled_lt_iff : signedInt (f.sign x) (f.scaled x) < signedInt (f.sign y) (f.scaled y) ↔ f.ordKey x < f.ordKey y :=
  signedInt_lt_iff scaled_lt_iff scaled_lt_iff scaled_eq_zero_iff scaled_eq_zero_iff

theorem relate_of_isNaN (h : f.isNaN x = true ∨ f.isNaN y = true) : f.relate x y = .un :=
  if_pos (Bool.or_eq_true_iff.2 h)

section
variable (hx : f.isNaN x = false) (hy : f.isNaN y = false)
include hx hy

theorem relate_of_numbers :
    f.relate x y = if f.ordKey x < f.ordKey y then .lt else if f.ordKey y < f.ordKey x then .gt else .eq := by
  rw [relate, hx, hy]
  rfl

theorem relate_eq_lt_iff : f.relate x y = .lt ↔ f.ordKey x < f.ordKey y := by
  rw [relate_of_numbers hx hy]
  split
  · simp [*]
  · split <;> simp [*]

theorem relate_eq_gt_iff : f.relate x y = .gt ↔ f.ordKey y < f.ordKey x := by
  rw [relate_of_numbers hx hy]
  split
  · simp [not_lt_of_gt ‹_›]
  · split <;> simp [*]

theorem relate_eq_eq_iff : f.relate x y = .eq ↔ f.ordKey x = f.ordKey y := by
  rw [relate_of_numbers hx hy]
  repeat' split
  all_goals simp_all
  all_goals omega

theorem relate_swap {r : FpRel} (hr : r = .lt ∨ r = .gt) :
    f.relate y x = r ↔ f.relate x y = if r = .lt then .gt else .lt := by
  rcases hr with rfl | rfl
  · rw [relate_eq_lt_iff hy hx, if_pos rfl, relate_eq_gt_iff hx hy]
  · rw [relate_eq_gt_iff hy hx, if_neg (by decide), relate_eq_lt_iff hx hy]

/-- The two of opposite sign that compare equal are zeros. -/
theorem isZero_of_relate_eq (h : f.relate x y = .eq) (hs : f.sign x ≠ f.sign y) : f.isZero x = true := by
  rw [relate_eq_eq_iff hx hy, ordKey, ordKey, signedInt, signedInt] at h
  rw [isZero_iff]
  cases hsx : f.sign x <;> cases hsy : f.sign y <;> simp_all

end

/-! ## FMAX and FMIN (R459) -/

theorem pickNaN_of_numbers (hx : f.isNaN x = false) (hy : f.isNaN y = false) (p : Nat) : f.pickNaN x y p = ⟨p, 0⟩ := by
  rw [pickNaN, isSNaN_of_not_isNaN hx, isSNaN_of_not_isNaN hy, isQNaN_eq_isNaN (isSNaN_of_not_isNaN hx),
    isQNaN_eq_isNaN (isSNaN_of_not_isNaN hy), hx, hy]
  rfl

/-- The NaN cases of FMAX and FMIN: an SNaN is given back quiet, a lone QNaN gives way to the number. -/
theorem pickNaN_of_isNaN (f : FpFmt) (x y p : Nat) :
    let quiet := fun w : Nat => w ||| 2 ^ (f.fracBits - 1)
    (f.isSNaN x = true → f.pickNaN x y p = ⟨quiet x, 0x10⟩) ∧
    (f.isSNaN x = false → f.isSNaN y = true → f.pickNaN x y p = ⟨quiet y, 0x10⟩) ∧
    (f.isSNaN x = false → f.isSNaN y = false → f.isNaN x = true → f.pickNaN x y p = ⟨if f.isNaN y then x else y, 0⟩) ∧
    (f.isNaN x = false → f.isSNaN y = false → f.isNaN y = true → f.pickNaN x y p = ⟨x, 0⟩) := by
  obtain ⟨hfirst, hsecond, -, -⟩ := withNaN_pair f x y ⟨p, 0⟩
  unfold pickNaN
  refine ⟨fun hx => ?_, fun hx hy => ?_, fun hx hy hn => ?_, fun hx hy hn => ?_⟩
  · rw [hx, Bool.true_or, if_pos rfl, hfirst hx]
  · rw [hx, hy, Bool.false_or, if_pos rfl, hsecond hx hy]
  · rw [isQNaN_eq_isNaN hx, isQNaN_eq_isNaN hy, hx, hy, hn]
    cases f.isNaN y <;> rfl
  · rw [isQNaN_eq_isNaN (isSNaN_of_not_isNaN hx), isQNaN_eq_isNaN hy, isSNaN_of_not_isNaN hx, hx, hy, hn]
    rfl

/-- The operand picked is the one the relation says; of zeros of opposite sign it is a zero of the open sign. -/
theorem pick_by_relation (hx : f.isNaN x = false) (hy : f.isNaN y = false) (larger z : Bool) :
    let better := if larger then FpRel.gt else FpRel.lt
    (f.relate x y = better → f.pick larger z x y = x) ∧ (f.relate y x = better → f.pick larger z x y = y) ∧
      (f.relate x y = .eq → if f.sign x = f.sign y then f.pick larger z x y = x else f.IsZero z (f.pick larger z x y)) := by
  have hbetter : ∀ b : Bool, (if b then FpRel.gt else FpRel.lt) = .lt ∨ (if b then FpRel.gt else FpRel.lt) = .gt := by decide
  refine ⟨fun h => ?_, fun h => ?_, fun h => ?_⟩
  · rw [pick, h]
    cases larger <;> rfl
  · rw [pick, (relate_swap hx hy (hbetter larger)).1 h]
    cases larger <;> rfl
  · rw [pick, h]
    by_cases hs : f.sign x = f.sign y
    · simp [hs]
    · rw [if_neg hs, isZero_of_relate_eq hx hy h hs]
      simpa [hs] using IsZero_withSign f z

end

end FpFmt

/-- Settles O40: the model compares signed magnitudes, which are ordered as the values are. -/
theorem fpOrder : Obligations.FpOrder := by
  intro f hf x y value quiet
  have hvalue : ∀ w, value w = signedInt (f.sign w) (f.scaled w) := by
    intro w
    simp only [value, signedInt, FpFmt.scaled]
    cases f.sign w <;> simp
  have habs : ∀ w, |value w| = f.scaled w := by
    intro w
    rw [hvalue, Int.abs_eq_natAbs, natAbs_signedInt]
  refine ⟨FpFmt.relate_of_isNaN, fun hx hy => ⟨fun z hz hfin => ⟨?_, ?_⟩, ?_, ?_, ?_⟩, fun larger z hpx hpy => ?pick⟩
  · rw [habs, hvalue, signedInt]
    cases f.sign z <;> simp
  · rw [habs, habs, Int.ofNat_lt, FpFmt.scaled_lt_iff, (f.isInf_iff z).1 hz]
    exact (f.expField_lt_expMax_iff y).1 hfin
  · rw [FpFmt.relate_eq_lt_iff hx hy, hvalue, hvalue, FpFmt.signed_scaled_lt_iff]
  · have hlt := FpFmt.signed_scaled_lt_iff (f := f) (x := x) (y := y)
    have hgt := FpFmt.signed_scaled_lt_iff (f := f) (x := y) (y := x)
    rw [FpFmt.relate_eq_eq_iff hx hy, hvalue, hvalue]
    omega
  · rw [FpFmt.relate_eq_gt_iff hx hy, hvalue, hvalue, FpFmt.signed_scaled_lt_iff]
  case pick =>
    refine ⟨fun hx hy => ⟨⟨?_, ?_⟩, fun hlt => ?_, fun hgt => ?_, fun heq => ⟨?_, ?_⟩⟩, fun r hr => ?nan⟩
    · rw [FpFmt.maxMin, FpFmt.pickNaN_of_numbers hx hy]
    · rw [FpFmt.maxMin, FpFmt.pickNaN_of_numbers hx hy]
      exact FpFmt.pick_by_relation hx hy larger z
    · rw [FpFmt.maxMinMag, FpFmt.pickNaN_of_numbers hx hy, if_pos hlt]
    · rw [FpFmt.maxMinMag, FpFmt.pickNaN_of_numbers hx hy, if_neg hgt.not_gt, if_pos hgt]
    · rw [FpFmt.maxMinMag, FpFmt.pickNaN_of_numbers hx hy]
    · rw [FpFmt.maxMinMag, FpFmt.pickNaN_of_numbers hx hy, if_neg heq.not_lt, if_neg heq.not_gt]
      exact FpFmt.pick_by_relation hx hy larger z
    case nan =>
      simp only [List.mem_cons, List.not_mem_nil, or_false] at hr
      rcases hr with rfl | rfl
      · exact f.pickNaN_of_isNaN x y _
      · exact f.pickNaN_of_isNaN x y _

end Sys2Proof.Machine

/-! PROOFS. Rounding once: FpRounding and FpExactResults (spec/45_fp_arith.md R410, R413, R415, R417 to R419). -/

namespace Sys2Proof.Machine

/-! ## The multiple a magnitude rounds to (R413) -/

theorem two_zpow_pos (q : ℤ) : (0 : ℝ) < 2 ^ q := zpow_pos two_pos q

theorem two_pow_toNat_mul {p q : ℤ} (h : q ≤ p) : (2 : ℝ) ^ (p - q).toNat * 2 ^ q = 2 ^ p := by
  rw [← zpow_natCast, ← zpow_add₀ two_ne_zero, Int.toNat_of_nonneg (by omega), Int.sub_add_cancel]

theorem two_zpow_le {p q : ℤ} (h : p ≤ q) : (2 : ℝ) ^ p ≤ 2 ^ q := zpow_le_zpow_right₀ one_le_two h

theorem two_zpow_add_one (q : ℤ) : (2 : ℝ) ^ (q + 1) = 2 * 2 ^ q := by rw [zpow_add_one₀ two_ne_zero, mul_comm]

/-- To nearest, toward zero, or away from it: what a mode does to a magnitude of a sign (R413). -/
theorem RoundMode.cases_direction {P : RoundMode → Bool → Prop} (nearest : ∀ neg, P .rne neg)
    (toward : (∀ neg, P .rz neg) ∧ P .rp true ∧ P .rm false) (away : P .rp false ∧ P .rm true) (mode : RoundMode) (neg : Bool) :
    P mode neg := by
  obtain ⟨hrz, hrp, hrm⟩ := toward
  obtain ⟨hrp', hrm'⟩ := away
  cases mode with
  | rne => exact nearest neg
  | rz => exact hrz neg
  | rp => cases neg with
    | true => exact hrp
    | false => exact hrp'
  | rm => cases neg with
    | true => exact hrm'
    | false => exact hrm

section
variable {mode : RoundMode} {neg up : Bool} {a u ρ : ℝ} {n : Nat}

/-- The multiple is less than one unit away, in every mode. -/
theorem RoundedAt.bounds (h : RoundedAt mode neg a u n) (hu : 0 < u) : a - u < n * u ∧ n * u < a + u := by
  have hnear : 2 * |a - n * u| ≤ u ∧ (2 * |a - n * u| = u → n % 2 = 0) → a - u < n * u ∧ n * u < a + u := by
    rintro ⟨hd, -⟩
    have := abs_lt.1 (show |a - n * u| < u by linarith)
    constructor <;> linarith
  have hdown : n * u ≤ a ∧ a < (n + 1) * u → a - u < n * u ∧ n * u < a + u := by
    rintro ⟨hle, hlt⟩
    constructor <;> linarith
  have haway : a ≤ n * u ∧ n * u < a + u → a - u < n * u ∧ n * u < a + u := by
    rintro ⟨hle, hlt⟩
    constructor <;> linarith
  revert h
  exact mode.cases_direction (P := fun mode neg => RoundedAt mode neg a u n → a - u < n * u ∧ n * u < a + u)
    (fun _ => hnear) ⟨fun _ => hdown, hdown, hdown⟩ ⟨haway, haway⟩ neg

theorem RoundedAt.le_of_le (h : RoundedAt mode neg a u n) (hu : 0 < u) {k : Nat} (hk : k * u ≤ a) : k ≤ n := by
  have hlt : ((k : ℝ) - 1) * u < n * u := by linarith [(h.bounds hu).1]
  have : (k : ℝ) < n + 1 := by linarith [lt_of_mul_lt_mul_right hlt hu.le]
  exact_mod_cast Nat.lt_succ_iff.1 (by exact_mod_cast this)

theorem RoundedAt.ge_of_ge (h : RoundedAt mode neg a u n) (hu : 0 < u) {k : Nat} (hk : a ≤ k * u) : n ≤ k := by
  have hlt : (n : ℝ) * u < (k + 1) * u := by linarith [(h.bounds hu).2]
  have : (n : ℝ) < k + 1 := lt_of_mul_lt_mul_right hlt hu.le
  exact Nat.lt_succ_iff.1 (by exact_mod_cast this)

/-- A multiple of the unit rounds to itself. -/
theorem roundedAt_self (hu : 0 < u) : RoundedAt mode neg (n * u) u n := by
  have hnear : 2 * |n * u - n * u| ≤ u ∧ (2 * |n * u - n * u| = u → n % 2 = 0) := by
    rw [sub_self, abs_zero, mul_zero]
    exact ⟨hu.le, fun h => absurd h hu.ne⟩
  have hdown : n * u ≤ n * u ∧ n * u < (n + 1) * u := ⟨le_rfl, by linarith⟩
  have haway : n * u ≤ n * u ∧ n * u < n * u + u := ⟨le_rfl, by linarith⟩
  exact mode.cases_direction (P := fun mode neg => RoundedAt mode neg (n * u) u n) (fun _ => hnear)
    ⟨fun _ => hdown, hdown, hdown⟩ ⟨haway, haway⟩ neg

/-- What is cut off decides exactness. -/
theorem RoundedAt.eq_iff {k : Nat} (h : RoundedAt mode neg (n * u + ρ) u k) (h0 : 0 ≤ ρ) (hlt : ρ < u) :
    n * u + ρ = k * u ↔ ρ = 0 := by
  have hu : 0 < u := h0.trans_lt hlt
  constructor
  · intro heq
    have hle : n ≤ k := h.le_of_le hu (by linarith)
    have hlt' : (k : ℝ) < n + 1 := lt_of_mul_lt_mul_right (by linarith : (k : ℝ) * u < (n + 1) * u) hu.le
    have hk : k < n + 1 := by exact_mod_cast hlt'
    obtain rfl : n = k := by omega
    linarith
  · rintro rfl
    obtain rfl : n = k := le_antisymm (h.le_of_le hu (by linarith)) (h.ge_of_ge hu (by linarith))
    exact add_zero _

/-! A magnitude `n * u + ρ` with `0 ≤ ρ < u` rounds to `n` or `n + 1`. -/

section
variable (h0 : 0 ≤ ρ) (hlt : ρ < u)
include h0 hlt

theorem roundedAt_nearest (hup : up = true ↔ u < 2 * ρ ∨ 2 * ρ = u ∧ n % 2 = 1) :
    RoundedAt .rne neg (n * u + ρ) u (if up then n + 1 else n) := by
  have hrne : ∀ k, RoundedAt .rne neg (n * u + ρ) u k ↔
      2 * |n * u + ρ - k * u| ≤ u ∧ (2 * |n * u + ρ - k * u| = u → k % 2 = 0) := fun _ => Iff.rfl
  rw [hrne]
  cases up with
  | true =>
    have hdist : |n * u + ρ - (n + 1 : Nat) * u| = u - ρ := by
      rw [abs_sub_comm, abs_of_nonneg] <;> push_cast <;> linarith
    rw [if_pos rfl, hdist]
    rcases hup.1 rfl with hgt | ⟨heq, hodd⟩
    · exact ⟨by linarith, fun h => by linarith⟩
    · exact ⟨by linarith, fun _ => by omega⟩
  | false =>
    have hdist : |n * u + ρ - n * u| = ρ := by rw [add_sub_cancel_left, abs_of_nonneg h0]
    have hno : ¬ (u < 2 * ρ ∨ 2 * ρ = u ∧ n % 2 = 1) := fun h => Bool.false_ne_true (hup.2 h)
    rw [if_neg Bool.false_ne_true, hdist]
    refine ⟨not_lt.1 fun h => hno (.inl h), fun h => ?_⟩
    by_contra hodd
    exact hno (.inr ⟨h, by omega⟩)

theorem truncated_bounds : n * u ≤ n * u + ρ ∧ n * u + ρ < (n + 1) * u := ⟨by linarith, by linarith⟩

theorem away_bounds (hup : up = true ↔ 0 < ρ) :
    n * u + ρ ≤ (if up then n + 1 else n : Nat) * u ∧ (if up then n + 1 else n : Nat) * u < n * u + ρ + u := by
  cases up with
  | true =>
    have hpos := hup.1 rfl
    rw [if_pos rfl]
    push_cast
    constructor <;> linarith
  | false =>
    have hzero : ρ = 0 := le_antisymm (not_lt.1 fun h => Bool.false_ne_true (hup.2 h)) h0
    rw [if_neg Bool.false_ne_true]
    constructor <;> linarith

end

end

/-! ## What an exact value stands for -/

/-- `α` is `m`, or a little more when `sticky`, by less than 1. -/
def Within (sticky : Bool) (m : Nat) (α : ℝ) : Prop := if sticky then (m : ℝ) < α ∧ α < m + 1 else α = m

/-- The magnitude `a` is one `x` stands for. -/
def Exact.HasMagnitude (x : Exact) (a : ℝ) : Prop := ∃ α, a = α * 2 ^ x.e ∧ Within x.sticky x.m α

section
variable {sticky : Bool} {m n r : Nat} {α : ℝ}

theorem Within.bounds (h : Within sticky m α) : (m : ℝ) ≤ α ∧ α < m + 1 := by
  unfold Within at h
  split at h
  · exact ⟨h.1.le, h.2⟩
  · exact ⟨h.ge, by linarith⟩

/-- The part of `α` above a whole number below it. -/
theorem Within.sub (h : Within sticky (n + r) α) : Within sticky r (α - n) := by
  unfold Within at h ⊢
  push_cast at h
  cases sticky with
  | true => exact ⟨by linarith [h.1], by linarith [h.2]⟩
  | false =>
    have hα : α = n + r := h
    simp [hα]

theorem Within.pos_iff (h : Within sticky r α) : (r != 0 || sticky) = true ↔ 0 < α := by
  unfold Within at h
  cases sticky with
  | true =>
    have : (0 : ℝ) ≤ r := r.cast_nonneg
    simp only [Bool.or_true, true_iff]
    linarith [h.1]
  | false =>
    have hα : α = r := h
    simp [hα, Nat.pos_iff_ne_zero]

/-- Half an even number is compared exactly, although `α` is known to 1 only. -/
theorem Within.half_lt_iff (h : Within sticky r α) {D : Nat} (hD : D % 2 = 0) :
    (D : ℝ) < 2 * α ↔ D < 2 * r ∨ 2 * r = D ∧ sticky = true := by
  unfold Within at h
  cases sticky with
  | true =>
    obtain ⟨hlo, hhi⟩ : (r : ℝ) < α ∧ α < r + 1 := h
    simp only [and_true]
    rw [show (D < 2 * r ∨ 2 * r = D) ↔ D ≤ 2 * r by omega]
    constructor
    · intro hlt
      have : (D : ℝ) < (2 * r + 2 : Nat) := by push_cast; linarith
      have : D < 2 * r + 2 := by exact_mod_cast this
      omega
    · intro hle
      have : (D : ℝ) ≤ (2 * r : Nat) := by exact_mod_cast hle
      push_cast at this
      linarith
  | false =>
    have hα : α = r := h
    simp only [hα, Bool.false_eq_true, and_false, or_false]
    exact_mod_cast Iff.rfl

theorem Within.eq_half_iff (h : Within sticky r α) {D : Nat} (hD : D % 2 = 0) :
    2 * α = D ↔ 2 * r = D ∧ sticky = false := by
  unfold Within at h
  cases sticky with
  | true =>
    obtain ⟨hlo, hhi⟩ : (r : ℝ) < α ∧ α < r + 1 := h
    simp only [Bool.true_eq_false, and_false, iff_false]
    intro heq
    have h1 : ((2 * r : Nat) : ℝ) < D := by push_cast; linarith
    have h2 : (D : ℝ) < (2 * r + 2 : Nat) := by push_cast; linarith
    have h1 : 2 * r < D := by exact_mod_cast h1
    have h2 : D < 2 * r + 2 := by exact_mod_cast h2
    omega
  | false =>
    have hα : α = r := h
    simp only [hα, and_true]
    exact_mod_cast Iff.rfl

end

/-- `roundsUp` decides on the part cut off, in units of which a whole one is `2 ^ d`. -/
theorem roundedAt_roundsUp {mode : RoundMode} {neg sticky : Bool} {n rem d : Nat} {α t : ℝ} (ht : 0 < t) (hd : d ≠ 0)
    (hrem : rem < 2 ^ d) (hα : Within sticky rem α) :
    RoundedAt mode neg (n * (2 ^ d * t) + α * t) (2 ^ d * t)
      (if roundsUp mode neg (n % 2 == 1) rem d sticky then n + 1 else n) := by
  have heven : 2 ^ d % 2 = 0 := by
    obtain ⟨k, rfl⟩ := Nat.exists_eq_succ_of_ne_zero hd
    rw [pow_succ, Nat.mul_mod_left]
  obtain ⟨hlo, hhi⟩ := hα.bounds
  have h0 : 0 ≤ α * t := mul_nonneg (le_trans rem.cast_nonneg hlo) ht.le
  have hlt : α * t < 2 ^ d * t := by
    refine mul_lt_mul_of_pos_right (lt_of_lt_of_le hhi ?_) ht
    exact_mod_cast hrem
  have hcut : (rem != 0 || sticky) = true ↔ 0 < α * t := by rw [hα.pos_iff, mul_pos_iff_of_pos_right ht]
  have hdown := truncated_bounds (n := n) h0 hlt
  have haway := away_bounds (n := n) h0 hlt hcut
  have hnear : roundsUp .rne neg (n % 2 == 1) rem d sticky = true ↔
      2 ^ d * t < 2 * (α * t) ∨ 2 * (α * t) = 2 ^ d * t ∧ n % 2 = 1 := by
    have hhalf : 2 ^ d * t < 2 * (α * t) ↔ 2 ^ d < 2 * rem ∨ 2 * rem = 2 ^ d ∧ sticky = true := by
      rw [← mul_assoc, mul_lt_mul_iff_left₀ ht, ← hα.half_lt_iff heven]
      push_cast
      rfl
    have htie : 2 * (α * t) = 2 ^ d * t ↔ 2 * rem = 2 ^ d ∧ sticky = false := by
      rw [← mul_assoc, mul_left_inj' ht.ne', ← hα.eq_half_iff heven]
      push_cast
      rfl
    rw [hhalf, htie]
    cases sticky <;> simp [roundsUp]
  exact mode.cases_direction (P := fun mode neg => RoundedAt mode neg (n * (2 ^ d * t) + α * t) (2 ^ d * t)
      (if roundsUp mode neg (n % 2 == 1) rem d sticky then n + 1 else n))
    (fun _ => roundedAt_nearest h0 hlt hnear) ⟨fun _ => hdown, hdown, hdown⟩ ⟨haway, haway⟩ neg

section
variable {x : Exact} {a : ℝ} {q : ℤ} (mode : RoundMode)

/-- Rounding to a multiple of `2 ^ q`, and when that is inexact. -/
theorem Exact.roundTo_spec (ha : x.HasMagnitude a) (hq : x.sticky = true → x.e < q) :
    RoundedAt mode x.neg a (2 ^ q) (x.roundTo mode q).n ∧
      ((x.roundTo mode q).inexact = true ↔ a ≠ (x.roundTo mode q).n * 2 ^ q) := by
  obtain ⟨α, rfl, hα⟩ := ha
  unfold Exact.roundTo
  by_cases hle : q ≤ x.e
  case pos =>
    have hsticky : x.sticky = false := by
      cases h : x.sticky
      · rfl
      · have := hq h
        omega
    have hm : α = x.m := by simpa [Within, hsticky] using hα
    have hval : α * 2 ^ x.e = (x.m * 2 ^ (x.e - q).toNat : Nat) * 2 ^ q := by
      push_cast
      rw [hm, mul_assoc, two_pow_toNat_mul hle]
    rw [if_pos hle, hval]
    exact ⟨roundedAt_self (two_zpow_pos q), by simp [hsticky]⟩
  case neg =>
    rw [if_neg hle]
    have hunit : (2 : ℝ) ^ q = 2 ^ (q - x.e).toNat * 2 ^ x.e := (two_pow_toNat_mul (by omega)).symm
    have hd : (q - x.e).toNat ≠ 0 := by omega
    rw [hunit]
    generalize (q - x.e).toNat = d at hd
    have hrem : x.m % 2 ^ d < 2 ^ d := Nat.mod_lt _ (by positivity)
    have hcut : Within x.sticky (x.m % 2 ^ d) (α - (2 ^ d * (x.m / 2 ^ d) : Nat)) := by
      rw [← Nat.div_add_mod x.m (2 ^ d)] at hα
      exact hα.sub
    have hval : α * 2 ^ x.e = (x.m / 2 ^ d : Nat) * (2 ^ d * 2 ^ x.e) + (α - (2 ^ d * (x.m / 2 ^ d) : Nat)) * 2 ^ x.e := by
      push_cast
      ring
    have hround := roundedAt_roundsUp (mode := mode) (neg := x.neg) (n := x.m / 2 ^ d) (two_zpow_pos x.e) hd hrem hcut
    obtain ⟨hlo, hhi⟩ := hcut.bounds
    have hrem' : ((x.m % 2 ^ d : Nat) : ℝ) + 1 ≤ 2 ^ d := by exact_mod_cast hrem
    rw [hval]
    refine ⟨hround, hcut.pos_iff.trans ?_⟩
    rw [Ne, hround.eq_iff (mul_nonneg (le_trans (Nat.cast_nonneg _) hlo) (two_zpow_pos _).le)
      (mul_lt_mul_of_pos_right (hhi.trans_le hrem') (two_zpow_pos _)), mul_eq_zero_iff_right (two_zpow_pos _).ne']
    exact (le_trans (Nat.cast_nonneg _) hlo).lt_iff_ne'

end

/-! ## Values of patterns (R410) -/

namespace FpFmt

section
variable {f : FpFmt} {x : Nat}

theorem value_eq (f : FpFmt) (x : Nat) : f.value x = (if f.sign x then -1 else 1) * f.scaled x * 2 ^ f.qMin := by
  have hpow : (2 : ℚ) ^ f.quantum x = ((2 ^ (max 1 (f.expField x) - 1) : Nat) : ℚ) * 2 ^ f.qMin := by
    push_cast
    rw [← zpow_natCast, ← zpow_add₀ two_ne_zero, quantum]
    congr 1
    omega
  rw [value, scaled, hpow]
  push_cast
  ring

theorem abs_value (f : FpFmt) (x : Nat) : |(f.value x : ℝ)| = f.scaled x * 2 ^ f.qMin := by
  rw [value_eq]
  push_cast
  rw [abs_mul, abs_mul, abs_of_pos (two_zpow_pos _), Nat.abs_cast]
  cases f.sign x <;> simp

theorem value_eq_zero_iff : f.value x = 0 ↔ f.isZero x = true := by
  rw [value_eq, isZero_iff, ← scaled_eq_zero_iff]
  cases f.sign x <;> simp [zpow_ne_zero]

theorem scaled_of_fields {e m : Nat} (hx : f.magnitude x = m + 2 ^ f.fracBits * e) (hm : m < 2 ^ f.fracBits) :
    f.scaled x = (if e = 0 then m else m + 2 ^ f.fracBits) * 2 ^ (max 1 e - 1) := by
  have he : f.expField x = e := by
    rw [expField_eq, hx, Nat.add_mul_div_left _ _ f.two_pow_fracBits_pos, Nat.div_eq_of_lt hm, Nat.zero_add]
  have hfrac : f.fracField x = m := by rw [fracField_eq, hx, Nat.add_mul_mod_self_left, Nat.mod_eq_of_lt hm]
  rw [scaled, significand, he, hfrac]

/-- The pattern of `n` units of the `k`-th last place: a sum, so that a significand rounded up to 2 carries into the exponent. -/
theorem scaled_of_units {k n : Nat} (hx : f.magnitude x = k * 2 ^ f.fracBits + n) (hn : n ≤ 2 * 2 ^ f.fracBits)
    (hk : k = 0 ∨ 2 ^ f.fracBits ≤ n) : f.scaled x = n * 2 ^ k := by
  have hpos := f.two_pow_fracBits_pos
  rw [Nat.mul_comm] at hx
  rcases Nat.lt_or_ge n (2 ^ f.fracBits) with hsub | hnorm
  case inl =>
    obtain rfl : k = 0 := hk.resolve_right (by omega)
    rw [scaled_of_fields (e := 0) (by omega) hsub]
    simp
  case inr =>
    rcases Nat.lt_or_ge n (2 * 2 ^ f.fracBits) with hlt | hge
    case inl =>
      rw [scaled_of_fields (e := k + 1) (m := n - 2 ^ f.fracBits) (by rw [hx, Nat.mul_add_one]; omega) (by omega),
        if_neg (by omega), Nat.sub_add_cancel hnorm, Nat.max_eq_right (by omega), Nat.add_sub_cancel]
    case inr =>
      obtain rfl : n = 2 * 2 ^ f.fracBits := by omega
      rw [scaled_of_fields (e := k + 2) (m := 0) (by rw [hx, Nat.mul_add]; omega) hpos, if_neg (by omega),
        Nat.max_eq_right (by omega), Nat.zero_add, show k + 2 - 1 = k + 1 by omega, pow_succ']
      ring

/-- The pattern of a sign and `n` units in the `k`-th last place of the format is finite and has that value. -/
theorem finite_withSign {neg : Bool} {k n : Nat} (hlt : k * 2 ^ f.fracBits + n < f.expMax * 2 ^ f.fracBits) :
    f.finite (f.withSign neg (k * 2 ^ f.fracBits + n)) ∧ f.sign (f.withSign neg (k * 2 ^ f.fracBits + n)) = neg := by
  have hlt' := hlt.trans (inf_lt (f := f))
  refine ⟨⟨pattern_withSign hlt', ?_⟩, sign_withSign hlt'⟩
  rw [expField_lt_expMax_iff, magnitude_withSign hlt']
  exact hlt

end

/-! ## The unit of the last place -/

section
variable {f : FpFmt} {x : Exact} {a : ℝ}

/-- Full precision lies between two powers of the ideal unit. -/
theorem idealQuantum_bounds (hm : x.m ≠ 0) (ha : x.HasMagnitude a) :
    2 ^ (f.prec - 1) * (2 : ℝ) ^ f.idealQuantum x ≤ a ∧ a < 2 ^ f.prec * (2 : ℝ) ^ f.idealQuantum x := by
  obtain ⟨α, rfl, hα⟩ := ha
  obtain ⟨hlo, hhi⟩ := hα.bounds
  have hlog : ((2 ^ x.m.log2 : Nat) : ℝ) ≤ x.m := by exact_mod_cast Nat.log2_self_le hm
  have hlog' : ((x.m + 1 : Nat) : ℝ) ≤ (2 ^ (x.m.log2 + 1) : Nat) := by exact_mod_cast (Nat.lt_log2_self : x.m < 2 ^ _)
  push_cast at hlog hlog'
  have hlow : (2 : ℝ) ^ (f.prec - 1) * 2 ^ f.idealQuantum x = 2 ^ x.m.log2 * 2 ^ x.e := by
    rw [← zpow_natCast, ← zpow_natCast, ← zpow_add₀ two_ne_zero, ← zpow_add₀ two_ne_zero, idealQuantum, prec]
    congr 1
    push_cast
    omega
  have hhigh : (2 : ℝ) ^ f.prec * 2 ^ f.idealQuantum x = 2 ^ (x.m.log2 + 1) * 2 ^ x.e := by
    rw [← zpow_natCast, ← zpow_natCast, ← zpow_add₀ two_ne_zero, ← zpow_add₀ two_ne_zero, idealQuantum, prec]
    congr 1
    push_cast
    omega
  rw [hlow, hhigh]
  exact ⟨mul_le_mul_of_nonneg_right (hlog.trans hlo) (two_zpow_pos _).le,
    mul_lt_mul_of_pos_right (hhi.trans_le hlog') (two_zpow_pos _)⟩

/-- A value with more bits than the format is rounded to a larger unit than its own. -/
theorem lt_idealQuantum (hm : 2 ^ f.prec ≤ x.m) : x.e < f.idealQuantum x := by
  have : f.prec ≤ x.m.log2 := (Nat.le_log2 (Nat.ne_of_gt (lt_of_lt_of_le (by positivity) hm))).2 hm
  unfold idealQuantum
  omega

end

end FpFmt

/-- `x` stands for the real number `v`, not 0, exactly enough to be rounded into the format. -/
structure Exact.Stands (f : FpFmt) (x : Exact) (v : ℝ) : Prop where
  nonzero : x.m ≠ 0
  neg : x.neg = true ↔ v < 0
  magnitude : x.HasMagnitude |v|
  precise : x.sticky = true → 2 ^ f.prec ≤ x.m

namespace FpFmt

/-! ## One rounding (R413, R415, R417 to R419) -/

section
variable {f : FpFmt} {env : FpEnv} {x : Exact} {v : ℝ}

theorem underflow_inexact_bits : ∀ u i : Bool, let e := (if u then flagU else 0) ||| (if i then flagI else 0)
    e.getLsbD 0 = i ∧ e.getLsbD 1 = u ∧ e.extractLsb' 2 3 = 0 := by decide

theorem round_of_overflow (h : f.qMax < f.unboundedQuantum x env.rm) : f.round env x = ⟨f.overflow env.rm x.neg, 0x05⟩ :=
  if_pos h

theorem round_of_no_overflow (h : ¬ f.qMax < f.unboundedQuantum x env.rm) :
    let q := max (f.idealQuantum x) f.qMin
    let r := x.roundTo env.rm q
    f.round env x = ⟨f.withSign x.neg ((q - f.qMin).toNat * 2 ^ f.fracBits + r.n),
      (if f.unboundedQuantum x env.rm < f.qMin && (env.trapU || r.inexact) then flagU else 0) |||
        (if r.inexact then flagI else 0)⟩ :=
  if_neg h

section
variable (hx : x.Stands f v)
include hx

theorem roundTo_of_stands (mode : RoundMode) {q : ℤ} (hq : f.idealQuantum x ≤ q) :
    RoundedAt mode x.neg |v| (2 ^ q) (x.roundTo mode q).n ∧
      ((x.roundTo mode q).inexact = true ↔ |v| ≠ (x.roundTo mode q).n * 2 ^ q) :=
  Exact.roundTo_spec mode hx.magnitude fun hs => (lt_idealQuantum (hx.precise hs)).trans_le hq

/-- The number of units of the ideal quantum has full precision, or is the next power of two. -/
theorem roundTo_idealQuantum_bounds (mode : RoundMode) :
    2 ^ f.fracBits ≤ (x.roundTo mode (f.idealQuantum x)).n ∧ (x.roundTo mode (f.idealQuantum x)).n ≤ 2 ^ f.prec := by
  obtain ⟨hlo, hhi⟩ := idealQuantum_bounds (f := f) hx.nonzero hx.magnitude
  obtain ⟨hround, -⟩ := roundTo_of_stands hx mode le_rfl
  exact ⟨hround.le_of_le (two_zpow_pos _) (by exact_mod_cast hlo), hround.ge_of_ge (two_zpow_pos _) (by exact_mod_cast hhi.le)⟩

/-- The value rounded with an unbounded exponent, normalised: full precision in units of the unbounded quantum. -/
theorem unboundedQuantum_normalises (mode : RoundMode) :
    ∃ k : Nat, 2 ^ f.fracBits ≤ k ∧ k < 2 ^ f.prec ∧
      (x.roundTo mode (f.idealQuantum x)).n * (2 : ℝ) ^ f.idealQuantum x = k * 2 ^ f.unboundedQuantum x mode := by
  obtain ⟨hlo, hhi⟩ := roundTo_idealQuantum_bounds hx mode
  rw [unboundedQuantum]
  by_cases h : (x.roundTo mode (f.idealQuantum x)).n = 2 ^ f.prec
  case pos =>
    refine ⟨2 ^ f.fracBits, le_rfl, ?_, ?_⟩
    · rw [two_pow_prec]
      have := f.two_pow_fracBits_pos
      omega
    · rw [if_pos h, h, two_pow_prec, two_zpow_add_one]
      push_cast
      ring
  case neg => exact ⟨_, hlo, by omega, by rw [if_neg h]⟩

theorem overflow_iff (mode : RoundMode) :
    (2 ^ f.prec - 1) * (2 : ℝ) ^ f.qMax < (x.roundTo mode (f.idealQuantum x)).n * (2 : ℝ) ^ f.idealQuantum x ↔
      f.qMax < f.unboundedQuantum x mode := by
  obtain ⟨k, hlo, hhi, heq⟩ := unboundedQuantum_normalises hx mode
  have hlo : (2 : ℝ) ^ f.fracBits ≤ k := by exact_mod_cast hlo
  have hhi : (k : ℝ) ≤ 2 ^ f.prec - 1 := by
    have : ((k + 1 : Nat) : ℝ) ≤ (2 ^ f.prec : Nat) := by exact_mod_cast hhi
    push_cast at this
    linarith
  rw [heq]
  constructor
  · intro hlt
    by_contra hge
    have := mul_le_mul hhi (two_zpow_le (not_lt.1 hge)) (two_zpow_pos _).le (k.cast_nonneg.trans hhi)
    linarith
  · intro hlt
    have hle := mul_le_mul hlo (two_zpow_le (Int.add_one_le_iff.2 hlt)) (two_zpow_pos _).le k.cast_nonneg
    have hprec : (2 : ℝ) ^ f.prec = 2 ^ f.fracBits * 2 := pow_succ 2 f.fracBits
    rw [two_zpow_add_one] at hle
    rw [hprec]
    linarith [two_zpow_pos f.qMax]

theorem tiny_iff (mode : RoundMode) :
    (x.roundTo mode (f.idealQuantum x)).n * (2 : ℝ) ^ f.idealQuantum x < (2 : ℝ) ^ (1 - (f.bias : ℤ)) ↔
      f.unboundedQuantum x mode < f.qMin := by
  obtain ⟨k, hlo, hhi, heq⟩ := unboundedQuantum_normalises hx mode
  have hlo : (2 : ℝ) ^ f.fracBits ≤ k := by exact_mod_cast hlo
  have hhi : (k : ℝ) < 2 ^ f.fracBits * 2 := by
    rw [← pow_succ]
    exact_mod_cast hhi
  have hmin : (2 : ℝ) ^ (1 - (f.bias : ℤ)) = 2 ^ f.fracBits * 2 ^ f.qMin := by
    rw [← zpow_natCast, ← zpow_add₀ two_ne_zero, qMin]
    congr 1
    omega
  rw [heq, hmin]
  constructor
  · intro hlt
    by_contra hge
    have := mul_le_mul hlo (two_zpow_le (not_lt.1 hge)) (two_zpow_pos _).le k.cast_nonneg
    linarith
  · intro hlt
    have hle := two_zpow_le (Int.add_one_le_iff.2 hlt)
    rw [two_zpow_add_one] at hle
    calc (k : ℝ) * 2 ^ f.unboundedQuantum x mode < 2 ^ f.fracBits * 2 * 2 ^ f.unboundedQuantum x mode :=
        mul_lt_mul_of_pos_right hhi (two_zpow_pos _)
      _ = 2 ^ f.fracBits * (2 * 2 ^ f.unboundedQuantum x mode) := mul_assoc _ _ _
      _ ≤ 2 ^ f.fracBits * 2 ^ f.qMin := mul_le_mul_of_nonneg_left hle (by positivity)

/-- Without overflow, the units of the last place the format has there make a finite pattern. -/
theorem units_bounds (hf : f.Wide) {mode : RoundMode} (hno : ¬ f.qMax < f.unboundedQuantum x mode) :
    let q := max (f.idealQuantum x) f.qMin
    let n := (x.roundTo mode q).n
    n ≤ 2 * 2 ^ f.fracBits ∧ ((q - f.qMin).toNat = 0 ∨ 2 ^ f.fracBits ≤ n) ∧
      (q - f.qMin).toNat * 2 ^ f.fracBits + n < f.expMax * 2 ^ f.fracBits := by
  intro q n
  have hexp := hf.expMax_eq
  have hbias := hf.bias_pos
  have hpos := f.two_pow_fracBits_pos
  rcases lt_or_ge (f.idealQuantum x) f.qMin with hsub | hnorm
  case inl =>
    have hq : q = f.qMin := max_eq_right hsub.le
    have hn : n ≤ 2 ^ f.fracBits := by
      obtain ⟨-, hhi⟩ := idealQuantum_bounds (f := f) hx.nonzero hx.magnitude
      obtain ⟨hround, -⟩ := roundTo_of_stands hx mode (le_max_left _ f.qMin)
      refine hround.ge_of_ge (two_zpow_pos _) (hhi.le.trans ?_)
      have hle := two_zpow_le (Int.add_one_le_iff.2 hsub)
      rw [two_zpow_add_one] at hle
      rw [max_eq_right hsub.le, prec, pow_succ, mul_assoc]
      push_cast
      exact mul_le_mul_of_nonneg_left hle (by positivity)
    have hk : (q - f.qMin).toNat = 0 := by omega
    have h2 : 2 * 2 ^ f.fracBits ≤ f.expMax * 2 ^ f.fracBits := Nat.mul_le_mul_right _ (by omega)
    refine ⟨by omega, .inl hk, ?_⟩
    rw [hk]
    omega
  case inr =>
    have hq : q = f.idealQuantum x := max_eq_left hnorm
    obtain ⟨hlo, hhi⟩ := roundTo_idealQuantum_bounds hx mode
    rw [two_pow_prec] at hhi
    have hn : n = (x.roundTo mode (f.idealQuantum x)).n := by rw [← hq]
    rw [← hn] at hlo hhi
    refine ⟨hhi, .inr hlo, ?_⟩
    rw [unboundedQuantum, ← hn, ← hq, two_pow_prec] at hno
    have hspan : f.qMax - f.qMin = 2 * f.bias - 1 := by
      rw [qMax, qMin]
      omega
    by_cases hcarry : n = 2 * 2 ^ f.fracBits
    · rw [if_pos hcarry] at hno
      have : ((q - f.qMin).toNat + 3) * 2 ^ f.fracBits ≤ f.expMax * 2 ^ f.fracBits := Nat.mul_le_mul_right _ (by omega)
      rw [Nat.add_mul] at this
      omega
    · rw [if_neg hcarry] at hno
      have : ((q - f.qMin).toNat + 2) * 2 ^ f.fracBits ≤ f.expMax * 2 ^ f.fracBits := Nat.mul_le_mul_right _ (by omega)
      rw [Nat.add_mul] at this
      omega

/-- The model's rounding is the real number rounded once. -/
theorem roundsTo_round (hf : f.Wide) (env : FpEnv) : RoundsTo f env v (f.round env x) := by
  obtain ⟨hlo, hhi⟩ := idealQuantum_bounds (f := f) hx.nonzero hx.magnitude
  refine ⟨x.neg, f.idealQuantum x, (x.roundTo env.rm (f.idealQuantum x)).n, hx.neg, hlo, hhi,
    (roundTo_of_stands hx env.rm le_rfl).1, fun hover => ?overflow, fun hno => ?fits⟩
  case overflow =>
    rw [round_of_overflow ((overflow_iff hx env.rm).1 hover)]
    refine ⟨rfl, ?_⟩
    have hinf := IsInf_inf f x.neg
    have hmax := IsMaxFinite_maxFinite hf x.neg
    generalize x.neg = neg at hinf hmax
    cases env.rm with
    | rne => exact hinf
    | rz => exact hmax
    | rp => cases neg with
      | true => exact hmax
      | false => exact hinf
    | rm => cases neg with
      | true => exact hinf
      | false => exact hmax
  case fits =>
    have hno : ¬ f.qMax < f.unboundedQuantum x env.rm := fun h => absurd ((overflow_iff hx env.rm).2 h) (not_lt.2 hno)
    obtain ⟨hn, hk, hlt⟩ := units_bounds hx hf hno
    obtain ⟨hround, hinexact⟩ := roundTo_of_stands hx env.rm (le_max_left _ f.qMin)
    rw [round_of_no_overflow hno]
    obtain ⟨hfin, hsign⟩ := finite_withSign (neg := x.neg) hlt
    have hvalue := f.abs_value (f.withSign x.neg ((max (f.idealQuantum x) f.qMin - f.qMin).toNat * 2 ^ f.fracBits +
      (x.roundTo env.rm (max (f.idealQuantum x) f.qMin)).n))
    rw [scaled_of_units (magnitude_withSign (hlt.trans inf_lt)) hn hk, Nat.cast_mul, Nat.cast_pow, Nat.cast_two, mul_assoc,
      two_pow_toNat_mul (le_max_right _ _)] at hvalue
    obtain ⟨hbit0, hbit1, hrest⟩ := underflow_inexact_bits
      (f.unboundedQuantum x env.rm < f.qMin && (env.trapU || (x.roundTo env.rm (max (f.idealQuantum x) f.qMin)).inexact))
      (x.roundTo env.rm (max (f.idealQuantum x) f.qMin)).inexact
    rw [ne_comm, ← hvalue] at hinexact
    refine ⟨_, hround, hfin, hsign, hvalue, ?_, ?_, hrest⟩
    · exact (Eq.congr_left hbit0).trans hinexact
    · refine (Eq.congr_left hbit1).trans (Bool.and_eq_true_iff.trans (and_congr ?_ ?_))
      · rw [tiny_iff hx, decide_eq_true_iff]
      · exact Bool.or_eq_true_iff.trans (or_congr Iff.rfl hinexact)

end

end

end FpFmt

/-- Settles O38: an exact value stands for a real number, and its rounding is that number rounded once. -/
theorem fpRounding : Obligations.FpRounding := by
  intro f hf env neg m e v hm hneg
  refine ⟨fun hv => ?exact, fun hprec hlo hhi => ?above⟩
  case exact =>
    have hx : Exact.Stands f ⟨neg, m, e, false⟩ v := ⟨hm, hneg, ⟨m, hv, rfl⟩, nofun⟩
    exact FpFmt.roundsTo_round hx (FpFmt.wide_of_mem hf) env
  case above =>
    have hpos := two_zpow_pos e
    have hx : Exact.Stands f ⟨neg, m, e, true⟩ v := by
      refine ⟨hm, hneg, ⟨|v| / 2 ^ e, (div_mul_cancel₀ _ hpos.ne').symm, ?_, ?_⟩, fun _ => hprec⟩
      · exact (lt_div_iff₀ hpos).2 hlo
      · exact (div_lt_iff₀ hpos).2 hhi
    exact FpFmt.roundsTo_round hx (FpFmt.wide_of_mem hf) env

/-! ## A value the format holds -/

namespace FpFmt

section
variable {f : FpFmt} {x : Nat}

theorem significand_ne_zero (h : f.magnitude x ≠ 0) : f.significand x ≠ 0 := fun h0 =>
  h (scaled_eq_zero_iff.1 (by rw [scaled, h0, Nat.zero_mul]))

theorem qMin_le_quantum : f.qMin ≤ f.quantum x := by
  unfold quantum
  omega

theorem Wide.quantum_le_qMax (hf : f.Wide) (hfin : f.expField x ≠ f.expMax) : f.quantum x ≤ f.qMax := by
  have := hf.expMax_eq
  have := hf.bias_pos
  have := f.expField_le_expMax x
  unfold quantum qMin qMax
  omega

/-- A pattern is its significand in units of its quantum. -/
theorem magnitude_eq_units : (f.quantum x - f.qMin).toNat * 2 ^ f.fracBits + f.significand x = f.magnitude x := by
  have hk : (f.quantum x - f.qMin).toNat = max 1 (f.expField x) - 1 := by
    unfold quantum
    omega
  rw [hk, significand, magnitude_eq]
  cases f.expField x with
  | zero => simp
  | succ e =>
    rw [if_neg (by omega), Nat.max_eq_right (by omega), Nat.add_sub_cancel, Nat.mul_add_one, Nat.mul_comm]
    omega

/-- A pattern's significand, sign and unit as an exact value. -/
def exactOfPattern (f : FpFmt) (x : Nat) : Exact := ⟨f.sign x, f.significand x, f.quantum x, false⟩

/-- To a unit not above its own a pattern rounds exactly. -/
theorem roundTo_exactOfPattern (mode : RoundMode) {q : ℤ} (hq : q ≤ f.quantum x) :
    (f.exactOfPattern x).roundTo mode q = ⟨f.significand x * 2 ^ (f.quantum x - q).toNat, false⟩ := if_pos hq

section
variable (h : f.magnitude x ≠ 0)
include h

theorem log2_significand :
    (f.significand x).log2 ≤ f.fracBits ∧ ((f.significand x).log2 < f.fracBits ↔ f.expField x = 0) := by
  have hne := significand_ne_zero h
  have hfrac := f.fracField_lt x
  rw [← Nat.lt_succ_iff, Nat.log2_lt hne, Nat.log2_lt hne]
  refine ⟨significand_lt_two_pow_prec, ?_⟩
  rw [significand]
  split <;> simp_all

/-- The unit of full precision is not above the pattern's own, and below the least unit exactly for a subnormal. -/
theorem idealQuantum_exactOfPattern :
    f.idealQuantum (f.exactOfPattern x) ≤ f.quantum x ∧ (f.idealQuantum (f.exactOfPattern x) < f.qMin ↔ f.expField x = 0) ∧
      max (f.idealQuantum (f.exactOfPattern x)) f.qMin = f.quantum x := by
  obtain ⟨hlog, hsub⟩ := log2_significand h
  have hmin := qMin_le_quantum (f := f) (x := x)
  have hq : f.idealQuantum (f.exactOfPattern x) = f.quantum x + (f.significand x).log2 - f.fracBits := by
    simp only [idealQuantum, exactOfPattern, prec]
    omega
  have hzero : f.expField x = 0 → f.quantum x = f.qMin := by
    intro he
    simp [quantum, he]
  omega

/-- A pattern has no more than full precision, so that rounding it with an unbounded exponent carries nothing. -/
theorem unboundedQuantum_exactOfPattern (mode : RoundMode) :
    f.unboundedQuantum (f.exactOfPattern x) mode = f.idealQuantum (f.exactOfPattern x) := by
  obtain ⟨hlog, -⟩ := log2_significand h
  have hlt : f.significand x * 2 ^ (f.quantum x - f.idealQuantum (f.exactOfPattern x)).toNat < 2 ^ f.prec := by
    have hshift : (f.quantum x - f.idealQuantum (f.exactOfPattern x)).toNat = f.fracBits - (f.significand x).log2 := by
      simp only [idealQuantum, exactOfPattern, prec]
      omega
    calc f.significand x * 2 ^ (f.quantum x - f.idealQuantum (f.exactOfPattern x)).toNat
        < 2 ^ ((f.significand x).log2 + 1) * 2 ^ (f.fracBits - (f.significand x).log2) := by
          rw [hshift]
          exact Nat.mul_lt_mul_of_pos_right Nat.lt_log2_self (by positivity)
      _ = 2 ^ f.prec := by
          rw [← pow_add, prec]
          congr 1
          omega
  rw [unboundedQuantum, roundTo_exactOfPattern mode (idealQuantum_exactOfPattern h).1]
  exact if_neg hlt.ne

end

end

end FpFmt

/-- Settles O39: no unit a pattern is rounded to is above its own. -/
theorem fpExactResults : Obligations.FpExactResults := by
  intro f hf env x hx hfin hne
  obtain ⟨hle, hsub, hmax⟩ := FpFmt.idealQuantum_exactOfPattern hne
  have hqu := FpFmt.unboundedQuantum_exactOfPattern hne env.rm
  have hno : ¬ f.qMax < f.unboundedQuantum (f.exactOfPattern x) env.rm := by
    rw [hqu]
    exact not_lt.2 (hle.trans ((FpFmt.wide_of_mem hf).quantum_le_qMax hfin))
  have hround := FpFmt.round_of_no_overflow hno
  simp only [hmax, hqu, FpFmt.roundTo_exactOfPattern env.rm le_rfl, sub_self, Int.toNat_zero, pow_zero, Nat.mul_one,
    FpFmt.magnitude_eq_units, hsub] at hround
  refine hround.trans ?_
  rw [show (f.exactOfPattern x).neg = f.sign x from rfl, FpFmt.withSign_sign_magnitude hx]
  cases env.trapU <;> simp [flagU]

end Sys2Proof.Machine

/-! PROOFS. Sums, products and fused sums: FpArithmeticValues (spec/45_fp_arith.md R410, R413 to R417, R420 to R425, R428 to
R435, R458). -/

namespace Sys2Proof.Machine

namespace FpFmt

/-! ## Numbers, infinities and NaNs -/

section
variable {f : FpFmt} {x y : Nat}

theorem isNaN_congr (h : f.magnitude x = f.magnitude y) : f.isNaN x = f.isNaN y := by
  rw [Bool.eq_iff_iff, isNaN_iff, isNaN_iff, h]

theorem isInf_congr (h : f.magnitude x = f.magnitude y) : f.isInf x = f.isInf y := by
  rw [Bool.eq_iff_iff, isInf_iff, isInf_iff, h]

theorem isNaN_flip (f : FpFmt) (x : Nat) : f.isNaN (x ^^^ 2 ^ f.signPos) = f.isNaN x := isNaN_congr (magnitude_flip f x)

theorem isInf_flip (f : FpFmt) (x : Nat) : f.isInf (x ^^^ 2 ^ f.signPos) = f.isInf x := isInf_congr (magnitude_flip f x)

theorem finite_flip (h : f.finite x) : f.finite (x ^^^ 2 ^ f.signPos) := by
  refine ⟨pattern_flip h.1, ?_⟩
  rw [expField_eq, magnitude_flip, ← expField_eq]
  exact h.2

theorem magnitude_negate (f : FpFmt) (x : Nat) : f.magnitude (f.negate x) = f.magnitude x :=
  magnitude_withSign (f.magnitude_lt x)

theorem not_isNaN_of_finite (h : f.finite x) : f.isNaN x = false := by
  rw [Bool.eq_false_iff, Ne, isNaN_iff, not_lt]
  exact ((f.expField_lt_expMax_iff x).1 h.2).le

theorem not_isInf_of_finite (h : f.finite x) : f.isInf x = false := by
  rw [Bool.eq_false_iff, Ne, isInf_iff]
  exact ((f.expField_lt_expMax_iff x).1 h.2).ne

theorem not_isNaN_of_isInf (h : f.isInf x = true) : f.isNaN x = false := by
  rw [Bool.eq_false_iff, Ne, isNaN_iff, (f.isInf_iff x).1 h]
  exact lt_irrefl _

theorem not_isNaN_of_isZero (h : f.isZero x = true) : f.isNaN x = false := by
  rw [Bool.eq_false_iff, Ne, isNaN_iff, (f.isZero_iff x).1 h]
  exact Nat.not_lt_zero _

theorem not_isNaN_of_IsInf {neg : Bool} (h : f.IsInf neg x) : f.isNaN x = false := not_isNaN_of_isInf (isInf_of_IsInf h)

theorem Wide.not_isZero_of_isInf (hf : f.Wide) (h : f.isInf x = true) : f.isZero x = false := by
  rw [Bool.eq_false_iff, Ne, isZero_iff, (f.isInf_iff x).1 h, hf.expMax_eq]
  have := f.two_pow_fracBits_pos
  exact Nat.mul_ne_zero (by omega) (by omega)

theorem finite_of_number (hx : f.pattern x) (hn : f.isNaN x = false) (hi : f.isInf x = false) : f.finite x := by
  refine ⟨hx, ?_⟩
  rcases f.magnitude_cases x with h | h | h
  · rw [hn] at h
    cases h
  · rw [hi] at h
    cases h
  · exact h

/-- A pattern that is no NaN. -/
def number (f : FpFmt) (x : Nat) : Prop := f.pattern x ∧ f.isNaN x = false

theorem number_of_IsInf {neg : Bool} (h : f.IsInf neg x) : f.number x := ⟨h.1, not_isNaN_of_IsInf h⟩

theorem number_of_finite (h : f.finite x) : f.number x := ⟨h.1, not_isNaN_of_finite h⟩

theorem number_of_IsMaxFinite (hf : f.Wide) {neg : Bool} (h : f.IsMaxFinite neg x) : f.number x := by
  obtain ⟨hx, -, he, -⟩ := h
  refine number_of_finite ⟨hx, ?_⟩
  have := hf.expMax_eq
  omega

theorem number_of_IsZero (hf : f.Wide) {neg : Bool} (h : f.IsZero neg x) : f.number x := by
  obtain ⟨hx, -, he, -⟩ := h
  refine number_of_finite ⟨hx, ?_⟩
  have := hf.expMax_eq
  omega

/-- What is rounded is no NaN. -/
theorem number_of_roundsTo (hf : f.Wide) {env : FpEnv} {v : ℝ} {r : FpResult} (h : RoundsTo f env v r) : f.number r.bits := by
  obtain ⟨neg, q, n, -, -, -, -, hover, hfits⟩ := h
  rcases lt_or_ge ((2 ^ f.prec - 1) * (2 : ℝ) ^ f.qMax) (n * (2 : ℝ) ^ q) with hlt | hle
  case inl =>
    obtain ⟨-, hbits⟩ := hover hlt
    revert hbits
    cases env.rm with
    | rne => exact number_of_IsInf
    | rz => exact number_of_IsMaxFinite hf
    | rp => cases neg with
      | true => exact number_of_IsMaxFinite hf
      | false => exact number_of_IsInf
    | rm => cases neg with
      | true => exact number_of_IsInf
      | false => exact number_of_IsMaxFinite hf
  case inr =>
    obtain ⟨k, -, hfin, -⟩ := hfits hle
    exact number_of_finite hfin

end

/-! ## NaN results -/

section
variable {f : FpFmt} {ops : List Nat}

theorem Wide.isNaN_quieten (hf : f.Wide) {x : Nat} (h : f.isNaN x = true) : f.isNaN (f.quieten x) = true := by
  cases hq : f.isQuiet x with
  | true => rwa [quieten, hq, if_pos rfl]
  | false =>
    have hlt : 2 ^ (f.fracBits - 1) < 2 ^ f.fracBits := Nat.pow_lt_pow_right (by decide) (by have := hf.frac; omega)
    have hpos : 0 < 2 ^ (f.fracBits - 1) := by positivity
    have he : f.expField (f.quieten x) = f.expField x := by
      rw [quieten_of_not_quiet hq, expField, Nat.or_div_two_pow, Nat.div_eq_of_lt hlt, Nat.or_zero, expField]
    have hm : f.fracField (f.quieten x) ≠ 0 := by
      rw [quieten_of_not_quiet hq, fracField, Nat.or_mod_two_pow, Nat.mod_eq_of_lt hlt, Ne, Nat.or_eq_zero_iff]
      omega
    rw [isNaN, Bool.and_eq_true] at h ⊢
    rw [he]
    exact ⟨h.1, bne_iff_ne.2 hm⟩

theorem nanSource_of_isNaN (h : ∃ w ∈ ops, f.isNaN w = true) : ∃ w, f.nanSource ops = some w ∧ f.isNaN w = true := by
  obtain ⟨w, hw, hn⟩ := h
  unfold nanSource
  cases hs : ops.find? f.isSNaN with
  | some u => exact ⟨u, rfl, isNaN_of_isSNaN (List.find?_some hs)⟩
  | none =>
    have hw' : f.isQNaN w = true := by
      rw [isQNaN_eq_isNaN (by simpa using List.find?_eq_none.1 hs w hw), hn]
    obtain ⟨u, hu⟩ := Option.isSome_iff_exists.1 (List.find?_isSome.2 ⟨w, hw, hw'⟩)
    exact ⟨u, hu, (Bool.and_eq_true_iff.1 (List.find?_some hu : f.isQNaN u = true)).1⟩

theorem Wide.isNaN_withNaN (hf : f.Wide) (h : ∃ w ∈ ops, f.isNaN w = true) (r : FpResult) :
    f.isNaN (f.withNaN ops r).bits = true := by
  obtain ⟨w, hw, hn⟩ := nanSource_of_isNaN h
  rw [withNaN, hw]
  exact hf.isNaN_quieten hn

/-- With a NaN operand the result does not depend on the operation. -/
theorem withNaN_congr (h : ∃ w ∈ ops, f.isNaN w = true) (r r' : FpResult) : f.withNaN ops r = f.withNaN ops r' := by
  obtain ⟨w, hw, -⟩ := nanSource_of_isNaN h
  rw [withNaN, withNaN, hw]

theorem withNaN_pair_of_numbers {x y : Nat} (hx : f.isNaN x = false) (hy : f.isNaN y = false) (r : FpResult) :
    f.withNaN [x, y] r = r := withNaN_of_numbers (by simp [hx, hy]) r

theorem withNaN_triple_of_numbers {x y z : Nat} (hz : f.isNaN z = false) (hx : f.isNaN x = false) (hy : f.isNaN y = false)
    (r : FpResult) : f.withNaN [z, x, y] r = r := withNaN_of_numbers (by simp [hx, hy, hz]) r

end

end FpFmt

/-! ## Exact values -/

section
variable {f : FpFmt}

theorem FpFmt.cast_value (f : FpFmt) (x : Nat) :
    (f.value x : ℝ) = signedInt (f.sign x) (f.significand x) * (2 : ℝ) ^ f.quantum x := by
  rw [FpFmt.value]
  cases f.sign x <;> simp [signedInt]

theorem cast_signedInt (neg : Bool) (m : Nat) : (signedInt neg m : ℝ) = (if neg then -1 else 1) * m := by
  cases neg <;> simp [signedInt]

theorem sign_mul_pos {neg : Bool} {a : ℝ} (ha : 0 < a) :
    (neg = true ↔ (if neg then -1 else 1) * a < 0) ∧ |(if neg then -1 else 1) * a| = a := by
  cases neg with
  | true => simp [ha, abs_of_pos ha]
  | false => simp [ha.le]

/-- A sign, a magnitude and an exponent stand for the number they spell. -/
theorem stands_signed {neg : Bool} {m : Nat} (hm : m ≠ 0) (e : ℤ) :
    Exact.Stands f ⟨neg, m, e, false⟩ (signedInt neg m * (2 : ℝ) ^ e) := by
  have hpos : (0 : ℝ) < m * 2 ^ e := mul_pos (by exact_mod_cast Nat.pos_of_ne_zero hm) (two_zpow_pos e)
  rw [cast_signedInt, mul_assoc]
  obtain ⟨hneg, habs⟩ := sign_mul_pos (neg := neg) hpos
  exact ⟨hm, hneg, ⟨m, habs, rfl⟩, nofun⟩

theorem stands_exactOfInt {n : Int} (hn : n ≠ 0) (e : ℤ) : (exactOfInt n e).Stands f (n * (2 : ℝ) ^ e) := by
  have hsigned : signedInt (decide (n < 0)) n.natAbs = n := by
    simp only [signedInt, decide_eq_true_eq]
    split <;> omega
  have h := stands_signed (f := f) (neg := decide (n < 0)) (Int.natAbs_ne_zero.2 hn) e
  rwa [hsigned] at h

/-- An exact value that may be zero: rounded once, or the zero of the sign given. -/
theorem FpFmt.roundOrZero_spec (hf : f.Wide) (env : FpEnv) {zeroNeg : Bool} {x : Exact} {v : ℝ} (hzero : x.m = 0 ↔ v = 0)
    (hx : v ≠ 0 → x.Stands f v) :
    (v ≠ 0 → RoundsTo f env v (f.roundOrZero env zeroNeg x)) ∧
      (v = 0 → (f.roundOrZero env zeroNeg x).flags = 0 ∧ f.IsZero zeroNeg (f.roundOrZero env zeroNeg x).bits) := by
  refine ⟨fun hv => ?_, fun hv => ?_⟩
  · rw [FpFmt.roundOrZero, if_neg (hx hv).nonzero]
    exact FpFmt.roundsTo_round (hx hv) hf env
  · rw [FpFmt.roundOrZero, if_pos (hzero.2 hv)]
    exact ⟨rfl, FpFmt.IsZero_withSign f zeroNeg⟩

/-- The sum of two finite values is rounded once. -/
theorem addFinite_spec (hf : f.Wide) (env : FpEnv) (na nb : Bool) (ma mb : Nat) (ea eb : ℤ) {v : ℝ}
    (hv : v = signedInt na ma * (2 : ℝ) ^ ea + signedInt nb mb * (2 : ℝ) ^ eb) :
    (v ≠ 0 → RoundsTo f env v (addFinite f env na ma ea nb mb eb)) ∧
      (v = 0 → ZeroSum f env na nb (addFinite f env na ma ea nb mb eb)) := by
  have hshift : ∀ (neg : Bool) (m : Nat) (e : ℤ), min ea eb ≤ e →
      (signedInt neg (m * 2 ^ (e - min ea eb).toNat) : ℝ) * 2 ^ min ea eb = signedInt neg m * 2 ^ e := by
    intro neg m e hle
    rw [cast_signedInt, cast_signedInt, ← two_pow_toNat_mul hle]
    push_cast
    ring
  unfold addFinite
  simp only
  generalize hsum : signedInt na (ma * 2 ^ (ea - min ea eb).toNat) + signedInt nb (mb * 2 ^ (eb - min ea eb).toNat) = sum
  have hv' : v = sum * (2 : ℝ) ^ min ea eb := by
    rw [hv, ← hsum, Int.cast_add, add_mul, hshift _ _ _ (min_le_left _ _), hshift _ _ _ (min_le_right _ _)]
  have hzero : sum = 0 ↔ v = 0 := by
    rw [hv', mul_eq_zero_iff_right (two_zpow_pos _).ne', Int.cast_eq_zero]
  have hzero' : (exactOfInt sum (min ea eb)).m = 0 ↔ v = 0 := Int.natAbs_eq_zero.trans hzero
  obtain ⟨hround, hsigned⟩ := FpFmt.roundOrZero_spec hf env (zeroNeg := if na == nb then na else env.rm == .rm) hzero'
    fun hne => hv' ▸ stands_exactOfInt (fun h => hne (hzero.1 h)) _
  refine ⟨hround, fun h => ?_⟩
  have hz := hsigned h
  simp only [beq_iff_eq] at hz ⊢
  exact hz

end

/-! ## Addition and subtraction (R420 to R423) -/

namespace FpFmt

section
variable {f : FpFmt} {env : FpEnv} {x y z : Nat}

/-- `r` is the sum of two patterns that are no NaNs: rounded once, or the zero of the right sign; an infinity; or invalid, for
infinities that cancel. -/
def AddsTo (f : FpFmt) (env : FpEnv) (x y : Nat) (r : FpResult) : Prop :=
  (f.finite x → f.finite y →
    (f.value x + f.value y ≠ 0 → RoundsTo f env ((f.value x + f.value y : ℚ) : ℝ) r) ∧
    (f.value x + f.value y = 0 → ZeroSum f env (f.sign x) (f.sign y) r)) ∧
  (f.isInf x = true → f.finite y ∨ f.IsInf (f.sign x) y → r = ⟨x, 0⟩) ∧
  (f.isInf x = true → f.IsInf (!f.sign x) y → r = f.invalid) ∧
  (f.finite x → f.isInf y = true → r = ⟨y, 0⟩)

theorem add_of_numbers (hx : f.isNaN x = false) (hy : f.isNaN y = false) :
    f.add env x y =
      if f.isInf x then (if f.isInf y && f.sign x != f.sign y then f.invalid else ⟨x, 0⟩)
      else if f.isInf y then ⟨y, 0⟩
      else addFinite f env (f.sign x) (f.significand x) (f.quantum x) (f.sign y) (f.significand y) (f.quantum y) :=
  withNaN_pair_of_numbers hx hy _

theorem sub_of_numbers (hx : f.isNaN x = false) (hy : f.isNaN y = false) (hpy : f.pattern y) :
    f.sub env x y = f.add env x (y ^^^ 2 ^ f.signPos) := by
  rw [← negate_eq_flip hpy]
  exact withNaN_pair_of_numbers hx hy _

theorem addsTo_of_eq_add (hf : f.Wide) {r : FpResult} (h : f.isNaN x = false → f.isNaN y = false → r = f.add env x y) :
    AddsTo f env x y r := by
  refine ⟨fun hx hy => ?_, fun hx hy => ?_, fun hx hy => ?_, fun hx hy => ?_⟩
  · rw [h (not_isNaN_of_finite hx) (not_isNaN_of_finite hy), add_of_numbers (not_isNaN_of_finite hx) (not_isNaN_of_finite hy),
      not_isInf_of_finite hx, not_isInf_of_finite hy]
    have hsum := addFinite_spec hf env (f.sign x) (f.sign y) (f.significand x) (f.significand y) (f.quantum x) (f.quantum y)
      (v := ((f.value x + f.value y : ℚ) : ℝ)) (by rw [Rat.cast_add, cast_value, cast_value])
    rwa [Ne, Rat.cast_eq_zero] at hsum
  · have hny : f.isNaN y = false := hy.elim not_isNaN_of_finite not_isNaN_of_IsInf
    have hsame : (f.isInf y && f.sign x != f.sign y) = false := by
      rcases hy with hy | ⟨-, hs, -⟩
      · rw [not_isInf_of_finite hy, Bool.false_and]
      · rw [hs, bne_self_eq_false, Bool.and_false]
    rw [h (not_isNaN_of_isInf hx) hny, add_of_numbers (not_isNaN_of_isInf hx) hny, hx, hsame]
    rfl
  · have hny := not_isNaN_of_IsInf hy
    obtain ⟨-, hs, -⟩ := id hy
    rw [h (not_isNaN_of_isInf hx) hny, add_of_numbers (not_isNaN_of_isInf hx) hny, hx, isInf_of_IsInf hy, hs]
    cases f.sign x <;> rfl
  · rw [h (not_isNaN_of_finite hx) (not_isNaN_of_isInf hy), add_of_numbers (not_isNaN_of_finite hx) (not_isNaN_of_isInf hy),
      not_isInf_of_finite hx, hy]
    rfl

/-- The difference is the sum with the second operand's sign inverted. -/
theorem addsTo_sub (hf : f.Wide) (hpy : f.pattern y) : AddsTo f env x (y ^^^ 2 ^ f.signPos) (f.sub env x y) := by
  refine addsTo_of_eq_add hf fun hx hy => sub_of_numbers hx ?_ hpy
  rwa [isNaN_flip] at hy

/-! ## Multiplication (R424, R425) -/

theorem mul_of_numbers (hx : f.isNaN x = false) (hy : f.isNaN y = false) :
    f.mul env x y =
      if f.isInf x || f.isInf y then (if f.isZero x || f.isZero y then f.invalid else ⟨f.inf (f.sign x ^^ f.sign y), 0⟩)
      else f.roundOrZero env (f.sign x ^^ f.sign y)
        ⟨f.sign x ^^ f.sign y, f.significand x * f.significand y, f.quantum x + f.quantum y, false⟩ :=
  (withNaN_pair_of_numbers hx hy _).trans (by simp only [Bool.bne_eq_xor])

/-- The product of two finite values, as a sign, a magnitude and an exponent. -/
theorem cast_value_mul (f : FpFmt) (x y : Nat) :
    ((f.value x * f.value y : ℚ) : ℝ) = signedInt (f.sign x ^^ f.sign y) (f.significand x * f.significand y) *
      (2 : ℝ) ^ (f.quantum x + f.quantum y) := by
  rw [Rat.cast_mul, cast_value, cast_value, zpow_add₀ two_ne_zero, cast_signedInt, cast_signedInt, cast_signedInt]
  push_cast
  cases f.sign x <;> cases f.sign y <;> simp <;> ring

theorem mul_of_finite (hf : f.Wide) (hx : f.finite x) (hy : f.finite y) :
    (f.value x * f.value y ≠ 0 → RoundsTo f env ((f.value x * f.value y : ℚ) : ℝ) (f.mul env x y)) ∧
      (f.value x * f.value y = 0 → (f.mul env x y).flags = 0 ∧ f.IsZero (f.sign x ^^ f.sign y) (f.mul env x y).bits) := by
  rw [mul_of_numbers (not_isNaN_of_finite hx) (not_isNaN_of_finite hy), not_isInf_of_finite hx, not_isInf_of_finite hy]
  have hzero : f.significand x * f.significand y = 0 ↔ ((f.value x * f.value y : ℚ) : ℝ) = 0 := by
    rw [cast_value_mul, mul_eq_zero_iff_right (two_zpow_pos _).ne', cast_signedInt]
    cases f.sign x ^^ f.sign y <;> simp
  have h := roundOrZero_spec hf env (zeroNeg := f.sign x ^^ f.sign y)
    (x := ⟨f.sign x ^^ f.sign y, f.significand x * f.significand y, f.quantum x + f.quantum y, false⟩) hzero
    fun hne => cast_value_mul f x y ▸ stands_signed (fun h => hne (hzero.1 h)) _
  rwa [Ne, Rat.cast_eq_zero] at h

/-! ## The fused multiply-add (R428, R429) -/

theorem fma_of_numbers (hx : f.isNaN x = false) (hy : f.isNaN y = false) (hz : f.isNaN z = false) :
    f.fma env x y z =
      if (f.isInf x && f.isZero y) || (f.isZero x && f.isInf y) then f.invalid
      else if f.isInf x || f.isInf y then
        (if f.isInf z && f.sign z != (f.sign x ^^ f.sign y) then f.invalid else ⟨f.inf (f.sign x ^^ f.sign y), 0⟩)
      else if f.isInf z then ⟨z, 0⟩
      else addFinite f env (f.sign x ^^ f.sign y) (f.significand x * f.significand y) (f.quantum x + f.quantum y) (f.sign z)
        (f.significand z) (f.quantum z) :=
  (withNaN_triple_of_numbers hz hx hy _).trans (by simp only [Bool.bne_eq_xor])

/-- Zero times infinity is invalid, whatever is added but a NaN. -/
theorem invalid_of_zero_mul_inf (h : (f.isInf x = true ∧ f.isZero y = true) ∨ (f.isZero x = true ∧ f.isInf y = true)) :
    f.mul env x y = f.invalid ∧ (f.isNaN z = false → f.fma env x y z = f.invalid) := by
  have hx : f.isNaN x = false := h.elim (fun h => not_isNaN_of_isInf h.1) fun h => not_isNaN_of_isZero h.1
  have hy : f.isNaN y = false := h.elim (fun h => not_isNaN_of_isZero h.2) fun h => not_isNaN_of_isInf h.2
  constructor
  · rw [mul_of_numbers hx hy]
    rcases h with ⟨h1, h2⟩ | ⟨h1, h2⟩ <;> simp [h1, h2]
  · intro hz
    rw [fma_of_numbers hx hy hz]
    rcases h with ⟨h1, h2⟩ | ⟨h1, h2⟩ <;> simp [h1, h2]

/-- An infinity times a number that is not zero is an infinity; an infinity of the opposite sign added to it is invalid. -/
theorem inf_of_inf_mul (hf : f.Wide) (h : (f.isInf x = true ∧ f.isZero y = false ∧ f.isNaN y = false) ∨
      (f.isInf y = true ∧ f.isZero x = false ∧ f.isNaN x = false)) :
    f.mul env x y = ⟨f.inf (f.sign x ^^ f.sign y), 0⟩ ∧
      (f.finite z ∨ f.IsInf (f.sign x ^^ f.sign y) z → f.fma env x y z = ⟨f.inf (f.sign x ^^ f.sign y), 0⟩) ∧
      (f.IsInf (!(f.sign x ^^ f.sign y)) z → f.fma env x y z = f.invalid) := by
  obtain ⟨hx, hy, hzx, hzy, hinf⟩ : f.isNaN x = false ∧ f.isNaN y = false ∧ f.isZero x = false ∧ f.isZero y = false ∧
      (f.isInf x || f.isInf y) = true := by
    rcases h with ⟨hx, hzy, hy⟩ | ⟨hy, hzx, hx⟩
    · exact ⟨not_isNaN_of_isInf hx, hy, hf.not_isZero_of_isInf hx, hzy, by rw [hx, Bool.true_or]⟩
    · exact ⟨hx, not_isNaN_of_isInf hy, hzx, hf.not_isZero_of_isInf hy, by rw [hy, Bool.or_true]⟩
  refine ⟨?_, fun hz => ?_, fun hz => ?_⟩
  · rw [mul_of_numbers hx hy, hinf, hzx, hzy]
    rfl
  · have hnz : f.isNaN z = false := hz.elim not_isNaN_of_finite not_isNaN_of_IsInf
    have hsame : (f.isInf z && f.sign z != (f.sign x ^^ f.sign y)) = false := by
      rcases hz with hz | ⟨-, hs, -⟩
      · rw [not_isInf_of_finite hz, Bool.false_and]
      · rw [hs, bne_self_eq_false, Bool.and_false]
    rw [fma_of_numbers hx hy hnz, hinf, hzx, hzy, hsame]
    simp
  · obtain ⟨-, hs, -⟩ := id hz
    rw [fma_of_numbers hx hy (not_isNaN_of_IsInf hz), hinf, hzx, hzy, isInf_of_IsInf hz, hs]
    simp

/-- The product of two finite values and a finite addend are rounded once; an infinite addend is the result. -/
theorem fma_of_finite (hf : f.Wide) (hx : f.finite x) (hy : f.finite y) :
    (f.finite z →
      (f.value x * f.value y + f.value z ≠ 0 →
        RoundsTo f env ((f.value x * f.value y + f.value z : ℚ) : ℝ) (f.fma env x y z)) ∧
      (f.value x * f.value y + f.value z = 0 → ZeroSum f env (f.sign x ^^ f.sign y) (f.sign z) (f.fma env x y z))) ∧
      (f.isInf z = true → f.fma env x y z = ⟨z, 0⟩) := by
  have hfma := fun hz => fma_of_numbers (env := env) (z := z) (not_isNaN_of_finite hx) (not_isNaN_of_finite hy) hz
  simp only [not_isInf_of_finite hx, not_isInf_of_finite hy, Bool.false_and, Bool.and_false, Bool.or_false,
    Bool.false_eq_true, if_false] at hfma
  refine ⟨fun hz => ?_, fun hz => ?_⟩
  · rw [hfma (not_isNaN_of_finite hz), not_isInf_of_finite hz]
    have hsum := addFinite_spec hf env (f.sign x ^^ f.sign y) (f.sign z) (f.significand x * f.significand y) (f.significand z)
      (f.quantum x + f.quantum y) (f.quantum z) (v := ((f.value x * f.value y + f.value z : ℚ) : ℝ))
      (by rw [Rat.cast_add, cast_value_mul, cast_value])
    rwa [Ne, Rat.cast_eq_zero] at hsum
  · rw [hfma (not_isNaN_of_isInf hz), hz]
    rfl

/-- The fused multiply-add of patterns that are no NaNs is one too, or invalid. -/
theorem fma_number (hf : f.Wide) (hx : f.number x) (hy : f.number y) (hz : f.number z) :
    f.fma env x y z = f.invalid ∨ f.number (f.fma env x y z).bits := by
  obtain ⟨⟨hpx, hnx⟩, hpy, hny⟩ := And.intro hx hy
  by_cases hprod : f.isInf x = true ∨ f.isInf y = true
  case pos =>
    rw [fma_of_numbers hnx hny hz.2]
    repeat' split
    · exact .inl rfl
    · exact .inl rfl
    · exact .inr (number_of_IsInf (IsInf_inf f _))
    all_goals simp_all
  case neg =>
    rw [not_or, Bool.not_eq_true, Bool.not_eq_true] at hprod
    obtain ⟨hfin, hinf⟩ := fma_of_finite (env := env) (z := z) hf (finite_of_number hpx hnx hprod.1)
      (finite_of_number hpy hny hprod.2)
    cases hiz : f.isInf z with
    | true => exact .inr ((hinf hiz) ▸ hz)
    | false =>
      obtain ⟨hround, hzero⟩ := hfin (finite_of_number hz.1 hz.2 hiz)
      by_cases h0 : f.value x * f.value y + f.value z = 0
      · exact .inr (number_of_IsZero hf (hzero h0).2)
      · exact .inr (number_of_roundsTo hf (hround h0))

/-! ## The fused operations with negations (R430 to R435, R458) -/

theorem signNaN_of_isNaN {r : FpResult} (n : Bool) (h : f.isNaN r.bits = true) :
    f.signNaN n r = ⟨f.withSign n (f.magnitude r.bits), r.flags⟩ := if_pos h

theorem signNaN_of_number {r : FpResult} (n : Bool) (h : f.isNaN r.bits = false) : f.signNaN n r = r :=
  if_neg (Bool.eq_false_iff.1 h)

/-- A result with its sign inverted when asked. -/
def negateIf (f : FpFmt) (neg : Bool) (r : FpResult) : FpResult := if neg then ⟨f.negate r.bits, r.flags⟩ else r

theorem magnitude_negateIf (f : FpFmt) (neg : Bool) (r : FpResult) :
    f.magnitude (f.negateIf neg r).bits = f.magnitude r.bits := by
  cases neg
  · rfl
  · exact magnitude_negate f r.bits

theorem flags_negateIf (f : FpFmt) (neg : Bool) (r : FpResult) : (f.negateIf neg r).flags = r.flags := by cases neg <;> rfl

/-- A NaN result keeps its magnitude and takes the open sign, whatever is negated. -/
theorem signNaN_negateIf_of_isNaN {r : FpResult} (neg n : Bool) (h : f.isNaN r.bits = true) :
    f.signNaN n (f.negateIf neg r) = ⟨f.withSign n (f.magnitude r.bits), r.flags⟩ := by
  rw [signNaN_of_isNaN n (by rwa [isNaN_congr (magnitude_negateIf f neg r)]), magnitude_negateIf, flags_negateIf]

section
variable (negZ negR n : Bool)

theorem fmaNeg_eq (hz : f.pattern z) : f.fmaNeg env negZ negR n x y z = f.signNaN n (f.negateIf negR
    (f.withNaN [z, x, y] (f.fma env x y (if negZ then z ^^^ 2 ^ f.signPos else z)))) := by
  rw [← negate_eq_flip hz]
  rfl

theorem isNaN_flipIf (f : FpFmt) (z : Nat) : f.isNaN (if negZ then z ^^^ 2 ^ f.signPos else z) = f.isNaN z := by
  cases negZ
  · rfl
  · exact isNaN_flip f z

theorem number_flipIf (h : f.number z) : f.number (if negZ then z ^^^ 2 ^ f.signPos else z) := by
  refine ⟨?_, by rw [isNaN_flipIf, h.2]⟩
  cases negZ
  · exact h.1
  · exact pattern_flip h.1

/-- A result that is no NaN comes from operands that are none. -/
theorem Wide.not_isNaN_of_fma (hf : f.Wide) (h : f.isNaN (f.fma env x y z).bits = false) :
    f.isNaN x = false ∧ f.isNaN y = false ∧ f.isNaN z = false := by
  have hall : ∀ w ∈ [z, x, y], f.isNaN w = false := by
    intro w hw
    by_contra hn
    have := hf.isNaN_withNaN ⟨w, hw, Bool.not_eq_false _ ▸ hn⟩
    exact absurd h (Bool.not_eq_false _ ▸ this _)
  simp only [List.mem_cons, List.not_mem_nil, or_false, forall_eq_or_imp, forall_eq] at hall
  exact ⟨hall.2.1, hall.2.2, hall.1⟩

theorem Wide.defaultNaN_lt (hf : f.Wide) : f.defaultNaN < 2 ^ f.signPos := by
  rw [hf.defaultNaN_eq]
  exact Nat.sub_lt (by positivity) (by positivity)

theorem Wide.isNaN_defaultNaN (hf : f.Wide) : f.isNaN f.defaultNaN = true := by
  have hpos : 0 < 2 ^ (f.fracBits - 1) := by positivity
  rw [isNaN_iff, magnitude, Nat.mod_eq_of_lt hf.defaultNaN_lt, defaultNaN]
  omega

theorem fmaNeg_of_number (hf : f.Wide) (hpx : f.pattern x) (hpy : f.pattern y) (hpz : f.pattern z)
    (hr : f.isNaN (f.fma env x y (if negZ then z ^^^ 2 ^ f.signPos else z)).bits = false) :
    let r := f.fma env x y (if negZ then z ^^^ 2 ^ f.signPos else z)
    f.fmaNeg env negZ negR n x y z = ⟨if negR then r.bits ^^^ 2 ^ f.signPos else r.bits, r.flags⟩ := by
  intro r
  obtain ⟨hx, hy, hz⟩ := hf.not_isNaN_of_fma hr
  rw [isNaN_flipIf] at hz
  have hpattern : f.pattern r.bits := by
    rcases fma_number (env := env) hf ⟨hpx, hx⟩ ⟨hpy, hy⟩ (number_flipIf negZ ⟨hpz, hz⟩) with hinv | hnum
    · rw [hinv, show f.invalid.bits = f.defaultNaN from rfl, hf.isNaN_defaultNaN] at hr
      cases hr
    · exact hnum.1
  rw [fmaNeg_eq negZ negR n hpz, withNaN_triple_of_numbers hz hx hy,
    signNaN_of_number n (by rwa [isNaN_congr (magnitude_negateIf f negR _)]), ← negate_eq_flip hpattern]
  cases negR <;> rfl

theorem fmaNeg_of_invalid (hf : f.Wide) (hx : f.number x) (hy : f.number y) (hz : f.number z)
    (hr : f.isNaN (f.fma env x y (if negZ then z ^^^ 2 ^ f.signPos else z)).bits = true) :
    f.fmaNeg env negZ negR n x y z =
      ⟨f.withSign n (f.fma env x y (if negZ then z ^^^ 2 ^ f.signPos else z)).bits, 0x10⟩ := by
  have hinv : f.fma env x y (if negZ then z ^^^ 2 ^ f.signPos else z) = f.invalid := by
    refine (fma_number (env := env) hf hx hy (number_flipIf negZ hz)).resolve_right fun hnum => ?_
    rw [hnum.2] at hr
    cases hr
  have hmag : f.magnitude f.invalid.bits = f.invalid.bits := Nat.mod_eq_of_lt hf.defaultNaN_lt
  rw [fmaNeg_eq negZ negR n hz.1, withNaN_triple_of_numbers hz.2 hx.2 hy.2, signNaN_negateIf_of_isNaN negR n hr, hinv, hmag]
  rfl

theorem fmaNeg_of_isNaN (hf : f.Wide) (hpz : f.pattern z)
    (h : f.isNaN x = true ∨ f.isNaN y = true ∨ f.isNaN z = true) : f.fmaNeg env negZ negR n x y z =
      ⟨f.withSign n ((f.fma env x y z).bits % 2 ^ f.signPos), (f.fma env x y z).flags⟩ := by
  have hops : ∃ w ∈ [z, x, y], f.isNaN w = true := by
    rcases h with h | h | h
    · exact ⟨x, by simp, h⟩
    · exact ⟨y, by simp, h⟩
    · exact ⟨z, by simp, h⟩
  have hfma : f.withNaN [z, x, y] (f.fma env x y (if negZ then z ^^^ 2 ^ f.signPos else z)) = f.fma env x y z :=
    withNaN_congr hops _ _
  have hnan : f.isNaN (f.fma env x y z).bits = true := hf.isNaN_withNaN hops _
  rw [fmaNeg_eq negZ negR n hpz, hfma, signNaN_negateIf_of_isNaN negR n hnan]
  rfl

end

end

end FpFmt

/-- Settles O42: sums through `addFinite`, products through `roundOrZero`, the negated forms through the fused multiply-add. -/
theorem fpArithmeticValues : Obligations.FpArithmeticValues := by
  intro f hf env x y z hpx hpy hpz flip invalid neg
  have hw := FpFmt.wide_of_mem hf
  have hinv : ∀ r, r = f.invalid → invalid r := fun r h => h.trans hw.invalid_eq
  refine ⟨fun p hp => ?sum, ⟨FpFmt.mul_of_finite hw, fun h => ?zeroInf, fun h => ?inf⟩, FpFmt.fma_of_finite hw,
    ?negated⟩
  case sum =>
    simp only [List.mem_cons, List.not_mem_nil, or_false] at hp
    rcases hp with rfl | rfl
    · obtain ⟨hfin, hinf, hcancel, hinf'⟩ := FpFmt.addsTo_of_eq_add (env := env) (x := x) (y := y) hw fun _ _ => rfl
      exact ⟨hfin, hinf, fun hx hy => hinv _ (hcancel hx hy), hinf'⟩
    · obtain ⟨hfin, hinf, hcancel, hinf'⟩ := FpFmt.addsTo_sub (env := env) (x := x) hw hpy
      refine ⟨fun hx hy => hfin hx (FpFmt.finite_flip hy), fun hx hy => hinf hx (hy.imp_left FpFmt.finite_flip),
        fun hx hy => hinv _ (hcancel hx hy), fun hx hy => hinf' hx ?_⟩
      rwa [FpFmt.isInf_flip]
  case zeroInf =>
    obtain ⟨hmul, hfma⟩ := FpFmt.invalid_of_zero_mul_inf (env := env) (z := z) h
    exact ⟨hinv _ hmul, fun hz => hinv _ (hfma hz)⟩
  case inf =>
    obtain ⟨hmul, hfma, hcancel⟩ := FpFmt.inf_of_inf_mul (env := env) (z := z) hw h
    rw [hmul]
    exact ⟨⟨rfl, FpFmt.IsInf_inf f _⟩, fun hz => hfma hz ▸ ⟨rfl, FpFmt.IsInf_inf f _⟩, fun hz => hinv _ (hcancel hz)⟩
  case negated =>
    intro negZ negR n r
    exact ⟨FpFmt.fmaNeg_of_number negZ negR n hw hpx hpy hpz,
      fun hx hy hz => FpFmt.fmaNeg_of_invalid negZ negR n hw ⟨hpx, hx⟩ ⟨hpy, hy⟩ ⟨hpz, hz⟩,
      FpFmt.fmaNeg_of_isNaN negZ negR n hw hpz⟩

end Sys2Proof.Machine

/-! PROOFS. Quotients, square roots and reciprocal square roots: FpQuotientsAndRoots (spec/45_fp_arith.md R410, R413 to R417, R426,
R427, R448 to R453). -/

namespace Sys2Proof.Machine

/-! ## Whole parts of quotients and roots -/

theorem within_div (n : Nat) {d : Nat} (hd : d ≠ 0) : Within (n % d != 0) (n / d) ((n : ℝ) / d) := by
  have hpos : (0 : ℝ) < d := by exact_mod_cast Nat.pos_of_ne_zero hd
  have hsplit : (d : ℝ) * (n / d : Nat) + (n % d : Nat) = n := by exact_mod_cast Nat.div_add_mod n d
  have hlt : ((n % d : Nat) : ℝ) < d := by exact_mod_cast Nat.mod_lt n (Nat.pos_of_ne_zero hd)
  unfold Within
  by_cases h0 : n % d = 0
  case pos =>
    rw [h0, Nat.cast_zero, add_zero] at hsplit
    rw [h0, ← hsplit]
    exact mul_div_cancel_left₀ _ hpos.ne'
  case neg =>
    have hrem : (0 : ℝ) < (n % d : Nat) := by exact_mod_cast Nat.pos_of_ne_zero h0
    rw [if_pos (bne_iff_ne.2 h0), lt_div_iff₀ hpos, div_lt_iff₀ hpos]
    constructor <;> linarith

theorem isqrtFrom_spec (n b : Nat) : ∀ r, r * r ≤ n → n < (r + 2 ^ b) * (r + 2 ^ b) → isqrtFrom n b r = n.sqrt := by
  induction b with
  | zero => exact fun r hlo hhi => Nat.eq_sqrt.2 ⟨hlo, hhi⟩
  | succ b ih =>
    intro r hlo hhi
    rw [isqrtFrom]
    split
    · refine ih _ ‹_› ?_
      rwa [Nat.add_assoc, ← two_mul, ← pow_succ']
    · exact ih r hlo (not_le.1 ‹_›)

/-- The model's root, found bit by bit, is the whole part of the root. -/
theorem isqrt_eq_sqrt (n : Nat) : isqrt n = n.sqrt := by
  refine isqrtFrom_spec n _ 0 (Nat.zero_le n) ?_
  rw [Nat.zero_add, ← pow_add]
  exact lt_of_lt_of_le Nat.lt_log2_self (Nat.pow_le_pow_right (by decide) (by omega))

/-- The whole part of the root of a quotient is the root of its whole part. -/
theorem within_sqrt_div (n : Nat) {d : Nat} (hd : d ≠ 0) :
    Within ((n / d).sqrt * (n / d).sqrt * d != n) (n / d).sqrt √((n : ℝ) / d) := by
  have hdpos := Nat.pos_of_ne_zero hd
  have hpos : (0 : ℝ) < d := by exact_mod_cast hdpos
  have hlo : (n / d).sqrt * (n / d).sqrt * d ≤ n := (Nat.le_div_iff_mul_le hdpos).1 (Nat.sqrt_le _)
  have hhi : n < ((n / d).sqrt + 1) * ((n / d).sqrt + 1) * d := (Nat.div_lt_iff_lt_mul hdpos).1 (Nat.lt_succ_sqrt _)
  generalize (n / d).sqrt = r at hlo hhi
  unfold Within
  by_cases heq : r * r * d = n
  case pos =>
    rw [heq, ← heq]
    push_cast
    rw [mul_div_cancel_right₀ _ hpos.ne', Real.sqrt_mul_self r.cast_nonneg]
    simp
  case neg =>
    have hlo' : (r : ℝ) ^ 2 * d < n := by
      rw [sq]
      exact_mod_cast lt_of_le_of_ne hlo heq
    have hhi' : (n : ℝ) < (r + 1) ^ 2 * d := by
      rw [sq]
      exact_mod_cast hhi
    rw [if_pos (bne_iff_ne.2 heq)]
    refine ⟨Real.lt_sqrt_of_sq_lt ((lt_div_iff₀ hpos).2 hlo'), ?_⟩
    exact (Real.sqrt_lt' (by positivity)).2 ((div_lt_iff₀ hpos).2 hhi')

theorem sqrt_mul_two_zpow {a : ℝ} {p q : ℤ} (h : q = 2 * p) : √(a * 2 ^ q) = √a * 2 ^ p := by
  rw [h, mul_comm 2 p, zpow_mul, Real.sqrt_mul' a (by positivity)]
  congr 1
  exact Real.sqrt_sq (two_zpow_pos p).le

/-! ## Exact quotients and roots, to more bits than the format has -/

section
variable {f : FpFmt} {m : Nat}

/-- A value known to full precision stands for every real number in its range. -/
theorem stands_of_precise {x : Exact} {v α : ℝ} (hprec : 2 ^ f.prec ≤ x.m) (hneg : x.neg = true ↔ v < 0)
    (hv : |v| = α * 2 ^ x.e) (hα : Within x.sticky x.m α) : x.Stands f v :=
  ⟨(lt_of_lt_of_le (by positivity) hprec).ne', hneg, ⟨α, hv, hα⟩, fun _ => hprec⟩

theorem stands_divExact {mx my : Nat} (hmx : mx ≠ 0) (hmy : my ≠ 0) (neg : Bool) (ex ey : ℤ) :
    (divExact f neg mx ex my ey).Stands f ((if neg then -1 else 1) * (mx / my * (2 : ℝ) ^ (ex - ey))) := by
  obtain ⟨k, hk⟩ : ∃ k, k = my.log2 + 1 + f.prec + 3 := ⟨_, rfl⟩
  have hdef : divExact f neg mx ex my ey = ⟨neg, mx * 2 ^ k / my, ex - ey - k, mx * 2 ^ k % my != 0⟩ := by
    rw [hk]
    rfl
  have hprec : 2 ^ f.prec ≤ mx * 2 ^ k / my := by
    rw [Nat.le_div_iff_mul_le (Nat.pos_of_ne_zero hmy)]
    calc 2 ^ f.prec * my ≤ 2 ^ f.prec * 2 ^ (my.log2 + 1) := Nat.mul_le_mul_left _ Nat.lt_log2_self.le
      _ = 2 ^ (f.prec + (my.log2 + 1)) := (pow_add ..).symm
      _ ≤ 2 ^ k := Nat.pow_le_pow_right (by decide) (by omega)
      _ ≤ mx * 2 ^ k := Nat.le_mul_of_pos_left _ (Nat.pos_of_ne_zero hmx)
  have hx : (0 : ℝ) < mx := by exact_mod_cast Nat.pos_of_ne_zero hmx
  have hy : (0 : ℝ) < my := by exact_mod_cast Nat.pos_of_ne_zero hmy
  obtain ⟨hneg, habs⟩ := sign_mul_pos (neg := neg) (mul_pos (div_pos hx hy) (two_zpow_pos (ex - ey)))
  rw [hdef]
  refine stands_of_precise hprec hneg ?_ (within_div _ hmy)
  rw [habs, zpow_sub₀ two_ne_zero (ex - ey), zpow_natCast]
  push_cast
  field_simp

theorem two_mul_ediv {a : ℤ} (h : a % 2 = 0) : a = 2 * (a / 2) := by omega

theorem stands_sqrtExact (hm : m ≠ 0) (e : ℤ) : (sqrtExact f m e).Stands f √(m * (2 : ℝ) ^ e) := by
  obtain ⟨k, hk⟩ : ∃ k, k = 2 * (f.prec + 3) + (e % 2).toNat := ⟨_, rfl⟩
  have hdef : sqrtExact f m e = ⟨false, (m * 2 ^ k).sqrt, (e - k) / 2, (m * 2 ^ k).sqrt * (m * 2 ^ k).sqrt != m * 2 ^ k⟩ := by
    rw [hk, ← isqrt_eq_sqrt]
    rfl
  have hprec : 2 ^ f.prec ≤ (m * 2 ^ k).sqrt := by
    rw [Nat.le_sqrt, ← pow_add]
    calc 2 ^ (f.prec + f.prec) ≤ 2 ^ k := Nat.pow_le_pow_right (by decide) (by omega)
      _ ≤ m * 2 ^ k := Nat.le_mul_of_pos_left _ (Nat.pos_of_ne_zero hm)
  have hwithin := within_sqrt_div (m * 2 ^ k) one_ne_zero
  rw [Nat.div_one, Nat.mul_one, Nat.cast_one, div_one] at hwithin
  rw [hdef]
  refine stands_of_precise hprec (iff_of_false Bool.false_ne_true (not_lt.2 (by positivity))) ?_ hwithin
  rw [abs_of_nonneg (Real.sqrt_nonneg _), ← sqrt_mul_two_zpow (two_mul_ediv (by omega : (e - k) % 2 = 0)),
    zpow_sub₀ two_ne_zero, zpow_natCast]
  push_cast
  congr 1
  field_simp

theorem stands_rsqrtExact (hm : m ≠ 0) (e : ℤ) : (rsqrtExact f m e).Stands f (1 / √(m * (2 : ℝ) ^ e)) := by
  obtain ⟨b, hb⟩ : ∃ b, b = 2 * (f.prec + 3) + m.log2 + 1 := ⟨_, rfl⟩
  obtain ⟨k, hk⟩ : ∃ k, k = b + ((b + e) % 2).toNat := ⟨_, rfl⟩
  have hdef : rsqrtExact f m e =
      ⟨false, (2 ^ k / m).sqrt, -((e + k) / 2), (2 ^ k / m).sqrt * (2 ^ k / m).sqrt * m != 2 ^ k⟩ := by
    rw [hk, hb, ← isqrt_eq_sqrt]
    rfl
  have hprec : 2 ^ f.prec ≤ (2 ^ k / m).sqrt := by
    rw [Nat.le_sqrt, ← pow_add, Nat.le_div_iff_mul_le (Nat.pos_of_ne_zero hm)]
    calc 2 ^ (f.prec + f.prec) * m ≤ 2 ^ (f.prec + f.prec) * 2 ^ (m.log2 + 1) := Nat.mul_le_mul_left _ Nat.lt_log2_self.le
      _ = 2 ^ (f.prec + f.prec + (m.log2 + 1)) := (pow_add ..).symm
      _ ≤ 2 ^ k := Nat.pow_le_pow_right (by decide) (by omega)
  rw [hdef]
  refine stands_of_precise hprec (iff_of_false Bool.false_ne_true (not_lt.2 (by positivity))) ?_ (within_sqrt_div (2 ^ k) hm)
  rw [abs_of_nonneg (by positivity), ← sqrt_mul_two_zpow (p := -((e + k) / 2)) (q := -(e + k)) (by omega), one_div,
    ← Real.sqrt_inv, zpow_neg, zpow_add₀ two_ne_zero, zpow_natCast]
  push_cast
  congr 1
  field_simp

end

/-! ## Division (R426, R427) -/

namespace FpFmt

section
variable {f : FpFmt} {env : FpEnv} {x y : Nat}

theorem div_of_numbers (hx : f.isNaN x = false) (hy : f.isNaN y = false) :
    f.div env x y =
      if f.isInf x then (if f.isInf y then f.invalid else ⟨f.inf (f.sign x ^^ f.sign y), 0⟩)
      else if f.isInf y then ⟨f.withSign (f.sign x ^^ f.sign y) 0, 0⟩
      else if f.isZero y then (if f.isZero x then f.invalid else ⟨f.inf (f.sign x ^^ f.sign y), 0x08⟩)
      else if f.isZero x then ⟨f.withSign (f.sign x ^^ f.sign y) 0, 0⟩
      else f.round env
        (divExact f (f.sign x ^^ f.sign y) (f.significand x) (f.quantum x) (f.significand y) (f.quantum y)) :=
  (withNaN_pair_of_numbers hx hy _).trans (by simp only [Bool.bne_eq_xor]; rfl)

/-- The quotient of two finite values, as a sign and a magnitude. -/
theorem cast_value_div (f : FpFmt) (x y : Nat) : ((f.value x / f.value y : ℚ) : ℝ) =
    (if f.sign x ^^ f.sign y then -1 else 1) *
      (f.significand x / f.significand y * (2 : ℝ) ^ (f.quantum x - f.quantum y)) := by
  rw [Rat.cast_div, cast_value, cast_value, zpow_sub₀ two_ne_zero, cast_signedInt, cast_signedInt]
  cases f.sign x <;> cases f.sign y <;> simp [mul_div_mul_comm, neg_div, div_neg]

theorem value_ne_zero_iff : f.value x ≠ 0 ↔ f.isZero x = false := by rw [Ne, value_eq_zero_iff, Bool.not_eq_true]

theorem significand_ne_zero_of_value (h : f.value x ≠ 0) : f.significand x ≠ 0 :=
  significand_ne_zero fun h0 => h (value_eq_zero_iff.2 ((f.isZero_iff x).2 h0))

/-- The quotient of two finite values: rounded once, or by the cases of a zero. -/
theorem div_of_finite (hf : f.Wide) (hx : f.finite x) (hy : f.finite y) :
    (f.value x ≠ 0 → f.value y ≠ 0 → RoundsTo f env ((f.value x / f.value y : ℚ) : ℝ) (f.div env x y)) ∧
      (f.value x ≠ 0 → f.value y = 0 → f.div env x y = ⟨f.inf (f.sign x ^^ f.sign y), 0x08⟩) ∧
      (f.value x = 0 → f.value y ≠ 0 → f.div env x y = ⟨f.withSign (f.sign x ^^ f.sign y) 0, 0⟩) ∧
      (f.value x = 0 → f.value y = 0 → f.div env x y = f.invalid) := by
  rw [div_of_numbers (not_isNaN_of_finite hx) (not_isNaN_of_finite hy), not_isInf_of_finite hx, not_isInf_of_finite hy]
  refine ⟨fun hvx hvy => ?_, fun hvx hvy => ?_, fun hvx hvy => ?_, fun hvx hvy => ?_⟩
  · rw [value_ne_zero_iff.1 hvx, value_ne_zero_iff.1 hvy, cast_value_div]
    exact roundsTo_round (stands_divExact (significand_ne_zero_of_value hvx) (significand_ne_zero_of_value hvy) _ _ _) hf env
  · rw [value_ne_zero_iff.1 hvx, value_eq_zero_iff.1 hvy]
    rfl
  · rw [value_eq_zero_iff.1 hvx, value_ne_zero_iff.1 hvy]
    rfl
  · rw [value_eq_zero_iff.1 hvx, value_eq_zero_iff.1 hvy]
    rfl

theorem div_of_inf_inf (hx : f.isInf x = true) (hy : f.isInf y = true) : f.div env x y = f.invalid := by
  rw [div_of_numbers (not_isNaN_of_isInf hx) (not_isNaN_of_isInf hy), hx, hy]
  rfl

theorem div_of_inf_finite (hx : f.isInf x = true) (hy : f.finite y) :
    f.div env x y = ⟨f.inf (f.sign x ^^ f.sign y), 0⟩ := by
  rw [div_of_numbers (not_isNaN_of_isInf hx) (not_isNaN_of_finite hy), hx, not_isInf_of_finite hy]
  rfl

theorem div_of_finite_inf (hx : f.finite x) (hy : f.isInf y = true) :
    f.div env x y = ⟨f.withSign (f.sign x ^^ f.sign y) 0, 0⟩ := by
  rw [div_of_numbers (not_isNaN_of_finite hx) (not_isNaN_of_isInf hy), not_isInf_of_finite hx, hy]
  rfl

/-! ## Roots (R448, R449, R452, R453) -/

theorem sqrt_of_number (hx : f.isNaN x = false) :
    f.sqrt env x = if f.isZero x then ⟨x, 0⟩ else if f.sign x then f.invalid else if f.isInf x then ⟨x, 0⟩
      else f.round env (sqrtExact f (f.significand x) (f.quantum x)) :=
  withNaN_of_numbers (by simp [hx]) _

theorem rsqrt_of_number (hx : f.isNaN x = false) :
    f.rsqrt env x = if f.isZero x then ⟨f.inf (f.sign x), 0x08⟩ else if f.sign x then f.invalid
      else if f.isInf x then ⟨f.withSign false 0, 0⟩
      else f.round env (rsqrtExact f (f.significand x) (f.quantum x)) :=
  withNaN_of_numbers (by simp [hx]) _

theorem sign_of_value_pos (h : 0 < f.value x) : f.sign x = false := by
  cases hs : f.sign x with
  | false => rfl
  | true =>
    have hnonneg : (0 : ℚ) ≤ f.scaled x * 2 ^ f.qMin := by positivity
    rw [value_eq, hs, if_pos rfl] at h
    linarith

/-- The roots of a positive finite value are rounded once. -/
theorem roots_of_finite (hf : f.Wide) (hx : f.finite x) (h : 0 < f.value x) :
    RoundsTo f env √(f.value x : ℝ) (f.sqrt env x) ∧ RoundsTo f env (1 / √(f.value x : ℝ)) (f.rsqrt env x) := by
  have hm := significand_ne_zero_of_value h.ne'
  have hv : (f.value x : ℝ) = f.significand x * (2 : ℝ) ^ f.quantum x := by
    rw [cast_value, sign_of_value_pos h]
    simp [signedInt]
  rw [sqrt_of_number (not_isNaN_of_finite hx), rsqrt_of_number (not_isNaN_of_finite hx), value_ne_zero_iff.1 h.ne',
    sign_of_value_pos h, not_isInf_of_finite hx, hv]
  exact ⟨roundsTo_round (stands_sqrtExact hm _) hf env, roundsTo_round (stands_rsqrtExact hm _) hf env⟩

theorem roots_of_zero (h : f.isZero x = true) : f.sqrt env x = ⟨x, 0⟩ ∧ f.rsqrt env x = ⟨f.inf (f.sign x), 0x08⟩ := by
  rw [sqrt_of_number (not_isNaN_of_isZero h), rsqrt_of_number (not_isNaN_of_isZero h), h]
  exact ⟨rfl, rfl⟩

theorem roots_of_inf (hf : f.Wide) (h : f.IsInf false x) :
    f.sqrt env x = ⟨x, 0⟩ ∧ f.rsqrt env x = ⟨f.withSign false 0, 0⟩ := by
  have hinf := isInf_of_IsInf h
  obtain ⟨-, hs, -⟩ := h
  rw [sqrt_of_number (not_isNaN_of_isInf hinf), rsqrt_of_number (not_isNaN_of_isInf hinf), hf.not_isZero_of_isInf hinf, hs, hinf]
  exact ⟨rfl, rfl⟩

theorem roots_of_negative (hs : f.sign x = true) (hz : f.isZero x = false) (hn : f.isNaN x = false) :
    f.sqrt env x = f.invalid ∧ f.rsqrt env x = f.invalid := by
  rw [sqrt_of_number hn, rsqrt_of_number hn, hs, hz]
  exact ⟨rfl, rfl⟩

/-- A root of a NaN is the NaN made quiet. -/
theorem withNaN_single (f : FpFmt) (x : Nat) (r : FpResult) :
    (f.isSNaN x = true → f.withNaN [x] r = ⟨x ||| 2 ^ (f.fracBits - 1), 0x10⟩) ∧
      (f.isSNaN x = false → f.isNaN x = true → f.withNaN [x] r = ⟨x, 0⟩) :=
  ⟨fun hs => withNaN_of_snan (by simp [hs]) r, fun hs hn => withNaN_of_qnan (by simp [hs]) (by simp [hn]) r⟩

end

end FpFmt

/-- Settles O43: quotients and roots are found to more bits than the format has, with what is left in `sticky`. -/
theorem fpQuotientsAndRoots : Obligations.FpQuotientsAndRoots := by
  intro f hf env x y hpx hpy invalid neg q
  have hw := FpFmt.wide_of_mem hf
  have hinv : ∀ r, r = f.invalid → invalid r := fun r h => h.trans hw.invalid_eq
  have hinf : ∀ (r : FpResult) (s : Bool) (e : BitVec 5), r = ⟨f.inf s, e⟩ → r.flags = e ∧ f.IsInf s r.bits :=
    fun r s e h => h ▸ ⟨rfl, FpFmt.IsInf_inf f s⟩
  have hzero : ∀ (r : FpResult) (s : Bool), r = ⟨f.withSign s 0, 0⟩ → r.flags = 0 ∧ f.IsZero s r.bits :=
    fun r s h => h ▸ ⟨rfl, FpFmt.IsZero_withSign f s⟩
  refine ⟨fun hx hy => ?finite, fun hx hy => hinv _ (FpFmt.div_of_inf_inf hx hy),
    fun hx hy => hinf _ _ _ (FpFmt.div_of_inf_finite hx hy), fun hx hy => hzero _ _ (FpFmt.div_of_finite_inf hx hy),
    FpFmt.roots_of_finite hw, fun hz => ?zero, fun hi => ?inf, fun hs hz hn => ?negative, fun r hr => ?nan⟩
  case finite =>
    obtain ⟨hround, hdivzero, hzerodiv, hinvalid⟩ := FpFmt.div_of_finite (env := env) hw hx hy
    exact ⟨hround, fun hvx hvy => hinf _ _ _ (hdivzero hvx hvy), fun hvx hvy => hzero _ _ (hzerodiv hvx hvy),
      fun hvx hvy => hinv _ (hinvalid hvx hvy)⟩
  case zero =>
    obtain ⟨hsqrt, hrsqrt⟩ := FpFmt.roots_of_zero (env := env) hz
    exact ⟨hsqrt, hinf _ _ _ hrsqrt⟩
  case inf =>
    obtain ⟨hsqrt, hrsqrt⟩ := FpFmt.roots_of_inf (env := env) hw hi
    exact ⟨hsqrt, hzero _ _ hrsqrt⟩
  case negative =>
    obtain ⟨hsqrt, hrsqrt⟩ := FpFmt.roots_of_negative (env := env) hs hz hn
    exact ⟨hinv _ hsqrt, hinv _ hrsqrt⟩
  case nan =>
    simp only [List.mem_cons, List.not_mem_nil, or_false] at hr
    rcases hr with rfl | rfl
    · exact f.withNaN_single x _
    · exact f.withNaN_single x _

end Sys2Proof.Machine

/-! PROOFS. Floating-point compare and conversion: FpConvert, FpCompare and FpConversionValues (spec/46_fp_cmp_cvt.md R470 to R494;
spec/45_fp_arith.md R413, R414, R417 to R419). -/

namespace Sys2Proof.Machine

/-! ## Conversions complete (R480 to R494) -/

/-- Settles O32: each conversion is its operation within the frame; the open word is the state's free word (log 37). -/
theorem fpConvert : Obligations.FpConvert := by
  intro s fd fj
  refine ⟨s.freeWord .ftint, fun hs p hp hv => ?single, fun hs => ⟨fun p hp hv => ?fromDouble, fun p hp hv => ?toDouble⟩⟩
  case single | fromDouble =>
    simp only [List.mem_cons, List.not_mem_nil, or_false] at hp
    rcases hp with rfl | rfl | rfl | rfl | rfl | rfl
    all_goals exact fpWritesW_of_ready hs hv
  case toDouble =>
    simp only [List.mem_cons, List.not_mem_nil, or_false] at hp
    rcases hp with rfl | rfl
    all_goals exact fpWritesD_of_ready hs hv

/-! ## Compare (R470 to R474) -/

/-- `r` completes a compare: fcc0 is `b`, fcsr0 holds the exceptions `e`; nothing else changes but the pc and the count of free
values. -/
def CompletesCompare (s : State) (b : Bool) (e : BitVec 5) (r : Result) : Prop :=
  ∃ t, r = .next t ∧ t.fcc0 = b ∧ FcsrAfter s t e ∧ t.pc = s.pc + 4 ∧ SameBytes s t ∧ (∀ k, t.readGpr k = s.readGpr k) ∧
    t = { s with fcc0 := t.fcc0, fcsr0 := t.fcsr0, pc := t.pc, draws := t.draws }

section
variable {s : State} {c e : BitVec 5}

theorem completesCompare_fpFinish (he : NoTrap s e) (b : Bool) :
    CompletesCompare s b e (fpFinish s e fun t => { t with fcc0 := b }) :=
  ⟨_, fpFinish_next.2 (.inr ⟨he, rfl⟩), rfl, fcsrAfter_raise rfl, rfl, fun _ => rfl, fun _ => rfl, rfl⟩

/-- FCMP within the frame, with a condition its table defines and cd = 0. -/
theorem completesCompare_of_ready {n : FpNeed} (hc : fcmpDefined c = true) (hs : FpReady n s) (he : NoTrap s e) (b : Bool) :
    CompletesCompare s b e
      (if fcmpDefined c then fpInstr n s (withFlagField 0 (fpFinish s e fun t => { t with fcc0 := b })) else raise .ine s) := by
  rw [if_pos hc, fpInstr_ready hs, withFlagField_zero]
  exact completesCompare_fpFinish he b

end

/-- The row of a condition as the model evaluates it: the relations it holds for and whether it signals (R471). -/
def fcmpRow (c : BitVec 5) : BitVec 5 × Bool × Bool × Bool × Bool × Bool :=
  (c, fcmpHolds c .lt, fcmpHolds c .eq, fcmpHolds c .gt, fcmpHolds c .un, c.getLsbD 0)

/-- Settles O33: each row of the table is the model's row of a condition it defines. -/
theorem fpCompare : Obligations.FpCompare := by
  intro s fj fk row hrow
  obtain ⟨c, rfl, hc⟩ : ∃ c, row = fcmpRow c ∧ fcmpDefined c = true := ⟨row.1, by revert row; decide⟩
  intro p hp f x y flags hs hflags
  have hcompletes : CompletesCompare s (fcmpHolds c (f.relate x y)) flags (exec p.1 s) := by
    simp only [List.mem_cons, List.not_mem_nil, or_false] at hp
    rcases hp with rfl | rfl
    all_goals exact completesCompare_of_ready hc hs hflags _
  obtain ⟨t, hexec, hfcc, hrest⟩ := hcompletes
  refine ⟨t, hexec, hfcc.trans ?_, hrest⟩
  cases f.relate x y <;> rfl

/-! ## The fields of a quiet NaN (R414) -/

namespace FpFmt

theorem or_two_pow_eq_self {x k : Nat} (h : x.testBit k = true) : x ||| 2 ^ k = x := by
  refine Nat.eq_of_testBit_eq fun i => ?_
  rw [Nat.testBit_or, Nat.testBit_two_pow]
  by_cases hi : k = i
  · rw [← hi, h, Bool.true_or]
  · rw [decide_eq_false hi, Bool.or_false]

section
variable {f : FpFmt} {neg : Bool} {m x : Nat}

theorem quieten_eq_or (f : FpFmt) (x : Nat) : f.quieten x = x ||| 2 ^ (f.fracBits - 1) := by
  cases hq : f.isQuiet x with
  | false => exact quieten_of_not_quiet hq
  | true =>
    rw [quieten, hq, if_pos rfl]
    exact (or_two_pow_eq_self hq).symm

theorem Wide.two_pow_quietBit_lt (hf : f.Wide) : 2 ^ (f.fracBits - 1) < 2 ^ f.fracBits :=
  Nat.pow_lt_pow_right (by decide) (by have := hf.frac; omega)

/-- Making a pattern quiet sets the top fraction bit and keeps the rest. -/
theorem Wide.quieten_fields (hf : f.Wide) (hx : f.pattern x) :
    f.pattern (f.quieten x) ∧ f.sign (f.quieten x) = f.sign x ∧ f.expField (f.quieten x) = f.expField x ∧
      f.fracField (f.quieten x) = 2 ^ (f.fracBits - 1) ||| f.fracField x := by
  have hlt := hf.two_pow_quietBit_lt
  have hbit : f.fracBits - 1 < f.signPos := by
    have := hf.frac
    unfold signPos
    omega
  rw [quieten_eq_or]
  refine ⟨Nat.or_lt_two_pow hx (Nat.pow_lt_pow_right (by decide) (by omega)), ?_, ?_, ?_⟩
  · rw [sign, Nat.testBit_or, Nat.testBit_two_pow_of_ne hbit.ne, Bool.or_false, sign]
  · rw [expField, Nat.or_div_two_pow, Nat.div_eq_of_lt hlt, Nat.or_zero, expField]
  · rw [fracField, Nat.or_mod_two_pow, Nat.mod_eq_of_lt hlt, Nat.or_comm, fracField]

/-- The pattern of a sign, the exponent field of infinities and NaNs, and a fraction. -/
theorem fields_of_special (hm : m < 2 ^ f.fracBits) :
    let x := f.withSign neg (f.expMax * 2 ^ f.fracBits + m)
    f.pattern x ∧ f.sign x = neg ∧ f.expField x = f.expMax ∧ f.fracField x = m := by
  have hlt : f.expMax * 2 ^ f.fracBits + m < 2 ^ f.signPos := by
    rw [two_pow_signPos]
    omega
  refine ⟨pattern_withSign hlt, sign_withSign hlt, ?_, ?_⟩
  · rw [expField_eq, magnitude_withSign hlt, Nat.mul_comm, Nat.mul_add_div f.two_pow_fracBits_pos, Nat.div_eq_of_lt hm,
      Nat.add_zero]
  · rw [fracField_eq, magnitude_withSign hlt, Nat.mul_add_mod', Nat.mod_eq_of_lt hm]

end

end FpFmt

/-! ## Between the formats (R480, R481) -/

/-- Scaling by the difference of two powers, in whichever direction it goes, is scaling by both. -/
theorem mul_two_pow_sub_div (m a b : Nat) : m * 2 ^ (a - b) / 2 ^ (b - a) = m * 2 ^ a / 2 ^ b := by
  rcases Nat.le_total a b with h | h
  · rw [Nat.sub_eq_zero_of_le h, pow_zero, Nat.mul_one, ← Nat.mul_div_mul_right m _ (Nat.two_pow_pos a), ← pow_add,
      Nat.sub_add_cancel h]
  · rw [Nat.sub_eq_zero_of_le h, pow_zero, Nat.div_one, ← Nat.mul_div_cancel (m * 2 ^ (a - b)) (Nat.two_pow_pos b),
      Nat.mul_assoc, ← pow_add, Nat.sub_add_cancel h]

section
variable {src dst f : FpFmt} {env : FpEnv} {x : Nat}

theorem convertFormat_of_isNaN (h : src.isNaN x = true) :
    convertFormat src dst env x = ⟨convertNaN src dst x, src.snanFlag [x]⟩ := if_pos h

theorem convertFormat_of_isInf (h : src.isInf x = true) : convertFormat src dst env x = ⟨dst.inf (src.sign x), 0⟩ := by
  rw [convertFormat, FpFmt.not_isNaN_of_isInf h, h]
  rfl

theorem convertFormat_of_finite (h : src.finite x) :
    convertFormat src dst env x = dst.roundOrZero env (src.sign x) (src.exactOfPattern x) := by
  rw [convertFormat, FpFmt.not_isNaN_of_finite h, FpFmt.not_isInf_of_finite h]
  rfl

theorem FpFmt.snanFlag_single (f : FpFmt) (x : Nat) : f.snanFlag [x] = if f.isSNaN x then 0x10 else 0 := by
  rw [FpFmt.snanFlag, List.any_cons, List.any_nil, Bool.or_false]
  rfl

/-- A NaN converted: its sign, and the high bits of its fraction under the quiet bit (R414). -/
theorem convertNaN_fields (hdst : dst.Wide) (src : FpFmt) (x : Nat) :
    let r := convertNaN src dst x
    dst.pattern r ∧ dst.sign r = src.sign x ∧ dst.expField r = dst.expMax ∧
      dst.fracField r = 2 ^ (dst.fracBits - 1) ||| src.fracField x * 2 ^ dst.fracBits / 2 ^ src.fracBits := by
  have hm : src.fracField x * 2 ^ dst.fracBits / 2 ^ src.fracBits < 2 ^ dst.fracBits := by
    rw [Nat.div_lt_iff_lt_mul (by positivity), Nat.mul_comm]
    exact Nat.mul_lt_mul_of_pos_left (src.fracField_lt x) (by positivity)
  obtain ⟨hpattern, hsign, hexp, hfrac⟩ := FpFmt.fields_of_special (neg := src.sign x) hm
  obtain ⟨hpattern', hsign', hexp', hfrac'⟩ := hdst.quieten_fields hpattern
  simp only [convertNaN, mul_two_pow_sub_div]
  exact ⟨hpattern', hsign'.trans hsign, hexp'.trans hexp, by rw [hfrac', hfrac]⟩

theorem FpFmt.Wide.finite_of_isZero (hf : f.Wide) (hx : f.pattern x) (hz : f.isZero x = true) : f.finite x := by
  refine FpFmt.finite_of_number hx (FpFmt.not_isNaN_of_isZero hz) (Bool.eq_false_iff.2 fun hi => ?_)
  rw [hf.not_isZero_of_isInf hi] at hz
  cases hz

theorem FpFmt.cast_value_eq_zero_iff : (f.value x : ℝ) = 0 ↔ f.significand x = 0 := by
  rw [FpFmt.cast_value, mul_eq_zero_iff_right (two_zpow_pos _).ne', cast_signedInt]
  cases f.sign x <;> simp

/-- A finite value is rounded once into the other format; a zero is the zero of its sign. -/
theorem convertFormat_spec (hdst : dst.Wide) (env : FpEnv) (hx : src.finite x) :
    ((src.value x : ℝ) ≠ 0 → RoundsTo dst env (src.value x : ℝ) (convertFormat src dst env x)) ∧
      ((src.value x : ℝ) = 0 → (convertFormat src dst env x).flags = 0 ∧
        dst.IsZero (src.sign x) (convertFormat src dst env x).bits) := by
  rw [convertFormat_of_finite hx]
  refine FpFmt.roundOrZero_spec hdst env FpFmt.cast_value_eq_zero_iff.symm fun hne => ?_
  rw [FpFmt.cast_value]
  exact stands_signed (fun h => hne (FpFmt.cast_value_eq_zero_iff.2 h)) _

/-! ## From an integer (R482, R483) -/

theorem FpFmt.ofInt_spec (hf : f.Wide) (env : FpEnv) (n : Int) :
    (n ≠ 0 → RoundsTo f env n (f.ofInt env n)) ∧ f.ofInt env 0 = ⟨0, 0⟩ := by
  refine ⟨fun hn => ?_, rfl⟩
  have hstands : (exactOfInt n 0).Stands f n := by simpa using stands_exactOfInt (f := f) hn 0
  rw [FpFmt.ofInt, FpFmt.roundOrZero, if_neg hstands.nonzero]
  exact FpFmt.roundsTo_round hstands hf env

/-! ## To a word (R484 to R494) -/

theorem FpFmt.cast_value_eq_signed_abs (f : FpFmt) (x : Nat) :
    (f.value x : ℝ) = (if f.sign x then -1 else 1) * |(f.value x : ℝ)| := by
  rw [f.abs_value, f.value_eq]
  push_cast
  cases f.sign x <;> simp

theorem FpFmt.hasMagnitude_exactOfPattern (f : FpFmt) (x : Nat) : (f.exactOfPattern x).HasMagnitude |(f.value x : ℝ)| := by
  refine ⟨f.significand x, ?_, rfl⟩
  rw [FpFmt.cast_value, cast_signedInt, abs_mul, abs_mul, abs_of_pos (two_zpow_pos _), Nat.abs_cast]
  cases f.sign x <;> simp [FpFmt.exactOfPattern]

theorem FpFmt.value_eq_signedInt_iff (f : FpFmt) (x n : Nat) : f.value x = signedInt (f.sign x) n ↔ |(f.value x : ℝ)| = n := by
  rw [← Rat.cast_inj (α := ℝ), FpFmt.cast_value_eq_signed_abs, Rat.cast_intCast, cast_signedInt]
  cases f.sign x <;> simp

/-- A pattern rounded to an integer in a mode, and when that is inexact (R494). -/
theorem FpFmt.toIntegral_spec (f : FpFmt) (mode : RoundMode) (x : Nat) :
    ∃ n : Nat, (f.toIntegral mode x).1 = signedInt (f.sign x) n ∧ RoundedAt mode (f.sign x) |(f.value x : ℝ)| 1 n ∧
      ((f.toIntegral mode x).2 = true ↔ f.value x ≠ signedInt (f.sign x) n) := by
  obtain ⟨hround, hinexact⟩ := Exact.roundTo_spec (q := 0) mode (f.hasMagnitude_exactOfPattern x) nofun
  rw [zpow_zero] at hround
  rw [zpow_zero, mul_one] at hinexact
  exact ⟨_, rfl, hround, hinexact.trans (f.value_eq_signedInt_iff x _).not.symm⟩

section
variable {mode : RoundMode} {bad : Word}

theorem FpFmt.toSint32_of_not_finite (h : f.isNaN x = true ∨ f.isInf x = true) : f.toSint32 mode bad x = ⟨bad.toNat, 0x10⟩ := by
  refine if_pos ?_
  rcases h with h | h <;> simp [h]

theorem FpFmt.toSint32_of_finite (h : f.finite x) :
    f.toSint32 mode bad x =
      if (f.toIntegral mode x).1 < -2 ^ 31 ∨ 2 ^ 31 ≤ (f.toIntegral mode x).1 then ⟨bad.toNat, 0x10⟩
      else ⟨(BitVec.ofInt 32 (f.toIntegral mode x).1).toNat, if (f.toIntegral mode x).2 then 0x01 else 0⟩ := by
  simp only [FpFmt.toSint32, FpFmt.not_isNaN_of_finite h, FpFmt.not_isInf_of_finite h, Bool.false_or, Bool.or_eq_true,
    decide_eq_true_eq]
  rfl

/-- A finite value to a word: rounded to an integer, I when that is inexact; V when it does not fit. -/
theorem FpFmt.toSint32_spec (mode : RoundMode) (bad : Word) (h : f.finite x) :
    ∃ n : Nat, RoundedAt mode (f.sign x) |(f.value x : ℝ)| 1 n ∧
      let i := signedInt (f.sign x) n
      (-2 ^ 31 ≤ i → i < 2 ^ 31 → f.toSint32 mode bad x =
        ⟨(BitVec.ofInt 32 i).toNat, if f.value x = i then 0 else 0x01⟩) ∧
      (i < -2 ^ 31 ∨ 2 ^ 31 ≤ i → f.toSint32 mode bad x = ⟨bad.toNat, 0x10⟩) := by
  obtain ⟨n, hn, hround, hinexact⟩ := f.toIntegral_spec mode x
  rw [FpFmt.toSint32_of_finite h, hn]
  refine ⟨n, hround, fun hlo hhi => ?fits, fun hout => if_pos hout⟩
  case fits =>
    rw [if_neg (by omega)]
    by_cases heq : f.value x = signedInt (f.sign x) n
    · rw [if_pos heq, if_neg fun hi => hinexact.1 hi heq]
    · rw [if_neg heq, if_pos (hinexact.2 heq)]

end

end

/-- Settles O44: every conversion to a number is one rounding of an exact value; a NaN keeps its sign and high fraction bits. -/
theorem fpConversionValues : Obligations.FpConversionValues := by
  refine ⟨fun f hf env n => FpFmt.ofInt_spec (FpFmt.wide_of_mem hf) env n, fun p hp env x hx => ?formats,
    fun f _ mode bad x => ⟨FpFmt.toSint32_spec mode bad, FpFmt.toSint32_of_not_finite⟩⟩
  case formats =>
    obtain ⟨hsrc, hdst⟩ : p.1.Wide ∧ p.2.Wide := by
      simp only [List.mem_cons, List.not_mem_nil, or_false] at hp
      rcases hp with rfl | rfl <;> exact ⟨FpFmt.wide_of_mem (by simp), FpFmt.wide_of_mem (by simp)⟩
    refine ⟨fun hfin hne => ?_, fun hz => ?_, fun hinf => ?_, fun hnan => ?_⟩
    · exact (convertFormat_spec hdst env hfin).1 (Rat.cast_ne_zero.2 hne)
    · exact (convertFormat_spec hdst env (hsrc.finite_of_isZero hx hz)).2 (Rat.cast_eq_zero.2 (FpFmt.value_eq_zero_iff.2 hz))
    · rw [convertFormat_of_isInf hinf]
      exact ⟨rfl, FpFmt.IsInf_inf p.2 _⟩
    · rw [convertFormat_of_isNaN hnan]
      exact ⟨p.1.snanFlag_single x, convertNaN_fields hdst p.1 x⟩

end Sys2Proof.Machine

/-! PROOFS. Floating-point moves, branches, loads and stores: FpMoves, FpMemory and FpBranches (spec/47_fp_move_branch_mem.md R500 to
R523; spec/10_state.md R39, R40). -/

namespace Sys2Proof.Machine

/-! ## The low bit and the two words of a value -/

/-- The flag as a doubleword, every other bit 0 (R511). -/
theorem zero_append_wordOfBool (b : Bool) : (0 : Word) ++ wordOfBool b = (if b then 1 else 0 : DWord) := by
  cases b <;> rfl

theorem getLsbD_zero_eq (v : Word) : v.getLsbD 0 = (v.toNat % 2 == 1) :=
  (BitVec.testBit_toNat v).symm.trans (Nat.testBit_zero v.toNat)

section
variable {s : State} {r : RegNum}

theorem extractHi_readFprD : (s.readFprD r).extractLsb' 32 32 = (s.readFpr r).hi := BitVec.extractLsb'_append_eq_left

theorem extractLo_readFprD : (s.readFprD r).extractLsb' 0 32 = (s.readFpr r).lo := BitVec.extractLsb'_append_eq_right

end

/-! ## Moves (R500 to R506, R510 to R513) -/

section
variable {s : State} {n : FpNeed} {rd : RegNum}

theorem writesGpr_of_ready (hs : FpReady n s) {v w : Word} (h : v = w) : WritesGpr s rd w (fpInstr n s (s.retireGpr rd v)) := by
  rw [fpInstr_ready hs]
  exact writesGpr_retireGpr_of_eq h

theorem movesFprD_writeFpr_of_ready (hs : FpReady n s) {v : FReg} {w : DWord} (h : v.hi ++ v.lo = w) :
    MovesFprD s rd w (fpInstr n s (s.writeFpr rd v).retire) := by
  rw [fpInstr_ready hs, ← h]
  exact movesFprD_writeFpr s rd v

theorem writesFlag_of_ready (hs : FpReady n s) {b c : Bool} (h : b = c) :
    WritesFlag s c (fpInstr n s { s with fcc0 := b }.retire) := by
  rw [fpInstr_ready hs, h]
  exact ⟨_, rfl, rfl, rfl, fun _ => rfl, rfl⟩

end

/-! ## fcsr0: its fields and its views (R39, R40) -/

/-- The rounding mode is the one of fcsr0[9:8] (R39). -/
theorem roundMode_of_field {s : State} {p : Nat × RoundMode}
    (hp : p ∈ [(0, RoundMode.rne), (1, .rz), (2, .rp), (3, .rm)]) (hmode : s.fcsr0.toNat / 2 ^ 8 % 4 = p.1) :
    s.roundMode = p.2 := by
  have hfield : (s.fcsr0.extractLsb' 8 2).toNat = p.1 := by
    rw [BitVec.extractLsb'_toNat, Nat.shiftRight_eq_div_pow]
    exact hmode
  simp only [List.mem_cons, List.not_mem_nil, or_false] at hp
  rcases hp with rfl | rfl | rfl | rfl
  all_goals simp only [State.roundMode, hfield]

theorem toNat_enables (s : State) : s.enables.toNat = s.fcsr0.toNat % 2 ^ 5 := BitVec.extractLsb'_toNat ..

theorem getLsbD_enables (s : State) {b : Nat} (hb : b < 5) : s.enables.getLsbD b = s.fcsr0.getLsbD b := by
  rw [State.enables, BitVec.getLsbD_extractLsb', decide_eq_true hb, Bool.true_and, Nat.zero_add]

/-- No raised exception is enabled, bit by bit. -/
theorem noTrap_iff {s : State} {e : BitVec 5} : NoTrap s e ↔ ∀ b, b < 5 → ¬ (e.getLsbD b ∧ s.fcsr0.getLsbD b) := by
  have hbit (b : Nat) (hb : b < 5) : (e &&& s.enables).getLsbD b = (e.getLsbD b && s.fcsr0.getLsbD b) := by
    rw [BitVec.getLsbD_and, getLsbD_enables s hb]
  constructor
  · rintro h b hb ⟨hraised, henabled⟩
    have hset := hbit b hb
    rw [show e &&& s.enables = 0 from h, hraised, henabled] at hset
    simp at hset
  · intro h
    refine BitVec.eq_of_getLsbD_eq fun b hb => ?_
    rw [hbit b hb]
    simpa using h b hb

/-- Replacing bits inside a mask leaves those outside it. -/
theorem setBits_and_not (old m v : Word) : setBits old m v &&& ~~~m = old &&& ~~~m := by
  refine BitVec.eq_of_getLsbD_eq fun b hb => ?_
  rw [BitVec.getLsbD_and, BitVec.getLsbD_and, BitVec.getLsbD_not, getLsbD_setBits]
  cases m.getLsbD b <;> simp

/-- The numbers of R40, each with the bits of fcsr0 it views, are those of the model, and view writable bits only. -/
theorem fcsrViewMask_of_mem {p : BitVec 5 × Word}
    (hp : p ∈ [(0#5, 0x1F1F031F#32), (1#5, 0x0000001F#32), (2#5, 0x1F1F0000#32), (3#5, 0x00000300#32)]) :
    fcsrViewMask p.1 = some p.2 ∧ fcsrMask &&& p.2 = p.2 := by
  simp only [List.mem_cons, List.not_mem_nil, or_false] at hp
  rcases hp with rfl | rfl | rfl | rfl
  all_goals exact ⟨rfl, by decide⟩

theorem fcsrViewMask_of_four_le {i : BitVec 5} (hi : 4 ≤ i.toNat) : fcsrViewMask i = none := by
  revert i
  decide

section
variable {s : State} {r : RegNum} {i : BitVec 5} {m : Word}

theorem exec_movgr2fcsr_view (hs : FpReady .single s) (hm : fcsrViewMask i = some m) :
    exec (.movgr2fcsr i r) s = .next { s with fcsr0 := setBits s.fcsr0 m (s.readGpr r) }.advance := by
  change execMovgr2fcsr i r s = _
  rw [execMovgr2fcsr, fpInstr_ready hs, hm]
  rfl

theorem exec_movgr2fcsr_noView (hs : FpReady .single s) (hm : fcsrViewMask i = none) :
    exec (.movgr2fcsr i r) s = .next { s with fcsr0 := setBits s.fcsr0 fcsrMask (s.freeWord .fcsr) }.drawn.advance := by
  change execMovgr2fcsr i r s = _
  rw [execMovgr2fcsr, fpInstr_ready hs, hm]
  rfl

theorem exec_movfcsr2gr_view (hs : FpReady .single s) (hm : fcsrViewMask i = some m) :
    exec (.movfcsr2gr r i) s = s.retireGpr r (s.readFcsr &&& m) := by
  change execMovfcsr2gr r i s = _
  rw [execMovfcsr2gr, fpInstr_ready hs, hm]

theorem exec_movfcsr2gr_noView (hs : FpReady .single s) (hm : fcsrViewMask i = none) :
    exec (.movfcsr2gr r i) s = s.drawn.retireGpr r (s.freeWord .fcsr) := by
  change execMovfcsr2gr r i s = _
  rw [execMovfcsr2gr, fpInstr_ready hs, hm]

end

theorem readFcsr_and_of_writable (s : State) {m : Word} (hm : fcsrMask &&& m = m) : s.readFcsr &&& m = s.fcsr0 &&& m := by
  rw [State.readFcsr, BitVec.and_assoc, hm]

/-- Settles O34: the moves copy bits within the frame; the writable bits, the views and the fields of fcsr0 are the model's. -/
theorem fpMoves : Obligations.FpMoves := by
  refine ⟨fun s fd fj fk r => ⟨fun hs => ?single, fun hs => ?double⟩,
    fun s r hs => ⟨fun p hp => ?views, fun i hi => ?noView⟩, fun s => ?fields⟩
  case single =>
    refine ⟨movesFprW_of_ready hs rfl, movesFprD_writeFpr_of_ready hs ?fsel, movesFprW_of_ready hs rfl,
      movesFprD_writeFpr_of_ready hs (zero_append_wordOfBool s.fcc0), writesGpr_of_ready hs rfl,
      writesGpr_of_ready hs rfl, writesFlag_of_ready hs (getLsbD_zero_eq _),
      writesFlag_of_ready hs (getLsbD_zero_eq _)⟩
    case fsel => exact apply_ite (fun v : FReg => v.hi ++ v.lo) ..
  case double =>
    exact ⟨movesFprD_writeFpr_of_ready hs rfl,
      movesFprD_writeFpr_of_ready hs (congrArg (s.readGpr r ++ ·) extractLo_readFprD.symm),
      writesGpr_of_ready hs extractHi_readFprD.symm⟩
  case views =>
    obtain ⟨hview, hwritable⟩ := fcsrViewMask_of_mem hp
    refine ⟨⟨_, exec_movgr2fcsr_view hs hview, fun b _ => getLsbD_setBits .., rfl, fun _ => rfl, fun _ => rfl, rfl⟩, ?_⟩
    rw [exec_movfcsr2gr_view hs hview]
    exact writesGpr_retireGpr_of_eq (readFcsr_and_of_writable s hwritable)
  case noView =>
    have hview := fcsrViewMask_of_four_le hi
    refine ⟨⟨_, exec_movgr2fcsr_noView hs hview, setBits_and_not _ fcsrMask _, rfl, rfl⟩, ?_⟩
    obtain ⟨t, hexec, hgpr, hpc, -, hframe⟩ := writesGpr_retireGpr s.drawn r (s.freeWord .fcsr)
    refine ⟨t, _, (exec_movfcsr2gr_noView hs hview).trans hexec, hgpr, hpc, ?_⟩
    rw [hframe]
    rfl
  case fields =>
    exact ⟨fun p hp => roundMode_of_field hp, toNat_enables s, fun e => noTrap_iff, rfl, getLsbD_enables s (by decide)⟩

/-! ## Loads and stores (R519 to R523) -/

section
variable {s : State} {va : Word} {n : Nat} {t : Translated}

/-- A load past its checks goes on with the number its bytes spell. -/
theorem memRead_run_of_accessOk (h : AccessOk s va n .load t) (k : DWord → Result) :
    (memRead s va n).run s k = k (s.mem.loadLE t.pa n) := by
  rw [memRead_ok.2 ⟨t, h, rfl⟩, Res.run_ok]

theorem stores_of_ready {need : FpNeed} (hs : FpReady need s) (hmem : s.mem.wf = true) (h : AccessOk s va n .store t) (v : DWord) :
    Stores s t.pa n v.toNat (fpInstr need s ((memWrite s va n v).run s fun u => u.retire)) := by
  rw [fpInstr_ready hs, memWrite_ok.2 ⟨t, h, rfl⟩, Res.run_ok]
  exact stores_of_memWrite hmem

end

theorem loadLE_eight (s : State) (pa : Nat) : s.mem.loadLE pa 8 = BitVec.ofNat 64 (s.natAt pa 8) := by
  rw [← State.toNat_loadLE s pa 8 le_rfl, BitVec.ofNat_toNat, BitVec.setWidth_eq]

/-- Settles O36: past its checks each load is a move of the bytes it reads, and each store that of its value. -/
theorem fpMemory : Obligations.FpMemory := by
  intro s fd rj i12 t hmem va
  refine ⟨fun hs => ⟨fun h => ?fldS, fun h => ?fstS⟩, fun hs => ⟨fun h => ?fldD, fun h => stores_of_ready hs hmem h _⟩⟩
  case fldS =>
    change MovesFprW s fd _ (execFldS fd rj i12 s)
    rw [execFldS, memRead_run_of_accessOk h]
    exact movesFprW_of_ready hs (extractLow_loadLE s t.pa (by decide) (by decide))
  case fstS => exact toNat_storeValue (s.readFprW fd) ▸ stores_of_ready hs hmem h _
  case fldD =>
    change MovesFprD s fd _ (execFldD fd rj i12 s)
    rw [execFldD, memRead_run_of_accessOk h]
    exact movesFprD_of_ready hs (loadLE_eight s t.pa)

/-! ## Branches, and condition fields other than 0 (R515, R516) -/

theorem sext21x4_eq_ofInt (i : BitVec 21) : sext21x4 i = BitVec.ofInt 32 (i.toInt * 4) := signExtend_append_zero_eq_ofInt i

section
variable {s : State} {n : FpNeed}

/-- A floating-point instruction with a condition field of 1 to 7 is refused (D7). -/
theorem refused_of_ready (hs : FpReady n s) {c : BitVec 3} (hc : c ≠ 0) (k : Result) :
    fpInstr n s (withFlagField c k) = .refused .noSuchConditionFlag := by
  rw [fpInstr_ready hs, withFlagField_ne hc]

theorem movesTo_branch_of_ready (hs : FpReady n s) {taken : Bool} {cond : Prop} [Decidable cond] (hc : taken = decide cond)
    (o21 : BitVec 21) :
    MovesTo s (BitVec.ofInt 32 (s.pc.toNat + if cond then o21.toInt * 4 else 4))
      (fpInstr n s (withFlagField 0 (s.branch taken (sext21x4 o21)))) := by
  rw [fpInstr_ready hs, withFlagField_zero]
  simpa only [decide_eq_true_eq] using movesTo_branch_of_eq hc (sext21x4_eq_ofInt o21)

end

/-- Settles O35: BCEQZ branches on the flag inverted; every instruction with a condition field checks it within the frame. -/
theorem fpBranches : Obligations.FpBranches := by
  intro s o21 c cond r r' r'' hs
  refine ⟨movesTo_branch_of_ready hs Bool.decide_eq_false.symm o21, movesTo_branch_of_ready hs Bool.decide_eq_true.symm o21,
    fun hc => ⟨fun i hi => ?fields, fun hcond => ⟨?fcmpS, fun hd => ?fcmpD⟩⟩⟩
  case fields =>
    simp only [List.mem_cons, List.not_mem_nil, or_false] at hi
    rcases hi with rfl | rfl | rfl | rfl | rfl | rfl | rfl
    all_goals exact refused_of_ready hs hc _
  case fcmpS => exact (if_pos hcond).trans (refused_of_ready hs hc _)
  case fcmpD => exact (if_pos hcond).trans (refused_of_ready hd hc _)

end Sys2Proof.Machine

/-! PROOFS. Fields of words; exception entry and return (spec/60_exceptions.md R610, R620 to R624; spec/48_priv.md R550). -/

namespace Sys2Proof.Machine

/-! ## Fields of a word -/

section
variable {m : Word} {start len : Nat}

/-- A field all of whose bits are replaced is the new one. -/
theorem extract_setBits_of_masked (hm : ∀ i < len, m.getLsbD (start + i) = true) (old v : Word) :
    (setBits old m v).extractLsb' start len = v.extractLsb' start len := by
  apply BitVec.eq_of_getLsbD_eq
  intro i hi
  rw [BitVec.getLsbD_extractLsb', BitVec.getLsbD_extractLsb', getLsbD_setBits, hm i hi, if_pos rfl]

/-- A field none of whose bits is replaced is the old one. -/
theorem extract_setBits_of_unmasked (hm : ∀ i < len, m.getLsbD (start + i) = false) (old v : Word) :
    (setBits old m v).extractLsb' start len = old.extractLsb' start len := by
  apply BitVec.eq_of_getLsbD_eq
  intro i hi
  rw [BitVec.getLsbD_extractLsb', BitVec.getLsbD_extractLsb', getLsbD_setBits, hm i hi, if_neg Bool.false_ne_true]

theorem extract_and_of_masked (hm : ∀ i < len, m.getLsbD (start + i) = true) (w : Word) :
    (w &&& m).extractLsb' start len = w.extractLsb' start len := by
  apply BitVec.eq_of_getLsbD_eq
  intro i hi
  rw [BitVec.getLsbD_extractLsb', BitVec.getLsbD_extractLsb', BitVec.getLsbD_and, hm i hi, Bool.and_true]

theorem extract_and_of_unmasked (hm : ∀ i < len, m.getLsbD (start + i) = false) (w : Word) :
    (w &&& m).extractLsb' start len = 0 := by
  apply BitVec.eq_of_getLsbD_eq
  intro i hi
  rw [BitVec.getLsbD_extractLsb', getLsbD_and_clear w (hm i hi), Bool.and_false]
  exact BitVec.getLsbD_zero.symm

end

/-! ## Exception entry (R610, R620, R621) -/

section
variable {e : Exc} (c : Word)

theorem Exc.crmdAfter_of_refill (h : e.isRefill = true) : e.crmdAfter c = setBits c 0x1F 0x08 := if_pos h

theorem Exc.crmdAfter_of_not_refill (h : e.isRefill = false) : e.crmdAfter c = setBits c 0x07 0 :=
  if_neg (Bool.eq_false_iff.1 h)

end

section
variable (e : Exc) (s : State)

/-- Entry raises the level to PLV0, disables interrupts and keeps the bits of CRMD above DA and PG. -/
theorem enterException_crmd : (enterException e s).plv = 0 ∧ (enterException e s).ie = false ∧
    (enterException e s).csr.crmd.extractLsb' 5 27 = s.csr.crmd.extractLsb' 5 27 := by
  change (e.crmdAfter s.csr.crmd).extractLsb' 0 2 = 0 ∧ (e.crmdAfter s.csr.crmd).getLsbD 2 = false ∧
    (e.crmdAfter s.csr.crmd).extractLsb' 5 27 = _
  cases h : e.isRefill with
  | false =>
    rw [Exc.crmdAfter_of_not_refill _ h, extract_setBits_of_masked (by decide), extract_setBits_of_unmasked (by decide), getLsbD_setBits]
    exact ⟨rfl, rfl, rfl⟩
  | true =>
    rw [Exc.crmdAfter_of_refill _ h, extract_setBits_of_masked (by decide), extract_setBits_of_unmasked (by decide), getLsbD_setBits]
    exact ⟨rfl, rfl, rfl⟩

variable {e} in
/-- A TLB refill is entered in direct mode. -/
theorem enterException_mode_of_refill (h : e.isRefill = true) :
    (enterException e s).da = true ∧ (enterException e s).pg = false := by
  change (e.crmdAfter s.csr.crmd).getLsbD 3 = true ∧ (e.crmdAfter s.csr.crmd).getLsbD 4 = false
  rw [Exc.crmdAfter_of_refill _ h, getLsbD_setBits, getLsbD_setBits]
  exact ⟨rfl, rfl⟩

variable {e} in
/-- Every other exception is entered in the mode it is taken in. -/
theorem enterException_mode_of_not_refill (h : e.isRefill = false) :
    (enterException e s).da = s.da ∧ (enterException e s).pg = s.pg := by
  change (e.crmdAfter s.csr.crmd).getLsbD 3 = _ ∧ (e.crmdAfter s.csr.crmd).getLsbD 4 = _
  rw [Exc.crmdAfter_of_not_refill _ h, getLsbD_setBits, getLsbD_setBits]
  exact ⟨rfl, rfl⟩

/-- PRMD takes PLV and IE from CRMD and keeps its other bits. -/
theorem enterException_prmd : (enterException e s).csr.prmd.extractLsb' 0 2 = s.csr.crmd.extractLsb' 0 2 ∧
    (enterException e s).csr.prmd.getLsbD 2 = s.csr.crmd.getLsbD 2 ∧
    (enterException e s).csr.prmd.extractLsb' 3 29 = s.csr.prmd.extractLsb' 3 29 :=
  ⟨extract_setBits_of_masked (by decide) _ _, getLsbD_setBits _ 0x07 _ 2, extract_setBits_of_unmasked (by decide) _ _⟩

/-- The codes as they stand in ESTAT. -/
theorem extract_estatCodes (c : BitVec 6) (sub : BitVec 9) : let w : Word := c.setWidth 32 <<< 16 ||| sub.setWidth 32 <<< 22
    w.extractLsb' 16 6 = c ∧ w.extractLsb' 22 9 = sub := by
  constructor
  · apply BitVec.eq_of_getLsbD_eq
    intro i hi
    interval_cases i <;> simp
  · apply BitVec.eq_of_getLsbD_eq
    intro i hi
    interval_cases i <;> simp

/-- ESTAT takes the two codes and keeps its other bits. -/
theorem enterException_estat : (enterException e s).csr.estat.extractLsb' 16 6 = e.ecode ∧
    (enterException e s).csr.estat.extractLsb' 22 9 = e.esubcode ∧
    (enterException e s).csr.estat &&& 0x8000FFFF = s.csr.estat &&& 0x8000FFFF := by
  obtain ⟨hcode, hsub⟩ := extract_estatCodes e.ecode e.esubcode
  exact ⟨(extract_setBits_of_masked (by decide) _ _).trans hcode, (extract_setBits_of_masked (by decide) _ _).trans hsub,
    setBits_and_not _ 0x7FFF0000 _⟩

theorem enterException_ecode : (enterException e s).ecode = e.ecode := by
  obtain ⟨hcode, -⟩ := enterException_estat e s
  exact hcode

/-- An entry address has its low 6 bits 0. -/
theorem extract_entryAddress (w : Word) : (w &&& 0xFFFFFFC0).extractLsb' 6 26 = w.extractLsb' 6 26 ∧
    (w &&& 0xFFFFFFC0).extractLsb' 0 6 = 0 :=
  ⟨extract_and_of_masked (by decide) w, extract_and_of_unmasked (by decide) w⟩

/-- TLBEHI takes bits 31:13 of the address. -/
theorem extract_pageAddress (va : Word) : (va &&& 0xFFFFE000).extractLsb' 13 19 = va.extractLsb' 13 19 ∧
    (va &&& 0xFFFFE000).extractLsb' 0 13 = 0 :=
  ⟨extract_and_of_masked (by decide) va, extract_and_of_unmasked (by decide) va⟩

/-- An exception is entered at EENTRY or at TLBRENTRY (R621). -/
theorem Exc.entry_cases (c : Csrs) : e.entry c = c.eentry &&& 0xFFFFFFC0 ∨ e.entry c = c.tlbrentry &&& 0xFFFFFFC0 := by
  unfold Exc.entry
  split
  · exact .inr rfl
  · exact .inl rfl

end

/-- Settles O8: field by field; where the statement names the exceptions, by the cases of the exception. -/
theorem exceptionEntry : Obligations.ExceptionEntry := by
  intro e s
  obtain ⟨hplv, hie, hupper⟩ := enterException_crmd e s
  obtain ⟨hpplv, hpie, hprmd⟩ := enterException_prmd e s
  obtain ⟨hcode, hsub, hestat⟩ := enterException_estat e s
  refine ⟨_, rfl, hpplv, hpie, hprmd, hplv, hie, hupper, ?mode, ?codes, hestat, rfl, ?badv, ?tlbehi, ?entry, ?align, rfl, rfl⟩
  case mode =>
    cases e with
    | tlbr => exact enterException_mode_of_refill s rfl
    | _ => exact enterException_mode_of_not_refill s rfl
  case codes =>
    rw [hcode, hsub]
    cases e <;> rfl
  case badv => cases e <;> rfl
  case tlbehi =>
    cases e with
    | tlbr va | pil va | pis va | pif va | pme va | ppi va => exact extract_pageAddress va
    | _ => rfl
  case entry =>
    cases e with
    | tlbr => exact (extract_entryAddress s.csr.tlbrentry).1
    | _ => exact (extract_entryAddress s.csr.eentry).1
  case align => exact (extract_entryAddress _).2

/-! ## Exception return (R550, R624) -/

section
variable (c : Csrs)

theorem crmdAfterReturn_of_refill (h : c.estat.extractLsb' 16 6 = 0x3F#6) :
    crmdAfterReturn c = setBits (setBits c.crmd 0x07 c.prmd) 0x18 0x10 := if_pos h

theorem crmdAfterReturn_of_not_refill (h : c.estat.extractLsb' 16 6 ≠ 0x3F#6) :
    crmdAfterReturn c = setBits c.crmd 0x07 c.prmd := if_neg h

end

/-- Level and enable come from PRMD, the mode changes after a TLB refill only, and the bits of CRMD above it stay. -/
theorem returnFromException_crmd (s : State) : let t := returnFromException s
    t.plv = s.csr.prmd.extractLsb' 0 2 ∧ t.ie = s.csr.prmd.getLsbD 2 ∧
    (t.da, t.pg) = (if s.csr.estat.extractLsb' 16 6 = 0x3F#6 then (false, true) else (s.da, s.pg)) ∧
    t.csr.crmd.extractLsb' 5 27 = s.csr.crmd.extractLsb' 5 27 := by
  change (crmdAfterReturn s.csr).extractLsb' 0 2 = _ ∧ (crmdAfterReturn s.csr).getLsbD 2 = _ ∧
    ((crmdAfterReturn s.csr).getLsbD 3, (crmdAfterReturn s.csr).getLsbD 4) = _ ∧ (crmdAfterReturn s.csr).extractLsb' 5 27 = _
  by_cases h : s.csr.estat.extractLsb' 16 6 = 0x3F#6
  · rw [crmdAfterReturn_of_refill _ h, if_pos h]
    exact ⟨(extract_setBits_of_unmasked (by decide) _ _).trans (extract_setBits_of_masked (by decide) _ _),
      (getLsbD_setBits _ 0x18 _ 2).trans (getLsbD_setBits _ 0x07 _ 2),
      congrArg₂ Prod.mk (getLsbD_setBits _ 0x18 0x10 3) (getLsbD_setBits _ 0x18 0x10 4),
      (extract_setBits_of_unmasked (by decide) _ _).trans (extract_setBits_of_unmasked (by decide) _ _)⟩
  · rw [crmdAfterReturn_of_not_refill _ h, if_neg h]
    exact ⟨extract_setBits_of_masked (by decide) _ _, getLsbD_setBits _ 0x07 _ 2,
      congrArg₂ Prod.mk (getLsbD_setBits _ 0x07 _ 3) (getLsbD_setBits _ 0x07 _ 4), extract_setBits_of_unmasked (by decide) _ _⟩

/-- KLO works once: it is bit 2 of LLBCTL, and the only one cleared. -/
theorem getLsbD_clearKlo (w : Word) (b : Nat) : (setBits w 0x04 0).getLsbD b = (w.getLsbD b && b != 2) := by
  have hmask : (0x04 : Word).getLsbD b = (b == 2) := by
    rw [show (0x04 : Word) = BitVec.twoPow 32 2 by decide, BitVec.getLsbD_twoPow]
    simp [beq_eq_decide, eq_comm]
  rw [getLsbD_setBits, hmask, bne]
  cases b == 2 <;> simp

/-- Settles O9. -/
theorem ertnReturns : Obligations.ErtnReturns := by
  intro s hplv
  obtain ⟨hlevel, hie, hmode, hupper⟩ := returnFromException_crmd s
  refine ⟨returnFromException s, privileged_zero hplv, rfl, hlevel, hie, hmode, hupper, ?llbit, getLsbD_clearKlo s.csr.llbctl, rfl,
    fun _ => rfl, fun _ => rfl, rfl⟩
  change (s.llbit && s.csr.llbctl.getLsbD 2) = _
  cases s.csr.llbctl.getLsbD 2 <;> simp

/-! ## Entry, then return (R623, R624) -/

/-- No exception but a TLB refill has its code. -/
theorem Exc.ecode_eq_refill_iff (e : Exc) : e.ecode = 0x3F#6 ↔ e.isRefill = true := by
  cases e <;> simp [Exc.ecode, Exc.isRefill]

/-- Bits replaced, and then put back as they were. -/
theorem setBits_restore (c p m v : Word) : setBits (setBits c m v) m (setBits p m c) = c := by
  apply BitVec.eq_of_getLsbD_eq
  intro i _
  simp only [getLsbD_setBits]
  cases m.getLsbD i <;> rfl

/-- After a TLB refill taken in mapped mode PLV and IE are put back from PRMD, and DA and PG to the ones of that mode. -/
theorem setBits_restore_mapped {c : Word} (hda : c.getLsbD 3 = false) (hpg : c.getLsbD 4 = true) (p : Word) :
    setBits (setBits (setBits c 0x1F 0x08) 0x07 (setBits p 0x07 c)) 0x18 0x10 = c := by
  have hmasks : ∀ i < 32, (0x18 : Word).getLsbD i = (i == 3 || i == 4) ∧
      ((0x07 : Word).getLsbD i = false → i ≠ 3 → i ≠ 4 → (0x1F : Word).getLsbD i = false) := by decide
  apply BitVec.eq_of_getLsbD_eq
  intro i hi
  obtain ⟨hmode, hrest⟩ := hmasks i hi
  simp only [getLsbD_setBits, hmode]
  by_cases h3 : i = 3
  · subst h3; exact hda.symm
  by_cases h4 : i = 4
  · subst h4; exact hpg.symm
  rw [if_neg (by simp [h3, h4])]
  cases h7 : (0x07 : Word).getLsbD i with
  | true => rfl
  | false => rw [hrest h7 h3 h4]; rfl

theorem crmd_entryThenReturn (e : Exc) (s : State) (h : e.isRefill = true → s.da = false ∧ s.pg = true) :
    crmdAfterReturn (enterException e s).csr = s.csr.crmd := by
  obtain ⟨hcode, -⟩ := enterException_estat e s
  cases hr : e.isRefill with
  | false =>
    have hne : e.ecode ≠ 0x3F#6 := fun hc => Bool.false_ne_true (hr.symm.trans (e.ecode_eq_refill_iff.1 hc))
    rw [crmdAfterReturn_of_not_refill _ (hcode ▸ hne)]
    change setBits (e.crmdAfter s.csr.crmd) 0x07 (setBits s.csr.prmd 0x07 s.csr.crmd) = _
    rw [Exc.crmdAfter_of_not_refill _ hr, setBits_restore]
  | true =>
    obtain ⟨hda, hpg⟩ := h hr
    rw [crmdAfterReturn_of_refill _ (hcode.trans (e.ecode_eq_refill_iff.2 hr))]
    change setBits (setBits (e.crmdAfter s.csr.crmd) 0x07 (setBits s.csr.prmd 0x07 s.csr.crmd)) 0x18 0x10 = _
    rw [Exc.crmdAfter_of_refill _ hr, setBits_restore_mapped hda hpg]

/-- Settles O10: PLV and IE come back from PRMD; entry changes the mode of a TLB refill only, whose return is to mapped mode. -/
theorem entryThenReturn : Obligations.EntryThenReturn := by
  intro e s hmapped
  have hrefill : e.isRefill = true → s.da = false ∧ s.pg = true := by
    cases e with
    | tlbr va => exact fun _ => hmapped va rfl
    | _ => nofun
  have hcrmd := crmd_entryThenReturn e s hrefill
  have hframe {d : Csrs} (hd : d.crmd = s.csr.crmd) : d = { d with crmd := s.csr.crmd } := hd ▸ rfl
  exact ⟨rfl, hcrmd, rfl, rfl, rfl, rfl, rfl, rfl, hframe hcrmd, rfl⟩

end Sys2Proof.Machine

/-! PROOFS. Privilege: what an instruction does outside PLV0, and what raises IPE (spec/60_exceptions.md R601, R612, R661, R662;
spec/48_priv.md R533). -/

namespace Sys2Proof.Machine

/-! ## How an unprivileged instruction ends -/

/-- `t` is what taking `e` in `s` leaves. The floating-point exception records its cause in fcsr0 first, which uses a draw (R618). -/
inductive Takes (s : State) : Exc → State → Prop
  | plain (e : Exc) : Takes s e (enterException e s)
  | float (c : Word) (d : Nat) : Takes s .fpe (enterException .fpe { s with fcsr0 := c, draws := d })

/-- Where `r` answers a state, the instruction has completed with `P`, or has taken an exception other than IPE in `s`. -/
def Ends (P : State → Prop) (s : State) (r : Result) : Prop :=
  ∀ t, r = .next t → P t ∨ ∃ e, e ≠ .ipe ∧ Takes s e t

/-- What privileged instructions control is in `t` as in `s`: the CSRs, the TLB, the timer with its flag, the waiting state. -/
def SystemKept (s t : State) : Prop :=
  t.csr = s.csr ∧ t.tlb = s.tlb ∧ t.tiFlag = s.tiFlag ∧ t.timerVal = s.timerVal ∧ t.timerRun = s.timerRun ∧ t.waiting = s.waiting

/-- A translation raises no IPE. -/
theorem translate_ne_ipe {s : State} {va : Word} {k : Access} : translate s va k ≠ .trap .ipe := by
  intro h
  obtain ⟨-, -, he⟩ := translate_trap h
  simp at he

theorem accessAddr_ne_ipe {s : State} {va : Word} {n : Nat} {k : Access} : accessAddr s va n k ≠ .trap .ipe := by
  intro h
  rcases accessAddr_trap.1 h with ⟨-, he⟩ | ⟨-, ht⟩
  · cases he
  · exact translate_ne_ipe ht

/-- The lookup raises nothing: that no entry matches is for its caller to say. -/
theorem tlbLookup_ne_trap (s : State) (va : Word) (e : Exc) : tlbLookup s va ≠ .trap e := by
  unfold tlbLookup
  split
  · nofun
  · split <;> nofun

section
variable {P : State → Prop} {s u : State} {k k' : Result}

theorem Ends.next (h : P u) : Ends P s (.next u) := by
  rintro _ ⟨⟩
  exact .inl h

theorem Ends.fault (f : Fault) : Ends P s (.fault f) := by
  intro t ht
  cases ht

theorem Ends.refused (q : Refusal) : Ends P s (.refused q) := by
  intro t ht
  cases ht

theorem Ends.raise {e : Exc} (he : e ≠ .ipe := by nofun) : Ends P s (raise e s) := by
  rintro _ ⟨⟩
  exact .inr ⟨e, he, .plain e⟩

theorem Ends.ite {c : Prop} [Decidable c] (h : Ends P s k) (h' : Ends P s k') : Ends P s (if c then k else k') := by
  split
  · exact h
  · exact h'

theorem Ends.run {α : Type} {x : Res α} {f : α → Result} (hx : x ≠ .trap .ipe) (h : ∀ a, x = .ok a → Ends P s (f a)) :
    Ends P s (x.run s f) := by
  cases x with
  | ok a => exact h a rfl
  | trap e => exact .raise fun he => hx (congrArg Res.trap he)
  | fault f => exact .fault f
  | refused q => exact .refused q

theorem Ends.fpInstr {need : FpNeed} (h : Ends P s k) : Ends P s (fpInstr need s k) := .ite (.ite h .raise) .raise

theorem Ends.withFlagField {c : BitVec 3} (h : Ends P s k) : Ends P s (withFlagField c k) := .ite h (.refused _)

/-! ## The families of unprivileged instructions -/

theorem Ends.kept (h : SystemKept s u := by simp [SystemKept]) : Ends (SystemKept s) s (.next u) := .next h

theorem Ends.branch {taken : Bool} {offset : Word} (h : SystemKept s u := by simp [SystemKept]) :
    Ends (SystemKept s) s (u.branch taken offset) := .ite (.next h) (.next h)

theorem Ends.fpFinish {e : BitVec 5} {write : State → State}
    (hw : ∀ u, SystemKept u (write u) := by intro u; simp [SystemKept]) : Ends (SystemKept s) s (fpFinish s e write) := by
  intro t ht
  rcases fpFinish_next.1 ht with ⟨-, set, -, rfl⟩ | ⟨-, rfl⟩
  · exact .inr ⟨.fpe, nofun, .float _ _⟩
  · exact .inl (hw { s with fcsr0 := fcsrRaise s.fcsr0 e e })

theorem Ends.load {va : Word} {n : Nat} {f : DWord → Result} (h : ∀ v, Ends P s (f v)) :
    Ends P s ((memRead s va n).run s f) :=
  .run (mt memRead_trap.1 accessAddr_ne_ipe) fun v _ => h v

theorem Ends.store {va : Word} {n : Nat} {v : DWord} :
    Ends (SystemKept s) s ((memWrite s va n v).run s fun t => t.retire) := by
  refine .run (mt memWrite_trap.1 accessAddr_ne_ipe) fun u hu => ?_
  obtain ⟨tr, -, rfl⟩ := memWrite_ok.1 hu
  exact .kept

theorem Ends.scW {rd rj : RegNum} {si14 : BitVec 14} : Ends (SystemKept s) s (execScW rd rj si14 s) := by
  refine .run (mt scTarget_trap.1 accessAddr_ne_ipe) fun tr _ => .next ?_
  split <;> simp [SystemKept]

theorem Ends.movfcsr2gr {rd : RegNum} {fcsr : BitVec 5} : Ends (SystemKept s) s (execMovfcsr2gr rd fcsr s) := by
  refine .fpInstr ?_
  cases fcsrViewMask fcsr <;> exact .kept

theorem Ends.movgr2fcsr {fcsr : BitVec 5} {rj : RegNum} : Ends (SystemKept s) s (execMovgr2fcsr fcsr rj s) := by
  refine .fpInstr ?_
  cases fcsrViewMask fcsr <;> exact .kept

/-- INVTLB with an undefined op raises INE at any level (D11, log 29). -/
theorem Ends.invtlb {op : BitVec 5} {rj rk : RegNum} (hop : isPrivileged (.invtlb op rj rk) = false) :
    Ends P s (execInvtlb op rj rk s) := by
  have hundef : 6 < op.toNat := by simpa [isPrivileged, isTlbOrErtn, isPrivilegedForm] using hop
  rw [execInvtlb, if_pos hundef]
  exact .raise

/-- A Hit-class CACOP is a translation, at any level (D23, log 28). -/
theorem Ends.cacop {code : BitVec 5} {rj : RegNum} {si12 : BitVec 12} (hcode : isPrivileged (.cacop code rj si12) = false) :
    Ends (SystemKept s) s (execCacop code rj si12 s) := by
  have hhit : code.extractLsb' 3 2 = 2 := by simpa [isPrivileged, isTlbOrErtn, isPrivilegedForm] using hcode
  rw [execCacop, if_pos hhit]
  exact .run translate_ne_ipe fun _ _ => .kept

end

/-- An instruction that is not privileged changes nothing that privileged ones control, unless it takes an exception, which is not
IPE; this at any level. -/
theorem exec_ends_of_unprivileged {i : Instr} (hi : isPrivileged i = false) (s : State) : Ends (SystemKept s) s (exec i s) := by
  cases i with
  | csrrd | csrwr | csrxchg | tlbsrch | tlbrd | tlbwr | tlbfill | ertn | idle => cases hi
  | invtlb => exact .invtlb hi
  | cacop => exact .cacop hi
  | brk | syscall => exact .raise
  | rdcntid | rdcntvlW | rdcntvhW => exact .kept
  | addW | subW | slt | sltu | nor | and | or | xor => exact .kept
  | sllW | srlW | sraW | slliW | srliW | sraiW => exact .kept
  | mulW | mulhW | mulhWU => exact .kept
  | divW | modW | divWU | modWU => exact .ite .kept .kept
  | slti | sltui | addiW | andi | ori | xori | lu12iW | pcaddu12i => exact .kept
  | beq | bne | blt | bge | bltu | bgeu => exact .branch
  | b | bl | jirl => exact .kept
  | ldB | ldH | ldW | ldBU | ldHU => exact .load fun _ => .kept
  | stB | stH | stW => exact .store
  | llW => exact .run accessAddr_ne_ipe fun _ _ => .kept
  | scW => exact .scW
  | preld | dbar | ibar => exact .kept
  | faddS | fsubS | fmulS | fdivS | fmaxS | fminS | fmaxaS | fminaS => exact .fpInstr .fpFinish
  | faddD | fsubD | fmulD | fdivD | fmaxD | fminD | fmaxaD | fminaD => exact .fpInstr .fpFinish
  | fmaddS | fmsubS | fnmaddS | fnmsubS | fsqrtS | frecipS | frsqrtS => exact .fpInstr .fpFinish
  | fmaddD | fmsubD | fnmaddD | fnmsubD | fsqrtD | frecipD | frsqrtD => exact .fpInstr .fpFinish
  | fcvtSD | fcvtDS | ffintSW | ffintDW => exact .fpInstr .fpFinish
  | ftintWS | ftintrmWS | ftintrpWS | ftintrzWS | ftintrneWS => exact .fpInstr .fpFinish
  | ftintWD | ftintrmWD | ftintrpWD | ftintrzWD | ftintrneWD => exact .fpInstr .fpFinish
  | fcmpS | fcmpD => exact .ite (.fpInstr (.withFlagField .fpFinish)) .raise
  | fcopysignS | fabsS | fnegS | fclassS | fmovS | movgr2frW => exact .fpInstr .kept
  | fcopysignD | fabsD | fnegD | fclassD | fmovD | movgr2frhW => exact .fpInstr .kept
  | fsel | movcf2fr | movfr2cf | movgr2cf | movcf2gr => exact .fpInstr (.withFlagField .kept)
  | movfr2grS | movfrh2grS => exact .fpInstr .kept
  | movgr2fcsr => exact .movgr2fcsr
  | movfcsr2gr => exact .movfcsr2gr
  | bceqz | bcnez => exact .fpInstr (.withFlagField .branch)
  | fldS | fldD => exact .fpInstr (.load fun _ => .kept)
  | fstS | fstD => exact .fpInstr .store

/-- A privileged instruction outside PLV0 takes IPE (R533, R612). -/
theorem exec_privileged_user {i : Instr} (hi : isPrivileged i = true) {s : State} (hplv : s.plv ≠ 0) :
    exec i s = .next (enterException .ipe s) := by
  cases i with
  | csrrd | csrwr | csrxchg | tlbsrch | tlbrd | tlbwr | tlbfill | ertn | idle => exact privileged_user hplv
  | invtlb op rj rk =>
    have hop : ¬ 6 < op.toNat := by simpa [isPrivileged, isTlbOrErtn, isPrivilegedForm] using hi
    exact (if_neg hop).trans (privileged_user hplv)
  | cacop code rj si12 =>
    have hcode : code.extractLsb' 3 2 ≠ 2 := by simpa [isPrivileged, isTlbOrErtn, isPrivilegedForm] using hi
    exact (if_neg hcode).trans (privileged_user hplv)
  | _ => cases hi

/-! ## Outside PLV0 (R601, R661, R662) -/

/-- Settles O55: a privileged instruction takes IPE; another one leaves what privileged ones control, or takes an exception, whose
entry changes the CSRs and the pc only. -/
theorem userMode : Obligations.UserMode := by
  intro i s t hplv h
  have hend : SystemKept s t ∨ ∃ e, Takes s e t := by
    cases hi : isPrivileged i with
    | true =>
      cases (exec_privileged_user hi hplv).symm.trans h
      exact .inr ⟨.ipe, .plain .ipe⟩
    | false =>
      rcases exec_ends_of_unprivileged hi s t h with hkept | ⟨e, -, he⟩
      · exact .inl hkept
      · exact .inr ⟨e, he⟩
  rcases hend with ⟨hcsr, htlb, hflag, hval, hrun, hwait⟩ | ⟨e, ⟨⟩ | ⟨c, d⟩⟩
  · exact ⟨htlb, hflag, hval, hrun, hwait, .inl hcsr⟩
  · exact ⟨rfl, rfl, rfl, rfl, rfl,
      .inr ⟨⟨e, rfl, fun _ => rfl⟩, rfl, rfl, rfl, rfl, rfl, rfl, e.entry_cases s.csr⟩⟩
  · exact ⟨rfl, rfl, rfl, rfl, rfl,
      .inr ⟨⟨.fpe, rfl, fun hne => absurd rfl hne⟩, rfl, rfl, rfl, rfl, rfl, rfl, Exc.fpe.entry_cases s.csr⟩⟩

/-! ## What records Ecode 0xE (R533, R612) -/

theorem Exc.ecode_eq_ipe_iff (e : Exc) : e.ecode = 0xE ↔ e = .ipe := by
  cases e <;> simp [Exc.ecode]

theorem Takes.ecode {s t : State} {e : Exc} (h : Takes s e t) : t.ecode = e.ecode := by
  cases h with
  | plain e => exact enterException_ecode e s
  | float c d => exact enterException_ecode .fpe _

theorem ecode_congr {s t : State} (h : t.csr.estat = s.csr.estat) : t.ecode = s.ecode :=
  congrArg (fun w : Word => w.extractLsb' 16 6) h

/-- ESTAT.Ecode is no RW field: no write changes it (R64). -/
theorem csrWrite_ecode (s : State) (k : CsrName) (v m : Word) : (s.csrWrite k v m).ecode = s.ecode := by
  have hmask : ∀ i < 6, (0x3 : Word).getLsbD (16 + i) = false := by decide
  change (s.csrWrite k v m).csr.estat.extractLsb' 16 6 = s.csr.estat.extractLsb' 16 6
  rw [State.csrWrite_csr]
  by_cases hk : k = .estat
  · subst hk
    exact extract_setBits_of_unmasked (fun i hi => getLsbD_and_clear m (hmask i hi)) _ _
  · exact congrArg (fun w : Word => w.extractLsb' 16 6) (Csrs.get_set_of_ne _ (j := .estat) _ (Ne.symm hk))

section
variable {s : State}

theorem Ends.csrrd {rd : RegNum} {num : BitVec 14} (hplv : s.plv = 0) :
    Ends (fun t => t.ecode = s.ecode) s (execCsrrd rd num s) := by
  rw [execCsrrd, privileged_zero hplv]
  cases csrOfNum num with
  | none => exact .next (ecode_congr (by simp))
  | some k => exact .next (ecode_congr (by simp))

theorem Ends.csrSwap {rd : RegNum} {num : BitVec 14} {v m : Word} :
    Ends (fun t => t.ecode = s.ecode) s (s.csrSwap rd num v m) := by
  cases hk : csrOfNum num with
  | none => exact csrSwap_none hk ▸ .next (ecode_congr (by simp))
  | some k =>
    have hcsr : (s.csrSwapped rd k v m).csr = (s.csrWrite k v m).csr := by simp [State.csrSwapped]
    exact csrSwap_some hk ▸ .next ((ecode_congr (congrArg Csrs.estat hcsr)).trans (csrWrite_ecode s k v m))

theorem tlbReadInto_ecode (s : State) (e : TlbEntry) : (s.tlbReadInto e).ecode = s.ecode := by
  unfold State.tlbReadInto
  split <;> rfl

theorem Ends.tlbrd (hplv : s.plv = 0) : Ends (fun t => t.ecode = s.ecode) s (execTlbrd s) := by
  rw [execTlbrd, privileged_zero hplv]
  cases s.tlb[s.tlbIndex]? with
  | none => exact .fault _
  | some e => exact .next (tlbReadInto_ecode s e)

end

/-- A privileged instruction at PLV0 leaves ESTAT.Ecode, unless it takes an exception, which is not IPE. -/
theorem exec_ends_of_privileged {i : Instr} (hi : isPrivileged i = true) {s : State} (hplv : s.plv = 0) :
    Ends (fun t => t.ecode = s.ecode) s (exec i s) := by
  have at0 {k : Result} (h : Ends (fun t => t.ecode = s.ecode) s k) : Ends (fun t => t.ecode = s.ecode) s (privileged s k) :=
    (privileged_zero hplv).symm ▸ h
  cases i with
  | csrrd => exact .csrrd hplv
  | csrwr | csrxchg => exact at0 .csrSwap
  | tlbsrch => exact at0 (.run (tlbLookup_ne_trap s _ _) fun _ _ => .next rfl)
  | tlbrd => exact .tlbrd hplv
  | tlbwr => exact at0 (.ite (.next rfl) (.fault _))
  | tlbfill | ertn | idle => exact at0 (.next rfl)
  | invtlb => exact .ite .raise (at0 (.ite (.fault _) (.next rfl)))
  | cacop => exact .ite (.run translate_ne_ipe fun _ _ => .next rfl) (at0 (.next rfl))
  | _ => cases hi

/-- Settles O11: no instruction that is not privileged, and none at PLV0, takes IPE; where none is taken ESTAT.Ecode stays. -/
theorem privilegedRaisesIpe : Obligations.PrivilegedRaisesIpe := by
  intro i s
  refine ⟨fun hi hplv => exec_privileged_user hi hplv, fun t hor h hne => ?_⟩
  have hend : Ends (fun t => t.ecode = s.ecode) s (exec i s) := by
    cases hi : isPrivileged i with
    | true => exact exec_ends_of_privileged hi (hor.resolve_left (by simp [hi]))
    | false => exact fun t ht => (exec_ends_of_unprivileged hi s t ht).imp_left fun hkept => ecode_congr (congrArg Csrs.estat hkept.1)
  rcases hend t h with hkept | ⟨e, he, htakes⟩
  · rwa [hkept]
  · rwa [htakes.ecode, Ne, e.ecode_eq_ipe_iff]

end Sys2Proof.Machine

/-! PROOFS. Interrupts, waiting, and the step that runs an instruction (spec/60_exceptions.md R600, R642, R644; spec/20_memory.md R201;
spec/48_priv.md R552). -/

namespace Sys2Proof.Machine

/-! ## Which interrupts are pending and enabled (R641, R642) -/

/-- Some bit is set both in ESTAT.IS, as it reads, and in ECFG.LIE. -/
def State.PendingEnabled (s : State) : Prop :=
  ∃ k, k < 13 ∧ (s.csrRead .estat).getLsbD k = true ∧ s.csr.ecfg.getLsbD k = true

section
variable {s : State}

/-- The IS field of ESTAT reads the interrupt status. -/
theorem getLsbD_csrRead_estat {k : Nat} (hk : k < 13) : (s.csrRead .estat).getLsbD k = s.interruptStatus.getLsbD k := by
  have hcodes : ∀ k < 13, (0x7FFF0000 : Word).getLsbD k = false := by decide
  change ((s.csr.estat &&& 0x7FFF0000) ||| s.interruptStatus).getLsbD k = _
  rw [BitVec.getLsbD_or, getLsbD_and_clear _ (hcodes k hk), Bool.false_or]

/-- IS[10] names no interrupt. -/
theorem interruptStatus_reserved : s.interruptStatus.getLsbD 10 = false := by
  unfold State.interruptStatus wordOfBool
  cases s.tiFlag <;> cases s.ipi <;> simp

theorem intVec_ne_zero_iff : s.intVec ≠ 0 ↔ s.PendingEnabled := by
  have hbits (k : Nat) : s.intVec.getLsbD k = (s.interruptStatus.getLsbD k && s.csr.ecfg.getLsbD k && (0x1BFF : Word).getLsbD k) := by
    rw [State.intVec, BitVec.getLsbD_and, BitVec.getLsbD_and]
  constructor
  · intro h
    by_contra hnone
    refine h (BitVec.eq_of_getLsbD_eq fun k hk => ?_)
    have hmask : ∀ k < 32, (0x1BFF : Word).getLsbD k = true → k < 13 := by decide
    refine Eq.trans (Bool.eq_false_iff.2 fun hset => ?_) BitVec.getLsbD_zero.symm
    simp only [hbits, Bool.and_eq_true] at hset
    obtain ⟨⟨his, hlie⟩, hm⟩ := hset
    exact hnone ⟨k, hmask k hk hm, (getLsbD_csrRead_estat (hmask k hk hm)).trans his, hlie⟩
  · rintro ⟨k, hk, his, hlie⟩ h0
    have hmask : ∀ k < 13, k ≠ 10 → (0x1BFF : Word).getLsbD k = true := by decide
    rw [getLsbD_csrRead_estat hk] at his
    have hne : k ≠ 10 := by
      rintro rfl
      exact Bool.false_ne_true (interruptStatus_reserved.symm.trans his)
    have hset := hbits k
    rw [his, hlie, hmask k hk hne, h0] at hset
    exact Bool.false_ne_true (BitVec.getLsbD_zero.symm.trans hset)

theorem interruptDue_iff : s.interruptDue = true ↔ s.ie = true ∧ s.PendingEnabled := by
  simp [State.interruptDue, ← intVec_ne_zero_iff]

theorem asleep_iff : s.asleep = true ↔ s.waiting = true ∧ ¬ s.PendingEnabled := by
  simp [State.asleep, ← intVec_ne_zero_iff]

theorem not_asleep_of_pending (h : s.PendingEnabled) : s.asleep = false :=
  Bool.eq_false_iff.2 fun hs => (asleep_iff.1 hs).2 h

/-! ## The step (R600) -/

theorem coreStep_asleep (h : s.asleep = true) : coreStep s = .next s := if_pos h

/-- The step of a core that is not asleep is that of the core awake. -/
theorem coreStep_awake (h : s.asleep = false) : coreStep s = coreStep s.awake := by
  have hawake : s.awake.asleep = false := Bool.false_and _
  rw [coreStep, coreStep, h, hawake]
  rfl

end

/-- What a step of the machine answers when the core's step answers `r`: the other agents' turn follows it. -/
def thenEnvTurn : Result → Result
  | .next t => .next t.envTurn
  | .fault f => .fault f
  | .refused q => .refused q

theorem step_eq (s : State) : step s = thenEnvTurn (coreStep s) := by
  unfold step
  cases coreStep s <;> rfl

/-- Settles O7: a pending and enabled interrupt is a non-zero `intVec`, of which both the wait and the interrupt are a question. -/
theorem interruptsAndWaking : Obligations.InterruptsAndWaking := by
  intro s
  refine ⟨interruptDue_iff, fun hdue => ?taken, fun hwait hnone => ?asleep, fun _ hpending => ?woken⟩
  case taken =>
    obtain ⟨-, hpending⟩ := interruptDue_iff.1 hdue
    have hdue' : s.awake.interruptDue = true := hdue
    rw [coreStep, not_asleep_of_pending hpending, hdue']
    rfl
  case asleep => rw [step_eq, coreStep_asleep (asleep_iff.2 ⟨hwait, hnone⟩), thenEnvTurn]
  case woken =>
    change step s = step s.awake
    rw [step_eq, step_eq, coreStep_awake (not_asleep_of_pending hpending)]

/-! ## Running the word a fetch sees (R201, R250, R600) -/

section
variable {s : State} {t : Translated}

/-- Past the address checks of the fetch, the word seen is decoded and run. -/
theorem runInstr_decoded (ht : AccessOk s s.pc 4 .fetch t) {i : Instr} (hi : decode (s.fetchWord t.pa) = some i) :
    runInstr s = exec i (s.fetched t.pa) := by
  rw [runInstr, fetchAddr_ok.2 ht, Res.run_ok, hi]

/-- A word seen that matches no row raises INE (R250). -/
theorem runInstr_noRow (ht : AccessOk s s.pc 4 .fetch t) (hnone : decode (s.fetchWord t.pa) = none) :
    runInstr s = .next (enterException .ine (s.fetched t.pa)) := by
  rw [runInstr, fetchAddr_ok.2 ht, Res.run_ok, hnone]
  rfl

theorem accessOk_awake (ht : AccessOk s s.pc 4 .fetch t) : AccessOk s.awake s.awake.pc 4 .fetch t := by
  obtain ⟨haligned, htr, haccess⟩ := ht
  exact ⟨haligned, (translate_awake s s.pc .fetch).trans htr, haccess⟩

/-- A fetch uses at most a draw. -/
theorem fetched_eq (s : State) (pa : Nat) : s.fetched pa = { s with draws := (s.fetched pa).draws } := by
  unfold State.fetched
  split <;> rfl

end

/-- Settles O4: the core, awake, fetches, decodes and executes; which word it sees is `State.fetchWord_cases`. -/
theorem stepRunsDecodedInstruction : Obligations.StepRunsDecodedInstruction := by
  intro s t hsleep hint ht
  have hrun := coreStep_run hsleep hint
  have hok := accessOk_awake ht
  have hstep {r : Result} (hr : runInstr s.awake = r) : step s = thenEnvTurn r := by rw [step_eq, hrun, hr]
  refine ⟨fun i hfresh hi => ?_, s.awake.fetchWord t.pa, s.awake.fetched t.pa, s.awake.fetchWord_cases t.pa |>.imp_left ?_,
    fetched_eq _ _, fun i hi => ?_, fun hnone => ?_⟩
  · have hfresh' : s.awake.fresh t.pa := hfresh
    have hi' : decode (s.awake.fetchWord t.pa) = some i := by
      rwa [State.fetchWord_fresh hfresh', State.natAt_congr (s := s) (t := s.awake) rfl]
    exact hstep ((runInstr_decoded hok hi').trans (congrArg (exec i) (State.fetched_fresh hfresh')))
  · exact fun hw => hw.trans (State.natAt_congr rfl _ _)
  · exact hstep (runInstr_decoded hok hi)
  · exact hrun.trans (runInstr_noRow hok hnone)

end Sys2Proof.Machine

/-! PROOFS. What a fetch sees after the sequence of R722 and after another master's store: CodeSynchronisation
(spec/70_reset_and_hazards.md R722; spec/20_memory.md R200, R201, R203; spec/43_int_mem.md R391). -/

namespace Sys2Proof.Machine

/-! ## The old values of one word -/

/-- The entry that says what a fetch may still see of the word at an address, if there is one. -/
def State.staleAt (s : State) (a : Nat) : Option StaleWord := s.stale.find? (·.pa == a)

section
variable (s : State) (a : Nat)

theorem oldWords_eq_staleAt : s.oldWords a = ((s.staleAt a).map (·.olds)).getD [] := rfl

theorem staleAt_advance : s.advance.staleAt a = s.staleAt a := rfl

/-- The entry as a Hit-class CACOP on cache `obj` for the line of `pa` leaves it (R203). -/
def State.hitWord (obj : BitVec 3) (pa : Nat) (b : StaleWord) : StaleWord :=
  if s.cfg.line b.pa = s.cfg.line pa then { b with stage := b.stage.afterHit obj } else b

theorem hitWord_pa (obj : BitVec 3) (pa : Nat) (b : StaleWord) : (s.hitWord obj pa b).pa = b.pa := by
  unfold State.hitWord
  split <;> rfl

theorem staleAt_cacheHit (obj : BitVec 3) (pa : Nat) : (s.cacheHit obj pa).staleAt a = (s.staleAt a).map (s.hitWord obj pa) := by
  have hpa : (fun b : StaleWord => b.pa == a) ∘ s.hitWord obj pa = fun b => b.pa == a :=
    funext fun b => congrArg (· == a) (hitWord_pa s obj pa b)
  change (s.stale.map (s.hitWord obj pa)).find? (·.pa == a) = _
  rw [List.find?_map, hpa]
  rfl

end

/-- Where each address has one entry, the one found after some entries are dropped is the one found before, unless it is dropped. -/
theorem find?_filter_of_nodup {l : List StaleWord} (h : (l.map (·.pa)).Nodup) (p : StaleWord → Bool) (a : Nat) :
    (l.filter p).find? (·.pa == a) = (l.find? (·.pa == a)).filter p := by
  induction l with
  | nil => rfl
  | cons b l ih =>
    obtain ⟨hb, hl⟩ := List.nodup_cons.1 h
    by_cases ha : b.pa = a
    · have hrest : (l.filter p).find? (·.pa == a) = none := by
        refine List.find?_eq_none.2 fun c hc hca => hb ?_
        exact List.mem_map.2 ⟨c, List.mem_of_mem_filter hc, (beq_iff_eq.1 hca).trans ha.symm⟩
      rw [List.find?_cons_of_pos (by simp [ha]), Option.filter_some]
      cases hp : p b with
      | true => rw [List.filter_cons_of_pos hp, List.find?_cons_of_pos (by simp [ha])]; rfl
      | false => rw [List.filter_cons_of_neg (by simp [hp]), hrest]; rfl
    · rw [List.find?_cons_of_neg (by simp [ha]), ← ih hl]
      cases hp : p b with
      | true => rw [List.filter_cons_of_pos hp, List.find?_cons_of_neg (by simp [ha])]
      | false => rw [List.filter_cons_of_neg (by simp [hp])]

theorem staleAt_fetchBarrier {s : State} (h : (s.stale.map (·.pa)).Nodup) (a : Nat) :
    s.fetchBarrier.staleAt a = (s.staleAt a).filter (·.stage != .invalidated) := find?_filter_of_nodup h _ a

/-! ## CACOP 0x11, CACOP 0x10, IBAR (R722) -/

/-- The two hits, of the data cache and then of the instruction cache, take a word of any stage to the last one. -/
theorem SyncStage.afterHit_afterHit (g : SyncStage) : (g.afterHit 1).afterHit 0 = .invalidated := by cases g <;> rfl

theorem cacheHit_nodup {s : State} (h : (s.stale.map (·.pa)).Nodup) (obj : BitVec 3) (pa : Nat) :
    ((s.cacheHit obj pa).stale.map (·.pa)).Nodup := by
  change ((s.stale.map (s.hitWord obj pa)).map (·.pa)).Nodup
  rw [List.map_map, show (fun b : StaleWord => b.pa) ∘ s.hitWord obj pa = (·.pa) from funext (hitWord_pa s obj pa)]
  exact h

/-- The state after the three instructions of the sequence. -/
def State.synchronised (s : State) (pa : Nat) : State :=
  ((((s.cacheHit 1 pa).advance).cacheHit 0 pa).advance).fetchBarrier.advance

section
variable {s : State} (h : (s.stale.map (·.pa)).Nodup) (pa a : Nat)
include h

theorem staleAt_synchronised : (s.synchronised pa).staleAt a =
    ((s.staleAt a).map (s.hitWord 0 pa ∘ s.hitWord 1 pa)).filter (·.stage != .invalidated) := by
  have hnodup : (((s.cacheHit 1 pa).advance.cacheHit 0 pa).advance.stale.map (·.pa)).Nodup :=
    cacheHit_nodup (s := (s.cacheHit 1 pa).advance) (cacheHit_nodup h 1 pa) 0 pa
  rw [State.synchronised, staleAt_advance, staleAt_fetchBarrier hnodup, staleAt_advance, staleAt_cacheHit, staleAt_advance,
    staleAt_cacheHit, Option.map_map]
  rfl

/-- Every word of the line is seen as memory holds it. -/
theorem oldWords_synchronised_line (hline : s.cfg.line a = s.cfg.line pa) : (s.synchronised pa).oldWords a = [] := by
  rw [oldWords_eq_staleAt, staleAt_synchronised h]
  cases hb : s.staleAt a with
  | none => rfl
  | some b =>
    have hpa : b.pa = a := by simpa using List.find?_some hb
    have hhit : (s.hitWord 0 pa (s.hitWord 1 pa b)).stage = .invalidated := by
      have hb' : s.cfg.line b.pa = s.cfg.line pa := hpa ▸ hline
      have hdata : s.hitWord 1 pa b = { b with stage := b.stage.afterHit 1 } := if_pos hb'
      rw [hdata, State.hitWord, if_pos hb']
      exact SyncStage.afterHit_afterHit b.stage
    rw [Option.map_some, Function.comp, Option.filter_some, hhit]
    rfl

/-- A word of another line is seen as before, or as memory holds it. -/
theorem oldWords_synchronised_other (hline : s.cfg.line a ≠ s.cfg.line pa) :
    (s.synchronised pa).oldWords a = s.oldWords a ∨ (s.synchronised pa).oldWords a = [] := by
  rw [oldWords_eq_staleAt, oldWords_eq_staleAt, staleAt_synchronised h]
  cases hb : s.staleAt a with
  | none => exact .inl rfl
  | some b =>
    have hpa : b.pa = a := by simpa using List.find?_some hb
    have hsame : (s.hitWord 0 pa (s.hitWord 1 pa b)) = b := by simp [State.hitWord, hpa, hline]
    rw [Option.map_some, Function.comp, hsame, Option.filter_some]
    split
    · exact .inl rfl
    · exact .inr rfl

end

/-! ## The store of another master (R200) -/

/-- The byte replaced, and the others. -/
theorem extract_replaceByte (w : Word) {j k : Nat} (hj : j < 4) (hk : k < 4) (b : Byte) :
    (replaceByte w j b).extractLsb' (8 * k) 8 = if k = j then b else w.extractLsb' (8 * k) 8 := by
  have hplace (i : Nat) (hi : i < 8) : (b.setWidth 32 <<< (8 * j)).getLsbD (8 * j + i) = b.getLsbD i := by
    simp [hi, show 8 * j + i < 32 by omega]
  have hmask : ∀ j < 4, ∀ k < 4, ∀ i < 8, ((0xFF <<< (8 * j) : Nat) : Word).getLsbD (8 * k + i) = (k == j) := by decide
  split
  · next heq =>
    subst heq
    refine (extract_setBits_of_masked (fun i hi => (hmask k hk k hk i hi).trans (beq_self_eq_true k)) _ _).trans ?_
    apply BitVec.eq_of_getLsbD_eq
    intro i hi
    rw [BitVec.getLsbD_extractLsb', hplace i hi]
    simp [hi]
  · next hne =>
    exact extract_setBits_of_unmasked (fun i hi => (hmask j hj k hk i hi).trans (beq_false_of_ne hne)) _ _

theorem oldWords_externalStore {s : State} {pa : Nat} (hram : s.cfg.regionAt pa = some .ram) (b : Byte) (a : Nat) :
    (s.externalStore pa b).oldWords a =
      if a = pa / 4 * 4 then (s.oldWords a).map (replaceByte · (pa % 4) b) else s.oldWords a := by
  have hstale : (s.externalStore pa b).stale = (s.snoop pa b).stale := by rw [State.externalStore, if_pos hram]
  rw [State.oldWords_congr hstale, oldWords_snoop]

/-- Settles O6: the sequence takes the entries of the line to their last stage, from which IBAR drops them; another master's store
replaces its byte in each old value. -/
theorem codeSynchronisation : Obligations.CodeSynchronisation := by
  refine ⟨fun s rj i12 h15 t hnodup htr => ?sequence, fun s pa b hram => ⟨fun w hw => ?word, fun a ha => ?others⟩⟩
  case sequence =>
    have htr' : translate (s.cacheHit 1 t.pa).advance ((s.cacheHit 1 t.pa).advance.addr12 rj i12) .load = .ok t :=
      (translate_congr _ _ rfl rfl rfl).trans htr
    refine ⟨_, _, s.synchronised t.pa, exec_cacop_hit (by decide) htr, exec_cacop_hit (by decide) htr', rfl, fun _ => rfl,
      fun a ha => ?_, fun a ha => ?_⟩
    · exact oldWords_synchronised_line hnodup t.pa a (by simpa [Config.line, Nat.shiftRight_eq_div_pow] using ha)
    · exact oldWords_synchronised_other hnodup t.pa a (by simpa [Config.line, Nat.shiftRight_eq_div_pow] using ha)
  case word =>
    have hpos : pa % 4 < 4 := Nat.mod_lt _ (by decide)
    change w ∈ (s.externalStore pa b).oldWords _ at hw
    rw [oldWords_externalStore hram, if_pos rfl] at hw
    obtain ⟨w', hw', rfl⟩ := List.mem_map.1 hw
    refine ⟨(extract_replaceByte w' hpos hpos b).trans (if_pos rfl), w', hw', fun j hj hne => ?_⟩
    exact (extract_replaceByte w' hpos hj b).trans (if_neg hne)
  case others => exact (oldWords_externalStore hram b a).trans (if_neg ha)

end Sys2Proof.Machine

/-! PROOFS. What CSRRD reads: CsrRead (spec/48_priv.md R530; spec/10_state.md R53, R55, R57, R60 to R84). -/

namespace Sys2Proof.Machine

/-! ## The views (R64, R68, R70, R74, R77, R82) -/

section
variable (s : State)

/-- The interrupt status has no bit beyond IS[12]. -/
theorem interruptStatus_high {i : Nat} (h : 13 ≤ i) (hi : i < 32) : s.interruptStatus.getLsbD i = false := by
  unfold State.interruptStatus wordOfBool
  interval_cases i <;> cases s.tiFlag <;> cases s.ipi <;> simp

/-- ESTAT.IS[1:0] are the software's bits. -/
theorem interruptStatus_low {i : Nat} (hi : i < 2) : s.interruptStatus.getLsbD i = s.csr.estat.getLsbD i := by
  unfold State.interruptStatus wordOfBool
  interval_cases i <;> cases s.tiFlag <;> cases s.ipi <;> simp

theorem interruptStatus_timer : s.interruptStatus.getLsbD 11 = s.tiFlag := by
  unfold State.interruptStatus wordOfBool
  cases s.tiFlag <;> cases s.ipi <;> simp

/-- ESTAT beyond IS reads the codes (R64). -/
theorem getLsbD_csrRead_estat_high {k : Nat} (h : 13 ≤ k) (hk : k < 32) :
    (s.csrRead .estat).getLsbD k = (s.csr.estat.getLsbD k && (0x7FFF0000 : Word).getLsbD k) := by
  change ((s.csr.estat &&& 0x7FFF0000) ||| s.interruptStatus).getLsbD k = _
  rw [BitVec.getLsbD_or, BitVec.getLsbD_and, interruptStatus_high s h hk, Bool.or_false]

theorem csrRead_estat_codes : (s.csrRead .estat).extractLsb' 16 15 = s.csr.estat.extractLsb' 16 15 := by
  have hmask : ∀ i < 15, (0x7FFF0000 : Word).getLsbD (16 + i) = true := by decide
  apply BitVec.eq_of_getLsbD_eq
  intro i hi
  rw [BitVec.getLsbD_extractLsb', BitVec.getLsbD_extractLsb', getLsbD_csrRead_estat_high s (by omega) (by omega), hmask i hi,
    Bool.and_true]

theorem csrRead_estat_software : (s.csrRead .estat).extractLsb' 0 2 = s.csr.estat.extractLsb' 0 2 := by
  apply BitVec.eq_of_getLsbD_eq
  intro i hi
  rw [BitVec.getLsbD_extractLsb', BitVec.getLsbD_extractLsb', getLsbD_csrRead_estat (by omega), interruptStatus_low s (by omega)]

theorem csrRead_estat_reserved : (s.csrRead .estat).extractLsb' 13 3 = 0 ∧ (s.csrRead .estat).getLsbD 31 = false := by
  have hmask : ∀ i < 3, (0x7FFF0000 : Word).getLsbD (13 + i) = false := by decide
  refine ⟨BitVec.eq_of_getLsbD_eq fun i hi => ?_, ?_⟩
  · rw [BitVec.getLsbD_extractLsb', getLsbD_csrRead_estat_high s (by omega) (by omega), hmask i hi, Bool.and_false, Bool.and_false]
    exact BitVec.getLsbD_zero.symm
  · rw [getLsbD_csrRead_estat_high s (by decide) (by decide)]
    exact Bool.and_false _

/-- ASIDBITS reads 10 above the ASID (R74). -/
theorem csrRead_asid_eq : s.csrRead .asid = BitVec.ofNat 32 (0x000A0000 + s.csr.asid.toNat % 2 ^ 10) := by
  have hlow : (s.csr.asid &&& 0x3FF).toNat = s.csr.asid.toNat % 2 ^ 10 := toNat_and_lowMask _ (n := 10) (by decide)
  have hlt : s.csr.asid.toNat % 2 ^ 10 < 2 ^ 10 := Nat.mod_lt _ (by decide)
  rw [eq_ofNat_toNat (s.csrRead .asid)]
  change BitVec.ofNat 32 (0x000A0000 ||| (s.csr.asid &&& 0x3FF) : Word).toNat = _
  rw [toNat_or_low (a := 0x280) (n := 10) (by decide) (hlow ▸ hlt), hlow]
  rfl

/-- PGD reads the base of the half BADV lies in (R77). -/
theorem csrRead_pgd_eq :
    s.csrRead .pgd = (if s.csr.badv.toNat < 2 ^ 31 then s.csr.pgdl else s.csr.pgdh) &&& 0xFFFFF000 := by
  have hhalf : s.csr.badv.getLsbD 31 = true ↔ ¬ s.csr.badv.toNat < 2 ^ 31 := by
    change s.csr.badv.msb = true ↔ _
    rw [BitVec.msb_eq_decide, decide_eq_true_eq, Nat.not_lt]
  change s.pgdBase &&& 0xFFFFF000 = _
  rw [State.pgdBase]
  by_cases h : s.csr.badv.toNat < 2 ^ 31
  · rw [if_pos h, if_neg (mt hhalf.1 (not_not.2 h))]
  · rw [if_neg h, if_pos (hhalf.2 h)]

/-- LLBCTL reads LLbit as ROLLB, and KLO; bits 31:3 are 0 (R70). -/
theorem csrRead_llbctl : (s.csrRead .llbctl).getLsbD 0 = s.llbit ∧ (s.csrRead .llbctl).getLsbD 2 = s.csr.llbctl.getLsbD 2 ∧
    (s.csrRead .llbctl).extractLsb' 3 29 = 0 := by
  change ((s.csr.llbctl &&& 0x4) ||| wordOfBool s.llbit ||| wordOfBool (s.freeBit .w1Bit) <<< 1).getLsbD 0 = _ ∧
    ((s.csr.llbctl &&& 0x4) ||| wordOfBool s.llbit ||| wordOfBool (s.freeBit .w1Bit) <<< 1).getLsbD 2 = _ ∧
    ((s.csr.llbctl &&& 0x4) ||| wordOfBool s.llbit ||| wordOfBool (s.freeBit .w1Bit) <<< 1).extractLsb' 3 29 = _
  unfold wordOfBool
  refine ⟨?rollb, ?klo, BitVec.eq_of_getLsbD_eq fun i hi => ?reserved⟩
  case rollb => cases s.llbit <;> cases s.freeBit .w1Bit <;> simp
  case klo => cases s.llbit <;> cases s.freeBit .w1Bit <;> simp
  case reserved => interval_cases i <;> cases s.llbit <;> cases s.freeBit .w1Bit <;> simp

end

/-! ## CSRRD (R530) -/

section
variable {s : State} {rd : RegNum} {num : BitVec 14}

/-- CSRRD writes `v` to x[rd] and changes nothing else but the pc and the count of free values. -/
def Reads (s : State) (rd : RegNum) (v : Word) (r : Result) : Prop :=
  ∃ t, r = .next t ∧ GprIs s t rd v ∧ t.pc = s.pc + 4 ∧ SameBytes s t ∧ t = { s with gpr := t.gpr, pc := t.pc, draws := t.draws }

theorem exec_csrrd_none (hplv : s.plv = 0) (h : csrOfNum num = none) : Reads s rd 0 (exec (.csrrd rd num) s) := by
  have hexec : exec (.csrrd rd num) s = s.retireGpr rd 0 := by
    change execCsrrd rd num s = _
    rw [execCsrrd, privileged_zero hplv, h]
  obtain ⟨t, ht, hgpr, hpc, hmem, hframe⟩ := writesGpr_retireGpr s rd 0
  refine ⟨t, hexec.trans ht, hgpr, hpc, hmem, hframe.trans ?_⟩
  rw [hframe]

theorem exec_csrrd_some (hplv : s.plv = 0) {k : CsrName} (h : csrOfNum num = some k) :
    Reads s rd (s.csrRead k) (exec (.csrrd rd num) s) := by
  have hexec : exec (.csrrd rd num) s = (s.csrReadDone k).retireGpr rd (s.csrRead k) := by
    change execCsrrd rd num s = _
    rw [execCsrrd, privileged_zero hplv, h]
  obtain ⟨hself, hothers⟩ := gprIs_writeGpr (s.csrReadDone k) rd (s.csrRead k)
  refine ⟨_, hexec, ⟨hself, fun r hr => (hothers r hr).trans (State.readGpr_congr (by simp) r)⟩, by simp, fun a => by simp [State.byteAt],
    ?_⟩
  have hread := csrReadDone_eq s k
  have hgpr := writeGpr_eq (s.csrReadDone k) rd (s.csrRead k)
  generalize (s.csrReadDone k).writeGpr rd (s.csrRead k) = b at *
  generalize s.csrReadDone k = a at *
  rw [hgpr, hread]
  rfl

end

/-- Settles O46: the table both ways, the fields by name, and each register by its view. -/
theorem csrRead : Obligations.CsrRead := by
  refine ⟨?table, fun s => ⟨BitVec.extractLsb'_toNat .., rfl, rfl, rfl, ?ecode⟩, fun s rd num hplv => ?read⟩
  case table =>
    dsimp only
    intro num k
    refine ⟨fun h => ?_, fun h => (show ∀ p ∈ _, csrOfNum p.1 = some p.2 by decide) (num, k) h⟩
    have hnum : num = BitVec.ofNat 14 num.toNat := by rw [BitVec.ofNat_toNat, BitVec.setWidth_eq]
    unfold csrOfNum at h
    split at h <;> cases h
    all_goals next hn =>
      rw [hnum, hn]
      decide
  case ecode => exact (BitVec.extractLsb'_toNat ..).trans (by rw [Nat.shiftRight_eq_div_pow])
  case read =>
    cases hk : csrOfNum num with
    | none =>
      obtain ⟨t, ht, hgpr, hpc, hmem, hframe⟩ := exec_csrrd_none (rd := rd) hplv hk
      exact ⟨t, 0, ht, hgpr, hpc, hmem, hframe, rfl⟩
    | some k =>
      obtain ⟨t, ht, hgpr, hpc, hmem, hframe⟩ := exec_csrrd_some (rd := rd) hplv hk
      refine ⟨t, s.csrRead k, ht, hgpr, hpc, hmem, hframe, ?_⟩
      cases k with
      | estat =>
        obtain ⟨hreserved, htop⟩ := csrRead_estat_reserved s
        exact ⟨csrRead_estat_codes s, csrRead_estat_software s, csrRead_estat_hwi s,
          (getLsbD_csrRead_estat (by decide)).trans interruptStatus_reserved,
          (getLsbD_csrRead_estat (by decide)).trans (interruptStatus_timer s), csrRead_estat_ipi s, hreserved, htop⟩
      | asid => exact csrRead_asid_eq s
      | pgd => exact csrRead_pgd_eq s
      | cpuid => exact csrRead_cpuid s
      | tval => exact fun hbits => toNat_and_lowMask _ hbits
      | llbctl => exact csrRead_llbctl s
      | ctag => trivial
      | _ => rfl

end Sys2Proof.Machine

/-! PROOFS. The TLB instructions: TlbSearch, TlbRead, TlbWrite, TlbInvalidate and TlbWriteThenRead (spec/48_priv.md R540 to R546;
spec/10_state.md R45, R71 to R74). -/

namespace Sys2Proof.Machine

/-! ## Bits under a mask -/

theorem getLsbD_lowMask {n i : Nat} (hi : i < 32) : (lowMask n).getLsbD i = decide (i < n) := by
  rw [lowMask, BitVec.getLsbD_ofNat, Nat.testBit_two_pow_sub_one, decide_eq_true hi, Bool.true_and]

/-- Of a word that holds no bit outside a mask, a bit outside it. -/
theorem getLsbD_of_held {w m : Word} (h : w &&& ~~~m = 0) {i : Nat} (hm : m.getLsbD i = false) : w.getLsbD i = false := by
  by_cases hi : i < 32
  · have hbit : (w &&& ~~~m).getLsbD i = false := h ▸ BitVec.getLsbD_zero
    rwa [BitVec.getLsbD_and, BitVec.getLsbD_not, hm, decide_eq_true hi, Bool.not_false, Bool.and_true, Bool.and_true] at hbit
  · exact BitVec.getLsbD_of_ge w i (Nat.le_of_not_lt hi)

theorem setBits_self (w m : Word) : setBits w m m = w ||| m := by
  apply BitVec.eq_of_getLsbD_eq
  intro i _
  rw [getLsbD_setBits, BitVec.getLsbD_or]
  cases m.getLsbD i <;> simp

/-- Under a mask all of whose bits are replaced only the new bits are left. -/
theorem setBits_and_of_masked {m m' : Word} (h : ∀ i, m'.getLsbD i = true → m.getLsbD i = true) (old v : Word) :
    setBits old m v &&& m' = v &&& m' := by
  apply BitVec.eq_of_getLsbD_eq
  intro i _
  rw [BitVec.getLsbD_and, BitVec.getLsbD_and, getLsbD_setBits]
  cases hm : m'.getLsbD i with
  | true => rw [h i hm, if_pos rfl]
  | false => rw [Bool.and_false, Bool.and_false]

/-! ## TLBSRCH (R540) -/

section
variable {s : State}

theorem not_badSize (h : ∀ e ∈ s.tlb, e.e = true → e.ps = 12 ∨ e.ps = 21) : ¬ s.BadSize := by
  rintro ⟨e, he, ⟨hvalid, -⟩, h12, h21⟩
  rcases h e he hvalid with hps | hps
  · exact h12 hps
  · exact h21 hps

theorem exec_tlbsrch (hplv : s.plv = 0) {hit : Option (TlbEntry × Nat)}
    (h : tlbLookup s (s.csr.tlbehi &&& 0xFFFFE000) = .ok hit) : exec .tlbsrch s = .next (s.tlbSearchDone hit).advance := by
  change execTlbsrch s = _
  rw [execTlbsrch, privileged_zero hplv, h]
  rfl

/-- TLBIDX after a hit: Index is the entry's, NE is 0, the bits between stay. -/
theorem tlbidx_of_hit (w : Word) {n j : Nat} (hn : n ≤ 16) (hj : j < 2 ^ n) :
    let v := setBits w (0x80000000 ||| lowMask n) (BitVec.ofNat 32 j &&& lowMask n)
    v.toNat % 2 ^ n = j ∧ v.getLsbD 31 = false ∧ ∀ b, n ≤ b → b < 31 → v.getLsbD b = w.getLsbD b := by
  have hlow : (setBits w (0x80000000 ||| lowMask n) (BitVec.ofNat 32 j &&& lowMask n)) &&& lowMask n =
      BitVec.ofNat 32 j &&& lowMask n := by
    rw [setBits_and_of_masked (fun i hi => by rw [BitVec.getLsbD_or, hi, Bool.or_true]), BitVec.and_assoc, BitVec.and_self]
  have hbetween : ∀ b < 31, (0x80000000 : Word).getLsbD b = false := by decide
  refine ⟨?index, ?ne, fun b hb hb31 => ?rest⟩
  case index =>
    have h32 : 2 ^ n ≤ 2 ^ 32 := Nat.pow_le_pow_right (by decide) (by omega)
    rw [← toNat_and_lowMask _ (show n ≤ 32 by omega), hlow, toNat_and_lowMask _ (by omega), BitVec.toNat_ofNat,
      Nat.mod_eq_of_lt (show j < 2 ^ 32 by omega), Nat.mod_eq_of_lt hj]
  case ne =>
    rw [getLsbD_setBits, if_pos (by rw [BitVec.getLsbD_or]; rfl), BitVec.getLsbD_and, getLsbD_lowMask (by decide),
      decide_eq_false (by omega), Bool.and_false]
  case rest =>
    rw [getLsbD_setBits, if_neg]
    rw [BitVec.getLsbD_or, hbetween b hb31, getLsbD_lowMask (by omega), decide_eq_false (by omega)]
    decide

end

/-- Settles O48: the lookup of TLBEHI's page, whose cases the translation has too. -/
theorem tlbSearch : Obligations.TlbSearch := by
  intro s hplv hsizes
  have hgood := not_badSize hsizes
  dsimp only
  rw [← toNat_clearLow13]
  have hhits (e : TlbEntry) : e.Hits s (s.csr.tlbehi &&& 0xFFFFE000).toNat ↔ e.e = true ∧
      (e.g = true ∨ e.asid = s.csr.asid.extractLsb' 0 10) ∧ e.vppn.toNat * 2 ^ 13 / 2 ^ (e.ps.toNat + 1) =
        (s.csr.tlbehi &&& 0xFFFFE000).toNat / 2 ^ (e.ps.toNat + 1) := and_assoc
  simp only [← hhits]
  refine ⟨fun hmiss => ?miss, fun j e hj he honly hlt hbits => ?hit⟩
  case miss =>
    exact ⟨_, exec_tlbsrch hplv (tlbLookup_miss hgood hmiss), setBits_self _ _, rfl, rfl, fun _ => rfl, fun _ => rfl, rfl⟩
  case hit =>
    obtain ⟨hindex, hne, hrest⟩ := tlbidx_of_hit s.csr.tlbidx hbits hlt
    exact ⟨_, exec_tlbsrch hplv (tlbLookup_hit hgood hj he honly), hindex, hne, hrest, rfl, rfl, fun _ => rfl, fun _ => rfl, rfl⟩

/-! ## TLBRD (R541) -/

/-- TLBIDX with NE and PS replaced, field by field. -/
theorem tlbidxWith_fields (w : Word) (ne : Bool) (ps : BitVec 6) : (tlbidxWith w ne ps).getLsbD 31 = ne ∧
    tlbidxWith w ne ps &&& 0x40FFFFFF = w &&& 0x40FFFFFF ∧ (tlbidxWith w ne ps).extractLsb' 24 6 = ps := by
  refine ⟨?ne, setBits_and_not w 0xBF000000 _, (extract_setBits_of_masked (by decide) _ _).trans ?ps⟩
  case ne =>
    rw [tlbidxWith, getLsbD_setBits, if_pos (by decide)]
    unfold wordOfBool
    cases ne <;> simp
  case ps =>
    unfold wordOfBool
    apply BitVec.eq_of_getLsbD_eq
    intro i hi
    interval_cases i <;> cases ne <;> simp

theorem toNat_vppn (vppn : BitVec 19) : (vppn ++ 0#13 : Word).toNat = vppn.toNat * 2 ^ 13 := by
  rw [BitVec.toNat_append, Nat.shiftLeft_eq]
  exact Nat.or_zero _

/-- The fields of TLBELO0 or TLBELO1 for a page, of whatever width its PPN is. -/
def tlbeloFields (g : Bool) (p : TlbPage) : Word :=
  wordOfBool p.v ||| wordOfBool p.d <<< 1 ||| p.plv.setWidth 32 <<< 2 ||| p.mat.setWidth 32 <<< 4 |||
    wordOfBool g <<< 6 ||| p.ppn.setWidth 32 <<< 8

/-- The bits TLBELO0 and TLBELO1 hold, with `n` bits of PPN (R73). -/
def tlbeloMask (n : Nat) : Word := (0x0000007F : Word) ||| lowMask n <<< 8

theorem tlbeloOfPage_eq (cfg : Config) (g : Bool) (p : TlbPage) :
    tlbeloOfPage cfg g p = tlbeloFields g p &&& tlbeloMask (cfg.palen - 12) := rfl

section
variable (g : Bool) (p : TlbPage)

theorem tlbeloFields_flags : (tlbeloFields g p).getLsbD 0 = p.v ∧ (tlbeloFields g p).getLsbD 1 = p.d ∧
    (tlbeloFields g p).getLsbD 6 = g ∧ (tlbeloFields g p).getLsbD 7 = false := by
  unfold tlbeloFields wordOfBool
  cases p.v <;> cases p.d <;> cases g <;> simp

theorem tlbeloFields_plv : (tlbeloFields g p).extractLsb' 2 2 = p.plv := by
  unfold tlbeloFields wordOfBool
  apply BitVec.eq_of_getLsbD_eq
  intro i hi
  interval_cases i <;> cases p.v <;> cases p.d <;> cases g <;> simp

theorem tlbeloFields_mat : (tlbeloFields g p).extractLsb' 4 2 = p.mat := by
  unfold tlbeloFields wordOfBool
  apply BitVec.eq_of_getLsbD_eq
  intro i hi
  interval_cases i <;> cases p.v <;> cases p.d <;> cases g <;> simp

theorem tlbeloFields_ppn {i : Nat} (hi : i < 24) : (tlbeloFields g p).getLsbD (8 + i) = p.ppn.getLsbD i := by
  have hbool (b : Bool) {k : Nat} (hk : 0 < k) : (wordOfBool b).getLsbD k = false := by
    cases b with
    | false => exact BitVec.getLsbD_zero
    | true => simp [wordOfBool, BitVec.getLsbD_one, hk.ne']
  have hfield (x : BitVec 2) {k : Nat} (hk : 2 ≤ k) : x.getLsbD k = false := BitVec.getLsbD_of_ge x k hk
  simp only [tlbeloFields, BitVec.getLsbD_or, BitVec.getLsbD_shiftLeft, BitVec.getLsbD_setWidth, hbool _ (show 0 < 8 + i by omega),
    hbool _ (show 0 < 8 + i - 1 by omega), hbool _ (show 0 < 8 + i - 6 by omega), hfield _ (show 2 ≤ 8 + i - 2 by omega),
    hfield _ (show 2 ≤ 8 + i - 4 by omega), Nat.add_sub_cancel_left]
  simp [show 8 + i < 32 by omega, show i < 32 by omega]

end

theorem getLsbD_tlbeloMask (n : Nat) : (∀ i < 7, (tlbeloMask n).getLsbD i = true) ∧ (tlbeloMask n).getLsbD 7 = false ∧
    ∀ i < 24, (tlbeloMask n).getLsbD (8 + i) = decide (i < n) := by
  unfold tlbeloMask
  have hlow : ∀ i < 7, (0x0000007F : Word).getLsbD i = true := by decide
  have hhigh : ∀ i < 24, (0x0000007F : Word).getLsbD (8 + i) = false := by decide
  refine ⟨fun i hi => ?_, ?_, fun i hi => ?_⟩
  · rw [BitVec.getLsbD_or, hlow i hi, Bool.true_or]
  · simp
  · rw [BitVec.getLsbD_or, hhigh i hi, Bool.false_or, BitVec.getLsbD_shiftLeft]
    simp [getLsbD_lowMask (show i < 32 by omega), show 8 + i < 32 by omega]

theorem extract_tlbelo_ppn (cfg : Config) (g : Bool) {p : TlbPage} (hfits : p.fits cfg) :
    (tlbeloOfPage cfg g p).extractLsb' 8 24 = p.ppn := by
  obtain ⟨-, -, hmask⟩ := getLsbD_tlbeloMask (cfg.palen - 12)
  apply BitVec.eq_of_getLsbD_eq
  intro i hi
  rw [BitVec.getLsbD_extractLsb', decide_eq_true hi, Bool.true_and, tlbeloOfPage_eq, BitVec.getLsbD_and, tlbeloFields_ppn g p hi,
    hmask i hi]
  by_cases hw : i < cfg.palen - 12
  · rw [decide_eq_true hw, Bool.and_true]
  · have hbig : p.ppn.toNat < 2 ^ i := Nat.lt_of_lt_of_le hfits (Nat.pow_le_pow_right (by decide) (Nat.le_of_not_lt hw))
    rw [show p.ppn.getLsbD i = false from Nat.testBit_lt_two_pow hbig, Bool.false_and]

/-- TLBELO0 or TLBELO1 as TLBRD leaves it, field by field. -/
theorem tlbeloOfPage_fields (cfg : Config) (g : Bool) {p : TlbPage} (hfits : p.fits cfg) : let w := tlbeloOfPage cfg g p
    w.getLsbD 0 = p.v ∧ w.getLsbD 1 = p.d ∧ w.extractLsb' 2 2 = p.plv ∧ w.extractLsb' 4 2 = p.mat ∧
      w.getLsbD 6 = g ∧ w.getLsbD 7 = false ∧ w.toNat / 2 ^ 8 = p.ppn.toNat := by
  obtain ⟨hlow, hreserved, -⟩ := getLsbD_tlbeloMask (cfg.palen - 12)
  obtain ⟨hv, hd, hg, -⟩ := tlbeloFields_flags g p
  have hflag {i : Nat} (hi : i < 7) : (tlbeloOfPage cfg g p).getLsbD i = (tlbeloFields g p).getLsbD i := by
    rw [tlbeloOfPage_eq, BitVec.getLsbD_and, hlow i hi, Bool.and_true]
  refine ⟨(hflag (by decide)).trans hv, (hflag (by decide)).trans hd, ?plv, ?mat, (hflag (by decide)).trans hg, ?reserved, ?ppn⟩
  case plv => exact (extract_and_of_masked (fun i hi => hlow (2 + i) (by omega)) _).trans (tlbeloFields_plv g p)
  case mat => exact (extract_and_of_masked (fun i hi => hlow (4 + i) (by omega)) _).trans (tlbeloFields_mat g p)
  case reserved => exact getLsbD_and_clear (tlbeloFields g p) hreserved
  case ppn =>
    have hlt := (tlbeloOfPage cfg g p).isLt
    rw [← extract_tlbelo_ppn cfg g hfits, BitVec.extractLsb'_toNat, Nat.shiftRight_eq_div_pow, Nat.mod_eq_of_lt (by omega)]

section
variable {s : State} {e : TlbEntry}

/-- A valid entry fills the TLB registers. -/
theorem tlbReadInto_of_valid (h : e.e = true) : let c := (s.tlbReadInto e).csr
    c.tlbidx = tlbidxWith s.csr.tlbidx false e.ps ∧ c.tlbehi = e.vppn ++ 0#13 ∧ c.tlbelo0 = tlbeloOfPage s.cfg e.g e.page0 ∧
      c.tlbelo1 = tlbeloOfPage s.cfg e.g e.page1 ∧ c.asid = e.asid.setWidth 32 := by
  rw [State.tlbReadInto, if_pos h]
  exact ⟨rfl, rfl, rfl, rfl, rfl⟩

theorem tlbReadInto_of_not_valid (h : e.e = false) : let c := (s.tlbReadInto e).csr
    c.tlbidx = tlbidxWith s.csr.tlbidx true 0 ∧ c.tlbehi = 0 ∧ c.tlbelo0 = 0 ∧ c.tlbelo1 = 0 ∧ c.asid = 0 := by
  rw [State.tlbReadInto, h]
  exact ⟨rfl, rfl, rfl, rfl, rfl⟩

theorem tlbReadInto_eq (s : State) (e : TlbEntry) : let t := s.tlbReadInto e
    t.csr = { s.csr with tlbidx := t.csr.tlbidx, tlbehi := t.csr.tlbehi, tlbelo0 := t.csr.tlbelo0, tlbelo1 := t.csr.tlbelo1,
                         asid := t.csr.asid } ∧
      t = { s with csr := t.csr } := by
  unfold State.tlbReadInto
  split <;> exact ⟨rfl, rfl⟩

theorem exec_tlbrd (hplv : s.plv = 0) (h : s.tlb[s.tlbIndex]? = some e) : exec .tlbrd s = .next (s.tlbReadInto e).advance := by
  change execTlbrd s = _
  rw [execTlbrd, privileged_zero hplv, h]
  rfl

theorem exec_tlbrd_beyond (hplv : s.plv = 0) (h : s.tlb.length ≤ s.tlbIndex) : exec .tlbrd s = .fault .tlbIndexOutOfRange := by
  change execTlbrd s = _
  rw [execTlbrd, privileged_zero hplv, List.getElem?_eq_none h]

end

/-- Settles O49: a valid entry field by field, another one by zeros. -/
theorem tlbRead : Obligations.TlbRead := by
  intro s hplv
  dsimp only
  rw [← State.tlbIndex_eq]
  refine ⟨exec_tlbrd_beyond hplv, fun e he hfits0 hfits1 => ?_⟩
  obtain ⟨hcsr, hframe⟩ := tlbReadInto_eq s e
  have hpc : (s.tlbReadInto e).advance.pc = s.pc + 4 := by simp
  have hend : (s.tlbReadInto e).advance = { s with csr := (s.tlbReadInto e).csr, pc := (s.tlbReadInto e).advance.pc } := by
    rw [hpc]
    exact congrArg State.advance hframe
  suffices hfields : (s.tlbReadInto e).csr.tlbidx.getLsbD 31 = !e.e ∧ _ ∧ _ from
    ⟨_, exec_tlbrd hplv he, hfields.1, hfields.2.1, hfields.2.2, hcsr, hpc, fun a => by simp [State.byteAt],
      State.readGpr_congr (by simp), hend⟩
  cases hvalid : e.e with
  | true =>
    obtain ⟨hidx, hehi, helo0, helo1, hasid⟩ := tlbReadInto_of_valid (s := s) hvalid
    obtain ⟨hne, hkept, hps⟩ := tlbidxWith_fields s.csr.tlbidx false e.ps
    simp only [State.advance_csr, hidx, hehi, helo0, helo1, hasid]
    refine ⟨hne, hkept, toNat_vppn _, hps, BitVec.toNat_setWidth_of_le (by decide), ?_⟩
    simp only [List.forall_mem_cons]
    exact ⟨tlbeloOfPage_fields s.cfg e.g hfits0, tlbeloOfPage_fields s.cfg e.g hfits1, nofun⟩
  | false =>
    obtain ⟨hidx, hehi, helo0, helo1, hasid⟩ := tlbReadInto_of_not_valid (s := s) hvalid
    obtain ⟨hne, hkept, hps⟩ := tlbidxWith_fields s.csr.tlbidx true 0
    simp only [State.advance_csr, hidx, hehi, helo0, helo1, hasid]
    exact ⟨hne, hkept, trivial, trivial, trivial, hps, trivial⟩

/-! ## TLBWR and TLBFILL (R542, R543, R545) -/

/-- The PPN of a page as TLBELO0 or TLBELO1 gives it. -/
theorem toNat_pageOfTlbelo_ppn {cfg : Config} (h : cfg.palen ≤ 36) (lo : Word) :
    (pageOfTlbelo cfg lo).ppn.toNat = lo.toNat / 2 ^ 8 % 2 ^ (cfg.palen - 12) := by
  have hlt : lo.toNat / 2 ^ 8 % 2 ^ (cfg.palen - 12) < 2 ^ 24 :=
    Nat.lt_of_lt_of_le (Nat.mod_lt _ (Nat.two_pow_pos _)) (Nat.pow_le_pow_right (by decide) (by omega))
  change (((lo >>> 8) &&& lowMask (cfg.palen - 12)).extractLsb' 0 24).toNat = _
  rw [BitVec.extractLsb'_toNat, Nat.shiftRight_zero, toNat_and_lowMask _ (by omega), BitVec.toNat_ushiftRight,
    Nat.shiftRight_eq_div_pow, Nat.mod_eq_of_lt hlt]

section
variable {s : State}

theorem tlbEntryFromCsrs_e : s.tlbEntryFromCsrs.e =
    (if s.csr.estat.extractLsb' 16 6 = 0x3F#6 then true else !s.csr.tlbidx.getLsbD 31) := by
  change (s.csr.estat.extractLsb' 16 6 == 0x3F#6 || !s.csr.tlbidx.getLsbD 31) = _
  split
  · next h => rw [h]; rfl
  · next h => rw [beq_false_of_ne h, Bool.false_or]

theorem exec_tlbwr (hplv : s.plv = 0) (h : s.tlbIndex < s.tlb.length) :
    exec .tlbwr s = .next (s.tlbSet s.tlbIndex s.tlbEntryFromCsrs).advance := (privileged_zero hplv).trans (if_pos h)

theorem exec_tlbwr_beyond (hplv : s.plv = 0) (h : s.tlb.length ≤ s.tlbIndex) : exec .tlbwr s = .fault .tlbIndexOutOfRange :=
  (privileged_zero hplv).trans (if_neg (Nat.not_lt.2 h))

end

/-- Settles O50: both write the entry made of the TLB registers, at Index and at a free index. -/
theorem tlbWrite : Obligations.TlbWrite := by
  intro s hplv
  dsimp only
  rw [← State.tlbIndex_eq]
  have hpage (lo : Word) : let p := pageOfTlbelo s.cfg lo
      p.v = lo.getLsbD 0 ∧ p.d = lo.getLsbD 1 ∧ p.plv = lo.extractLsb' 2 2 ∧ p.mat = lo.extractLsb' 4 2 ∧
        (s.cfg.palen ≤ 36 → p.ppn.toNat = lo.toNat / 2 ^ 8 % 2 ^ (s.cfg.palen - 12)) :=
    ⟨rfl, rfl, rfl, rfl, fun h => toNat_pageOfTlbelo_ppn h lo⟩
  refine ⟨s.tlbEntryFromCsrs, tlbEntryFromCsrs_e, rfl, rfl, rfl, rfl, ?pages, fun hin => ?tlbwr, exec_tlbwr_beyond hplv,
    fun hne => ?tlbfill⟩
  case pages =>
    simp only [List.forall_mem_cons]
    exact ⟨hpage _, hpage _, nofun⟩
  case tlbwr => exact ⟨_, exec_tlbwr hplv hin, rfl, rfl, fun _ => rfl, fun _ => rfl, rfl⟩
  case tlbfill =>
    exact ⟨_, s.tlbFillIndex, privileged_zero hplv, Nat.mod_lt _ (List.length_pos_iff.2 hne), rfl, rfl, fun _ => rfl, fun _ => rfl, rfl⟩

/-! ## INVTLB (R544) -/

section
variable {s : State} {op : BitVec 5} {rj rk : RegNum}

theorem exec_invtlb (hplv : s.plv = 0) (hop : op.toNat ≤ 6) (hsizes : ∀ e ∈ s.tlb, e.e = true → e.ps = 12 ∨ e.ps = 21) :
    exec (.invtlb op rj rk) s =
      .next { s with tlb := invtlbApply op ((s.readGpr rj).extractLsb' 0 10) (s.readGpr rk) s.tlb }.advance := by
  have hgood : ¬ (s.tlb.any fun e => invtlbCompares op ((s.readGpr rj).extractLsb' 0 10) e && !e.psSupported) = true := by
    intro hany
    obtain ⟨e, he, hbad⟩ := List.any_eq_true.1 hany
    obtain ⟨hcompares, hsize⟩ := Bool.and_eq_true_iff.1 hbad
    have hvalid : e.e = true := (Bool.and_eq_true_iff.1 hcompares).1
    rw [TlbEntry.psSupported_iff.2 (hsizes e he hvalid)] at hsize
    cases hsize
  change execInvtlb op rj rk s = _
  rw [execInvtlb, if_neg (Nat.not_lt.2 hop), privileged_zero hplv]
  exact if_neg hgood

theorem getElem?_invtlbApply {asid : BitVec 10} {va : Word} {tlb : List TlbEntry} {j : Nat} {e : TlbEntry} (h : tlb[j]? = some e) :
    (invtlbApply op asid va tlb)[j]? = some (if invtlbClears op asid va e then { e with e := false } else e) := by
  rw [invtlbApply, List.getElem?_map, h]
  rfl

end

/-- Settles O51: which entries are cleared, op by op. -/
theorem tlbInvalidate : Obligations.TlbInvalidate := by
  intro s op rj rk hplv hop hsizes asid vaMatch clears
  have hmatch (e : TlbEntry) : e.vaMatch (s.readGpr rk) = true ↔ vaMatch e := TlbEntry.vaMatch_iff
  have hclears (e : TlbEntry) : invtlbClears op asid (s.readGpr rk) e = true ↔ clears e := by
    unfold invtlbClears clears
    generalize op.toNat = n at hop
    interval_cases n <;> simp [hmatch, and_assoc]
  refine ⟨_, exec_invtlb hplv hop hsizes, List.length_map .., fun j e he => ⟨fun h => ?cleared, fun h => ?kept⟩, rfl, fun _ => rfl,
    fun _ => rfl, rfl⟩
  case cleared => exact (getElem?_invtlbApply he).trans (congrArg some (if_pos ((hclears e).2 h)))
  case kept => exact (getElem?_invtlbApply he).trans (congrArg some (if_neg (mt (hclears e).1 h)))

/-! ## Writing an entry and reading it back (R541, R542, R545) -/

theorem getLsbD_of_extract_eq {a n i : Nat} {v w : Word} (h : v.extractLsb' a n = w.extractLsb' a n) (hi : i < n) :
    v.getLsbD (a + i) = w.getLsbD (a + i) := by
  have hbit := congrArg (·.getLsbD i) h
  simpa only [BitVec.getLsbD_extractLsb', hi, decide_true, Bool.true_and] using hbit

theorem tlbidxWith_self {w : Word} (h : w.getLsbD 31 = false) : tlbidxWith w false (w.extractLsb' 24 6) = w := by
  obtain ⟨hne, hkept, hps⟩ := tlbidxWith_fields w false (w.extractLsb' 24 6)
  generalize tlbidxWith w false (w.extractLsb' 24 6) = v at hne hkept hps
  have hmask : ∀ i < 32, (0x40FFFFFF : Word).getLsbD i = true ∨ i = 31 ∨ ∃ j < 6, i = 24 + j := by decide
  apply BitVec.eq_of_getLsbD_eq
  intro i hi
  rcases hmask i hi with hm | rfl | ⟨j, hj, rfl⟩
  · have hbit := congrArg (·.getLsbD i) hkept
    simpa only [BitVec.getLsbD_and, hm, Bool.and_true] using hbit
  · rw [hne, h]
  · exact getLsbD_of_extract_eq hps hj

theorem vppn_append_self {w : Word} (h : w &&& ~~~0xFFFFE000 = 0) : (w.extractLsb' 13 19 ++ 0#13 : Word) = w := by
  have hmask : ∀ i < 13, (0xFFFFE000 : Word).getLsbD i = false := by decide
  apply BitVec.eq_of_getLsbD_eq
  intro i hi
  rw [BitVec.getLsbD_append]
  split
  · next hlow => rw [getLsbD_of_held h (hmask i hlow), BitVec.getLsbD_zero]
  · next hhigh => rw [BitVec.getLsbD_extractLsb', decide_eq_true (by omega), Bool.true_and, Nat.add_sub_cancel' (by omega)]

theorem asid_setWidth_self {w : Word} (h : w &&& ~~~0x000003FF = 0) : (w.extractLsb' 0 10).setWidth 32 = w := by
  have hmask : ∀ i < 32, i < 10 ∨ (0x000003FF : Word).getLsbD i = false := by decide
  apply BitVec.eq_of_getLsbD_eq
  intro i hi
  rw [BitVec.getLsbD_setWidth, BitVec.getLsbD_extractLsb', decide_eq_true hi, Bool.true_and, Nat.zero_add]
  rcases hmask i hi with hlow | hm
  · rw [decide_eq_true hlow, Bool.true_and]
  · rw [getLsbD_of_held h hm, Bool.and_false]

theorem getLsbD_pageOfTlbelo_ppn {cfg : Config} {lo : Word} {i : Nat} (hi : i < 24) :
    (pageOfTlbelo cfg lo).ppn.getLsbD i = (lo.getLsbD (8 + i) && decide (i < cfg.palen - 12)) := by
  change (((lo >>> 8) &&& lowMask (cfg.palen - 12)).extractLsb' 0 24).getLsbD i = _
  rw [BitVec.getLsbD_extractLsb', decide_eq_true hi, Bool.true_and, Nat.zero_add, BitVec.getLsbD_and, BitVec.getLsbD_ushiftRight,
    getLsbD_lowMask (by omega)]

/-- A TLBELO register written to a page and read back: as it was, but for G, which is the entry's. -/
theorem tlbeloOfPage_pageOfTlbelo {cfg : Config} {lo : Word} (h : lo &&& ~~~tlbeloMask (cfg.palen - 12) = 0) (g : Bool) :
    let v := tlbeloOfPage cfg g (pageOfTlbelo cfg lo)
    v.getLsbD 6 = g ∧ ∀ b, b ≠ 6 → v.getLsbD b = lo.getLsbD b := by
  obtain ⟨-, hreserved, hwidth⟩ := getLsbD_tlbeloMask (cfg.palen - 12)
  obtain ⟨hv, hd, hplv, hmat, hg, hclear, -⟩ := tlbeloOfPage_fields cfg g (pageOfTlbelo_fits cfg lo)
  have hppn := extract_tlbelo_ppn cfg g (pageOfTlbelo_fits cfg lo)
  dsimp only
  generalize tlbeloOfPage cfg g (pageOfTlbelo cfg lo) = v at *
  refine ⟨hg, fun b hb => ?_⟩
  rcases Nat.lt_or_ge b 8 with hlt | hge
  · interval_cases b
    · exact hv
    · exact hd
    · exact getLsbD_of_extract_eq (i := 0) hplv (by decide)
    · exact getLsbD_of_extract_eq (i := 1) hplv (by decide)
    · exact getLsbD_of_extract_eq (i := 0) hmat (by decide)
    · exact getLsbD_of_extract_eq (i := 1) hmat (by decide)
    · exact absurd rfl hb
    · rw [hclear, getLsbD_of_held h hreserved]
  · obtain ⟨i, rfl⟩ := Nat.exists_eq_add_of_le hge
    by_cases hi : i < 24
    · have hbit : v.getLsbD (8 + i) = (pageOfTlbelo cfg lo).ppn.getLsbD i := by
        rw [← hppn, BitVec.getLsbD_extractLsb', decide_eq_true hi, Bool.true_and]
      rw [hbit, getLsbD_pageOfTlbelo_ppn hi]
      by_cases hw : i < cfg.palen - 12
      · rw [decide_eq_true hw, Bool.and_true]
      · rw [decide_eq_false hw, Bool.and_false, getLsbD_of_held h ((hwidth i hi).trans (decide_eq_false hw))]
    · rw [BitVec.getLsbD_of_ge v _ (by omega), BitVec.getLsbD_of_ge lo _ (by omega)]

theorem exec_tlbwr_next {s t : State} (hplv : s.plv = 0) (h : exec .tlbwr s = .next t) :
    s.tlbIndex < s.tlb.length ∧ t = (s.tlbSet s.tlbIndex s.tlbEntryFromCsrs).advance := by
  rcases Nat.lt_or_ge s.tlbIndex s.tlb.length with hin | hbeyond
  · rw [exec_tlbwr hplv hin] at h
    exact ⟨hin, (Host.Outcome.next.inj h).symm⟩
  · rw [exec_tlbwr_beyond hplv hbeyond] at h
    cases h

/-- Settles O52: the entry TLBWR makes of the registers is valid, so TLBRD fills them from it, each as it was written. -/
theorem tlbWriteThenRead : Obligations.TlbWriteThenRead := by
  intro s t u hs _ hplv hne ht hu
  obtain ⟨hin, rfl⟩ := exec_tlbwr_next hplv ht
  have hentry : (s.tlbSet s.tlbIndex s.tlbEntryFromCsrs).advance.tlb[s.tlbIndex]? = some s.tlbEntryFromCsrs :=
    List.getElem?_set_self hin
  have hvalid : s.tlbEntryFromCsrs.e = true := by
    rw [tlbEntryFromCsrs_e, hne]
    exact ite_self true
  rw [exec_tlbrd (s := (s.tlbSet s.tlbIndex s.tlbEntryFromCsrs).advance) hplv hentry] at hu
  obtain rfl := Host.Outcome.next.inj hu
  obtain ⟨hidx, hehi, helo0, helo1, hasid⟩ :=
    tlbReadInto_of_valid (s := (s.tlbSet s.tlbIndex s.tlbEntryFromCsrs).advance) hvalid
  rw [State.advance_csr, hidx, hehi, helo0, helo1, hasid]
  obtain ⟨hg0, helo0⟩ := tlbeloOfPage_pageOfTlbelo (hs.csr .tlbelo0) s.tlbEntryFromCsrs.g
  obtain ⟨hg1, helo1⟩ := tlbeloOfPage_pageOfTlbelo (hs.csr .tlbelo1) s.tlbEntryFromCsrs.g
  exact ⟨tlbidxWith_self hne, vppn_append_self (hs.csr .tlbehi), asid_setWidth_self (hs.csr .asid),
    fun b hb => ⟨helo0 b hb, helo1 b hb⟩, hg0, hg1⟩

end Sys2Proof.Machine
